-- ==== Sys2Proof/Word.lean ====
section
/-! DEFINITION. The word types of the part: the bytes of its three serial links and the 16-bit words of
its check values. Every other quantity is an integer in the unit its rule states (00, 0.5), so a Nat. -/

namespace Sys2Proof

/-- A character of a serial link (12-1, 2-2: 8 data bits). -/
abbrev Byte := BitVec 8

/-- A check value: CRC-16 (R16, Table 2-2, Table 12-1). -/
abbrev Word16 := BitVec 16

end Sys2Proof
end

