-- ==== Sys2Proof/Config.lean ====
section
/-! DEFINITION. What one part fixes and the spec does not: the silicon revision. -/

namespace Sys2Proof

/-- The silicon revision IDENT reports (R184). The spec gives it no value: a FREE VALUE (log 12). -/
opaque Config.siliconRevision : Byte

end Sys2Proof
end

