-- ==== Sys2Proof/Syntax.lean ====
section
/-! DEFINITION. The commands of the part: one constructor for each row of spec/opcode_table.json, in the
table's order. -/

namespace Sys2Proof

/-- A frame as the card link receives it (Table 2-2): the fields R21 checks. The start byte and the length
field are those of the payload given. -/
structure CardFrame where
  addr : BitVec 6
  seq : Bool
  toController : Bool
  kind : Byte
  payload : List Byte
  crc : Word16
  deriving DecidableEq, Repr

/-- The commands. A host request carries the TAG and the payload bytes of its frame (Table 12-1): it stands
for the arrival of that frame with a correct CRC (log 3). -/
inductive Instr where
  | hardwareReset
  | storageUpset (net : Nat) (flip : Word16)
  | hostFrameReceived (bytes : List Byte)
  | lenTooLarge (len : Word16)
  | frameByteTimeout (bytes : List Byte)
  | unknownKind (kind : Byte) (tag : Byte) (payload : List Byte)
  | replySent
  | noticeSent
  | ident (tag : Byte) (payload : List Byte)
  | setLink (tag : Byte) (payload : List Byte)
  | restart (tag : Byte) (payload : List Byte)
  | readStatus (tag : Byte) (payload : List Byte)
  | setEvents (tag : Byte) (payload : List Byte)
  | clearEvents (tag : Byte) (payload : List Byte)
  | mapPoints (tag : Byte) (payload : List Byte)
  | readMap (tag : Byte) (payload : List Byte)
  | setLeads (tag : Byte) (payload : List Byte)
  | readLeads (tag : Byte) (payload : List Byte)
  | loadNet (tag : Byte) (payload : List Byte)
  | clearNets (tag : Byte) (payload : List Byte)
  | readNet (tag : Byte) (payload : List Byte)
  | setCardLink (tag : Byte) (payload : List Byte)
  | setRoster (tag : Byte) (payload : List Byte)
  | enumerate (tag : Byte) (payload : List Byte)
  | readRoster (tag : Byte) (payload : List Byte)
  | manualSwitch (tag : Byte) (payload : List Byte)
  | readRelays (tag : Byte) (payload : List Byte)
  | unblock (tag : Byte) (payload : List Byte)
  | setLimits (tag : Byte) (payload : List Byte)
  | measure (tag : Byte) (payload : List Byte)
  | setHv (tag : Byte) (payload : List Byte)
  | clearHvFault (tag : Byte) (payload : List Byte)
  | submitJob (tag : Byte) (payload : List Byte)
  | abortJob (tag : Byte) (payload : List Byte)
  | holdQueue (tag : Byte) (payload : List Byte)
  | releaseQueue (tag : Byte) (payload : List Byte)
  | readQueue (tag : Byte) (payload : List Byte)
  | resume (tag : Byte) (payload : List Byte)
  | setReporting (tag : Byte) (payload : List Byte)
  | fetchRecords (tag : Byte) (payload : List Byte)
  | printerConfig (tag : Byte) (payload : List Byte)
  | printHold (tag : Byte) (payload : List Byte)
  | printRelease (tag : Byte) (payload : List Byte)
  | printFlush (tag : Byte) (payload : List Byte)
  | startupEnumeration
  | linkBreakEnd
  | identReceived (f : CardFrame)
  | cardFrameDiscarded (f : CardFrame)
  | setAck (f : CardFrame)
  | allOpenSent
  | cardReplyTimeout
  | attnQueryPoll
  | attnReplyReceived (f : CardFrame)
  | attnClearAck (f : CardFrame)
  | statusReplyReceived (f : CardFrame)
  | cattnInactive
  | heldPlanSending
  | settleExpiry
  | lmuSourceOn
  | stabiliseEnd
  | contConversion (code : Word16)
  | isoConversion (v : Nat) (i : Nat)
  | headJobStart
  | stepRequestExamined
  | rampTick
  | hvSample (v : Nat) (i : Nat)
  | dwellExpiry
  | safeHoldExpiry
  | dischargeLimit
  | coverInputChange (closed : Bool)
  | coverDebounced
  | notifyTimerExpiry
  | printerCharSent (pready : Bool) (ppaper : Bool)
  | preadyAsserted
  | printerTimeout
  | paperPresent
  deriving DecidableEq, Repr

end Sys2Proof
end

