-- ==== Sys2Proof/Machine/State.lean ====
section
/-! DEFINITION. The state of the part, block by block (00, Table 0-1), as plain data, and its value right
after a hardware reset. -/

namespace Sys2Proof.Machine

open Sys2Proof

/-! ### Outcomes -/

/-- The part has no fault that stops it: HV_FAULT, DRIVER_FAULT, TABLE_FAULT and the link errors are states,
records and events after which it goes on. Nothing raises a fault (safe). -/
inductive Fault where
  deriving DecidableEq, Repr

/-- Why a command has no meaning. -/
inductive Refusal where
  /-- Raised by exec alone, for a row without a meaning; no arm raises it (safe). -/
  | notModelled (mnemonic : String)
  deriving DecidableEq, Repr

/-! ### Wire-list store (01) -/

/-- A physical channel (position, channel); position 0 is the reference network (R1, R3). -/
structure Chan where
  pos : Nat
  ch : Nat
  deriving DecidableEq, Repr

/-- The contents of a net record (Table 1-1): what its check value is taken over (R16). -/
structure NetBody where
  num : Nat
  members : List Nat
  hv : Bool
  override : Option Nat
  label : List Byte
  deriving DecidableEq, Repr

/-- A stored net: its contents, its check value and its corruption mark (R10, R16, R17). -/
structure NetRec where
  body : NetBody
  check : Word16
  corrupt : Bool
  deriving DecidableEq, Repr

/-- The three tables and the owner index. `map`, `leads` and `owner` list harness points in ascending order;
an unlisted point is UNMAPPED, 0 mΩ, in no net. `nets` is in ascending net number (R3, R7, R10, R11). -/
structure Store where
  map : List (Nat × Chan)
  leads : List (Nat × Nat)
  nets : List NetRec
  owner : List (Nat × Nat)
  deriving DecidableEq, Repr

/-! ### Cards, rails and plans (02, 03) -/

/-- A recorded or expected card kind (Table 2-1, R29, R33); `none` is "no kind". -/
inductive CardKind where
  | none | lv128 | hv64 | other
  deriving DecidableEq, Repr

/-- The states of a roster position (2.6). -/
inductive PosState where
  | absent | present | lost | faulted | mismatch
  deriving DecidableEq, Repr

/-- One roster position (R34). -/
structure RosterEntry where
  state : PosState
  kind : CardKind
  serial : Nat
  revision : Nat
  expected : CardKind
  deriving DecidableEq, Repr

/-- The rails a target can name (0.6). UNKNOWN is no rail: the image shows it as the absence of one. -/
inductive Rail where
  | opn | source | ret | hv | collect
  deriving DecidableEq, Repr

/-- The frames the card link sends (R20). -/
inductive Sent where
  | assign (addr : Nat)
  | set (pos : Nat) (items : List (Nat × Rail))
  | allOpen
  | attnQuery
  | attnClear (pos : Nat)
  | status (pos : Nat)
  deriving DecidableEq, Repr

/-- The exchange in progress: the frame, its sequence bit and whether it has been resent (R20, R23, R25). -/
structure Exchange where
  sent : Sent
  seq : Bool
  resent : Bool
  deriving DecidableEq, Repr

/-- Where an enumeration stands (R28, R29). -/
inductive EnumPhase where
  | idle | waitLink | linkBreak | assigning
  deriving DecidableEq, Repr

/-- A discovered card: the kind its IDENT gave, its serial and revision (R29). -/
structure Discovered where
  kind : CardKind
  serial : Nat
  revision : Nat
  deriving DecidableEq, Repr

/-- The card link (Table 2-6). -/
structure Link where
  replyTimeout : Nat
  lvSettle : Nat
  hvSettle : Nat
  seqBits : List Bool
  exchange : Option Exchange
  replyTimer : Option Nat
  pollBlocked : Bool
  enumPhase : EnumPhase
  enumHost : Bool
  startup : Bool
  discovered : List Discovered
  deriving DecidableEq, Repr

/-- Who offers a plan (3.2); `nobody` is a plan whose job has left the queue (R52). -/
inductive Issuer where
  | engine | jobEnd | manual | unblock | nobody
  deriving DecidableEq, Repr

/-- What a plan asks for: targets with the flag all others OPEN, the all-open plan (R49), or the channels
an UNBLOCK opens (R58). -/
inductive PlanBody where
  | targets (ts : List (Nat × Rail)) (others : Bool)
  | allOpen
  | opens (cs : List Chan)
  deriving DecidableEq, Repr

/-- A plan as it is offered. -/
structure Plan where
  body : PlanBody
  issuer : Issuer
  deriving DecidableEq, Repr

/-- A plan that has been taken: its targets translated through the point map (R5, R44). -/
structure Taken where
  plan : Plan
  changes : List (Chan × Rail)
  deriving DecidableEq, Repr

/-- The plan slot (Table 3-2). In SENDING, `pos` is the position whose turn it is. -/
inductive Slot where
  | empty
  | held (t : Taken)
  | sending (t : Taken) (pos : Nat) (touched : List Nat)
  | settling (t : Taken) (touched : List Nat) (ms : Nat)
  deriving DecidableEq, Repr

/-- The matrix controller. `roster` lists positions 1 to 32; `image` lists each channel whose rail is known
under its key, so an unlisted channel is UNKNOWN (R42). -/
structure Matrix where
  roster : List RosterEntry
  frozen : Bool
  image : List (Nat × Rail)
  blocked : List Chan
  slot : Slot
  waiting : List Plan
  deriving DecidableEq, Repr

/-! ### Low-voltage measurement (04) -/

/-- CONT ranges (Table 4-2). -/
inductive CRange where
  | r100 | r10 | r1
  deriving DecidableEq, Repr

inductive LmuMode where
  | cont | iso
  deriving DecidableEq, Repr

inductive LmuPhase where
  | idle | stabilise | sample
  deriving DecidableEq, Repr

/-- The limits set (Table 4-3). -/
structure Limits where
  pass : Nat
  opn : Nat
  iso : Nat
  n : Nat
  range : CRange
  settle : Nat
  deriving DecidableEq, Repr

/-- A measurement request (R59). -/
structure MeasReq where
  mode : LmuMode
  n : Nat
  range : CRange
  settle : Nat
  deriving DecidableEq, Repr

/-- Who asks for a measurement (R59). -/
inductive LmuIssuer where
  | engine | host
  deriving DecidableEq, Repr

/-- The LMU (R59). `waiting` is a request whose source is not yet allowed on (R60). -/
structure Lmu where
  phase : LmuPhase
  mode : LmuMode
  range : CRange
  n : Nat
  settle : Nat
  count : Nat
  codeSum : Nat
  vSum : Nat
  iSum : Nat
  rangeSteps : Nat
  issuer : LmuIssuer
  timer : Option Nat
  waiting : Option (MeasReq × LmuIssuer)
  deriving DecidableEq, Repr

/-- The reference state (R71). -/
inductive RefState where
  | unverified | verified | failed
  deriving DecidableEq, Repr

/-! ### The HV unit (07) -/

inductive RailState where
  | safe | ramp | dwell | discharge | fault
  deriving DecidableEq, Repr

/-- Offset modes of a step (R112). -/
inductive OffsetMode where
  | apply | zero | measure
  deriving DecidableEq, Repr

/-- The HV set (Table 7-3). -/
structure HvSet where
  setV : Nat
  rate : Nat
  dwell : Nat
  trip : Nat
  arcTh : Nat
  arcLim : Nat
  minIr : Nat
  budget : Nat
  deriving DecidableEq, Repr

/-- The values of a step (R112). -/
structure StepValues where
  setV : Nat
  rate : Nat
  dwell : Nat
  trip : Nat
  arcTh : Nat
  arcLim : Nat
  minIr : Nat
  offsetMode : OffsetMode
  deriving DecidableEq, Repr

inductive BreakCause where
  | trip | collapse
  deriving DecidableEq, Repr

/-- Verdicts of a step (0.6, R115, R119, R120). -/
inductive Verdict where
  | pass | irLow | arc | breakdown (c : BreakCause) | interrupted
  deriving DecidableEq, Repr

/-- The held result of a step: its verdict and values (R115, R119, R120). -/
structure HeldResult where
  verdict : Verdict
  v : Nat
  i : Nat
  offset : Nat
  ir : Nat
  arcs : Nat
  deriving DecidableEq, Repr

/-- The cause of a discharge (R124). -/
inductive DisCause where
  | verdict | breakdown | interrupted | stop | reset
  deriving DecidableEq, Repr

/-- The HV unit (Table 7-1). A timer is none while stopped and holds its period in ms while it runs.
`request` is a step request waiting under R113. -/
structure Hv where
  rail : RailState
  target : Nat
  presentV : Nat
  presentI : Nat
  history : List (Nat × Nat)
  prevI : Option Nat
  arcs : Nat
  values : Option StepValues
  request : Option StepValues
  held : Option HeldResult
  dwellTimer : Option Nat
  tickTimer : Option Nat
  holdTimer : Option Nat
  limitTimer : Option Nat
  cause : DisCause
  offset : Nat
  coverClosed : Bool
  debounce : Option Nat
  hvSet : HvSet
  deriving DecidableEq, Repr

/-! ### Jobs (09) -/

inductive CheckPhases where
  | cont | iso | both
  deriving DecidableEq, Repr

/-- A job's kind with its options as submitted (Table 9-1). -/
inductive JobSpec where
  | check (first last : Nat) (phases : CheckPhases)
  | insulate (first last : Nat) (locate auto : Bool)
  | learn (hv : Bool)
  | learnLeads (common : Nat)
  | refcheck
  deriving DecidableEq, Repr

inductive JobState where
  | queued | running | logWait | suspended | ending
  deriving DecidableEq, Repr

/-- End reasons (R193). -/
inductive EndReason where
  | complete | abortedHost | abortedCard | abortedTable | abortedHvFault
  | unmappedPoint | unreachableCard | blockedPoint | notHvCapable
  | tableCorrupt | emptyTable | refFailed | badRange | fixtureLeak | tableFull | netTooLarge
  deriving DecidableEq, Repr

/-- Causes of the CARD event and of an abort by a card (R38, Table 12-5). -/
inductive CardCause where
  | lost | driverFault | stuck | overtemp
  deriving DecidableEq, Repr

/-- Why a plan is refused (R44). -/
inductive PlanCause where
  | unmappedPoint | unreachableCard | blockedPoint | notHvCapable
  deriving DecidableEq, Repr

/-- The detail of an end reason (R148, R149). -/
inductive EndDetail where
  | nothing
  | net (n : Nat)
  | point (p : Nat)
  | position (p : Nat)
  | current (nA : Nat)
  | card (c : CardCause) (pos : Nat)
  | plan (c : PlanCause) (pt : Nat)
  deriving DecidableEq, Repr

structure EndCause where
  reason : EndReason
  detail : EndDetail
  deriving DecidableEq, Repr

/-- The parameter snapshot (R147). -/
structure Snapshot where
  limits : Limits
  hv : HvSet
  deriving DecidableEq, Repr

/-- A job record (R144, R151). `extra` counts nets learned or leads written. -/
structure Job where
  tag : Nat
  spec : JobSpec
  state : JobState
  snapshot : Option Snapshot
  flagU : Bool
  ended : Option EndCause
  tests : Nat
  systems : Nat
  steps : Nat
  nets : Nat
  extra : Nat
  deriving DecidableEq, Repr

/-- The job queue (R144). `stallWait`: LOG_STALL has been raised for the present wait (R146). -/
structure Queue where
  jobs : List Job
  hold : Bool
  stallWait : Bool
  deriving DecidableEq, Repr

/-! ### The test log (10) -/

inductive RecKind where
  | jobStart | opn | high | detached | short | irLow | breakdown | arc | refFail
  | leadHigh | learnHigh | learnLeak
  | jobEnd | cardFault | cardWarn | cardLost | stuckRelay | rosterMismatch | interlock | hvFault | tableFault
  deriving DecidableEq, Repr

inductive VUnit where
  | mOhm | kOhm | dV | nA | count
  deriving DecidableEq, Repr

/-- A value with its unit; no amount is OVER (Table 10-2). -/
structure Value where
  unit : VUnit
  amount : Option Nat
  deriving DecidableEq, Repr

/-- Why a net was read (R17). -/
inductive ReadCause where
  | read | start | run
  deriving DecidableEq, Repr

/-- The cause field of a record (Table 10-2, Table 12-7). -/
inductive RecCause where
  | brk (c : BreakCause)
  | window
  | refBreakdown
  | frame (s : Nat)
  | roster (expected found : CardKind)
  | openAtStart
  | openedDuringStep
  | discharge (c : DisCause)
  | table (c : ReadCause)
  deriving DecidableEq, Repr

/-- The counts block of a JOB_END (R151, Table 12-6). -/
structure Counts where
  ended : EndCause
  nets : Nat
  steps : Nat
  tests : Nat
  systems : Nat
  extra : Nat
  deriving DecidableEq, Repr

/-- The flags of a test record (R155). -/
structure RecFlags where
  u : Bool := false
  c : Bool := false
  a : Bool := false
  n : Bool := false
  s : Bool := false
  deriving DecidableEq, Repr

/-- A record as its producer hands it to the log: kind, class, flags and the fields present (R155). For a
JOB_START and a JOB_END `job` is the job's kind with its options. -/
structure RecData where
  kind : RecKind
  system : Bool
  flags : RecFlags := {}
  tag : Option Nat := none
  job : Option JobSpec := none
  net : Option Nat := none
  pointA : Option Nat := none
  pointB : Option Nat := none
  otherNet : Option Nat := none
  value : Option Value := none
  second : Option Value := none
  range : Option CRange := none
  arcs : Option Nat := none
  position : Option Nat := none
  channel : Option Nat := none
  cause : Option RecCause := none
  counts : Option Counts := none
  deriving DecidableEq, Repr

/-- An entry of the log (R156–R158). -/
structure Entry where
  seq : Nat
  printMark : Bool
  hostMark : Bool
  data : RecData
  deriving DecidableEq, Repr

/-- The test log (R156–R167). -/
structure Log where
  entries : List Entry
  nextSeq : Nat
  dropped : Nat
  reporting : Bool
  threshold : Nat
  timeout : Nat
  notifyTimer : Option Nat
  deriving DecidableEq, Repr

/-! ### The engines (05, 06, 08) -/

/-- A run of list positions: first position and count (R87). -/
structure Run where
  first : Nat
  count : Nat
  deriving DecidableEq, Repr

/-- Which test of the isolation search is wanted (R86). -/
inductive Which where
  | lower | upper | popped
  deriving DecidableEq, Repr

/-- The isolation search: current group, stack (top first), and the run under test (R86). -/
structure Search where
  g : Run
  stack : List Run
  testing : Run
  which : Which
  deriving DecidableEq, Repr

/-- An item of the open list (Table 5-1). -/
structure OpenItem where
  member : Nat
  value : Option Nat
  range : CRange
  deriving DecidableEq, Repr

/-- A candidate with its excluded mark (R84). -/
structure Cand where
  pt : Nat
  excluded : Bool
  deriving DecidableEq, Repr

/-- What the step in hand of a CHECK or a LEARN is: a sweep pair, the whole-list test, a group test or the
confirming step (R82, R85, R88, R89, R99–R101). -/
inductive LvStep where
  | sweep | whole | group | confirm
  deriving DecidableEq, Repr

/-- A CHECK in progress (Table 5-1). `rootIdx` and `next` are positions of the member list. -/
structure CheckWork where
  last : Nat
  phases : CheckPhases
  num : Nat
  members : List Nat
  passLimit : Nat
  inIso : Bool
  rootIdx : Nat
  next : Nat
  openList : List OpenItem
  cands : List Cand
  gRes : Nat
  search : Search
  doing : LvStep
  deriving DecidableEq, Repr

/-- A LEARN in progress (Table 6-1). -/
structure LearnWork where
  hv : Bool
  pool : List Nat
  root : Option Nat
  list : List Nat
  found : List Nat
  gRes : Nat
  search : Search
  nextNum : Nat
  doing : LvStep
  deriving DecidableEq, Repr

/-- A LEARN_LEADS in progress (R105). `lead` is L_c, absent until the first step is judged. -/
structure LeadsWork where
  points : List Nat
  common : Nat
  partner : Nat
  lead : Option Nat
  next : Nat
  deriving DecidableEq, Repr

inductive Stage where
  | offset | main | locate
  deriving DecidableEq, Repr

inductive UnitId where
  | net (n : Nat)
  | point (p : Nat)
  deriving DecidableEq, Repr

/-- A unit of a locate: what it is, its mapped points, its excluded mark (R134). -/
structure LocUnit where
  id : UnitId
  points : List Nat
  excluded : Bool
  deriving DecidableEq, Repr

/-- An INSULATE in progress (Table 8-1). `gRepeat` and `mainRepeat` say whether the result kept came from a
repeated step (flag S, R136). -/
structure InsWork where
  last : Nat
  locate : Bool
  auto : Bool
  stage : Stage
  num : Nat
  members : List Nat
  units : List LocUnit
  gRes : HeldResult
  gRepeat : Bool
  mainRes : HeldResult
  mainRepeat : Bool
  search : Search
  locCount : Nat
  deriving DecidableEq, Repr

/-- What the engine that holds the job is doing. -/
inductive Work where
  | none
  | check (w : CheckWork)
  | learn (w : LearnWork)
  | leads (w : LeadsWork)
  | refLv
  | insulate (w : InsWork)
  | refHv (lvPassed : Bool)
  deriving DecidableEq, Repr

/-- Where the step in hand stands (R81, R130). -/
inductive StepPhase where
  | between | plan | measure | hvStep
  deriving DecidableEq, Repr

/-- What a step asks for once its plan is complete. -/
inductive StepReq where
  | lmu (m : MeasReq)
  | hv (v : StepValues)
  deriving DecidableEq, Repr

/-- The step in hand (Table 8-1): its plan and its request. -/
structure StepInHand where
  body : PlanBody
  req : StepReq
  deriving DecidableEq, Repr

/-- What an engine does next once the records of its judgment are appended. -/
inductive Ctl where
  | wait        -- nothing: a step or an ending is under way
  | sweep       -- the next pair of a sweep, or its end (R82, R83)
  | reroot      -- the next root after a DETACHED (R83)
  | contEnd     -- the continuity phase is over (R78)
  | walk        -- the walk moves on (R78, R132)
  | netDone     -- the net is processed, then the walk moves on (R92, R133, R138)
  | pop         -- the search goes on at step 4 of R86
  | draw        -- draw the next root (R99)
  | leads       -- the next point of a LEARN_LEADS (R107)
  | toRefHv     -- the high-voltage step of REFCHECK (R143)
  | complete    -- the job is complete
  deriving DecidableEq, Repr

/-- The engine of the active job (Tables 5-1, 6-1, 8-1). -/
structure Engine where
  work : Work
  phase : StepPhase
  inHand : Option StepInHand
  isRepeat : Bool
  pendingRec : Option RecData
  toAppend : List RecData
  ctl : Ctl
  abort : Option EndCause
  steps : Nat
  nets : Nat
  extra : Nat
  deriving DecidableEq, Repr

/-! ### The print formatter (11) -/

inductive PrinterState where
  | off | idle | printing | waitReady | paperOut | holdPending | held
  deriving DecidableEq, Repr

inductive Parity where
  | none | even | odd | zero
  deriving DecidableEq, Repr

/-- Table 11-1. -/
structure PrinterConfig where
  enable : Bool
  baud : Nat
  dataBits : Nat
  parity : Parity
  stopBits : Nat
  lowTrue : Bool
  timeout : Nat
  deriving DecidableEq, Repr

/-- The formatter (11.2). `lines` are the current record's lines with their CR and LF; `waiting`: the next
character waits for READY. -/
structure Printer where
  state : PrinterState
  cfg : PrinterConfig
  current : Option Nat
  lines : List (List Byte)
  line : Nat
  pos : Nat
  waiting : Bool
  timer : Option Nat
  deriving DecidableEq, Repr

/-! ### Host link and events (12) -/

/-- A received frame's standing (R181–R183): waiting for hand-over, being carried out, reply ready, reply in
transmission. A reply is its payload, status first. -/
inductive SlotPhase where
  | waiting | carried
  | ready (reply : List Byte)
  | sending (reply : List Byte)
  deriving DecidableEq, Repr

/-- A receive slot that holds a frame (R181). -/
structure RxSlot where
  kind : Byte
  tag : Byte
  payload : List Byte
  phase : SlotPhase
  deriving DecidableEq, Repr

/-- A frame in transmission on TXD (R183). -/
structure TxFrame where
  isReply : Bool
  bytes : List Byte
  deriving DecidableEq, Repr

/-- What a request that takes time keeps for its reply (R58, R77, R182). -/
inductive Carried where
  | enumerate
  | manual
  | unblock (removed : Nat)
  | measure (pair : Option (Nat × Nat))
  deriving DecidableEq, Repr

/-- The host link (R180–R186). `slots` holds the occupied slots, the older first. -/
structure HostLink where
  slots : List RxSlot
  assembly : List Byte
  tx : Option TxFrame
  carried : Option Carried
  baud : Nat
  deriving DecidableEq, Repr

/-- The CARD register: for each cause the position of its first raising (R187). -/
structure CardReg where
  lost : Option Nat
  driverFault : Option Nat
  stuck : Option Nat
  overtemp : Option Nat
  deriving DecidableEq, Repr

structure PrinterReg where
  paper : Bool
  stall : Bool
  deriving DecidableEq, Repr

structure LinkReg where
  crc : Bool
  timeout : Bool
  overrun : Bool
  length : Bool
  deriving DecidableEq, Repr

/-- The event unit (R187); bit n of `pending` and `mask` is event n of Table 12-5. -/
structure Events where
  pending : BitVec 12
  mask : BitVec 12
  levels : List Nat
  attnLevel : Nat
  noticeWanted : Bool
  card : CardReg
  printer : PrinterReg
  link : LinkReg
  deriving DecidableEq, Repr

/-- The levels of the input pins (Table 0-2). -/
structure Pins where
  coverClosed : Bool
  pready : Bool
  ppaper : Bool
  cattn : Bool
  deriving DecidableEq, Repr

/-! ### The whole part -/

/-- The state of the part. `pending` is the queue of commands, first in, first out. -/
structure State where
  store : Store
  link : Link
  matrix : Matrix
  lmu : Lmu
  limits : Limits
  reference : RefState
  engine : Engine
  hv : Hv
  queue : Queue
  log : Log
  printer : Printer
  host : HostLink
  events : Events
  pins : Pins
  pending : List Instr
  deriving DecidableEq, Repr

/-! ### Reset values -/

/-- Tables 1-3: the store after a hardware reset. -/
def Store.reset : Store := ⟨[], [], [], []⟩

/-- A position with no card (R34). -/
def RosterEntry.empty : RosterEntry := ⟨.absent, .none, 0, 0, .none⟩

/-- Table 2-6. -/
def Link.reset : Link where
  replyTimeout := 4
  lvSettle := 3
  hvSettle := 6
  seqBits := List.replicate 32 false
  exchange := none
  replyTimer := none
  pollBlocked := false
  enumPhase := .idle
  enumHost := false
  startup := true
  discovered := []

/-- The image after either reset (R42): the reference channels OPEN, everything else UNKNOWN. -/
def imageReset : List (Nat × Rail) := [(0, .opn), (1, .opn), (2, .opn), (3, .opn)]

/-- R34, R42, R43, R53. -/
def Matrix.reset : Matrix where
  roster := List.replicate 32 RosterEntry.empty
  frozen := false
  image := imageReset
  blocked := []
  slot := .empty
  waiting := []

/-- Table 4-3. -/
def Limits.reset : Limits := ⟨2000, 100000, 1000, 4, .r100, 5⟩

/-- R59; the mode, N, settle time and issuer are DESIGN CHOICE values (log 13). -/
def Lmu.reset : Lmu where
  phase := .idle
  mode := .cont
  range := .r100
  n := 4
  settle := 5
  count := 0
  codeSum := 0
  vSum := 0
  iSum := 0
  rangeSteps := 0
  issuer := .host
  timer := none
  waiting := none

/-- Table 7-3. -/
def HvSet.reset : HvSet := ⟨500, 10, 100, 200, 50, 10, 100, 16⟩

/-- Table 7-1 and R127; the present reading before the first conversion is a DESIGN CHOICE value (log 13). -/
def Hv.reset : Hv where
  rail := .discharge
  target := 0
  presentV := 0
  presentI := 0
  history := []
  prevI := none
  arcs := 0
  values := none
  request := none
  held := none
  dwellTimer := none
  tickTimer := none
  holdTimer := none
  limitTimer := some 2000
  cause := .reset
  offset := 0
  coverClosed := false
  debounce := some 10
  hvSet := HvSet.reset

/-- R144. -/
def Queue.reset : Queue := ⟨[], false, false⟩

/-- R163, R167. -/
def Log.reset : Log where
  entries := []
  nextSeq := 1
  dropped := 0
  reporting := true
  threshold := 8
  timeout := 500
  notifyTimer := none

/-- R80, R98, R105, R129: the engines hold no job. -/
def Engine.reset : Engine where
  work := .none
  phase := .between
  inHand := none
  isRepeat := false
  pendingRec := none
  toAppend := []
  ctl := .wait
  abort := none
  steps := 0
  nets := 0
  extra := 0

/-- Table 11-1. -/
def PrinterConfig.reset : PrinterConfig := ⟨false, 4, 8, .none, 1, false, 10⟩

/-- R168, 11.2. -/
def Printer.reset : Printer where
  state := .off
  cfg := PrinterConfig.reset
  current := none
  lines := []
  line := 0
  pos := 0
  waiting := false
  timer := none

/-- R180, R181, R183, R185. -/
def HostLink.reset : HostLink where
  slots := []
  assembly := []
  tx := none
  carried := none
  baud := 5

def CardReg.empty : CardReg := ⟨none, none, none, none⟩
def PrinterReg.empty : PrinterReg := ⟨false, false⟩
def LinkReg.empty : LinkReg := ⟨false, false, false, false⟩

/-- R187 with the default levels of Table 12-5. -/
def Events.reset : Events where
  pending := 0
  mask := 0
  levels := [3, 3, 3, 3, 2, 2, 2, 2, 1, 1, 1, 0]
  attnLevel := 1
  noticeWanted := false
  card := CardReg.empty
  printer := PrinterReg.empty
  link := LinkReg.empty

/-- The input pins before any edge is seen: DESIGN CHOICE values (log 13). -/
def Pins.reset : Pins := ⟨false, false, false, false⟩

/-- The part right after a hardware reset (R127 and the reset rule of every block), with no command waiting. -/
def State.reset : State where
  store := Store.reset
  link := Link.reset
  matrix := Matrix.reset
  lmu := Lmu.reset
  limits := Limits.reset
  reference := .unverified
  engine := Engine.reset
  hv := Hv.reset
  queue := Queue.reset
  log := Log.reset
  printer := Printer.reset
  host := HostLink.reset
  events := Events.reset
  pins := Pins.reset
  pending := []

end Sys2Proof.Machine
end

