-- ==== Sys2Proof/Machine/Ops.lean ====
section
/-! DEFINITION. The shared operations over tables, check values, points, channels, the roster and the queue. -/

namespace Sys2Proof.Machine

open Sys2Proof

/-! ### Sparse tables: keys strictly rising, an unlisted key reads as none -/

def tget {α : Type} : List (Nat × α) → Nat → Option α
  | [], _ => none
  | (k', v) :: r, k => if k = k' then some v else tget r k

def tset {α : Type} : List (Nat × α) → Nat → α → List (Nat × α)
  | [], k, v => [(k, v)]
  | (k', v') :: r, k, v =>
    if k < k' then (k, v) :: (k', v') :: r
    else if k = k' then (k, v) :: r
    else (k', v') :: tset r k v

def tdel {α : Type} : List (Nat × α) → Nat → List (Nat × α)
  | [], _ => []
  | (k', v') :: r, k => if k = k' then r else (k', v') :: tdel r k

/-- Write an entry, or remove it where the new content is what an unlisted key reads as. -/
def tput {α : Type} (t : List (Nat × α)) (k : Nat) : Option α → List (Nat × α)
  | none => tdel t k
  | some v => tset t k v

/-- The canonical form: keys strictly rising. -/
def tableWf {α : Type} : List (Nat × α) → Bool
  | [] => true
  | [_] => true
  | a :: b :: r => decide (a.1 < b.1) && tableWf (b :: r)

/-- Insert a point into an ascending list without duplicates. -/
def insPoint (p : Nat) : List Nat → List Nat
  | [] => [p]
  | q :: r => if p < q then p :: q :: r else if p = q then q :: r else q :: insPoint p r

/-- The points of a list, ascending, without duplicates. -/
def sortPoints (l : List Nat) : List Nat := l.foldr insPoint []

/-! ### Check values: CRC-16, polynomial 0x1021, initial value 0xFFFF (R16, Tables 2-2 and 12-1) -/

def crcBit (c : Word16) : Word16 := if c.msb then (c <<< 1) ^^^ 0x1021#16 else c <<< 1

def crcByte (c : Word16) (b : Byte) : Word16 :=
  crcBit (crcBit (crcBit (crcBit (crcBit (crcBit (crcBit (crcBit (c ^^^ (b.setWidth 16 <<< 8)))))))))

def crc16 (l : List Byte) : Word16 := l.foldl crcByte 0xFFFF#16

/-! ### Numbers as bytes, low byte first (R179) -/

def le1 (n : Nat) : List Byte := [BitVec.ofNat 8 n]
def le2 (n : Nat) : List Byte := [BitVec.ofNat 8 n, BitVec.ofNat 8 (n / 256)]
def le4 (n : Nat) : List Byte :=
  [BitVec.ofNat 8 n, BitVec.ofNat 8 (n / 256), BitVec.ofNat 8 (n / 65536), BitVec.ofNat 8 (n / 16777216)]

/-- A check value, high byte first (Tables 2-2 and 12-1). -/
def crcBytes (c : Word16) : List Byte := [BitVec.ofNat 8 (c.toNat / 256), BitVec.ofNat 8 c.toNat]

/-- A flag or two-valued setting (R179). -/
def flagByte (b : Bool) : List Byte := [if b then 1#8 else 0#8]

/-! ### The wire-list store -/

/-- The channel of a point: fixed for P0–P3 (R1), else the point map's entry (R3). -/
def State.chanOf (s : State) (p : Nat) : Option Chan :=
  if p < 4 then some ⟨0, p⟩ else tget s.store.map p

/-- The lead value of a point: 0 for P0–P3 (R1), else the lead table's entry (R7). -/
def State.leadOf (s : State) (p : Nat) : Nat :=
  if p < 4 then 0 else (tget s.store.leads p).getD 0

/-- The owner index (R11). -/
def State.ownerOf (s : State) (p : Nat) : Option Nat :=
  if p < 4 then none else tget s.store.owner p

/-- The logical point mapped to a channel (R3: at most one). -/
def State.pointAt (s : State) (c : Chan) : Option Nat :=
  if c.pos = 0 then (if c.ch < 4 then some c.ch else none)
  else (s.store.map.find? (fun e => e.2 == c)).map (·.1)

/-- The mapped harness points, ascending. -/
def State.mapped (s : State) : List Nat := s.store.map.map (·.1)

/-- The unassigned points: mapped harness points in no net (1.5). -/
def State.unassigned (s : State) : List Nat := s.mapped.filter (fun p => (s.ownerOf p).isNone)

/-- Write a lead value: an entry of 0 is left unlisted (R7). -/
def Store.setLead (st : Store) (p v : Nat) : Store :=
  { st with leads := tput st.leads p (if v = 0 then none else some v) }

/-- The bytes a net's check value is taken over (R16). -/
def NetBody.bytes (b : NetBody) : List Byte :=
  le2 b.num ++ le2 b.members.length ++ b.members.flatMap le2 ++ flagByte b.hv
    ++ flagByte b.override.isSome ++ le4 (b.override.getD 0)
    ++ le1 b.label.length ++ b.label

def NetBody.checkValue (b : NetBody) : Word16 := crc16 b.bytes

/-- The stored net with a number. -/
def State.findNet (s : State) (n : Nat) : Option NetRec := s.store.nets.find? (fun r => r.body.num == n)

/-- The walk of R10: the stored net with the lowest number above `after` and at most `last`. -/
def State.nextNet (s : State) (after last : Nat) : Option NetRec :=
  s.store.nets.find? (fun r => decide (after < r.body.num) && decide (r.body.num ≤ last))

/-- Put a record into the table in ascending net number. -/
def insNet (r : NetRec) : List NetRec → List NetRec
  | [] => [r]
  | q :: t => if r.body.num < q.body.num then r :: q :: t else q :: insNet r t

/-- Store a net (R13, R102): an older record of the number is removed unread and its points released, the new
record gets a fresh check value and a clear mark, and its members are entered in the owner index. -/
def Store.putNet (st : Store) (b : NetBody) : Store :=
  { st with
    nets := insNet ⟨b, b.checkValue, false⟩ (st.nets.filter (fun r => r.body.num != b.num))
    owner := b.members.foldl (fun o p => tset o p b.num) (st.owner.filter (fun e => e.2 != b.num)) }

/-- Remove every net and empty the owner index (R14). -/
def Store.clearNets (st : Store) : Store := { st with nets := [], owner := [] }

/-- Mark a net CORRUPT (R17). -/
def Store.markCorrupt (st : Store) (n : Nat) : Store :=
  { st with nets := st.nets.map (fun r => if r.body.num = n then { r with corrupt := true } else r) }

/-! ### Cards, channels and the relay image -/

/-- The number of channels of a card kind (Table 2-1). -/
def CardKind.channels : CardKind → Nat
  | .lv128 => 128
  | .hv64 => 64
  | .none => 0
  | .other => 0

def Chan.key (c : Chan) : Nat := c.pos * 128 + c.ch

/-- The roster entry of a position 1–32. -/
def State.posn (s : State) (p : Nat) : RosterEntry := s.matrix.roster.getD (p - 1) RosterEntry.empty

def Matrix.setPosn (m : Matrix) (p : Nat) (e : RosterEntry) : Matrix :=
  { m with roster := m.roster.set (p - 1) e }

/-- The image of a channel; none is UNKNOWN (3.1). -/
def State.imageOf (s : State) (c : Chan) : Option Rail := tget s.matrix.image c.key

def State.isBlocked (s : State) (c : Chan) : Bool := s.matrix.blocked.contains c

/-- Whether a channel exists on the card recorded at a PRESENT position (R44, R148). -/
def State.reachable (s : State) (c : Chan) : Bool :=
  decide (c.pos = 0) ||
    (decide ((s.posn c.pos).state = .present) && decide (c.ch < (s.posn c.pos).kind.channels))

/-- The rails a channel may take (Table 2-1). -/
def State.railAllowed (s : State) (c : Chan) (r : Rail) : Bool :=
  match r with
  | .opn => true
  | .source => if c.pos = 0 then c.ch == 0 else true
  | .ret => if c.pos = 0 then c.ch == 1 else true
  | .hv => if c.pos = 0 then c.ch == 2 else decide ((s.posn c.pos).kind = .hv64)
  | .collect => if c.pos = 0 then c.ch == 3 else true

/-- Rewrite the image of one position: channel `k` takes `f k` of its present value. -/
def rewritePos (image : List (Nat × Rail)) (p : Nat) (f : Nat → Option Rail → Option Rail) : List (Nat × Rail) :=
  image.filter (fun e => decide (e.1 < p * 128))
    ++ (List.range 128).filterMap (fun k => (f k (tget image (p * 128 + k))).map (fun r => (p * 128 + k, r)))
    ++ image.filter (fun e => decide ((p + 1) * 128 ≤ e.1))

/-- The positions of the card link, ascending. -/
def positions : List Nat := List.range' 1 32

/-- Insert a channel into the blocked set, kept in ascending order without duplicates (R53). -/
def insChan (c : Chan) : List Chan → List Chan
  | [] => [c]
  | d :: r => if c.key < d.key then c :: d :: r else if c = d then d :: r else d :: insChan c r

/-! ### The job queue -/

/-- Whether a job is active (R144). -/
def JobState.active : JobState → Bool
  | .queued => false
  | .running => true
  | .logWait => true
  | .suspended => true
  | .ending => true

/-- The head of the queue. -/
def State.head (s : State) : Option Job := s.queue.jobs.head?

/-- The active job: the head, once it has started (R144). -/
def State.activeJob (s : State) : Option Job := s.head.filter (fun j => j.state.active)

def State.jobActive (s : State) : Bool := s.activeJob.isSome

/-- Replace the head's record. -/
def State.setHead (s : State) (f : Job → Job) : State :=
  match s.queue.jobs with
  | [] => s
  | j :: r => { s with queue := { s.queue with jobs := f j :: r } }

/-- The snapshot of the active job; the stored sets where there is none (no engine runs then). -/
def State.snap (s : State) : Snapshot :=
  (s.head.bind (·.snapshot)).getD ⟨s.limits, s.hv.hvSet⟩

/-- The tag of the head as a record carries it. -/
def State.headTag (s : State) : Option Nat := s.head.map (·.tag)

/-- The flags of a test record of the active job with only U as the job's mark gives it (R74). -/
def State.flagsU (s : State) : RecFlags := { u := (s.head.map (·.flagU)).getD false }

/-! ### Gating -/

/-- The plan slot lets the LMU source on (R60). -/
def Slot.sourceOk : Slot → Bool
  | .empty => true
  | .held _ => true
  | .sending _ _ _ => false
  | .settling _ _ _ => false

/-- R60: the LMU source may be on. -/
def State.sourceAllowed (s : State) : Bool := s.matrix.slot.sourceOk && decide (s.hv.rail = .safe)

def Slot.isEmpty : Slot → Bool
  | .empty => true
  | .held _ => false
  | .sending _ _ _ => false
  | .settling _ _ _ => false

/-- Whether an enumeration is in progress (R28). -/
def State.enumerating (s : State) : Bool := decide (s.link.enumPhase ≠ .idle)

end Sys2Proof.Machine
end

