-- ==== Sys2Proof/Machine/Operands.lean ====
section
/-! DEFINITION. The operand forms of the host link: reading the fields of a request payload and writing those
of a reply (R179, Table 12-3). -/

namespace Sys2Proof.Machine

open Sys2Proof

/-- Reply status codes (Table 12-3). -/
inductive Status where
  | ok | busy | full | badValue | badState | badLength | unknownKind | notFound | conflict | corrupt
  deriving DecidableEq, Repr

def Status.code : Status → Byte
  | .ok => 0x00#8
  | .busy => 0x01#8
  | .full => 0x02#8
  | .badValue => 0x03#8
  | .badState => 0x04#8
  | .badLength => 0x05#8
  | .unknownKind => 0x06#8
  | .notFound => 0x07#8
  | .conflict => 0x08#8
  | .corrupt => 0x09#8

/-- A reply payload: the status, then the contents or refusal details (R182). -/
def reply (st : Status) (contents : List Byte) : List Byte := st.code :: contents

/-- Two bytes, low byte first. -/
def u16 (a b : Byte) : Nat := a.toNat + 256 * b.toNat

/-- Four bytes, low byte first. -/
def u32 (a b c d : Byte) : Nat := a.toNat + 256 * b.toNat + 65536 * c.toNat + 16777216 * d.toNat

/-- Exactly `n` items of four bytes: a point, then two bytes (MAP_POINTS, SET_LEADS). -/
def items4 : Nat → List Byte → Option (List (Nat × Byte × Byte))
  | 0, [] => some []
  | 0, _ :: _ => none
  | n + 1, a :: b :: c :: d :: rest => (items4 n rest).map ((u16 a b, c, d) :: ·)
  | _ + 1, [] => none
  | _ + 1, [_] => none
  | _ + 1, [_, _] => none
  | _ + 1, [_, _, _] => none

/-- Exactly `n` items of three bytes: a point, then a rail code (MANUAL_SWITCH). -/
def items3 : Nat → List Byte → Option (List (Nat × Byte))
  | 0, [] => some []
  | 0, _ :: _ => none
  | n + 1, a :: b :: c :: rest => (items3 n rest).map ((u16 a b, c) :: ·)
  | _ + 1, [] => none
  | _ + 1, [_] => none
  | _ + 1, [_, _] => none

/-- `n` points and what follows them (LOAD_NET). -/
def takePoints : Nat → List Byte → Option (List Nat × List Byte)
  | 0, rest => some ([], rest)
  | n + 1, a :: b :: rest => (takePoints n rest).map (fun x => (u16 a b :: x.1, x.2))
  | _ + 1, [] => none
  | _ + 1, [_] => none

/-- A list whose count is its first byte. -/
def counted {α : Type} (f : Nat → List Byte → Option α) : List Byte → Option (Nat × α)
  | [] => none
  | n :: rest => (f n.toNat rest).map (fun x => (n.toNat, x))

/-- A number that may be OVER, four bytes (R179). -/
def overOr : Option Nat → List Byte
  | none => [0xFF#8, 0xFF#8, 0xFF#8, 0xFF#8]
  | some n => le4 n

/-- A channel, or UNMAPPED as position 0xFF with channel 0 (R179). -/
def chanBytes : Option Chan → List Byte
  | none => [0xFF#8, 0#8]
  | some c => le1 c.pos ++ le1 c.ch

/-- The rail codes of SET items (Table 2-3, R54). -/
def Rail.code : Rail → Nat
  | .opn => 0
  | .source => 1
  | .ret => 2
  | .hv => 3
  | .collect => 4

def railOf (b : Byte) : Option Rail :=
  if b = 0#8 then some .opn else if b = 1#8 then some .source else if b = 2#8 then some .ret
  else if b = 3#8 then some .hv else if b = 4#8 then some .collect else none

/-- An image value: the rail code, 5 for UNKNOWN (R179). -/
def imageByte : Option Rail → List Byte
  | none => le1 5
  | some r => le1 r.code

/-- Card kinds (Table 12-7). -/
def CardKind.code : CardKind → Nat
  | .none => 0
  | .lv128 => 1
  | .hv64 => 2
  | .other => 3

/-- An expected kind of FREEZE_LIST (R33): NONE, LV-128 or HV-64. -/
def expectedOf (b : Byte) : Option CardKind :=
  if b = 0#8 then some .none else if b = 1#8 then some .lv128 else if b = 2#8 then some .hv64 else none

/-- Places in the list of 2.6, counting from 0 (R179). -/
def PosState.code : PosState → Nat
  | .absent => 0
  | .present => 1
  | .lost => 2
  | .faulted => 3
  | .mismatch => 4

/-- Start-range codes (R68). -/
def CRange.code : CRange → Nat
  | .r100 => 1
  | .r10 => 2
  | .r1 => 3

def rangeOf (b : Byte) : Option CRange :=
  if b = 1#8 then some .r100 else if b = 2#8 then some .r10 else if b = 3#8 then some .r1 else none

/-- Places in Table 7-1's list of rail states (R179). -/
def RailState.code : RailState → Nat
  | .safe => 0
  | .ramp => 1
  | .dwell => 2
  | .discharge => 3
  | .fault => 4

def RefState.code : RefState → Nat
  | .unverified => 0
  | .verified => 1
  | .failed => 2

/-- Places in the list of R144 (R179). -/
def JobState.code : JobState → Nat
  | .queued => 0
  | .running => 1
  | .logWait => 2
  | .suspended => 3
  | .ending => 4

/-- Places in Table 11-2 (R179). -/
def PrinterState.code : PrinterState → Nat
  | .off => 0
  | .idle => 1
  | .printing => 2
  | .waitReady => 3
  | .paperOut => 4
  | .holdPending => 5
  | .held => 6

/-- Job kind codes (Table 9-1). -/
def JobSpec.code : JobSpec → Nat
  | .check _ _ _ => 1
  | .insulate _ _ _ _ => 2
  | .learn _ => 3
  | .learnLeads _ => 4
  | .refcheck => 5

def CheckPhases.code : CheckPhases → Nat
  | .cont => 1
  | .iso => 2
  | .both => 3

/-- The options of a job as submitted (R78, R97, R105, R128). -/
def JobSpec.options : JobSpec → List Byte
  | .check f l ph => le2 f ++ le2 l ++ le1 ph.code
  | .insulate f l loc auto => le2 f ++ le2 l ++ flagByte loc ++ flagByte auto
  | .learn hv => flagByte hv
  | .learnLeads c => le2 c
  | .refcheck => []

/-- End reason codes (R193). -/
def EndReason.code : EndReason → Nat
  | .complete => 0
  | .abortedHost => 1
  | .abortedCard => 2
  | .abortedTable => 3
  | .abortedHvFault => 4
  | .unmappedPoint => 5
  | .unreachableCard => 6
  | .blockedPoint => 7
  | .notHvCapable => 8
  | .tableCorrupt => 9
  | .emptyTable => 10
  | .refFailed => 11
  | .badRange => 12
  | .fixtureLeak => 13
  | .tableFull => 14
  | .netTooLarge => 15

/-- Causes of an ABORTED_CARD detail (Table 12-7). OVERTEMP aborts nothing. -/
def CardCause.code : CardCause → Nat
  | .driverFault => 1
  | .stuck => 2
  | .lost => 3
  | .overtemp => 4

def PlanCause.code : PlanCause → Nat
  | .unmappedPoint => 5
  | .unreachableCard => 6
  | .blockedPoint => 7
  | .notHvCapable => 8

/-- Record kind codes (Table 10-1). -/
def RecKind.code : RecKind → Nat
  | .jobStart => 0x01
  | .opn => 0x02
  | .high => 0x03
  | .detached => 0x04
  | .short => 0x05
  | .irLow => 0x06
  | .breakdown => 0x07
  | .arc => 0x08
  | .refFail => 0x09
  | .leadHigh => 0x0A
  | .learnHigh => 0x0B
  | .learnLeak => 0x0C
  | .jobEnd => 0x20
  | .cardFault => 0x21
  | .cardWarn => 0x22
  | .cardLost => 0x23
  | .stuckRelay => 0x24
  | .rosterMismatch => 0x25
  | .interlock => 0x26
  | .hvFault => 0x27
  | .tableFault => 0x28

def VUnit.code : VUnit → Nat
  | .mOhm => 1
  | .kOhm => 2
  | .dV => 3
  | .nA => 4
  | .count => 5

def DisCause.code : DisCause → Nat
  | .verdict => 1
  | .breakdown => 2
  | .interrupted => 3
  | .stop => 4
  | .reset => 5

/-- The two cause bytes of a record (Tables 12-6 and 12-7). -/
def RecCause.bytes : RecCause → List Byte
  | .brk .trip => le1 1 ++ le1 0
  | .brk .collapse => le1 2 ++ le1 0
  | .window => le1 1 ++ le1 0
  | .refBreakdown => le1 2 ++ le1 0
  | .frame c => le1 c ++ le1 0
  | .roster e f => le1 e.code ++ le1 f.code
  | .openAtStart => le1 1 ++ le1 0
  | .openedDuringStep => le1 2 ++ le1 0
  | .discharge c => le1 c.code ++ le1 0
  | .table .read => le1 1 ++ le1 0
  | .table .start => le1 2 ++ le1 0
  | .table .run => le1 3 ++ le1 0

/-- Detail kind and detail value of a counts block (Table 12-6). -/
def EndDetail.bytes : EndDetail → List Byte
  | .nothing => le1 0 ++ le4 0
  | .net n => le1 1 ++ le4 n
  | .point p => le1 2 ++ le4 p
  | .position p => le1 3 ++ le4 p
  | .current c => le1 4 ++ le4 c
  | .card c p => le1 3 ++ le4 (p + 65536 * c.code)
  | .plan c p => le1 2 ++ le4 (p + 65536 * c.code)

def Counts.bytes (c : Counts) : List Byte :=
  le1 c.ended.reason.code ++ c.ended.detail.bytes ++ le2 c.nets ++ le4 c.steps ++ le4 c.tests ++ le4 c.systems
    ++ le2 c.extra

def Value.bytes (v : Value) : List Byte := le1 v.unit.code ++ overOr v.amount

/-- The optional fields of a record in the order of Table 12-6, each with its bytes when present. A JOB_END
carries the job kind alone. -/
def RecData.fields (d : RecData) : List (Option (List Byte)) :=
  [ d.tag.map le1
  , d.job.map (fun j =>
      let o := if d.kind = .jobEnd then [] else j.options
      le1 j.code ++ le1 o.length ++ o)
  , d.net.map le2
  , d.pointA.map le2
  , d.pointB.map le2
  , d.otherNet.map le2
  , d.value.map Value.bytes
  , d.second.map Value.bytes
  , d.range.map (fun r => le1 r.code)
  , d.arcs.map le1
  , d.position.map le1
  , d.channel.map le1
  , d.cause.map RecCause.bytes
  , d.counts.map Counts.bytes ]

/-- Presence bits, bit 0 for the first field (Table 12-6). -/
def presence : List (Option (List Byte)) → Nat
  | [] => 0
  | f :: r => (if f.isSome then 1 else 0) + 2 * presence r

/-- Class and flags (Table 12-6): bit 7 the class, bits 0–4 U, C, A, N, S. -/
def RecData.classByte (d : RecData) : Nat :=
  (if d.flags.u then 1 else 0) + (if d.flags.c then 2 else 0) + (if d.flags.a then 4 else 0)
    + (if d.flags.n then 8 else 0) + (if d.flags.s then 16 else 0) + (if d.system then 128 else 0)

/-- A record as a FETCH reply carries it (R193). -/
def Entry.bytes (e : Entry) : List Byte :=
  let fs := e.data.fields
  let body := le4 e.seq ++ le1 e.data.kind.code ++ le1 e.data.classByte ++ le2 (presence fs)
    ++ (fs.filterMap id).flatten
  le1 (body.length + 1) ++ body

/-- A set of events, two bytes (R190). -/
def eventBytes (v : BitVec 12) : List Byte := le2 v.toNat

/-- The CARD register: for each cause in the order of Table 12-5 a flag and a position (R192; log 9). -/
def CardReg.bytes (r : CardReg) : List Byte :=
  [r.lost, r.driverFault, r.stuck, r.overtemp].flatMap (fun o => flagByte o.isSome ++ le1 (o.getD 0))

/-- The PRINTER register: a bit per cause (Table 12-7). -/
def PrinterReg.bytes (r : PrinterReg) : List Byte :=
  le1 ((if r.paper then 1 else 0) + (if r.stall then 2 else 0))

/-- The LINK_ERROR register: a bit per cause (Table 12-7). -/
def LinkReg.bytes (r : LinkReg) : List Byte :=
  le1 ((if r.crc then 1 else 0) + (if r.timeout then 2 else 0) + (if r.overrun then 4 else 0)
    + (if r.length then 8 else 0))

end Sys2Proof.Machine
end

