-- ==== Sys2Proof/Machine/HvRail.lean ====
section
/-! DEFINITION. The high-voltage rail (07): samples, breakdown, arcs, the verdict, discharge and the safe hold,
as operations of the HV unit alone. -/

namespace Sys2Proof.Machine

open Sys2Proof

/-- The rail enters DISCHARGE (R109, R122): setpoint 0, tick and dwell timers stopped, limit timer started,
hold timer stopped. -/
def Hv.enterDischarge (h : Hv) (c : DisCause) : Hv :=
  { h with
    rail := .discharge
    target := 0
    tickTimer := none
    dwellTimer := none
    holdTimer := none
    limitTimer := some 2000
    cause := c }

/-- Entry of SAFE at the end of the hold (R123). -/
def Hv.enterSafe (h : Hv) : Hv :=
  { h with rail := .safe, holdTimer := none, limitTimer := none }

/-- The step is over for the HV unit: nothing of it is kept. -/
def Hv.dropStep (h : Hv) : Hv :=
  { h with values := none, held := none, request := none, history := [], prevI := none, arcs := 0 }

/-- The step starts (R113): history, previous I and arc count cleared, target 0, rail in RAMP, tick timer of
10 ms. -/
def Hv.startStep (h : Hv) (v : StepValues) : Hv :=
  { h with
    rail := .ramp
    target := 0
    values := some v
    request := none
    history := []
    prevI := none
    arcs := 0
    tickTimer := some 10 }

/-- A tick in RAMP (R114). -/
def Hv.tick (h : Hv) (v : StepValues) : Hv :=
  let t := min (h.target + v.rate) v.setV
  if t = v.setV then
    { h with target := t, rail := .dwell, tickTimer := none, dwellTimer := some (v.dwell * 10) }
  else { h with target := t, tickTimer := some 10 }

/-- Whether a sample is a trip (R115). -/
def isTrip (v : StepValues) (i : Nat) : Bool := decide (v.trip * 10000 ≤ i)

/-- Whether a DWELL sample is a collapse (R115). -/
def isCollapse (v : StepValues) (u : Nat) : Bool := decide (u * 8 < v.setV * 70)

/-- A breakdown ends the step (R115). -/
def Hv.breakdown (h : Hv) (c : BreakCause) (u i : Nat) : Hv :=
  Hv.enterDischarge { h with held := some ⟨.breakdown c, u, i, 0, 0, h.arcs⟩ } .breakdown

/-- The arc count after a DWELL sample (R116). -/
def Hv.arcsAfter (h : Hv) (v : StepValues) (i : Nat) : Nat :=
  match h.prevI with
  | some p => if p + v.arcTh * 1000 ≤ i then min 255 (h.arcs + 1) else h.arcs
  | none => h.arcs

/-- A sample in RAMP (R110, R115). -/
def Hv.rampSample (h : Hv) (v : StepValues) (u i : Nat) : Hv :=
  let h1 := { h with prevI := some i }
  if isTrip v i then h1.breakdown .trip u i else h1

/-- A sample in DWELL (R110, R115, R116): its arc is counted and it enters the history before a breakdown is
fixed. -/
def Hv.dwellSample (h : Hv) (v : StepValues) (u i : Nat) : Hv :=
  let h1 := { h with
    arcs := h.arcsAfter v i
    prevI := some i
    history := (h.history ++ [(u, i)]).drop (h.history.length + 1 - 16) }
  if isTrip v i then h1.breakdown .trip u i
  else if isCollapse v u then h1.breakdown .collapse u i
  else h1

/-- A sample in DISCHARGE (R122): the safe hold. -/
def Hv.dischargeSample (h : Hv) (u : Nat) : Hv :=
  if u < 300 then (if h.holdTimer.isSome then h else { h with holdTimer := some 10 })
  else { h with holdTimer := none }

/-- A conversion (R110): the readings saturate and become the present reading, then the rail state's rule. -/
def Hv.sample (h : Hv) (u0 i0 : Nat) : Hv :=
  let u := min u0 16000
  let i := min i0 5000000
  let h1 := { h with presentV := u, presentI := i }
  match h.rail with
  | .safe => h1
  | .fault => h1
  | .ramp => match h.values with
    | some v => h1.rampSample v u i
    | none => h1
  | .dwell => match h.values with
    | some v => h1.dwellSample v u i
    | none => h1
  | .discharge => h1.dischargeSample u

/-- The measured voltage and current (R117). -/
def Hv.vMeas (h : Hv) : Nat := ((h.history.map (·.1)).sum + 8) / 16
def Hv.iMeas (h : Hv) : Nat := ((h.history.map (·.2)).sum + 8) / 16

/-- The offset a step's insulation resistance uses (R112). -/
def Hv.offsetFor (h : Hv) (v : StepValues) : Nat :=
  match v.offsetMode with
  | .apply => h.offset
  | .zero => 0
  | .measure => 0

/-- The insulation resistance (R118). -/
def insulation (vMeas iMeas offset : Nat) : Nat :=
  if iMeas ≤ offset then 99999999
  else min 99999999 ((vMeas * 100000 + (iMeas - offset) / 2) / (iMeas - offset))

/-- The verdict at dwell expiry (R119). -/
def verdictOf (v : StepValues) (ir arcs : Nat) : Verdict :=
  if ir < v.minIr * 1000 then .irLow
  else if decide (0 < v.arcLim) && decide (v.arcLim ≤ arcs) then .arc
  else .pass

/-- The dwell expires (R117–R119, R126): the means, the resistance, the verdict, the offset of a MEASURE step;
the rail enters DISCHARGE. -/
def Hv.dwellExpire (h : Hv) (v : StepValues) : Hv :=
  let off := h.offsetFor v
  let ir := insulation h.vMeas h.iMeas off
  Hv.enterDischarge { h with
    held := some ⟨verdictOf v ir h.arcs, h.vMeas, h.iMeas, off, ir, h.arcs⟩
    offset := if v.offsetMode = .measure then h.iMeas else h.offset } .verdict

/-- The cover opens in RAMP or DWELL (R120): INTERRUPTED with the last sample's V and I, the present reading; a step
without a sample so far shows the reading from before it (log 36). -/
def Hv.interrupt (h : Hv) : Hv :=
  Hv.enterDischarge { h with held := some ⟨.interrupted, h.presentV, h.presentI, 0, 0, h.arcs⟩ } .interrupted

/-- A stop order (R121): a waiting request is withdrawn; in RAMP or DWELL the rail enters DISCHARGE with no
verdict; a held result is discarded and the discharge goes on. -/
def Hv.stopOrder (h : Hv) : Hv :=
  match h.rail with
  | .ramp => h.dropStep.enterDischarge .stop
  | .dwell => h.dropStep.enterDischarge .stop
  | .safe => h.dropStep
  | .discharge => h.dropStep
  | .fault => h.dropStep

/-- The step values of an INSULATE step (R112, R130). -/
def HvSet.stepValues (h : HvSet) (m : OffsetMode) : StepValues :=
  ⟨h.setV, h.rate, h.dwell, h.trip, h.arcTh, h.arcLim, h.minIr, m⟩

/-- The step values of the high-voltage step of REFCHECK (R73, R112). -/
def HvSet.refValues (h : HvSet) : StepValues :=
  ⟨500, 10, 100, h.trip, h.arcTh, h.arcLim, h.minIr, .zero⟩

end Sys2Proof.Machine
end

