-- ==== Sys2Proof/Decode.lean ====
section
/-! DEFINITION. Decoding: the table's bits (no row has any) and the KIND byte of a host frame (Table 12-2). -/

namespace Sys2Proof

/-- No row of spec/opcode_table.json gives bits, so no word spells a command. -/
def decodeTableWord (_nbits _w : Nat) : Option Instr := none

/-- The requests of Table 12-2. -/
inductive Request where
  | ident
  | setLink
  | restart
  | readStatus
  | setEvents
  | clearEvents
  | mapPoints
  | readMap
  | setLeads
  | readLeads
  | loadNet
  | clearNets
  | readNet
  | setCardLink
  | setRoster
  | enumerate
  | readRoster
  | manualSwitch
  | readRelays
  | unblock
  | setLimits
  | measure
  | setHv
  | clearHvFault
  | submitJob
  | abortJob
  | holdQueue
  | releaseQueue
  | readQueue
  | resume
  | setReporting
  | fetchRecords
  | printerConfig
  | printHold
  | printRelease
  | printFlush
  deriving DecidableEq, Repr

/-- The KIND code of a request (Table 12-2). -/
def Request.code : Request → Byte
  | .ident => 0x01#8
  | .setLink => 0x02#8
  | .restart => 0x03#8
  | .readStatus => 0x04#8
  | .setEvents => 0x05#8
  | .clearEvents => 0x06#8
  | .mapPoints => 0x08#8
  | .readMap => 0x09#8
  | .setLeads => 0x0A#8
  | .readLeads => 0x0B#8
  | .loadNet => 0x0C#8
  | .clearNets => 0x0D#8
  | .readNet => 0x0E#8
  | .setCardLink => 0x10#8
  | .setRoster => 0x11#8
  | .enumerate => 0x12#8
  | .readRoster => 0x13#8
  | .manualSwitch => 0x14#8
  | .readRelays => 0x15#8
  | .unblock => 0x16#8
  | .setLimits => 0x18#8
  | .measure => 0x19#8
  | .setHv => 0x1C#8
  | .clearHvFault => 0x1D#8
  | .submitJob => 0x20#8
  | .abortJob => 0x21#8
  | .holdQueue => 0x22#8
  | .releaseQueue => 0x23#8
  | .readQueue => 0x24#8
  | .resume => 0x25#8
  | .setReporting => 0x28#8
  | .fetchRecords => 0x29#8
  | .printerConfig => 0x2C#8
  | .printHold => 0x2D#8
  | .printRelease => 0x2E#8
  | .printFlush => 0x2F#8

/-- Every request of Table 12-2, in table order. -/
def Request.all : List Request :=
  [.ident, .setLink, .restart, .readStatus, .setEvents, .clearEvents,
   .mapPoints, .readMap, .setLeads, .readLeads, .loadNet, .clearNets,
   .readNet, .setCardLink, .setRoster, .enumerate, .readRoster, .manualSwitch,
   .readRelays, .unblock, .setLimits, .measure, .setHv, .clearHvFault,
   .submitJob, .abortJob, .holdQueue, .releaseQueue, .readQueue, .resume,
   .setReporting, .fetchRecords, .printerConfig, .printHold, .printRelease, .printFlush]

/-- The request a KIND byte names, or none where Table 12-2 leaves the KIND undefined (R182). -/
def requestOf (kind : Byte) : Option Request := Request.all.find? (fun r => r.code == kind)

end Sys2Proof
end

