-- ==== Sys2Proof/Machine/Flags.lean ====
section
/-! DEFINITION. The event flags (12.6): raising, clearing, ATTN, NOTICE and the transmit path that takes a
NOTICE (R183, R187–R189). -/

namespace Sys2Proof.Machine

open Sys2Proof

/-- The twelve events of Table 12-5. -/
inductive Event where
  | hvFault | interlock | card | tableFault | recordLost | logStall
  | roster | jobAborted | printer | defectReady | jobDone | linkError
  deriving DecidableEq, Repr

/-- The order number of an event (Table 12-5). -/
def Event.num : Event → Nat
  | .hvFault => 0
  | .interlock => 1
  | .card => 2
  | .tableFault => 3
  | .recordLost => 4
  | .logStall => 5
  | .roster => 6
  | .jobAborted => 7
  | .printer => 8
  | .defectReady => 9
  | .jobDone => 10
  | .linkError => 11

/-- The set that holds one event. -/
def Event.bit (e : Event) : BitVec 12 := 1#12 <<< e.num

def Events.isPending (v : Events) (e : Event) : Bool := v.pending.getLsbD e.num
def Events.isMasked (v : Events) (e : Event) : Bool := v.mask.getLsbD e.num

/-- Pending, unmasked events as order numbers. -/
def Events.visible (v : Events) : List Nat :=
  (List.range 12).filter (fun n => v.pending.getLsbD n && !v.mask.getLsbD n)

/-- The level of ATTN (R188). -/
def Events.attn (v : Events) : Bool :=
  v.visible.any (fun n => decide (v.attnLevel ≤ v.levels.getD n 0))

/-- The order of a NOTICE: level from 3 down, ascending order number within a level (R189). -/
def Events.noticeOrder (v : Events) : List Nat :=
  [3, 2, 1, 0].flatMap (fun l => v.visible.filter (fun n => v.levels.getD n 0 == l))

/-- The payload of a NOTICE (R189): the count, then (order number, level) for each event. -/
def Events.noticePayload (v : Events) : List Byte :=
  le1 v.visible.length ++ v.noticeOrder.flatMap (fun n => le1 n ++ le1 (v.levels.getD n 0))

/-- A host frame (Table 12-1). -/
def hostFrame (kind tag : Byte) (payload : List Byte) : List Byte :=
  let body := le2 payload.length ++ [kind, tag] ++ payload
  0xA5#8 :: body ++ crcBytes (crc16 body)

/-- The KIND of a reply (R182). -/
def replyKind (kind : Byte) : Byte := if kind.toNat ≤ 0x3F then kind + 0x80#8 else 0xFF#8

/-- Put the oldest ready reply of a slot list into transmission (R183). -/
def takeReply : List RxSlot → Option (List RxSlot × TxFrame)
  | [] => none
  | r :: rest =>
    match r.phase with
    | .ready p =>
      some ({ r with phase := .sending p } :: rest, ⟨true, hostFrame (replyKind r.kind) r.tag p⟩)
    | .waiting => (takeReply rest).map (fun x => (r :: x.1, x.2))
    | .carried => (takeReply rest).map (fun x => (r :: x.1, x.2))
    | .sending _ => (takeReply rest).map (fun x => (r :: x.1, x.2))

/-- Take a wanted NOTICE (R189): the wanted flag clears, and a frame goes out unless no event is visible. -/
def State.takeNotice (s : State) : State :=
  { s with
    events := { s.events with noticeWanted := false }
    host := { s.host with
      tx := if s.events.visible.isEmpty then s.host.tx
            else some ⟨false, hostFrame 0xC0#8 0#8 s.events.noticePayload⟩ } }

/-- The transmit path, when free, takes the older ready reply, else the other, else a wanted NOTICE (R183). -/
def State.txKick (s : State) : State :=
  match s.host.tx with
  | some _ => s
  | none =>
    match takeReply s.host.slots with
    | some (slots, f) => { s with host := { s.host with slots := slots, tx := some f } }
    | none => if s.events.noticeWanted then s.takeNotice else s

/-- A NOTICE becomes wanted; a free path takes it at once (R189; log 5). -/
def State.wantNotice (s : State) : State :=
  State.txKick { s with events := { s.events with noticeWanted := true } }

/-- Raise an event (R187, R189). -/
def State.raise (s : State) (e : Event) : State :=
  let s' := { s with events := { s.events with pending := s.events.pending ||| e.bit } }
  if s.events.isPending e || s.events.isMasked e then s' else s'.wantNotice

/-- Enter a cause in the CARD register: the position of the first raising stays (R187). -/
def CardReg.enter (r : CardReg) (c : CardCause) (pos : Nat) : CardReg :=
  match c with
  | .lost => { r with lost := r.lost.or (some pos) }
  | .driverFault => { r with driverFault := r.driverFault.or (some pos) }
  | .stuck => { r with stuck := r.stuck.or (some pos) }
  | .overtemp => { r with overtemp := r.overtemp.or (some pos) }

/-- Raise CARD with a cause and a position (R187). -/
def State.raiseCard (s : State) (c : CardCause) (pos : Nat) : State :=
  State.raise { s with events := { s.events with card := s.events.card.enter c pos } } .card

/-- Causes of PRINTER and LINK_ERROR (Table 12-5). -/
inductive PrinterCause where
  | paper | stall
  deriving DecidableEq, Repr

inductive LinkCause where
  | crc | timeout | overrun | length
  deriving DecidableEq, Repr

def PrinterReg.enter (r : PrinterReg) : PrinterCause → PrinterReg
  | .paper => { r with paper := true }
  | .stall => { r with stall := true }

def LinkReg.enter (r : LinkReg) : LinkCause → LinkReg
  | .crc => { r with crc := true }
  | .timeout => { r with timeout := true }
  | .overrun => { r with overrun := true }
  | .length => { r with length := true }

def State.raisePrinter (s : State) (c : PrinterCause) : State :=
  State.raise { s with events := { s.events with printer := s.events.printer.enter c } } .printer

def State.raiseLink (s : State) (c : LinkCause) : State :=
  State.raise { s with events := { s.events with link := s.events.link.enter c } } .linkError

/-- Clear the events of a set, with the cause registers of the shared ones (R191). -/
def Events.clear (v : Events) (m : BitVec 12) : Events :=
  { v with
    pending := v.pending &&& ~~~m
    card := if m.getLsbD Event.card.num then CardReg.empty else v.card
    printer := if m.getLsbD Event.printer.num then PrinterReg.empty else v.printer
    link := if m.getLsbD Event.linkError.num then LinkReg.empty else v.link }

end Sys2Proof.Machine
end

