-- ==== Sys2Proof/Machine/Lmu.lean ====
section
/-! DEFINITION. The low-voltage measurement unit (4.1–4.3): its phases, ranges, sums and results. -/

namespace Sys2Proof.Machine

open Sys2Proof

/-- What a measurement hands its issuer (R63, R66): a CONT value, CONT OVER, or an ISO result whose resistance
is none when it is OVER. -/
inductive LmuResult where
  | cont (range : CRange) (steps n mean raw : Nat)
  | contOver (steps : Nat)
  | iso (n v i : Nat) (r : Option Nat)
  deriving DecidableEq, Repr

/-- The range divisor D (Table 4-2). -/
def CRange.divisor : CRange → Nat
  | .r100 => 10000
  | .r10 => 1000
  | .r1 => 100

/-- The mean of `n` readings, rounded half up (R63, R66). -/
def meanOf (sum n : Nat) : Nat := (sum + n / 2) / n

/-- The raw resistance in mΩ (R64). -/
def rawResistance (mean : Nat) (r : CRange) : Nat := (mean * 3125 + r.divisor / 2) / r.divisor

/-- The ISO resistance in kΩ, none for OVER (R67). -/
def isoResistance (v i : Nat) : Option Nat := if i = 0 then none else some ((v * 1000 + i / 2) / i)

/-- Lead compensation (R65): the difference, or 0 where it would be below. -/
def compensated (raw la lb : Nat) : Nat := raw - la - lb

/-- The source off, the phase IDLE (R60). -/
def Lmu.stop (l : Lmu) : Lmu := { l with phase := .idle, timer := none }

/-- A discard (R60, R66): the source off, the sums cleared, no value handed over. -/
def Lmu.discard (l : Lmu) : Lmu :=
  { l.stop with count := 0, codeSum := 0, vSum := 0, iSum := 0, rangeSteps := 0, waiting := none }

/-- A measurement begins: STABILISE for 2 ms in CONT, the ISO settle time in ISO (R61, R66). -/
def Lmu.start (l : Lmu) (m : MeasReq) (who : LmuIssuer) : Lmu :=
  { l with
    phase := .stabilise
    mode := m.mode
    range := if m.mode = .cont then m.range else l.range
    n := m.n
    settle := m.settle
    count := 0
    codeSum := 0
    vSum := 0
    iSum := 0
    rangeSteps := 0
    issuer := who
    timer := some (if m.mode = .cont then 2 else m.settle)
    waiting := none }

/-- STABILISE ends (R61, R66): SAMPLE with the sums and the count at 0. -/
def Lmu.sampling (l : Lmu) : Lmu :=
  { l with phase := .sample, timer := none, count := 0, codeSum := 0, vSum := 0, iSum := 0 }

/-- The next lower current (R62). -/
def CRange.lower : CRange → Option CRange
  | .r100 => some .r10
  | .r10 => some .r1
  | .r1 => none

/-- A CONT conversion in SAMPLE (R61–R64). -/
def Lmu.contCode (l : Lmu) (code : Nat) : Lmu × Option LmuResult :=
  if code = 65535 then
    match l.range.lower with
    | some r =>
      ({ l with phase := .stabilise, timer := some 2, range := r, rangeSteps := l.rangeSteps + 1
                count := 0, codeSum := 0 }, none)
    | none => ({ l.stop with count := 0, codeSum := 0 }, some (.contOver l.rangeSteps))
  else
    let l1 := { l with count := l.count + 1, codeSum := l.codeSum + code }
    if l1.n ≤ l1.count then
      let mean := meanOf l1.codeSum l1.n
      (l1.stop, some (.cont l1.range l1.rangeSteps l1.n mean (rawResistance mean l1.range)))
    else (l1, none)

/-- An ISO conversion in SAMPLE (R66, R67); each reading saturates at the top of its range (4.1). -/
def Lmu.isoPair (l : Lmu) (v i : Nat) : Lmu × Option LmuResult :=
  let l1 := { l with count := l.count + 1, vSum := l.vSum + min v 10000, iSum := l.iSum + min i 10000000 }
  if l1.n ≤ l1.count then
    let vm := meanOf l1.vSum l1.n
    let im := meanOf l1.iSum l1.n
    (l1.stop, some (.iso l1.n vm im (isoResistance vm im)))
  else (l1, none)

/-- A request for a measurement (R60): it begins when the source may be on, and waits otherwise. -/
def State.requestMeasure (s : State) (m : MeasReq) (who : LmuIssuer) : State :=
  if s.sourceAllowed then { s with lmu := s.lmu.start m who }
  else { s with lmu := { s.lmu with waiting := some (m, who) } }

/-- The source goes off at once where it is on (R60: the slot enters SENDING or the rail leaves SAFE). -/
def Lmu.sourceOff (l : Lmu) : Lmu :=
  match l.phase with
  | .idle => l
  | .stabilise => l.discard
  | .sample => l.discard

/-! ### Judgments (4.4) -/

inductive Band where
  | connected | high | opn
  deriving DecidableEq, Repr

/-- The band of a continuity value, none being OVER (R69). -/
def bandOf (v : Option Nat) (pass opn : Nat) : Band :=
  match v with
  | none => .opn
  | some r => if r ≤ pass then .connected else if r < opn then .high else .opn

/-- Whether an ISO result is a LEAK (R70). -/
def isLeak (r : Option Nat) (limit : Nat) : Bool :=
  match r with
  | none => false
  | some k => decide (k < limit)

end Sys2Proof.Machine
end

