-- ==== Sys2Proof/Machine/Matrix.lean ====
section
/-! DEFINITION. Card-link exchanges (2.2–2.4) and the matrix controller's plans (3.2–3.5). -/

namespace Sys2Proof.Machine

open Sys2Proof

/-! ### Exchanges -/

/-- The position a frame is addressed to individually (R20). -/
def Sent.position : Sent → Option Nat
  | .assign _ => none
  | .set p _ => some p
  | .allOpen => none
  | .attnQuery => none
  | .attnClear p => some p
  | .status p => some p

/-- Whether a frame expects a reply (R20). -/
def Sent.expectsReply : Sent → Bool
  | .assign _ => true
  | .set _ _ => true
  | .allOpen => false
  | .attnQuery => true
  | .attnClear _ => true
  | .status _ => true

/-- Whether an exchange belongs to attention polling (R36). -/
def Sent.isAttention : Sent → Bool
  | .assign _ => false
  | .set _ _ => false
  | .allOpen => false
  | .attnQuery => true
  | .attnClear _ => true
  | .status _ => true

/-- Frame kind codes (Table 2-3). -/
def Sent.code : Sent → Nat
  | .assign _ => 1
  | .set _ _ => 2
  | .allOpen => 3
  | .attnQuery => 4
  | .attnClear _ => 5
  | .status _ => 6

/-- The sequence bit of a position (R23). -/
def Link.seqBit (l : Link) (p : Nat) : Bool := l.seqBits.getD (p - 1) false

/-- Send a frame (R20, R23, R25): a new addressed transaction inverts its position's bit, a broadcast and
ASSIGN carry 0; the reply timer runs where a reply is due. -/
def Link.send (l : Link) (f : Sent) : Link :=
  let l1 := match f.position with
    | some p => { l with seqBits := l.seqBits.set (p - 1) (!l.seqBit p) }
    | none => l
  let bit := match f.position with
    | some p => l1.seqBit p
    | none => false
  { l1 with
    exchange := some ⟨f, bit, false⟩
    replyTimer := if f.expectsReply then some l.replyTimeout else none }

/-- The exchange has ended (R25). -/
def Link.endExchange (l : Link) : Link := { l with exchange := none, replyTimer := none }

/-- The identical frame is resent and the timer restarted (R25). -/
def Link.resend (l : Link) (e : Exchange) : Link :=
  { l with exchange := some { e with resent := true }, replyTimer := some l.replyTimeout }

def State.sendCard (s : State) (f : Sent) : State := { s with link := s.link.send f }

/-! ### Plans -/

/-- What becomes of a plan: complete with the count of positions touched, refused with a cause and a point
(R44), failed at a position, by its loss or because it is not PRESENT (R51). -/
inductive PlanOutcome where
  | complete (touched : Nat)
  | refused (c : PlanCause) (pt : Nat)
  | failed (lost : Bool) (pos : Nat)
  deriving DecidableEq, Repr

/-- A report to an issuer. -/
structure Report where
  issuer : Issuer
  outcome : PlanOutcome
  deriving DecidableEq, Repr

/-- The first check of R44 a target fails. A reference point meets the last two checks alone. -/
def State.checkTarget (s : State) (t : Nat × Rail) : Option PlanCause :=
  match s.chanOf t.1 with
  | none => some .unmappedPoint
  | some c =>
    if !s.reachable c then some .unreachableCard
    else if decide (c.pos ≠ 0) && s.isBlocked c then some .blockedPoint
    else if !s.railAllowed c t.2 then some .notHvCapable
    else none

/-- The first target that fails, with its cause (R44). -/
def State.planRefusal (s : State) (ts : List (Nat × Rail)) : Option (PlanCause × Nat) :=
  ts.findSome? (fun t => (s.checkTarget t).map (fun c => (c, t.1)))

/-- The targets translated through the point map (R5). -/
def State.translate (s : State) (ts : List (Nat × Rail)) : List (Chan × Rail) :=
  ts.filterMap (fun t => (s.chanOf t.1).map (fun c => (c, t.2)))

def PlanBody.others : PlanBody → Bool
  | .targets _ o => o
  | .allOpen => true
  | .opens _ => false

def PlanBody.isAllOpen : PlanBody → Bool
  | .targets _ _ => false
  | .allOpen => true
  | .opens _ => false

/-- An UNBLOCK plan leaves out channels on positions that are not PRESENT (R58). -/
def PlanBody.skipsAbsent : PlanBody → Bool
  | .targets _ _ => false
  | .allOpen => false
  | .opens _ => true

/-- The target a taken plan names for a channel. -/
def Taken.targetOf (t : Taken) (c : Chan) : Option Rail := (t.changes.find? (fun e => e.1 == c)).map (·.2)

/-- The target of a channel under the plan, the flag included (R47): none leaves it as it is. Under the flag a
blocked channel is passed over; the all-open plan opens the reference channels (R49). -/
def State.wanted (s : State) (t : Taken) (c : Chan) : Option Rail :=
  match t.targetOf c with
  | some r => some r
  | none => if t.plan.body.others && !(s.isBlocked c) then some .opn else none

/-- The change list of position 0: the reference channels that are not at their targets (R47). -/
def State.refChanges (s : State) (t : Taken) : List (Nat × Rail) :=
  (List.range 4).filterMap (fun k =>
    match s.wanted t ⟨0, k⟩ with
    | some r => if s.imageOf ⟨0, k⟩ = some r then none else some (k, r)
    | none => none)

/-- Whether a target names a channel of a position. -/
def Taken.names (t : Taken) (p : Nat) : Bool := t.changes.any (fun e => e.1.pos == p)

/-- The change list of a position 1–32 at the moment its turn comes, in ascending channel order (R47): channels of
the recorded kind alone (R19), HV for an HV-64 position alone (R45). An UNBLOCK of a channel that the kind now recorded
does not have lists nothing for it, as for a position that is not PRESENT (log 29). -/
def State.changeList (s : State) (t : Taken) (p : Nat) : List (Nat × Rail) :=
  (List.range (s.posn p).kind.channels).filterMap (fun k =>
    match t.targetOf ⟨p, k⟩ with
    | some r => if s.imageOf ⟨p, k⟩ = some r || !(s.railAllowed ⟨p, k⟩ r) then none else some (k, r)
    | none =>
      if t.plan.body.others && decide (s.imageOf ⟨p, k⟩ ≠ some .opn) && !(s.isBlocked ⟨p, k⟩) then some (k, .opn)
      else none)

/-- The listed channels of a position take their targets in the image (R47, R48). -/
def writeImage (image : List (Nat × Rail)) (p : Nat) (items : List (Nat × Rail)) : List (Nat × Rail) :=
  items.foldl (fun im it => tset im (p * 128 + it.1) it.2) image

def State.setImage (s : State) (im : List (Nat × Rail)) : State := { s with matrix := { s.matrix with image := im } }

def State.setSlot (s : State) (x : Slot) : State := { s with matrix := { s.matrix with slot := x } }

/-- The settle time a touched position asks for (R50). -/
def State.settleOf (s : State) (p : Nat) : Nat :=
  if p = 0 then 1
  else match (s.posn p).kind with
    | .lv128 => s.link.lvSettle
    | .hv64 => s.link.hvSettle
    | .none => 0
    | .other => 0

/-- The last position has been dealt with (R50): SETTLING for the largest settle time, or complete at once
where no position was touched. -/
def State.dealt (s : State) (t : Taken) (touched : List Nat) : State × Option PlanOutcome :=
  match touched with
  | [] => (s.setSlot .empty, some (.complete 0))
  | _ :: _ => (s.setSlot (.settling t touched ((touched.map s.settleOf).foldl max 0)), none)

/-- Deal with the positions from `pos` on in ascending order (R47, R51), `fuel` of them at most. A SET that
finds an attention exchange on the link waits for its end (R36, R48); positions that need no SET are dealt with before
that end (log 31). -/
def State.dealFrom : Nat → Taken → Nat → List Nat → State → State × Option PlanOutcome
  | 0, t, _, touched, s => s.dealt t touched
  | fuel + 1, t, pos, touched, s =>
    let items := s.changeList t pos
    if items.isEmpty then State.dealFrom fuel t (pos + 1) touched s
    else if (s.posn pos).state = .present then
      if s.link.exchange.isSome then (s.setSlot (.sending t pos touched), none)
      else ((s.setSlot (.sending t pos touched)).sendCard (.set pos items), none)
    else if t.plan.body.skipsAbsent || !(t.names pos) then State.dealFrom fuel t (pos + 1) touched s
    else (s.setSlot .empty, some (.failed false pos))

/-- The positions from `pos` to 32. -/
def State.dealRest (s : State) (t : Taken) (pos : Nat) (touched : List Nat) : State × Option PlanOutcome :=
  State.dealFrom (33 - pos) t pos touched s

/-- ALL_OPEN goes out, or waits for the end of an attention exchange (R49, R36). -/
def State.sendAllOpen (s : State) : State :=
  if s.link.exchange.isSome then s else s.sendCard .allOpen

/-- A plan enters SENDING (R46, R47, R49): the LMU source is off, position 0 is switched internally, and the
cards follow. -/
def State.enterSending (s : State) (t : Taken) : State × Option PlanOutcome :=
  let s0 := { s with lmu := s.lmu.sourceOff }
  let refs := s0.refChanges t
  let s1 := s0.setImage (writeImage s0.matrix.image 0 refs)
  let touched := if refs.isEmpty then [] else [0]
  if t.plan.body.isAllOpen then ((s1.setSlot (.sending t 0 touched)).sendAllOpen, none)
  else (s1.setSlot (.sending t 1 touched)).dealRest t 1 touched

/-- A plan that passed its checks is taken: SENDING with the rail SAFE, HELD otherwise (R46). -/
def State.enterSlot (s : State) (t : Taken) : State × Option PlanOutcome :=
  if s.hv.rail = .safe then s.enterSending t else (s.setSlot (.held t), none)

/-- Examine a plan for taking, the slot being EMPTY (R44, R58). -/
def State.takePlan (s : State) (p : Plan) : State × Option PlanOutcome :=
  match p.body with
  | .targets ts _ =>
    match s.planRefusal ts with
    | some (c, pt) => (s, some (.refused c pt))
    | none => s.enterSlot ⟨p, s.translate ts⟩
  | .allOpen => s.enterSlot ⟨p, []⟩
  | .opens cs => s.enterSlot ⟨p, cs.map (fun c => (c, .opn))⟩

/-- The slot is EMPTY: the waiting plans are examined in the order they were offered (R43). -/
def State.takeWaiting : List Plan → State → State × List Report
  | [], s => ({ s with matrix := { s.matrix with waiting := [] } }, [])
  | p :: ps, s =>
    match State.takePlan { s with matrix := { s.matrix with waiting := ps } } p with
    | (s1, none) => (s1, [])
    | (s1, some o) =>
      let (s2, rs) := State.takeWaiting ps s1
      (s2, ⟨p.issuer, o⟩ :: rs)

/-- Turn what became of a plan into reports; an emptied slot takes the waiting plans (R43). -/
def reports (who : Issuer) (x : State × Option PlanOutcome) : State × List Report :=
  match x with
  | (s, none) => (s, [])
  | (s, some o) =>
    let (s1, rs) := State.takeWaiting s.matrix.waiting s
    (s1, ⟨who, o⟩ :: rs)

/-- Offer a plan (R43): examined at once while the slot is EMPTY, else it waits. -/
def State.offerPlan (s : State) (p : Plan) : State × List Report :=
  if s.matrix.slot.isEmpty then reports p.issuer (s.takePlan p)
  else ({ s with matrix := { s.matrix with waiting := s.matrix.waiting ++ [p] } }, [])

/-- The link break begins (R29). -/
def State.startBreak (s : State) : State :=
  { s with link := { s.link with enumPhase := .linkBreak, discovered := [] } }

/-- The link is free after an exchange: an enumeration that waited begins its break (R28), else a plan in
SENDING goes on (R36, R47). -/
def State.linkFree (s : State) : State × List Report :=
  if s.link.enumPhase = .waitLink then (s.startBreak, [])
  else
    match s.matrix.slot with
    | .sending t pos touched =>
      if t.plan.body.isAllOpen then (s.sendAllOpen, [])
      else reports t.plan.issuer (s.dealRest t pos touched)
    | .empty => (s, [])
    | .held _ => (s, [])
    | .settling _ _ _ => (s, [])

/-- The image after ALL_OPEN (R49): channels of PRESENT positions OPEN, blocked ones as they were. -/
def State.allOpenImage (s : State) : List (Nat × Rail) :=
  positions.foldl (fun im p =>
    if (s.posn p).state = .present then
      rewritePos im p (fun k old =>
        if decide (k < (s.posn p).kind.channels) && !(s.isBlocked ⟨p, k⟩) then some .opn else old)
    else im) s.matrix.image

/-- The positions an all-open plan counts as touched (R49). -/
def State.allOpenTouched (s : State) : List Nat :=
  0 :: positions.filter (fun p => decide ((s.posn p).state = .present))

/-- A plan whose job has left the queue has no issuer (R52). -/
def Slot.orphan : Slot → Slot
  | .held t => .held { t with plan := { t.plan with issuer := .nobody } }
  | .sending t pos touched => .sending { t with plan := { t.plan with issuer := .nobody } } pos touched
  | .settling t touched ms => .settling { t with plan := { t.plan with issuer := .nobody } } touched ms
  | .empty => .empty

/-- The issuer of the plan in the slot. -/
def Slot.issuer : Slot → Option Issuer
  | .empty => none
  | .held t => some t.plan.issuer
  | .sending t _ _ => some t.plan.issuer
  | .settling t _ _ => some t.plan.issuer

end Sys2Proof.Machine
end

