-- ==== Sys2Proof/Machine/TestLog.lean ====
section
/-! DEFINITION. The test log (10): taking records, marks, capacity and reserve, notification. -/

namespace Sys2Proof.Machine

open Sys2Proof

/-- Free entries (R158). -/
def Log.free (l : Log) : Nat := 256 - l.entries.length

/-- The host-pending count (R164). -/
def Log.hostPending (l : Log) : Nat := l.entries.countP (·.hostMark)

/-- The test occupancy (R158). -/
def Log.testOccupancy (l : Log) : Nat := l.entries.countP (fun e => !e.data.system)

/-- The sequence number after one (R156). -/
def nextSeqNum (n : Nat) : Nat := if n = 4294967295 then 1 else n + 1

/-- A record taken now gets a print mark (R157). -/
def State.printMarks (s : State) : Bool := decide (s.printer.state ≠ .off)

/-- A record taken now carries at least one mark, so that it needs an entry (R157). -/
def State.marks (s : State) : Bool := s.printMarks || s.log.reporting

/-- The log numbers a record and gives it its marks; unmarked it is at once gone (R156, R157). -/
def Log.take (l : Log) (printMark : Bool) (d : RecData) : Log :=
  { l with
    nextSeq := nextSeqNum l.nextSeq
    entries := if printMark || l.reporting then l.entries ++ [⟨l.nextSeq, printMark, l.reporting, d⟩]
               else l.entries }

/-- Stop the notify timer. -/
def State.stopNotify (s : State) : State := { s with log := { s.log with notifyTimer := none } }

/-- Start the notify timer for the notify timeout (R164). -/
def State.startNotify (s : State) : State := { s with log := { s.log with notifyTimer := some s.log.timeout } }

/-- Raise DEFECT_READY; the notify timer never runs while it is pending (R164). -/
def State.defectReady (s : State) : State := s.stopNotify.raise .defectReady

/-- Notification at the taking of a host-marked record (R164). -/
def State.notifyTaken (s : State) : State :=
  if s.log.threshold ≤ s.log.hostPending then s.defectReady
  else if s.log.notifyTimer.isSome || s.events.isPending .defectReady then s
  else s.startNotify

/-- Notification evaluated afresh (R163, R166); a timer already running keeps its expiry: so R163 says of
SET_REPORTING, and log 38 of a CLEAR_EVENTS. -/
def State.notifyFresh (s : State) : State :=
  if s.log.threshold ≤ s.log.hostPending then s.defectReady
  else if decide (0 < s.log.hostPending) && s.log.notifyTimer.isNone then s.startNotify
  else s

/-- The log takes a record (R156, R157, R164). Its notification belongs to the taking, and so comes before what an idle
formatter does with the record (R170): DESIGN CHOICE (log 42). -/
def State.take (s : State) (d : RecData) : State :=
  let s' := { s with log := s.log.take s.printMarks d }
  if s.log.reporting then s'.notifyTaken else s'

/-- Offer a system record (R160): the second component says whether it was taken. -/
def State.offerSystem (s : State) (d : RecData) : State × Bool :=
  if s.marks && s.log.free == 0 then
    (State.raise { s with log := { s.log with dropped := min 65535 (s.log.dropped + 1) } } .recordLost, false)
  else (s.take d, true)

/-- Offer a test record (R159): refused with LOG_STALL, at its first offering, when fewer than 9 entries are
free and it needs one. -/
def State.offerTest (s : State) (first : Bool) (d : RecData) : State × Bool :=
  if s.marks && decide (s.log.free < 9) then (if first then s.raise .logStall else s, false)
  else (s.take d, true)

/-- Clear marks by a rule on entries; an entry without a mark is gone (R158). -/
def Log.clearMarks (l : Log) (f : Entry → Entry) : Log :=
  { l with entries := (l.entries.map f).filter (fun e => e.printMark || e.hostMark) }

/-- Stop the notify timer once no record waits for the host (R165). -/
def State.notifyEmptied (s : State) : State := if s.log.hostPending = 0 then s.stopNotify else s

/-- The oldest print-marked entry (R158). -/
def Log.oldestPrint (l : Log) : Option Entry := l.entries.find? (·.printMark)

end Sys2Proof.Machine
end

