-- ==== Sys2Proof/Machine/NetRead.lean ====
section
/-! DEFINITION. The checked read of a net record (R17, R18), shared by every reader. -/

namespace Sys2Proof.Machine

open Sys2Proof

/-- The answer to a read of a net: its contents; not stored; CORRUPT already; or found upset by this read,
with whether the log took the TABLE_FAULT record. -/
inductive NetAnswer where
  | contents (b : NetBody)
  | missing
  | corrupt
  | upset (taken : Bool)
  deriving DecidableEq, Repr

/-- The TABLE_FAULT record (R17): the tag only when the cause is START or RUN. -/
def tableFaultRec (n : Nat) (c : ReadCause) (tag : Option Nat) : RecData :=
  { kind := .tableFault, system := true, net := some n, cause := some (.table c)
    tag := match c with
      | .read => none
      | .start => tag
      | .run => tag }

/-- A read of a stored net (R17): a net marked CORRUPT is not read (R18); a mismatch marks it, appends
TABLE_FAULT and raises the event. `onRecord` is what an idle formatter does with the record (R170): it acts before the
event is raised (log 30) and after the log's notification (log 42). -/
def State.readNetWith (onRecord : State → State) (s : State) (c : ReadCause) (n : Nat) : State × NetAnswer :=
  match s.findNet n with
  | none => (s, .missing)
  | some r =>
    if r.corrupt then (s, .corrupt)
    else if r.check == r.body.checkValue then (s, .contents r.body)
    else
      let s1 := { s with store := s.store.markCorrupt n }
      let (s2, taken) := s1.offerSystem (tableFaultRec n c s.headTag)
      ((onRecord s2).raise .tableFault, .upset taken)

/-- The read a label lookup makes (R170): the formatter is not idle. -/
def State.readNet (s : State) (c : ReadCause) (n : Nat) : State × NetAnswer := s.readNetWith id c n

end Sys2Proof.Machine
end

