-- ==== Sys2Proof/Machine/Render.lean ====
section
/-! DEFINITION. The rendering of log records as printed lines (11.4, R177, R178). -/

namespace Sys2Proof.Machine

open Sys2Proof

/-- The characters of a text as bytes. -/
def ascii (t : String) : List Byte := t.toList.map (fun c => BitVec.ofNat 8 c.toNat)

def digit (d : Nat) : Byte := BitVec.ofNat 8 (48 + d % 10)

/-- `k` digits with leading zeros. -/
def padded (k n : Nat) : List Byte := (List.range k).reverse.map (fun i => digit (n / 10 ^ i))

/-- The digits of a number without leading zeros, by `fuel` at most. -/
def decimalAux : Nat → Nat → List Byte → List Byte
  | 0, _, acc => acc
  | fuel + 1, n, acc => if n < 10 then digit n :: acc else decimalAux fuel (n / 10) (digit n :: acc)

def decimal (n : Nat) : List Byte := decimalAux 20 n []

/-- `v` div 1000, ".", three digits (Table 11-3). -/
def thousandths (v : Nat) : List Byte := decimal (v / 1000) ++ ascii "." ++ padded 3 (v % 1000)

/-- A value in the form of its unit; OVER is written OPEN (R177). -/
def renderValue (v : Value) : List Byte :=
  match v.amount with
  | none => ascii "OPEN"
  | some n =>
    match v.unit with
    | .mOhm => thousandths n ++ ascii " OHM"
    | .kOhm => if n = 99999999 then ascii ">99999.999 MOHM" else thousandths n ++ ascii " MOHM"
    | .dV => decimal (n / 10) ++ ascii "." ++ decimal (n % 10) ++ ascii " V"
    | .nA => thousandths n ++ ascii " UA"
    | .count => ascii "G" ++ decimal n

def renderRange : CRange → List Byte
  | .r100 => ascii "100MA"
  | .r10 => ascii "10MA"
  | .r1 => ascii "1MA"

def renderPoint (p : Nat) : List Byte := ascii "P" ++ padded 4 p
def renderPos (p : Nat) : List Byte := ascii "C" ++ padded 2 p
def renderTag : Option Nat → List Byte
  | none => ascii "---"
  | some t => padded 3 t

/-- A net: its label where the lookup gave one, else "N" and four digits (R170). -/
def renderNet (names : List (Nat × List Byte)) (n : Nat) : List Byte :=
  match names.find? (fun e => e.1 == n) with
  | some (_, label) => if label.isEmpty then ascii "N" ++ padded 4 n else label
  | none => ascii "N" ++ padded 4 n

def RecKind.text : RecKind → List Byte
  | .jobStart => ascii "JOB_START"
  | .opn => ascii "OPEN"
  | .high => ascii "HIGH"
  | .detached => ascii "DETACHED"
  | .short => ascii "SHORT"
  | .irLow => ascii "IR_LOW"
  | .breakdown => ascii "BREAKDOWN"
  | .arc => ascii "ARC"
  | .refFail => ascii "REF_FAIL"
  | .leadHigh => ascii "LEAD_HIGH"
  | .learnHigh => ascii "LEARN_HIGH"
  | .learnLeak => ascii "LEARN_LEAK"
  | .jobEnd => ascii "JOB_END"
  | .cardFault => ascii "CARD_FAULT"
  | .cardWarn => ascii "CARD_WARN"
  | .cardLost => ascii "CARD_LOST"
  | .stuckRelay => ascii "STUCK_RELAY"
  | .rosterMismatch => ascii "ROSTER_MISMATCH"
  | .interlock => ascii "INTERLOCK"
  | .hvFault => ascii "HV_FAULT"
  | .tableFault => ascii "TABLE_FAULT"

def CardKind.text : CardKind → List Byte
  | .none => ascii "NONE"
  | .lv128 => ascii "LV-128"
  | .hv64 => ascii "HV-64"
  | .other => ascii "OTHER"

/-- The name of a frame kind of Table 2-3, for CARD_LOST. -/
def frameText (code : Nat) : List Byte :=
  if code = 2 then ascii "SET" else if code = 5 then ascii "ATTN_CLEAR" else if code = 6 then ascii "STATUS"
  else decimal code

def DisCause.text : DisCause → List Byte
  | .verdict => ascii "VERDICT"
  | .breakdown => ascii "BREAKDOWN"
  | .interrupted => ascii "INTERRUPTED"
  | .stop => ascii "STOP"
  | .reset => ascii "RESET"

def RecCause.text : RecCause → List Byte
  | .brk .trip => ascii "TRIP"
  | .brk .collapse => ascii "COLLAPSE"
  | .window => ascii "WINDOW"
  | .refBreakdown => ascii "BREAKDOWN"
  | .frame c => frameText c
  | .roster e f => ascii "EXP " ++ e.text ++ ascii " FOUND " ++ f.text
  | .openAtStart => ascii "OPEN_AT_START"
  | .openedDuringStep => ascii "OPENED_DURING_STEP"
  | .discharge c => c.text
  | .table .read => ascii "READ"
  | .table .start => ascii "START"
  | .table .run => ascii "RUN"

def EndReason.text : EndReason → List Byte
  | .complete => ascii "COMPLETE"
  | .abortedHost => ascii "ABORTED_HOST"
  | .abortedCard => ascii "ABORTED_CARD"
  | .abortedTable => ascii "ABORTED_TABLE"
  | .abortedHvFault => ascii "ABORTED_HV_FAULT"
  | .unmappedPoint => ascii "UNMAPPED_POINT"
  | .unreachableCard => ascii "UNREACHABLE_CARD"
  | .blockedPoint => ascii "BLOCKED_POINT"
  | .notHvCapable => ascii "NOT_HV_CAPABLE"
  | .tableCorrupt => ascii "TABLE_CORRUPT"
  | .emptyTable => ascii "EMPTY_TABLE"
  | .refFailed => ascii "REF_FAILED"
  | .badRange => ascii "BAD_RANGE"
  | .fixtureLeak => ascii "FIXTURE_LEAK"
  | .tableFull => ascii "TABLE_FULL"
  | .netTooLarge => ascii "NET_TOO_LARGE"

def CardCause.text : CardCause → List Byte
  | .lost => ascii "LOST"
  | .driverFault => ascii "DRIVER_FAULT"
  | .stuck => ascii "STUCK"
  | .overtemp => ascii "OVERTEMP"

def PlanCause.text : PlanCause → List Byte
  | .unmappedPoint => ascii "UNMAPPED_POINT"
  | .unreachableCard => ascii "UNREACHABLE_CARD"
  | .blockedPoint => ascii "BLOCKED_POINT"
  | .notHvCapable => ascii "NOT_HV_CAPABLE"

/-- Fields in order, separated by one space, absent ones left out with their separator (R178). -/
def spaced (fs : List (Option (List Byte))) : List Byte := (ascii " ").intercalate (fs.filterMap id)

/-- The detail of a JOB_END as it is printed (Table 11-5, R149; log 19). -/
def renderDetail (names : List (Nat × List Byte)) : EndDetail → List (Option (List Byte))
  | .nothing => []
  | .net n => [some (renderNet names n)]
  | .point p => [some (renderPoint p)]
  | .position p => [some (renderPos p)]
  | .current c => [some (renderValue ⟨.nA, some c⟩)]
  | .card c p => [some c.text, some (renderPos p)]
  | .plan c p => [some c.text, some (renderPoint p)]

def renderRunOf (first last : Nat) : List Byte := decimal first ++ ascii "-" ++ decimal last

/-- The second line of a JOB_START (Table 11-5). -/
def renderJob : JobSpec → List (Option (List Byte))
  | .check f l ph =>
    [some (ascii "CHECK"), some (renderRunOf f l),
     some (match ph with | .cont => ascii "CONT" | .iso => ascii "ISO" | .both => ascii "BOTH")]
  | .insulate f l loc auto =>
    [some (ascii "INSULATE"), some (renderRunOf f l), some (if loc then ascii "LOC" else ascii "NOLOC"),
     some (if auto then ascii "AUTO" else ascii "MANUAL")]
  | .learn hv => [some (ascii "LEARN"), some (if hv then ascii "HV" else ascii "NOHV")]
  | .learnLeads c => [some (ascii "LEARN_LEADS"), some (renderPoint c)]
  | .refcheck => [some (ascii "REFCHECK")]

/-- The partner of an insulation record: other net or point b (Table 11-5). -/
def renderPartner (names : List (Nat × List Byte)) (d : RecData) : Option (List Byte) :=
  (d.otherNet.map (renderNet names)).or (d.pointB.map renderPoint)

def renderArcs (n : Nat) : List Byte := ascii "ARC " ++ decimal n

/-- The fields of a record's second line (Table 11-5). -/
def secondLine (names : List (Nat × List Byte)) (d : RecData) : List (Option (List Byte)) :=
  match d.kind with
  | .jobStart => (d.job.map renderJob).getD []
  | .high => [d.pointA.map renderPoint, d.pointB.map renderPoint, d.value.map renderValue, d.range.map renderRange]
  | .opn => [d.pointA.map renderPoint, d.pointB.map renderPoint, d.value.map renderValue, d.range.map renderRange]
  | .learnHigh =>
    [d.pointA.map renderPoint, d.pointB.map renderPoint, d.value.map renderValue, d.range.map renderRange]
  | .detached => [d.pointA.map renderPoint]
  | .short =>
    [d.pointA.map renderPoint, d.pointB.map renderPoint, d.otherNet.map (renderNet names), d.value.map renderValue,
     d.range.map renderRange, d.second.map renderValue]
  | .irLow => [renderPartner names d, d.value.map renderValue, d.arcs.map renderArcs]
  | .arc => [renderPartner names d, d.value.map renderValue, d.arcs.map renderArcs]
  | .breakdown =>
    [renderPartner names d, d.value.map renderValue, d.second.map renderValue, d.cause.map RecCause.text]
  | .refFail =>
    [d.cause.map RecCause.text, d.value.map renderValue, d.second.map renderValue, d.range.map renderRange,
     d.arcs.map renderArcs]
  | .leadHigh => [d.pointA.map renderPoint, d.pointB.map renderPoint, d.value.map renderValue, d.range.map renderRange]
  | .learnLeak =>
    [d.pointA.map renderPoint, d.pointB.map renderPoint, d.value.map renderValue, d.second.map renderValue]
  | .jobEnd =>
    (d.counts.map (fun c => some c.ended.reason.text :: renderDetail names c.ended.detail)).getD []
  | .cardFault => []
  | .cardWarn => []
  | .stuckRelay => []
  | .cardLost => [d.cause.map RecCause.text]
  | .rosterMismatch => [d.cause.map RecCause.text]
  | .interlock => [d.cause.map RecCause.text]
  | .hvFault => [d.cause.map RecCause.text, d.value.map renderValue, d.second.map renderValue]
  | .tableFault => [d.cause.map RecCause.text]

/-- The place field, columns 33–40 (Table 11-5). -/
def place (names : List (Nat × List Byte)) (d : RecData) : List Byte :=
  match d.kind with
  | .jobStart => []
  | .opn => (d.net.map (renderNet names)).getD []
  | .high => (d.net.map (renderNet names)).getD []
  | .detached => (d.net.map (renderNet names)).getD []
  | .short => (d.net.map (renderNet names)).getD []
  | .irLow => (d.net.map (renderNet names)).getD []
  | .breakdown => (d.net.map (renderNet names)).getD []
  | .arc => (d.net.map (renderNet names)).getD []
  | .refFail => []
  | .leadHigh => []
  | .learnHigh => (d.net.map (renderNet names)).getD []
  | .learnLeak => (d.net.map (renderNet names)).getD []
  | .jobEnd => (d.counts.map (fun c => ascii "T" ++ decimal (min 9999999 c.tests))).getD []
  | .cardFault => (d.position.map renderPos).getD []
  | .cardWarn => (d.position.map renderPos).getD []
  | .cardLost => (d.position.map renderPos).getD []
  | .stuckRelay =>
    (d.position.map renderPos).getD [] ++ (d.channel.map (fun c => ascii "CH" ++ decimal c)).getD []
  | .rosterMismatch => (d.position.map renderPos).getD []
  | .interlock => (d.net.map (renderNet names)).getD []
  | .hvFault => []
  | .tableFault => (d.net.map (renderNet names)).getD []

def flagLetter (b : Bool) (t : String) : List Byte := if b then ascii t else ascii "."

/-- Columns 27–31: letters or dots for a test record, spaces for a system record (Table 11-4). -/
def flagField (d : RecData) : List Byte :=
  if d.system then ascii "     "
  else flagLetter d.flags.u "U" ++ flagLetter d.flags.c "C" ++ flagLetter d.flags.a "A"
    ++ flagLetter d.flags.n "N" ++ flagLetter d.flags.s "S"

/-- A line without its trailing spaces (R178). -/
def trimLine (l : List Byte) : List Byte := (l.reverse.dropWhile (fun b => b == 0x20#8)).reverse

def padRight (k : Nat) (l : List Byte) : List Byte := l ++ List.replicate (k - l.length) 0x20#8

/-- The first line (Table 11-4). -/
def firstLine (names : List (Nat × List Byte)) (e : Entry) : List Byte :=
  padded 6 (e.seq % 1000000) ++ ascii " " ++ renderTag e.data.tag ++ ascii " "
    ++ padRight 15 e.data.kind.text ++ flagField e.data ++ ascii " " ++ place names e.data

/-- The lines of a record, each with its CR and LF (R178). -/
def renderLines (names : List (Nat × List Byte)) (e : Entry) : List (List Byte) :=
  let fs := (secondLine names e.data).filterMap id
  let one := trimLine (firstLine names e) ++ [0x0D#8, 0x0A#8]
  if fs.isEmpty then [one] else [one, trimLine (spaced (fs.map some)) ++ [0x0D#8, 0x0A#8]]

/-- The nets a record names, in the order they are looked up (R170). -/
def RecData.netsNamed (d : RecData) : List Nat :=
  d.net.toList ++ d.otherNet.toList ++
    (match d.counts with
     | some c => (match c.ended.detail with
        | .net n => [n]
        | .nothing => []
        | .point _ => []
        | .position _ => []
        | .current _ => []
        | .card _ _ => []
        | .plan _ _ => [])
     | none => [])

end Sys2Proof.Machine
end

