-- ==== Sys2Proof/Machine/Printout.lean ====
section
/-! DEFINITION. The print formatter (11.1–11.3): taking records, lines and characters, and the appends to the
log that an idle formatter answers by taking the record in the same event (R170). -/

namespace Sys2Proof.Machine

open Sys2Proof

/-- PREADY is asserted under the configured polarity (R169). -/
def State.readyAsserted (s : State) : Bool := s.pins.pready != s.printer.cfg.lowTrue

/-- Look up the labels of the nets a record names (R170): each lookup is a checked read. -/
def lookupLabels : List Nat → State → State × List (Nat × List Byte)
  | [], s => (s, [])
  | n :: rest, s =>
    let (s1, a) := s.readNet .read n
    let (s2, names) := lookupLabels rest s1
    (s2, (match a with
      | .contents b => [(n, b.label)]
      | .missing => []
      | .corrupt => []
      | .upset _ => []) ++ names)

/-- The next character is due (R172): it is sent, or waits for READY with the printer timer started. -/
def State.charDue (s : State) : State :=
  if s.readyAsserted then
    { s with printer := { s.printer with
        waiting := false
        state := if s.printer.state = .holdPending then .holdPending else .printing } }
  else
    { s with printer := { s.printer with
        waiting := true
        timer := some (s.printer.cfg.timeout * 1000)
        state := if s.printer.state = .holdPending then .holdPending else .waitReady } }

/-- The line in progress begins at its first character, paper being present (R171). -/
def State.beginLine (s : State) : State :=
  State.charDue { s with printer := { s.printer with state := .printing, pos := 0 } }

/-- A line starts (R171): PPAPER is sampled. -/
def State.startLine (s : State) : State :=
  if s.pins.ppaper then s.beginLine
  else State.raisePrinter { s with printer := { s.printer with state := .paperOut, pos := 0 } } .paper

/-- The formatter takes a record (R170). -/
def State.takeRecord (s : State) (e : Entry) : State :=
  let s1 := { s with printer := { s.printer with state := .printing, current := some e.seq } }
  let (s2, names) := lookupLabels e.data.netsNamed s1
  State.startLine { s2 with printer := { s2.printer with lines := renderLines names e, line := 0, pos := 0 } }

/-- The formatter takes the oldest print-marked record, or becomes IDLE (R170, R173). -/
def State.takeOldest (s : State) : State :=
  match s.log.oldestPrint with
  | some e => s.takeRecord e
  | none => { s with printer := { s.printer with state := .idle } }

/-- An idle formatter takes a print-marked record as soon as the log holds one (R170). -/
def State.printIdle (s : State) : State := if s.printer.state = .idle then s.takeOldest else s

/-- Append a system record (R160, R170); the second component says whether it was taken. An idle formatter acts on it
as part of the appending, before any event that the same rule raises next: DESIGN CHOICE (log 30). The log's
notification (R164), which may raise DEFECT_READY, comes before the formatter's taking: DESIGN CHOICE (log 42). -/
def State.appendSystem (s : State) (d : RecData) : State × Bool :=
  let (s1, taken) := s.offerSystem d
  (s1.printIdle, taken)

/-- Append a test record (R159, R170). The log's notification (R164) comes before an idle formatter's taking of the
record: DESIGN CHOICE (log 42). -/
def State.appendTest (s : State) (first : Bool) (d : RecData) : State × Bool :=
  let (s1, taken) := s.offerTest first d
  (s1.printIdle, taken)

/-- A read of a net by READ_NET, a starting job or a running job, with an idle formatter taking the
TABLE_FAULT record it may give (R17, R170) after the log's notification of it (log 42). -/
def State.readNetFor (s : State) (c : ReadCause) (n : Nat) : State × NetAnswer :=
  s.readNetWith State.printIdle c n

/-- No current record and no lines (R168, R173, R176). -/
def Printer.dropRecord (p : Printer) : Printer :=
  { p with current := none, lines := [], line := 0, pos := 0, waiting := false, timer := none }

/-- Clear the print mark of the current record (R173). -/
def State.clearCurrentMark (s : State) : State :=
  { s with
    log := s.log.clearMarks (fun e => if s.printer.current = some e.seq then { e with printMark := false } else e)
    printer := s.printer.dropRecord }

/-- A character or the CR LF of the line in progress is being sent (R172). -/
def Printer.sending (p : Printer) : Bool :=
  match p.state with
  | .printing => !p.waiting && p.current.isSome
  | .holdPending => !p.waiting && p.current.isSome
  | .off => false
  | .idle => false
  | .waitReady => false
  | .paperOut => false
  | .held => false

/-- The line in progress. -/
def Printer.lineNow (p : Printer) : List Byte := p.lines.getD p.line []

/-- What the end of a line leaves to do: nothing, or the release of a freed entry, after which a formatter
still PRINTING takes the next record (R173). -/
inductive LineEnd where
  | done (s : State)
  | recordOver (s : State) (freed : Bool)

/-- A character has been sent to its last stop bit (R172, R173). -/
def State.charSent (s : State) : LineEnd :=
  if s.printer.pos + 1 < s.printer.lineNow.length then
    .done (State.charDue { s with printer := { s.printer with pos := s.printer.pos + 1 } })
  else if s.printer.line + 1 < s.printer.lines.length then
    let s1 := { s with printer := { s.printer with line := s.printer.line + 1, pos := 0 } }
    if s.printer.state = .holdPending then
      .done { s1 with printer := { s1.printer with state := .held } }
    else .done s1.startLine
  else
    let s1 := s.clearCurrentMark
    let s2 := if s.printer.state = .holdPending then { s1 with printer := { s1.printer with state := .held } } else s1
    .recordOver s2 (decide (s2.log.entries.length < s.log.entries.length))

/-- After a record is over and its entry's release made, a PRINTING formatter takes the next (R173). -/
def State.afterRecord (s : State) : State :=
  if decide (s.printer.state = .printing) && s.printer.current.isNone then s.takeOldest else s

/-- PREADY becomes asserted (R172): a waiting character is sent and the timer stops. -/
def State.readySent (s : State) : State :=
  { s with printer := { s.printer with
      waiting := false
      timer := none
      state := if s.printer.state = .holdPending then .holdPending else .printing } }

end Sys2Proof.Machine
end

