-- ==== Sys2Proof/Machine/JobEnd.lean ====
section
/-! DEFINITION. The job queue's own work (09): the start conditions, the examination of the head, the ending of
a job. -/

namespace Sys2Proof.Machine

open Sys2Proof

/-- A request that R146's condition 5 names. -/
def isTimedSwitch (k : Byte) : Bool :=
  k == Request.manualSwitch.code || k == Request.unblock.code || k == Request.measure.code

/-- A MANUAL_SWITCH, UNBLOCK or MEASURE that is being carried out (R146), that is, whose reply has not been composed
(R182); what R146 calls its being sent is this: DEDUCED (log 46). -/
def RxSlot.timedOpen (r : RxSlot) : Bool := isTimedSwitch r.kind && r.phase == .carried

/-- Conditions 1 to 5 of R146 in order; `n` of them hold from the first on. -/
def State.cond1 (s : State) : Bool := (s.head.map (fun j => decide (j.state = .queued))).getD false
def State.cond2 (s : State) : Bool := !s.queue.hold
def State.cond3 (s : State) : Bool := decide (s.hv.rail ≠ .fault)
def State.cond4 (s : State) : Bool := !s.link.startup && !s.enumerating
def State.cond5 (s : State) : Bool := !(s.host.slots.any RxSlot.timedOpen)
def State.cond6 (s : State) : Bool := decide (9 ≤ s.log.free)

/-- Every condition but the sixth holds. -/
def State.spaceAlone (s : State) : Bool := s.cond1 && s.cond2 && s.cond3 && s.cond4 && s.cond5

/-- The head may start (R146). -/
def State.mayStart (s : State) : Bool := s.spaceAlone && s.cond6

/-- A wait for log space alone is over (R146). -/
def State.endWait (s : State) : State := { s with queue := { s.queue with stallWait := false } }

/-- The head is examined (R146): LOG_STALL once for each wait for log space alone. The start itself is
HEAD_JOB_START. -/
def State.examineHead (s : State) : State :=
  if s.spaceAlone then
    if s.cond6 || s.queue.stallWait then s
    else State.raise { s with queue := { s.queue with stallWait := true } } .logStall
  else s.endWait

/-- The JOB_END record (R151). -/
def jobEndRec (j : Job) (c : EndCause) : RecData :=
  { kind := .jobEnd, system := true, tag := some j.tag, job := some j.spec
    counts := some ⟨c, j.nets, j.steps, j.tests, j.systems, j.extra⟩ }

/-- A JOB_END with zero counts, for a job refused or removed (R151). -/
def jobEndZero (j : Job) (c : EndCause) : RecData :=
  { kind := .jobEnd, system := true, tag := some j.tag, job := some j.spec
    counts := some ⟨c, 0, 0, 0, 0, 0⟩ }

/-- The event of a job's end (R150). -/
def endEvent (r : EndReason) : Event := if r = .complete then .jobDone else .jobAborted

def Plan.orphanIf (p : Plan) : Plan := if p.issuer = .jobEnd then { p with issuer := .nobody } else p

/-- A plan of the ending job stays without an issuer (R52). -/
def Matrix.orphanEnd (m : Matrix) : Matrix :=
  { m with
    slot := if m.slot.issuer = some .jobEnd then m.slot.orphan else m.slot
    waiting := m.waiting.map Plan.orphanIf }

/-- The head leaves the queue (R144); no engine holds a job that has left. -/
def State.dropHead (s : State) : State :=
  { s with
    engine := Engine.reset
    queue := { s.queue with jobs := s.queue.jobs.tail, stallWait := false }
    matrix := s.matrix.orphanEnd }

/-- A job's end is completed (R150): JOB_END, the event, the job leaves, the next head is examined. -/
def State.finishJob (s : State) : State :=
  match s.head with
  | none => s
  | some j =>
    let c := j.ended.getD ⟨.complete, .nothing⟩
    let (s1, _) := s.appendSystem (jobEndRec j c)
    (s1.raise (endEvent c.reason)).dropHead.examineHead

/-- The engine lets go of the step and hands over its reason and counts: the job is ENDING and the all-open
plan is offered; with the rail in FAULT the end is completed at once (R149, R150). -/
def State.endJob (s : State) (c : EndCause) : State :=
  let s1 := s.setHead (fun j => { j with
    state := .ending
    ended := some c
    steps := s.engine.steps
    nets := s.engine.nets
    extra := s.engine.extra })
  let (s2, _) := State.offerPlan { s1 with engine := Engine.reset } ⟨.allOpen, .jobEnd⟩
  if s2.hv.rail = .fault then s2.finishJob else s2

end Sys2Proof.Machine
end

