-- ==== Sys2Proof/Machine/SearchOps.lean ====
section
/-! DEFINITION. The isolation search (5.5, R86, R87), over a count of the members a run has: the CHECK, LEARN
and INSULATE engines supply the test, the resolution and the aggregate. -/

namespace Sys2Proof.Machine

open Sys2Proof

/-- No search. -/
def Search.empty : Search := ⟨⟨0, 0⟩, [], ⟨0, 0⟩, .popped⟩

/-- What the search wants next. -/
inductive SearchOut where
  | test (s : Search)
  | resolve (s : Search)
  | aggregate (s : Search)
  | over
  deriving DecidableEq, Repr

/-- The lower half: the first ceil(c/2) positions (R86). -/
def Run.lower (r : Run) : Run := ⟨r.first, (r.count + 1) / 2⟩

/-- The upper half: the rest. -/
def Run.upper (r : Run) : Run := ⟨r.first + (r.count + 1) / 2, r.count - (r.count + 1) / 2⟩

/-- Step 4: pop until a group with members is found (R86). -/
def popNext (m : Run → Nat) (g : Run) : List Run → SearchOut
  | [] => .over
  | r :: rest => if m r = 0 then popNext m g rest else .test ⟨g, rest, r, .popped⟩

/-- The lower half of G has passed: the upper half, now popped, is tested, or G is an aggregate (R86, steps 2
and 3). -/
def lowerPassed (m : Run → Nat) (g : Run) (stack : List Run) : SearchOut :=
  if m g.upper = 0 then .aggregate ⟨g, stack, g.upper, .upper⟩ else .test ⟨g, stack, g.upper, .upper⟩

/-- Examine a current group that has failed (R86, steps 1 to 3). A group without members is passed over. -/
def examine (m : Run → Nat) (g : Run) (stack : List Run) : SearchOut :=
  if m g = 0 then popNext m g stack
  else if m g = 1 then .resolve ⟨g, stack, g, .popped⟩
  else if m g.lower = 0 then lowerPassed m g stack
  else .test ⟨g, g.upper :: stack, g.lower, .lower⟩

/-- The test under way has failed or passed (R86, steps 2 and 4). -/
def Search.result (m : Run → Nat) (s : Search) (fails : Bool) : SearchOut :=
  if fails then examine m s.testing s.stack
  else match s.which with
    | .lower => lowerPassed m s.g (s.stack.drop 1)
    | .upper => .aggregate s
    | .popped => popNext m s.g s.stack

/-- After a resolution or an aggregate the search continues at step 4. -/
def Search.goOn (m : Run → Nat) (s : Search) : SearchOut := popNext m s.g s.stack

/-- The items of a list that lie in a run. -/
def Run.slice {α : Type} (r : Run) (l : List α) : List α := (l.drop r.first).take r.count

end Sys2Proof.Machine
end

