-- ==== Sys2Proof/Machine/EngineOps.lean ====
section
/-! DEFINITION. What every engine does with its steps (5.2, 5.6, R81, R93, R130): offering a plan, taking its
outcome, reading nets, appending records. -/

namespace Sys2Proof.Machine

open Sys2Proof

def State.setEngine (s : State) (e : Engine) : State := { s with engine := e }

def State.setWork (s : State) (w : Work) : State := { s with engine := { s.engine with work := w } }

/-- The judgment is made (R81): the records it calls for, then what comes next. -/
def State.todo (s : State) (w : Work) (recs : List RecData) (c : Ctl) : State :=
  { s with engine := { s.engine with work := w, toAppend := recs, ctl := c } }

/-- The job state as the engine enters it (R149). -/
def State.setJobState (s : State) (st : JobState) : State := s.setHead (fun j => { j with state := st })

/-- A record of the job has been taken (R151). -/
def State.countTest (s : State) : State := s.setHead (fun j => { j with tests := j.tests + 1 })
def State.countSystem (s : State) (taken : Bool) : State :=
  if taken then s.setHead (fun j => { j with systems := j.systems + 1 }) else s

/-- A judgment is made: the step count rises (R81, R130). -/
def State.countStep (s : State) : State :=
  { s with engine := { s.engine with steps := s.engine.steps + 1, phase := .between } }

/-- What becomes of the step's plan (R81, R51, R52): a complete plan is measured unless an abort has arrived; a
refused or failed one ends the job with the first reason. -/
def State.onPlan (s : State) (o : PlanOutcome) : State :=
  match o with
  | .refused c pt => s.endJob (s.engine.abort.getD ⟨.abortedCard, .plan c pt⟩)
  | .failed lost pos =>
    s.endJob (s.engine.abort.getD ⟨.abortedCard, if lost then .card .lost pos else .position pos⟩)
  | .complete _ =>
    match s.engine.abort with
    | some c => s.endJob c
    | none =>
      match s.engine.inHand with
      | none => s
      | some h =>
        match h.req with
        | .lmu m => (s.setEngine { s.engine with phase := .measure }).requestMeasure m .engine
        | .hv v =>
          { s.setEngine { s.engine with phase := .hvStep } with hv := { s.hv with request := some v } }

/-- Reports that concern the engine. -/
def State.engineReports (s : State) (rs : List Report) : State :=
  rs.foldl (fun s r => if r.issuer = .engine then s.onPlan r.outcome else s) s

/-- Carry out the step in hand from its PLAN phase (R81, R130, R141). -/
def State.offerInHand (s : State) (h : StepInHand) (again : Bool) : State :=
  let s1 := s.setEngine { s.engine with phase := .plan, inHand := some h, isRepeat := again, ctl := .wait }
  let (s2, rs) := s1.offerPlan ⟨h.body, .engine⟩
  s2.engineReports rs

/-- The next step: a plan with the flag all others OPEN, and its measurement. -/
def State.lvStep (s : State) (ts : List (Nat × Rail)) (m : MeasReq) : State :=
  s.offerInHand ⟨.targets ts true, .lmu m⟩ false

def State.hvStep (s : State) (ts : List (Nat × Rail)) (v : StepValues) : State :=
  s.offerInHand ⟨.targets ts true, .hv v⟩ false

/-- The CONT and ISO measurements of the snapshot (R59, R81). -/
def State.contReq (s : State) : MeasReq :=
  ⟨.cont, s.snap.limits.n, s.snap.limits.range, s.snap.limits.settle⟩
def State.isoReq (s : State) : MeasReq :=
  ⟨.iso, s.snap.limits.n, s.snap.limits.range, s.snap.limits.settle⟩

/-- A pair on SOURCE and RETURN; a set on RETURN. -/
def pairPlan (a b : Nat) : List (Nat × Rail) := [(a, .source), (b, .ret)]
def groupPlan (src ret : List Nat) : List (Nat × Rail) :=
  src.map (fun p => (p, .source)) ++ ret.map (fun p => (p, .ret))

/-- A read of a net by the running job (R17, R18): none ends the job with ABORTED_TABLE. -/
def State.jobRead (s : State) (n : Nat) : State × Option NetBody :=
  match s.readNetFor .run n with
  | (s1, .contents b) => (s1, some b)
  | (s1, .missing) => (s1, none)
  | (s1, .corrupt) => (s1, none)
  | (s1, .upset taken) => (s1.countSystem taken, none)

def tableAbort (n : Nat) : EndCause := ⟨.abortedTable, .net n⟩

/-- Append the records a judgment calls for, in order (R81, R93): a refused one becomes the pending record and
puts the job in LOG_WAIT. The second component says whether all were appended. -/
def State.drain : List RecData → State → State × Bool
  | [], s => ({ s with engine := { s.engine with toAppend := [] } }, true)
  | r :: rest, s =>
    match s.appendTest true r with
    | (s1, true) => State.drain rest s1.countTest
    | (s1, false) =>
      (({ s1 with engine := { s1.engine with pendingRec := some r, toAppend := rest } }).setJobState .logWait, false)

def mOhm (v : Option Nat) : Option Value := some ⟨.mOhm, v⟩
def kOhm (v : Nat) : Option Value := some ⟨.kOhm, some v⟩
def countOf (n : Nat) : Option Value := some ⟨.count, some n⟩

/-- A test record of the active job. -/
def State.testRec (s : State) (k : RecKind) : RecData :=
  { kind := k, system := false, flags := s.flagsU, tag := s.headTag }

/-- The value and final range of a CONT measurement; none is OVER, whose final range is 1 mA (R63). An ISO
result has neither. -/
def LmuResult.contValue : LmuResult → Option (Option Nat × CRange)
  | .cont r _ _ _ raw => some (some raw, r)
  | .contOver _ => some (none, .r1)
  | .iso _ _ _ _ => none

/-- The result of an ISO measurement, none inside being OVER. -/
def LmuResult.isoValue : LmuResult → Option (Option Nat)
  | .cont _ _ _ _ _ => none
  | .contOver _ => none
  | .iso _ _ _ r => some r

/-- Lead compensation of a pair; OVER stays OVER (R65). -/
def State.comp (s : State) (v : Option Nat) (a b : Nat) : Option Nat :=
  v.map (fun r => compensated r (s.leadOf a) (s.leadOf b))

end Sys2Proof.Machine
end

