-- ==== Sys2Proof/Machine/Check.lean ====
section
/-! DEFINITION. The CHECK job (05): the walk, the continuity phase, the isolation phase and its search. -/

namespace Sys2Proof.Machine

open Sys2Proof

/-- A CHECK before its walk has reached a net (R78). -/
def CheckWork.start (first last : Nat) (ph : CheckPhases) : CheckWork where
  last := last
  phases := ph
  num := first - 1
  members := []
  passLimit := 0
  inIso := false
  rootIdx := 0
  next := 1
  openList := []
  cands := []
  gRes := 0
  search := Search.empty
  doing := .sweep

/-- The root of the present sweep (R82) and the lowest member (R89). -/
def CheckWork.root (w : CheckWork) : Nat := w.members.getD w.rootIdx 0
def CheckWork.lowest (w : CheckWork) : Nat := w.members.headD 0

/-- The member measured from the root. -/
def CheckWork.member (w : CheckWork) : Nat := w.members.getD w.next 0

/-- The members of a run: its candidates whose excluded mark is clear (R84). -/
def CheckWork.group (w : CheckWork) (r : Run) : List Nat :=
  ((r.slice w.cands).filter (fun c => !c.excluded)).map (·.pt)

def CheckWork.count (w : CheckWork) (r : Run) : Nat := (w.group r).length

/-- The member that is being confirmed: the one member of G (R86, R89). -/
def CheckWork.resolved (w : CheckWork) : Nat := (w.group w.search.g).headD 0

/-- Whether the continuity phase is selected, and the isolation phase (R78). -/
def CheckPhases.hasCont : CheckPhases → Bool
  | .cont => true
  | .iso => false
  | .both => true

def CheckPhases.hasIso : CheckPhases → Bool
  | .cont => false
  | .iso => true
  | .both => true

/-- The walk reaches a net (R78): its contents become the current net. -/
def CheckWork.take (w : CheckWork) (b : NetBody) (pass : Nat) : CheckWork :=
  { w with
    num := b.num
    members := b.members
    passLimit := b.override.getD pass
    inIso := false
    rootIdx := 0
    next := 1
    openList := []
    cands := []
    search := Search.empty }

/-- The walk moves on (R78). -/
def State.checkWalk (w : CheckWork) (s : State) : State :=
  match s.nextNet w.num w.last with
  | none => s.todo (.check w) [] .complete
  | some r =>
    match s.jobRead r.body.num with
    | (s1, none) => s1.endJob (tableAbort r.body.num)
    | (s1, some b) =>
      s1.todo (.check (w.take b s.snap.limits.pass)) []
        (if w.phases.hasCont && decide (2 ≤ b.members.length) then .sweep else .contEnd)

/-- A DETACHED record (R83). -/
def State.detachedRec (w : CheckWork) (s : State) : RecData :=
  { s.testRec .detached with net := some w.num, pointA := some w.root }

/-- An OPEN record for an item of the open list (R83). -/
def State.openRec (w : CheckWork) (s : State) (i : OpenItem) : RecData :=
  { s.testRec .opn with
    net := some w.num, pointA := some w.root, pointB := some i.member, value := mOhm i.value, range := some i.range }

/-- A HIGH record (R82). -/
def State.highRec (w : CheckWork) (s : State) (v : Option Nat) (r : CRange) : RecData :=
  { s.testRec .high with
    net := some w.num, pointA := some w.root, pointB := some w.member, value := mOhm v, range := some r }

/-- The sweep found its root detached (R83): three or more members, every one measured from the root OPEN. -/
def CheckWork.detached (w : CheckWork) : Bool :=
  decide (3 ≤ w.members.length) && decide (w.openList.length + w.rootIdx + 1 = w.members.length)

/-- The next step of a sweep, or its end (R82, R83). -/
def State.checkSweep (w : CheckWork) (s : State) : State :=
  if w.next < w.members.length then
    (s.setWork (.check { w with doing := .sweep })).lvStep (pairPlan w.root w.member) s.contReq
  else if w.detached then
    s.todo (.check { w with openList := [] }) [s.detachedRec w] .reroot
  else
    s.todo (.check { w with openList := [] }) (w.openList.map (s.openRec w)) .contEnd

/-- The next member becomes the root (R83). -/
def State.checkReroot (w : CheckWork) (s : State) : State :=
  s.todo (.check { w with rootIdx := w.rootIdx + 1, next := w.rootIdx + 2 }) []
    (if w.rootIdx + 2 < w.members.length then .sweep else .contEnd)

/-- The candidate list of a net (R84). -/
def State.candidates (s : State) (n : Nat) : List Cand :=
  (s.mapped.filter (fun p => match s.ownerOf p with
    | none => true
    | some m => decide (n < m))).map (fun p => ⟨p, false⟩)

/-- The continuity phase is over: the isolation phase begins with its whole-net test, or the net is done
(R78, R84, R85). -/
def State.checkContEnd (w : CheckWork) (s : State) : State :=
  if w.phases.hasIso then
    let cs := s.candidates w.num
    let w1 := { w with inIso := true, cands := cs, search := Search.empty, doing := .whole }
    if cs.isEmpty then s.todo (.check w1) [] .netDone
    else (s.setWork (.check w1)).lvStep (groupPlan w.members (cs.map (·.pt))) s.isoReq
  else s.todo (.check w) [] .netDone

/-- An aggregate SHORT (R91). -/
def State.shortAggregate (w : CheckWork) (s : State) (g : Run) : RecData :=
  let b := (w.group g).headD 0
  { s.testRec .short with
    flags := { s.flagsU with a := true }
    net := some w.num
    pointA := some w.lowest
    pointB := some b
    otherNet := s.ownerOf b
    value := kOhm w.gRes
    second := countOf (w.count g) }

/-- What the search wants next (R86, R88, R89, R91). -/
def State.checkSearch (w : CheckWork) (s : State) : SearchOut → State
  | .test q =>
    (s.setWork (.check { w with search := q, doing := .group })).lvStep
      (groupPlan w.members (w.group q.testing)) s.isoReq
  | .resolve q =>
    let w1 := { w with search := q, doing := .confirm }
    (s.setWork (.check w1)).lvStep (pairPlan w1.lowest w1.resolved) s.contReq
  | .aggregate q => s.todo (.check { w with search := q }) [s.shortAggregate w q.g] .pop
  | .over => s.todo (.check w) [] .netDone

/-- A resolved SHORT (R89). -/
def State.shortResolved (w : CheckWork) (s : State) (p : Nat) (v : Option Nat) (r : CRange) (other : Option Nat)
    (c : Bool) : RecData :=
  { s.testRec .short with
    flags := { s.flagsU with c := c }
    net := some w.num
    pointA := some w.lowest
    pointB := some p
    otherNet := other
    value := if v.isSome then mOhm v else kOhm w.gRes
    range := if v.isSome then some r else none }

/-- The collapse of R90: every position that holds a member of B other than `p` is excluded. -/
def CheckWork.collapse (w : CheckWork) (p : Nat) (b : NetBody) : CheckWork :=
  { w with cands := w.cands.map (fun c => if b.members.contains c.pt && c.pt != p then { c with excluded := true } else c) }

/-- The confirming step is judged (R89, R90). -/
def State.checkConfirm (w : CheckWork) (s : State) (v : Option Nat) (r : CRange) : State :=
  let p := w.resolved
  let rc := s.comp v w.lowest p
  match s.ownerOf p with
  | none => s.todo (.check w) [s.shortResolved w p rc r none false] .pop
  | some n =>
    match s.jobRead n with
    | (s1, none) => s1.endJob (tableAbort n)
    | (s1, some b) =>
      s1.todo (.check (w.collapse p b)) [s1.shortResolved w p rc r (some n) (decide (2 ≤ b.members.length))] .pop

/-- A continuity value of a sweep is judged (R82). -/
def State.checkPair (w : CheckWork) (s : State) (v : Option Nat) (r : CRange) : State :=
  let rc := s.comp v w.root w.member
  match bandOf rc w.passLimit s.snap.limits.opn with
  | .connected => s.todo (.check { w with next := w.next + 1 }) [] .sweep
  | .high => s.todo (.check { w with next := w.next + 1 }) [s.highRec w rc r] .sweep
  | .opn =>
    s.todo (.check { w with next := w.next + 1, openList := w.openList ++ [⟨w.member, rc, r⟩] }) [] .sweep

/-- An isolation result is judged (R85, R88). -/
def State.checkIso (w : CheckWork) (s : State) (v : Option Nat) : State :=
  let leak := isLeak v s.snap.limits.iso
  let w1 := if leak then { w with gRes := v.getD 0 } else w
  match w.doing with
  | .whole =>
    if leak then s.checkSearch w1 (examine w1.count ⟨0, w.cands.length⟩ [])
    else s.todo (.check w) [] .netDone
  | .group => s.checkSearch w1 (w.search.result w1.count leak)
  | .sweep => s
  | .confirm => s

/-- JUDGE of a CHECK step (R81). -/
def State.checkJudge (w : CheckWork) (s : State) (r : LmuResult) : State :=
  match w.doing, r.contValue, r.isoValue with
  | .sweep, some (v, g), _ => s.checkPair w v g
  | .confirm, some (v, g), _ => s.checkConfirm w v g
  | .whole, _, some v => s.checkIso w v
  | .group, _, some v => s.checkIso w v
  | _, _, _ => s

/-- Net `n` is processed (R92): its lists are discarded and the walk moves on. -/
def State.checkNetDone (w : CheckWork) (s : State) : State :=
  let w1 := { w with cands := [], search := Search.empty, inIso := false }
  State.todo { s with engine := { s.engine with nets := s.engine.nets + 1 } } (.check w1) [] .walk

/-- What a CHECK does next. -/
def State.checkNext (w : CheckWork) (s : State) : Ctl → State
  | .walk => s.checkWalk w
  | .sweep => s.checkSweep w
  | .reroot => s.checkReroot w
  | .contEnd => s.checkContEnd w
  | .netDone => s.checkNetDone w
  | .pop => s.checkSearch w (w.search.goOn w.count)
  | .complete => s.endJob ⟨.complete, .nothing⟩
  | .wait => s
  | .draw => s
  | .leads => s
  | .toRefHv => s

/-- The engine begins a CHECK (R78). -/
def State.checkStart (s : State) (first last : Nat) (ph : CheckPhases) : State :=
  s.todo (.check (CheckWork.start first last ph)) [] .walk

end Sys2Proof.Machine
end

