-- ==== Sys2Proof/Machine/Insulate.lean ====
section
/-! DEFINITION. The insulation engine (08): the offset step, main steps, the locate, suspension, and the
high-voltage step of REFCHECK (R143). -/

namespace Sys2Proof.Machine

open Sys2Proof

def HeldResult.empty : HeldResult := ⟨.pass, 0, 0, 0, 0, 0⟩

/-- An INSULATE before its offset step (R131). -/
def InsWork.start (first last : Nat) (loc auto : Bool) : InsWork where
  last := last
  locate := loc
  auto := auto
  stage := .offset
  num := first - 1
  members := []
  units := []
  gRes := HeldResult.empty
  gRepeat := false
  mainRes := HeldResult.empty
  mainRepeat := false
  search := Search.empty
  locCount := 0

/-- The engine begins an INSULATE with the offset step (R131). -/
def State.insulateStart (s : State) (first last : Nat) (loc auto : Bool) : State :=
  (s.setWork (.insulate (InsWork.start first last loc auto))).hvStep [] (s.snap.hv.stepValues .measure)

/-- A plan with a net on HV and points on COLLECT (R132, R135). -/
def hvPlan (hv coll : List Nat) : List (Nat × Rail) :=
  hv.map (fun p => (p, .hv)) ++ coll.map (fun p => (p, .collect))

/-- A step of the INSULATE with offset mode APPLY (R130). -/
def State.insStep (s : State) (w : InsWork) (coll : List Nat) : State :=
  (s.setWork (.insulate w)).hvStep (hvPlan w.members coll) (s.snap.hv.stepValues .apply)

/-- The walk moves on (R132): a net without the HV flag is passed over, one with it gets its main step. -/
def State.insWalk (w : InsWork) (s : State) : State :=
  match s.nextNet w.num w.last with
  | none => s.todo (.insulate w) [] .complete
  | some r =>
    match s.jobRead r.body.num with
    | (s1, none) => s1.endJob (tableAbort r.body.num)
    | (s1, some b) =>
      if b.hv then
        s1.insStep { w with stage := .main, num := b.num, members := b.members }
          (s1.mapped.filter (fun p => s1.ownerOf p != some b.num))
      else s1.todo (.insulate { w with num := b.num }) [] .walk

/-- The kind and the values a verdict gives a record (Table 8-2). -/
def valuesOf (d : RecData) (h : HeldResult) : RecData :=
  match h.verdict with
  | .breakdown c =>
    { d with kind := .breakdown, value := some ⟨.dV, some h.v⟩, second := some ⟨.nA, some h.i⟩,
             arcs := some h.arcs, cause := some (.brk c) }
  | .arc => { d with kind := .arc, value := kOhm h.ir, second := some ⟨.nA, some h.offset⟩, arcs := some h.arcs }
  | .irLow => { d with kind := .irLow, value := kOhm h.ir, second := some ⟨.nA, some h.offset⟩, arcs := some h.arcs }
  | .pass => { d with kind := .irLow, value := kOhm h.ir, second := some ⟨.nA, some h.offset⟩, arcs := some h.arcs }
  | .interrupted =>
    { d with kind := .irLow, value := kOhm h.ir, second := some ⟨.nA, some h.offset⟩, arcs := some h.arcs }

/-- A record of the INSULATE on the current net (R133, R136, R137): point a its lowest member, the partner, the
values of a failing result, flag S from its step. -/
def State.insRec (w : InsWork) (s : State) (h : HeldResult) (rep : Bool) (partner : Option UnitId) (a n : Bool) :
    RecData :=
  let d : RecData := { s.testRec .irLow with
    flags := { s.flagsU with a := a, n := n, s := rep }
    net := some w.num
    pointA := w.members.head? }
  valuesOf (match partner with
    | none => d
    | some (.net k) => { d with otherNet := some k }
    | some (.point p) => { d with pointB := some p }) h

/-! ### The locate -/

/-- The net units (R134): every other stored net, read in ascending order; a read that fails names its net. -/
def State.netUnits : List Nat → State → State × (Nat ⊕ List LocUnit)
  | [], s => (s, .inr [])
  | n :: rest, s =>
    match s.jobRead n with
    | (s1, none) => (s1, .inl n)
    | (s1, some b) =>
      let pts := b.members.filter (fun p => (s1.chanOf p).isSome)
      match State.netUnits rest s1 with
      | (s2, .inl k) => (s2, .inl k)
      | (s2, .inr us) => (s2, .inr (⟨.net n, pts, pts.isEmpty⟩ :: us))

/-- The units that are unassigned points (R134). -/
def State.pointUnits (s : State) : List LocUnit := s.unassigned.map (fun p => ⟨.point p, [p], false⟩)

/-- The member units of a run (R134). -/
def InsWork.group (w : InsWork) (r : Run) : List LocUnit := (r.slice w.units).filter (fun u => !u.excluded)

def InsWork.count (w : InsWork) (r : Run) : Nat := (w.group r).length

/-- The first member unit of a run, as a partner. -/
def InsWork.firstUnit (w : InsWork) (r : Run) : Option UnitId := ((w.group r).head?).map (·.id)

/-- The locate is over (R138). -/
def State.insDone (w : InsWork) (s : State) (recs : List RecData) : State :=
  s.todo (.insulate { w with search := Search.empty }) recs .netDone

/-- The budget is spent before the next test (R137). -/
def State.cutOff (w : InsWork) (s : State) (q : Search) : State :=
  match q.which with
  | .popped => s.insDone w [s.insRec w w.mainRes w.mainRepeat none false true]
  | .lower => s.insDone w [s.insRec w w.gRes w.gRepeat (w.firstUnit q.g) false true]
  | .upper => s.insDone w [s.insRec w w.gRes w.gRepeat (w.firstUnit q.g) false true]

/-- What the search wants next (R135–R137). -/
def State.insSearch (w : InsWork) (s : State) : SearchOut → State
  | .test q =>
    if s.snap.hv.budget ≤ w.locCount then s.cutOff w q
    else s.insStep { w with search := q } ((w.group q.testing).flatMap (·.points))
  | .resolve q =>
    s.todo (.insulate { w with search := q }) [s.insRec w w.gRes w.gRepeat (w.firstUnit q.g) false false] .pop
  | .aggregate q =>
    s.todo (.insulate { w with search := q }) [s.insRec w w.gRes w.gRepeat (w.firstUnit q.g) true false] .pop
  | .over => s.insDone w []

/-- The locate begins (R133, R134): the unit list is built; with no member the failure is recorded as with
locate off. -/
def State.locateStart (w : InsWork) (s : State) (h : HeldResult) : State :=
  let others := (s.store.nets.map (·.body.num)).filter (fun n => n != w.num)
  match s.netUnits others with
  | (s1, .inl n) => s1.endJob (tableAbort n)
  | (s1, .inr us) =>
    let rep := s1.engine.isRepeat
    let w1 := { w with
      stage := .locate, units := us ++ s1.pointUnits, gRes := h, gRepeat := rep, mainRes := h, mainRepeat := rep
      search := Search.empty, locCount := 0 }
    let whole : Run := ⟨0, w1.units.length⟩
    if w1.count whole = 0 then s1.insDone w1 [s1.insRec w1 h rep none false false]
    else s1.insSearch w1 (examine w1.count whole [])

/-! ### JUDGE -/

/-- A verdict fails a step (R133, R135). -/
def Verdict.fails : Verdict → Bool
  | .pass => false
  | .irLow => true
  | .arc => true
  | .breakdown _ => true
  | .interrupted => false

/-- The offset step is judged by its current (R131). -/
def State.offsetJudge (w : InsWork) (s : State) (h : HeldResult) : State :=
  match h.verdict with
  | .breakdown _ => s.endJob ⟨.fixtureLeak, .current h.i⟩
  | _ =>
    if s.snap.hv.trip * 2500 ≤ s.hv.offset then s.endJob ⟨.fixtureLeak, .current s.hv.offset⟩
    else s.todo (.insulate { w with stage := .main }) [] .walk

/-- JUDGE of a step complete of an INSULATE (R131, R133, R135). -/
def State.insJudge (w : InsWork) (s : State) (h : HeldResult) : State :=
  match w.stage with
  | .offset => s.offsetJudge w h
  | .main =>
    if !h.verdict.fails then s.insDone w []
    else if w.locate then s.locateStart w h
    else s.insDone w [s.insRec w h s.engine.isRepeat none false false]
  | .locate =>
    let w1 := { w with locCount := w.locCount + 1 }
    let w2 := if h.verdict.fails then { w1 with gRes := h, gRepeat := s.engine.isRepeat } else w1
    s.insSearch w2 (w.search.result w2.count h.verdict.fails)

/-- Net `n` is processed (R133, R138). -/
def State.insNetDone (w : InsWork) (s : State) : State :=
  State.todo { s with engine := { s.engine with nets := s.engine.nets + 1 } }
    (.insulate { w with stage := .main, units := [], search := Search.empty }) [] .walk

/-- What an INSULATE does next. -/
def State.insNext (w : InsWork) (s : State) : Ctl → State
  | .walk => s.insWalk w
  | .netDone => s.insNetDone w
  | .pop => s.insSearch w (w.search.goOn w.count)
  | .complete => s.endJob ⟨.complete, .nothing⟩
  | .wait => s
  | .sweep => s
  | .reroot => s
  | .contEnd => s
  | .draw => s
  | .leads => s
  | .toRefHv => s

/-! ### The high-voltage step of REFCHECK -/

/-- P2 on HV, P3 on COLLECT (R73, R143). -/
def State.refHvStart (s : State) : State := s.hvStep [(2, .hv), (3, .collect)] s.snap.hv.refValues

/-- The window of R73. -/
def hvWindow (ir : Nat) : Bool := decide (19000 ≤ ir) && decide (ir ≤ 21000)

/-- A REF_FAIL record of the high-voltage step, with flag S for a repeat (R73, R143). -/
def State.refHvRec (s : State) : RecData :=
  { s.testRec .refFail with
    flags := { s.flagsU with s := s.engine.isRepeat }, pointA := some 2, pointB := some 3 }

/-- JUDGE of the high-voltage step (R71, R73). -/
def State.refHvJudge (s : State) (lvPassed : Bool) (h : HeldResult) : State :=
  match h.verdict with
  | .breakdown _ =>
    State.todo { s with reference := .failed } (.refHv lvPassed)
      [{ s.refHvRec with
          cause := some .refBreakdown, value := some ⟨.dV, some h.v⟩, second := some ⟨.nA, some h.i⟩ }] .complete
  | _ =>
    if hvWindow h.ir then
      State.todo { s with reference := if lvPassed then .verified else s.reference } (.refHv lvPassed) [] .complete
    else
      State.todo { s with reference := .failed } (.refHv lvPassed)
        [{ s.refHvRec with cause := some .window, value := kOhm h.ir, arcs := some h.arcs }] .complete

/-- What a REFCHECK does next (R143). -/
def State.refNext (s : State) : Ctl → State
  | .toRefHv => s.refHvStart
  | .complete => s.endJob ⟨.complete, .nothing⟩
  | .wait => s
  | .sweep => s
  | .reroot => s
  | .contEnd => s
  | .walk => s
  | .netDone => s
  | .pop => s
  | .draw => s
  | .leads => s

/-! ### Suspension -/

/-- The net an INTERLOCK record names (R139): the current net, none in the offset step and in REFCHECK. -/
def suspendNet : Work → Option Nat
  | .insulate w => match w.stage with
    | .offset => none
    | .main => some w.num
    | .locate => some w.num
  | .none => none
  | .check _ => none
  | .learn _ => none
  | .leads _ => none
  | .refLv => none
  | .refHv _ => none

/-- Whether the job resumes by itself (R141, R143). -/
def autoResumes : Work → Bool
  | .insulate w => w.auto
  | .refHv _ => true
  | .none => false
  | .check _ => false
  | .learn _ => false
  | .leads _ => false
  | .refLv => false

/-- Resumption (R141): RUNNING, and the step in hand from its PLAN phase as a repeat. -/
def State.resumeJob (s : State) : State :=
  match s.engine.inHand with
  | none => s
  | some h => (s.setJobState .running).offerInHand h true

/-- A suspended job. -/
def State.suspended (s : State) : Bool := (s.activeJob.map (fun j => decide (j.state = .suspended))).getD false

/-- An auto-resuming job resumes once the cover is CLOSED (R141). -/
def State.autoResume (s : State) : State :=
  if s.suspended && autoResumes s.engine.work && s.hv.coverClosed then s.resumeJob else s

/-- Suspension (R139): the INTERLOCK record, the event, SUSPENDED, the step in hand a repeat; an auto-resuming
job with the cover CLOSED resumes at once (R141). -/
def State.suspend (s : State) (c : RecCause) : State :=
  let (s1, taken) := s.appendSystem
    { kind := .interlock, system := true, tag := s.headTag, cause := some c, net := suspendNet s.engine.work }
  let s2 := ((s1.countSystem taken).raise .interlock).setJobState .suspended
  State.autoResume { s2 with engine := { s2.engine with phase := .between, isRepeat := true } }

end Sys2Proof.Machine
end

