-- ==== Sys2Proof/Machine/Learn.lean ====
section
/-! DEFINITION. The learning jobs (06) and the low-voltage step of REFCHECK (R72). -/

namespace Sys2Proof.Machine

open Sys2Proof

/-! ### LEARN -/

/-- The starting pool (R97): every harness point mapped to a channel that is not blocked. -/
def State.pool (s : State) : List Nat :=
  (s.store.map.filter (fun e => !(s.isBlocked e.2))).map (·.1)

/-- The engine begins a LEARN (R97): the net table is cleared, the pool built, the next net number 1. -/
def State.learnStart (s : State) (hv : Bool) : State :=
  State.todo { s with store := s.store.clearNets }
    (.learn ⟨hv, s.pool, none, [], [], 0, Search.empty, 1, .whole⟩) [] .draw

/-- The points of a run of the search list: it carries no excluded marks (R100). -/
def LearnWork.group (w : LearnWork) (r : Run) : List Nat := r.slice w.list

def LearnWork.count (w : LearnWork) (r : Run) : Nat := (w.group r).length

def LearnWork.rootPt (w : LearnWork) : Nat := w.root.getD 0

/-- The point that is being confirmed. -/
def LearnWork.resolved (w : LearnWork) : Nat := (w.group w.search.g).headD 0

/-- The root is let go (R99, R102): no step is in hand. -/
def LearnWork.letGo (w : LearnWork) : LearnWork :=
  { w with root := none, list := [], found := [], search := Search.empty, doing := .whole }

/-- Draw a root (R99): the whole-pool test follows unless the search list is empty; with an empty pool the job
is complete (R104). -/
def State.learnDraw (w : LearnWork) (s : State) : State :=
  match w.pool with
  | [] => s.todo (.learn w) [] .complete
  | p :: rest =>
    let s1 := { s with engine := { s.engine with nets := s.engine.nets + 1 } }
    let w1 := { w with pool := rest, root := some p, list := rest, found := [], search := Search.empty, doing := .whole }
    if rest.isEmpty then s1.todo (.learn w1.letGo) [] .draw
    else (s1.setWork (.learn w1)).lvStep (groupPlan [p] rest) s1.isoReq

/-- An aggregate LEARN_LEAK (R100). -/
def State.leakAggregate (w : LearnWork) (s : State) (g : Run) : RecData :=
  { s.testRec .learnLeak with
    flags := { s.flagsU with a := true }
    pointA := some w.rootPt
    pointB := some ((w.group g).headD 0)
    value := kOhm w.gRes
    second := countOf (w.count g) }

/-- What the search wants next (R100, R101). -/
def State.learnSearch (w : LearnWork) (s : State) : SearchOut → State
  | .test q =>
    (s.setWork (.learn { w with search := q, doing := .group })).lvStep
      (groupPlan [w.rootPt] (w.group q.testing)) s.isoReq
  | .resolve q =>
    let w1 := { w with search := q, doing := .confirm }
    (s.setWork (.learn w1)).lvStep (pairPlan w1.rootPt w1.resolved) s.contReq
  | .aggregate q => s.todo (.learn { w with search := q }) [s.leakAggregate w q.g] .pop
  | .over => s.todo (.learn w) [] .netDone

/-- An isolation result is judged (R99, R100). -/
def State.learnIso (w : LearnWork) (s : State) (v : Option Nat) : State :=
  let leak := isLeak v s.snap.limits.iso
  let w1 := if leak then { w with gRes := v.getD 0 } else w
  match w.doing with
  | .whole =>
    if leak then s.learnSearch w1 (examine w1.count ⟨0, w.list.length⟩ [])
    else s.todo (.learn w.letGo) [] .draw
  | .group => s.learnSearch w1 (w.search.result w1.count leak)
  | .sweep => s
  | .confirm => s

/-- A LEARN_HIGH record (R101). -/
def State.learnHighRec (w : LearnWork) (s : State) (v : Option Nat) (r : CRange) : RecData :=
  { s.testRec .learnHigh with
    net := some w.nextNum, pointA := some w.rootPt, pointB := some w.resolved, value := mOhm v, range := some r }

/-- A resolved LEARN_LEAK record (R101). -/
def State.learnLeakRec (w : LearnWork) (s : State) (v : Option Nat) (r : CRange) : RecData :=
  { s.testRec .learnLeak with
    net := some w.nextNum
    pointA := some w.rootPt
    pointB := some w.resolved
    value := kOhm w.gRes
    second := mOhm v
    range := some r }

/-- A point joins the found list, or ends the job with NET_TOO_LARGE (R101, R103). -/
def State.learnJoin (w : LearnWork) (s : State) (recs : List RecData) : State :=
  if 255 ≤ w.found.length then s.endJob ⟨.netTooLarge, .point w.rootPt⟩
  else s.todo (.learn { w with found := w.found ++ [w.resolved] }) recs .pop

/-- The confirming step is judged (R101). -/
def State.learnConfirm (w : LearnWork) (s : State) (v : Option Nat) (r : CRange) : State :=
  let rc := s.comp v w.rootPt w.resolved
  match bandOf rc s.snap.limits.pass s.snap.limits.opn with
  | .connected => s.learnJoin w []
  | .high => s.learnJoin w [s.learnHighRec w rc r]
  | .opn => s.todo (.learn w) [s.learnLeakRec w rc r] .pop

/-- JUDGE of a LEARN step. -/
def State.learnJudge (w : LearnWork) (s : State) (r : LmuResult) : State :=
  match w.doing, r.contValue, r.isoValue with
  | .confirm, some (v, g), _ => s.learnConfirm w v g
  | .whole, _, some v => s.learnIso w v
  | .group, _, some v => s.learnIso w v
  | _, _, _ => s

/-- The net a root's search has found (R102). -/
def LearnWork.net (w : LearnWork) : NetBody where
  num := w.nextNum
  members := sortPoints (w.rootPt :: w.found)
  hv := w.hv
  override := none
  label := []

/-- The LEARN once that net is stored (R102): the found points leave the pool, the next net number rises by 1 and the
root is let go. -/
def LearnWork.stored (w : LearnWork) : LearnWork :=
  { w.letGo with pool := w.pool.filter (fun p => !(w.found.contains p)), nextNum := w.nextNum + 1 }

/-- The search of a root is over (R102, R103). -/
def State.learnStore (w : LearnWork) (s : State) : State :=
  if w.found.isEmpty then s.todo (.learn w.letGo) [] .draw
  else if 1024 ≤ s.store.nets.length then s.endJob ⟨.tableFull, .nothing⟩
  else
    let s1 := { s with
      store := s.store.putNet w.net
      engine := { s.engine with extra := s.engine.extra + 1 } }
    s1.todo (.learn w.stored) [] .draw

/-- What a LEARN does next. -/
def State.learnNext (w : LearnWork) (s : State) : Ctl → State
  | .draw => s.learnDraw w
  | .pop => s.learnSearch w (w.search.goOn w.count)
  | .netDone => s.learnStore w
  | .complete => s.endJob ⟨.complete, .nothing⟩
  | .wait => s
  | .sweep => s
  | .reroot => s
  | .contEnd => s
  | .walk => s
  | .leads => s
  | .toRefHv => s

/-! ### LEARN_LEADS -/

/-- The partner of the common point (R105): the next point of the list, or the first after the last. -/
def partnerOf (points : List Nat) (c : Nat) : Nat :=
  (points.find? (fun p => decide (c < p))).getD (points.headD 0)

/-- The engine begins a LEARN_LEADS with the step that measures the common point (R105, R106). -/
def State.leadsStart (s : State) (c : Nat) : State :=
  let w : LeadsWork := ⟨s.mapped, c, partnerOf s.mapped c, none, 0⟩
  (s.setWork (.leads w)).lvStep (pairPlan c w.partner) s.contReq

/-- The next point of the list other than the common one (R107). -/
def State.leadsNext (w : LeadsWork) (s : State) : Ctl → State
  | .leads =>
    match w.points.drop w.next with
    | [] => s.todo (.leads w) [] .complete
    | q :: _ =>
      if q = w.common then s.todo (.leads { w with next := w.next + 1 }) [] .leads
      else (s.setWork (.leads w)).lvStep (pairPlan q w.common) s.contReq
  | .complete => s.endJob ⟨.complete, .nothing⟩
  | .wait => s
  | .sweep => s
  | .reroot => s
  | .contEnd => s
  | .walk => s
  | .netDone => s
  | .pop => s
  | .draw => s
  | .toRefHv => s

/-- The lead a measurement gives (R106, R107): the unclamped value, none for OVER, clamped to 5000. -/
def leadOfValue (v : Option Nat) : Nat := min 5000 (v.getD 5000)

/-- A LEAD_HIGH record is due (R106, R107). -/
def leadIsHigh (v : Option Nat) : Bool :=
  match v with
  | none => true
  | some x => decide (5000 < x)

def State.leadHighRec (s : State) (a b : Nat) (v : Option Nat) (r : CRange) : RecData :=
  { s.testRec .leadHigh with pointA := some a, pointB := some b, value := mOhm v, range := some r }

/-- A lead is written at its JUDGE (R108). -/
def State.writeLead (s : State) (p v : Nat) : State :=
  { s with store := s.store.setLead p v, engine := { s.engine with extra := s.engine.extra + 1 } }

/-- JUDGE of a LEARN_LEADS step (R106, R107). -/
def State.leadsJudge (w : LeadsWork) (s : State) (r : LmuResult) : State :=
  match r.contValue with
  | none => s
  | some (raw, g) =>
    match w.lead with
    | none =>
      let v := raw.map (· / 2)
      let s1 := s.writeLead w.common (leadOfValue v)
      s1.todo (.leads { w with lead := some (leadOfValue v), next := 0 })
        (if leadIsHigh v then [s.leadHighRec w.common w.partner v g] else []) .leads
    | some lc =>
      let q := w.points.getD w.next 0
      let v := raw.map (· - lc)
      let s1 := s.writeLead q (leadOfValue v)
      s1.todo (.leads { w with next := w.next + 1 })
        (if leadIsHigh v then [s.leadHighRec q w.common v g] else []) .leads

/-! ### The low-voltage step of REFCHECK -/

/-- The engine begins a REFCHECK (R72): P0 on SOURCE, P1 on RETURN; CONT from 100 mA with N = 16. -/
def State.refStart (s : State) : State :=
  (s.setWork .refLv).lvStep (pairPlan 0 1) ⟨.cont, 16, .r100, s.snap.limits.settle⟩

/-- The window of R72. -/
def lvWindow (v : Option Nat) : Bool :=
  match v with
  | none => false
  | some r => decide (1960 ≤ r) && decide (r ≤ 2040)

/-- JUDGE of the low-voltage step (R72). -/
def State.refLvJudge (s : State) (r : LmuResult) : State :=
  match r.contValue with
  | none => s
  | some (v, g) =>
    if lvWindow v then s.todo (.refHv true) [] .toRefHv
    else
      State.todo { s with reference := .failed } (.refHv false)
        [{ s.testRec .refFail with
            pointA := some 0, pointB := some 1, cause := some .window, value := mOhm v, range := some g }] .toRefHv

end Sys2Proof.Machine
end

