-- ==== Sys2Proof/Machine/Sequencer.lean ====
section
/-! DEFINITION. The engines' sequencing (5.2, 5.6, 5.7): one judgment after another until a step is under way or
a record waits; aborts; the release of a record that waits for the log. -/

namespace Sys2Proof.Machine

open Sys2Proof

/-- What the engine of the active job does next. -/
def State.workNext (s : State) : State :=
  match s.engine.work with
  | .none => s
  | .check w => s.checkNext w s.engine.ctl
  | .learn w => s.learnNext w s.engine.ctl
  | .leads w => s.leadsNext w s.engine.ctl
  | .refLv => s.refNext s.engine.ctl
  | .insulate w => s.insNext w s.engine.ctl
  | .refHv _ => s.refNext s.engine.ctl

/-- RECORD, then what comes next, until a step is under way, the job ends or a record waits (R81, R93). `fuel`
bounds the moves made without a step; a walk over 1024 nets takes fewer than 4000. -/
def State.engineLoop : Nat → State → State
  | 0, s => s
  | fuel + 1, s =>
    match State.drain s.engine.toAppend s with
    | (s1, false) => s1
    | (s1, true) => if s1.engine.ctl = .wait then s1 else State.engineLoop fuel s1.workNext

def State.runEngine (s : State) : State := s.engineLoop 8192

/-- The LMU hands the engine a value or OVER (R81): JUDGE and RECORD. -/
def State.engineMeasured (s : State) (r : LmuResult) : State :=
  if s.engine.phase = .measure then
    let s1 := s.countStep
    State.runEngine (match s1.engine.work with
      | .check w => s1.checkJudge w r
      | .learn w => s1.learnJudge w r
      | .leads w => s1.leadsJudge w r
      | .refLv => s1.refLvJudge r
      | .none => s1
      | .insulate _ => s1
      | .refHv _ => s1)
  else s

/-- The HV unit hands the engine a step complete (R130): INTERRUPTED suspends, every other verdict is judged. -/
def State.stepComplete (s : State) (h : HeldResult) : State :=
  if s.engine.phase = .hvStep then
    if h.verdict = .interrupted then s.suspend .openedDuringStep
    else
      let s1 := s.countStep
      State.runEngine (match s1.engine.work with
        | .insulate w => s1.insJudge w h
        | .refHv p => s1.refHvJudge p h
        | .none => s1
        | .check _ => s1
        | .learn _ => s1
        | .leads _ => s1
        | .refLv => s1)
  else s

/-- The engine begins its job (R148). -/
def State.engineStart (s : State) (j : JobSpec) : State :=
  State.runEngine (match j with
    | .check f l ph => s.checkStart f l ph
    | .insulate f l loc auto => s.insulateStart f l loc auto
    | .learn hv => s.learnStart hv
    | .learnLeads c => s.leadsStart c
    | .refcheck => s.refStart)

/-! ### Aborts -/

def Plan.isEngine (p : Plan) : Bool := decide (p.issuer = .engine)

/-- An abort reaches the engine of a RUNNING job (R95, R142). -/
def State.abortRunning (s : State) (c : EndCause) : State :=
  match s.engine.phase with
  | .between => s.endJob c
  | .plan =>
    if s.matrix.waiting.any Plan.isEngine then
      State.endJob { s with matrix := { s.matrix with waiting := s.matrix.waiting.filter (fun p => !p.isEngine) } } c
    else { s with engine := { s.engine with abort := some c } }
  | .measure => State.endJob { s with lmu := s.lmu.discard } c
  | .hvStep => State.endJob { s with hv := s.hv.stopOrder } c

/-- An abort of the active job (R95, R96, R140): the first to arrive keeps its reason, and a job that is ENDING
keeps its own. -/
def State.abortActive (s : State) (c : EndCause) : State :=
  match s.activeJob with
  | none => s
  | some j =>
    match j.state with
    | .queued => s
    | .ending => s
    | .logWait => s.endJob c
    | .suspended => s.endJob c
    | .running => if s.engine.abort.isSome then s else s.abortRunning c

/-! ### A freed entry -/

/-- The engine offers its pending record again (R93). -/
def State.retryPending (s : State) : State :=
  match s.engine.pendingRec with
  | none => s
  | some r =>
    match s.appendTest false r with
    | (s1, false) => s1
    | (s1, true) =>
      State.runEngine
        (State.countTest (State.setJobState { s1 with engine := { s1.engine with pendingRec := none } } .running))

/-- An entry has freed (R161): a job in LOG_WAIT offers its record again; else the head is examined. -/
def State.entryFreed (s : State) : State :=
  match s.activeJob with
  | some j => if j.state = .logWait then s.retryPending else s
  | none => s.examineHead

/-- Entries freed by an event, told once after all of them have freed (R161). -/
def State.releaseFrom (s : State) (before : Nat) : State :=
  if s.log.entries.length < before then s.entryFreed else s

end Sys2Proof.Machine
end

