-- ==== Sys2Proof/Machine/HostReply.lean ====
section
/-! DEFINITION. Replies of requests that take time, and the reports of plans to their issuers (3.2, R52, R55,
R58, R77, R182). -/

namespace Sys2Proof.Machine

open Sys2Proof

/-- The slot being carried out takes its reply (R182). -/
def RxSlot.answer (p : List Byte) (r : RxSlot) : RxSlot :=
  match r.phase with
  | .carried => { r with phase := .ready p }
  | .waiting => r
  | .ready _ => r
  | .sending _ => r

/-- The reply of the request being carried out is composed and waits for the transmit path (R182, R183). -/
def State.compose (s : State) (p : List Byte) : State :=
  State.txKick { s with host := { s.host with slots := s.host.slots.map (RxSlot.answer p), carried := none } }

/-- The reply to a MANUAL_SWITCH, UNBLOCK or MEASURE is composed, and the head is examined, since condition 5 of R146
may now hold: DEDUCED (log 46). The path takes its next frame first (R183), and a request that waits is handed over
after the examination: DESIGN CHOICE (log 41). -/
def State.composeTimed (s : State) (p : List Byte) : State := (s.compose p).examineHead

/-- The reply to a MANUAL_SWITCH or an UNBLOCK (R55, R58). -/
def planReply (o : PlanOutcome) (extra : List Byte) : List Byte :=
  match o with
  | .complete n => reply .ok (le1 0 ++ le1 n ++ extra)
  | .failed true p => reply .ok (le1 1 ++ le1 CardCause.lost.code ++ le1 p ++ extra)
  | .failed false p => reply .ok (le1 1 ++ le1 PlanCause.unreachableCard.code ++ le1 p ++ extra)
  | .refused c p => reply .ok (le1 1 ++ le1 c.code ++ le1 p ++ extra)

/-- What an UNBLOCK adds to its reply: the count of channels removed (R58). -/
def State.removedBytes (s : State) : List Byte :=
  match s.host.carried with
  | some (.unblock n) => le2 n
  | some .enumerate => []
  | some .manual => []
  | some (.measure _) => []
  | none => []

/-- A report reaches its issuer. -/
def State.deliver (s : State) (r : Report) : State :=
  match r.issuer with
  | .engine => s.onPlan r.outcome
  | .jobEnd => s.finishJob
  | .manual => s.composeTimed (planReply r.outcome [])
  | .unblock => s.composeTimed (planReply r.outcome s.removedBytes)
  | .nobody => s

/-- What a plan operation answers, delivered in order. -/
def State.delivered (x : State × List Report) : State := x.2.foldl State.deliver x.1

/-- A request is being carried out until its reply has been composed (R182), which R55, R58 and R76 call its being sent
(log 46), or an enumeration is running or about to run (R28; log 21). -/
def State.handOverBlocked (s : State) : Bool :=
  s.host.slots.any (fun r => r.phase == .carried) || s.enumerating
    || (s.link.startup && decide (s.hv.rail = .safe))

end Sys2Proof.Machine
end

