-- ==== Sys2Proof/Machine/WireList.lean ====
section
/-! DEFINITION. The wire-list requests (01). Each answers the state and the reply (R2). -/

namespace Sys2Proof.Machine

open Sys2Proof

/-- The index of the first item that fails, 0 when no item does (R4; log 8). -/
def firstBad {α : Type} (l : List α) (bad : α → Bool) : Nat := (l.findIdx? bad).getD 0

/-- The channel of a MAP_POINTS item: none in the option is UNMAPPED, none outside is out of range (R4). -/
def itemChan (c d : Byte) : Option (Option Chan) :=
  if c = 0xFF#8 && d = 0#8 then some none
  else if decide (1 ≤ c.toNat) && decide (c.toNat ≤ 32) && decide (d.toNat ≤ 127) then
    some (some ⟨c.toNat, d.toNat⟩)
  else none

/-- A point that a write may name as its subject (R1). -/
def harnessPoint (p : Nat) : Bool := decide (4 ≤ p) && decide (p ≤ 4095)

/-- Whether a MAP_POINTS item is out of range or names a point of another item (R4, step 3). -/
def mapItemBad (items : List (Nat × Byte × Byte)) (it : Nat × Byte × Byte) : Bool :=
  !harnessPoint it.1 || (itemChan it.2.1 it.2.2).isNone || decide (1 < items.countP (fun x => x.1 == it.1))

/-- The map with every item applied (R4, step 4). -/
def applyMap (m : List (Nat × Chan)) (items : List (Nat × Byte × Byte)) : List (Nat × Chan) :=
  items.foldl (fun m it => tput m it.1 ((itemChan it.2.1 it.2.2).getD none)) m

/-- Whether an item's channel is also another point's in the resulting map (R4, step 4). -/
def mapItemConflict (m : List (Nat × Chan)) (it : Nat × Byte × Byte) : Bool :=
  match (itemChan it.2.1 it.2.2).getD none with
  | none => false
  | some c => m.any (fun e => e.2 == c && e.1 != it.1)

/-- MAP_POINTS (R4, R5). -/
def doMapPoints (p : List Byte) (s : State) : State × List Byte :=
  match counted items4 p with
  | none => (s, reply .badLength [])
  | some (n, items) =>
    if s.jobActive then (s, reply .busy [])
    else if n = 0 || decide (128 < n) || items.any (mapItemBad items) then
      (s, reply .badValue (le1 (firstBad items (mapItemBad items))))
    else
      let m := applyMap s.store.map items
      if items.any (mapItemConflict m) then
        (s, reply .conflict (le1 (firstBad items (mapItemConflict m))))
      else ({ s with store := { s.store with map := m } }, reply .ok [])

/-- A range of points a read names: first 0–4095, count 1–128, last at most 4095 (R6). -/
def pointRange (first count : Nat) : Option (List Nat) :=
  if decide (first ≤ 4095) && decide (1 ≤ count) && decide (count ≤ 128) && decide (first + count - 1 ≤ 4095) then
    some (List.range' first count)
  else none

/-- READ_MAP (R6). -/
def doReadMap (p : List Byte) (s : State) : State × List Byte :=
  match p with
  | [a, b, c] =>
    match pointRange (u16 a b) c.toNat with
    | none => (s, reply .badValue [])
    | some pts =>
      (s, reply .ok (pts.flatMap (fun q => chanBytes (s.chanOf q) ++ le2 ((s.ownerOf q).getD 0))))
  | _ => (s, reply .badLength [])

/-- Whether a SET_LEADS item is out of range or names a point of another item (R8). -/
def leadItemBad (items : List (Nat × Byte × Byte)) (it : Nat × Byte × Byte) : Bool :=
  !harnessPoint it.1 || decide (5000 < u16 it.2.1 it.2.2) || decide (1 < items.countP (fun x => x.1 == it.1))

/-- SET_LEADS (R8). -/
def doSetLeads (p : List Byte) (s : State) : State × List Byte :=
  match counted items4 p with
  | none => (s, reply .badLength [])
  | some (n, items) =>
    if s.jobActive then (s, reply .busy [])
    else if n = 0 || decide (128 < n) || items.any (leadItemBad items) then
      (s, reply .badValue (le1 (firstBad items (leadItemBad items))))
    else
      ({ s with store := items.foldl (fun st it => st.setLead it.1 (u16 it.2.1 it.2.2)) s.store }, reply .ok [])

/-- READ_LEADS (R9). -/
def doReadLeads (p : List Byte) (s : State) : State × List Byte :=
  match p with
  | [a, b, c] =>
    match pointRange (u16 a b) c.toNat with
    | none => (s, reply .badValue [])
    | some pts => (s, reply .ok (pts.flatMap (fun q => le2 (s.leadOf q))))
  | _ => (s, reply .badLength [])

/-- The fields of a LOAD_NET as they stand in its payload (R12). -/
structure LoadNet where
  num : Nat
  members : List Nat
  hv : Nat
  hasOverride : Nat
  override : Nat
  label : List Byte
  deriving DecidableEq, Repr

/-- Read a LOAD_NET payload; none where its length does not agree with its counts (R12, step 1). -/
def parseLoadNet (p : List Byte) : Option LoadNet :=
  match p with
  | a :: b :: c :: d :: rest =>
    match takePoints (u16 c d) rest with
    | some (ms, h :: o :: w :: x :: y :: z :: l :: label) =>
      if label.length = l.toNat then some ⟨u16 a b, ms, h.toNat, o.toNat, u32 w x y z, label⟩ else none
    | _ => none
  | _ => none

/-- Every field in range (R12, step 3; a flag byte is 0 or 1, log 7). The value bytes of an absent override are not
examined: R179 says they are 0 and names no refusal, DESIGN CHOICE (log 40). A label length above 8 is out of range:
DEDUCED (log 40). -/
def LoadNet.inRange (q : LoadNet) : Bool :=
  decide (1 ≤ q.num) && decide (q.num ≤ 1024)
    && decide (1 ≤ q.members.length) && decide (q.members.length ≤ 256)
    && q.members.all harnessPoint && decide (q.members.Nodup)
    && decide (q.hv ≤ 1) && decide (q.hasOverride ≤ 1)
    && (q.hasOverride == 0 || (decide (10 ≤ q.override) && decide (q.override ≤ 1000000)))
    && decide (q.label.length ≤ 8) && q.label.all (fun b => decide (0x20 ≤ b.toNat) && decide (b.toNat ≤ 0x7E))

/-- The record an accepted LOAD_NET stores (R13): its members in ascending order. The value bytes of an absent
override are ignored: DESIGN CHOICE (log 40). -/
def LoadNet.body (q : LoadNet) : NetBody where
  num := q.num
  members := sortPoints q.members
  hv := q.hv == 1
  override := if q.hasOverride = 1 then some q.override else none
  label := q.label

/-- The first member, ascending, that another net holds (R12, step 4). -/
def LoadNet.conflict (q : LoadNet) (s : State) : Option (Nat × Nat) :=
  (sortPoints q.members).findSome? (fun m =>
    match s.ownerOf m with
    | some n => if n = q.num then none else some (m, n)
    | none => none)

/-- LOAD_NET (R12, R13). -/
def doLoadNet (p : List Byte) (s : State) : State × List Byte :=
  match parseLoadNet p with
  | none => (s, reply .badLength [])
  | some q =>
    if s.jobActive then (s, reply .busy [])
    else if !q.inRange then (s, reply .badValue [])
    else
      match q.conflict s with
      | some (m, n) => (s, reply .conflict (le2 m ++ le2 n))
      | none =>
        let st := s.store.putNet q.body
        ({ s with store := st }, reply .ok (le2 q.num ++ le2 st.nets.length))

/-- CLEAR_NETS (R14). -/
def doClearNets (p : List Byte) (s : State) : State × List Byte :=
  match p with
  | [] =>
    if s.jobActive then (s, reply .busy [])
    else ({ s with store := s.store.clearNets }, reply .ok [])
  | _ :: _ => (s, reply .badLength [])

/-- The contents of an OK reply to READ_NET (R15). -/
def netReply (b : NetBody) (stored : Nat) : List Byte :=
  le2 b.num ++ le2 stored ++ le2 b.members.length ++ b.members.flatMap le2 ++ flagByte b.hv
    ++ flagByte b.override.isSome ++ le4 (b.override.getD 0) ++ le1 b.label.length ++ b.label

/-- The net a READ_NET selects: EXACT (mode 0) or NEXT (mode 1); none outside is a bad value (R15). -/
def selectNet (s : State) (n : Nat) (mode : Byte) : Option (Option NetRec) :=
  if mode = 0#8 then (if decide (1 ≤ n) && decide (n ≤ 1024) then some (s.findNet n) else none)
  else if mode = 1#8 then
    (if n ≤ 1025 then some (s.store.nets.find? (fun r => decide (n ≤ r.body.num))) else none)
  else none

/-- READ_NET (R15, R17, R18). -/
def doReadNet (p : List Byte) (s : State) : State × List Byte :=
  match p with
  | [a, b, m] =>
    match selectNet s (u16 a b) m with
    | none => (s, reply .badValue [])
    | some none => (s, reply .notFound (le2 s.store.nets.length))
    | some (some r) =>
      let (s1, ans) := s.readNetFor .read r.body.num
      match ans with
      | .contents body => (s1, reply .ok (netReply body s.store.nets.length))
      | .missing => (s1, reply .notFound (le2 s.store.nets.length))
      | .corrupt => (s1, reply .corrupt (le2 r.body.num ++ le2 s.store.nets.length))
      | .upset _ => (s1, reply .corrupt (le2 r.body.num ++ le2 s.store.nets.length))
  | _ => (s, reply .badLength [])

/-- A storage upset strikes a stored record (R16): its contents no longer agree with its check value. The
disagreement is kept in the check value (log 6). -/
def Store.upset (st : Store) (n : Nat) (flip : Word16) : Store :=
  { st with nets := st.nets.map (fun r =>
      if r.body.num = n then { r with check := r.body.checkValue ^^^ (if flip = 0#16 then 1#16 else flip) } else r) }

end Sys2Proof.Machine
end

