-- ==== Sys2Proof/Machine/CardLink.lean ====
section
/-! DEFINITION. The card link and the roster (02): the frames it accepts, enumeration, loss of a card, attention,
and its requests. -/

namespace Sys2Proof.Machine

open Sys2Proof

/-! ### Frames (Table 2-2, R21) -/

/-- The bytes a card frame's check value is taken over (Table 2-2). -/
def cardBody (dir seq : Bool) (addr : Nat) (kind : Byte) (payload : List Byte) : List Byte :=
  BitVec.ofNat 8 (addr + (if seq then 64 else 0) + (if dir then 128 else 0)) :: kind
    :: BitVec.ofNat 8 (payload.length / 256) :: BitVec.ofNat 8 payload.length :: payload

def frameBody (f : CardFrame) : List Byte := cardBody f.toController f.seq f.addr.toNat f.kind f.payload

/-- The reply kind a frame is due (R21). -/
def Sent.replyDue : Sent → Option Byte
  | .assign _ => some 0x81#8
  | .set _ _ => some 0x82#8
  | .allOpen => none
  | .attnQuery => some 0x84#8
  | .attnClear _ => some 0x82#8
  | .status _ => some 0x86#8

/-- The address a reply must carry (R21). -/
def Sent.addrDue (x : Sent) (a : Nat) : Bool :=
  match x with
  | .assign n => a == n
  | .set p _ => a == p
  | .allOpen => false
  | .attnQuery => decide (1 ≤ a) && decide (a ≤ 32)
  | .attnClear p => a == p
  | .status p => a == p

/-- ATTN_QUERY is exempt from the sequence check (R21). -/
def Sent.seqExempt : Sent → Bool
  | .attnQuery => true
  | .assign _ => false
  | .set _ _ => false
  | .allOpen => false
  | .attnClear _ => false
  | .status _ => false

/-- The payload length of a reply (Table 2-3; log 16). -/
def Sent.replyLength : Sent → Nat
  | .assign _ => 6
  | .set _ _ => 0
  | .allOpen => 0
  | .attnQuery => 2
  | .attnClear _ => 0
  | .status _ => 2

/-- The five checks of R21, and the payload length. -/
def Exchange.accepts (e : Exchange) (f : CardFrame) : Bool :=
  f.crc == crc16 (frameBody f) && f.toController && (e.sent.replyDue == some f.kind) && e.sent.addrDue f.addr.toNat
    && (e.sent.seqExempt || f.seq == e.seq) && decide (f.payload.length = e.sent.replyLength)

/-- The exchange a frame is accepted as the reply of. -/
def State.accepted (s : State) (f : CardFrame) : Option Sent :=
  match s.link.exchange with
  | none => none
  | some e => if e.accepts f then some e.sent else none

/-! ### The roster in a reply (R34) -/

def RosterEntry.bytes (frozen : Bool) (e : RosterEntry) : List Byte :=
  le1 e.state.code ++ le1 e.kind.code ++ le4 e.serial ++ le1 e.revision
    ++ (if frozen then le1 e.expected.code else [])

def State.rosterBytes (s : State) : List Byte :=
  flagByte s.matrix.frozen ++ s.matrix.roster.flatMap (RosterEntry.bytes s.matrix.frozen)

/-! ### Enumeration (2.5) -/

/-- An enumeration starts (R28): its link break waits for the end of an attention exchange in progress. -/
def State.startEnum (s : State) (host : Bool) : State :=
  let s1 := { s with link := { s.link with startup := false, enumHost := host } }
  if s1.link.exchange.isSome then { s1 with link := { s1.link with enumPhase := .waitLink } } else s1.startBreak

/-- The kind a kind code gives (R29). -/
def kindOf (b : Byte) : CardKind := if b = 0x01#8 then .lv128 else if b = 0x02#8 then .hv64 else .other

/-- The card an IDENT payload describes (Table 2-3: the serial high byte first). -/
def discoveredOf : List Byte → Option Discovered
  | [k, a, b, c, d, r] => some ⟨kindOf k, u32 d c b a, r.toNat⟩
  | _ => none

/-- What a position takes from its discovered card (R30, R31): its new entry and whether it is a mismatch. -/
def compareAt (frozen : Bool) (old : RosterEntry) (d : Option Discovered) : RosterEntry × Bool :=
  match d with
  | none => (⟨.absent, .none, 0, 0, old.expected⟩, frozen && decide (old.expected ≠ .none))
  | some c =>
    let ok := if frozen then decide (old.expected = c.kind) else decide (c.kind ≠ .other)
    (⟨if ok then .present else .mismatch, c.kind, c.serial, c.revision, old.expected⟩, !ok)

/-- The ROSTER_MISMATCH record of a position (R30, R31). -/
def mismatchRec (p : Nat) (e : RosterEntry) : RecData :=
  { kind := .rosterMismatch, system := true, position := some p, cause := some (.roster e.expected e.kind) }

/-- One record and one event for each mismatch (R31). -/
def State.mismatch (s : State) (p : Nat) : State :=
  ((s.appendSystem (mismatchRec p (s.posn p))).1).raise .roster

/-- The image at the close of an enumeration (R32). -/
def State.enumImage (s : State) : List (Nat × Rail) :=
  s.matrix.image.filter (fun e => decide (e.1 < 128)) ++
    positions.flatMap (fun p =>
      if (s.posn p).state = .present then
        (List.range (s.posn p).kind.channels).map (fun k => (p * 128 + k, .opn))
      else [])

/-- The discovered list becomes the roster or is compared with it (R30, R31), and the image follows (R32). -/
def State.compareRoster (s : State) : State :=
  let res := positions.map (fun p => (p, compareAt s.matrix.frozen (s.posn p) (s.link.discovered[p - 1]?)))
  let s1 : State := { s with matrix := { s.matrix with roster := res.map (·.2.1) } }
  (res.filter (·.2.2)).foldl (fun s x => s.mismatch x.1) (s1.setImage s1.enumImage)

/-- The enumeration closes (R32): roster and image, sequence bits, reply; the head is examined. -/
def State.closeEnum (s : State) : State :=
  let s1 := s.compareRoster
  let s2 := { s1 with
    link := { s1.link with
      exchange := none, replyTimer := none, enumPhase := .idle, enumHost := false, discovered := []
      seqBits := List.replicate 32 false } }
  let s3 := if s.link.enumHost then s2.compose (reply .ok s2.rosterBytes) else s2
  s3.examineHead

/-- The link break ends and ASSIGN 1 goes out (R29). -/
def State.breakEnd (s : State) : State :=
  State.sendCard { s with link := { s.link with enumPhase := .assigning } } (.assign 1)

/-- An accepted IDENT (R29). -/
def State.identTaken (s : State) (a : Nat) (p : List Byte) : State :=
  match discoveredOf p with
  | none => s
  | some d =>
    let s1 := { s with link := { s.link.endExchange with discovered := s.link.discovered ++ [d] } }
    if 32 ≤ a then s1.closeEnum else s1.sendCard (.assign (a + 1))

/-! ### Loss of a position (R26) -/

/-- Steps 1 to 4 of R26. -/
def State.markLost (s : State) (p code : Nat) : State :=
  let s1 := { s with matrix :=
    { s.matrix.setPosn p { s.posn p with state := .lost } with
      image := rewritePos s.matrix.image p (fun _ _ => none) } }
  let s2 := (s1.appendSystem { kind := .cardLost, system := true, position := some p, cause := some (.frame code) }).1
  s2.raiseCard .lost p

def lostCause (p : Nat) : EndCause := ⟨.abortedCard, .card .lost p⟩

/-- A SET that fails (R26, R48, R51): the abort has arrived when the plan's failure is told (R81; log 17). -/
def State.setLost (s : State) (p : Nat) : State :=
  let s1 := (s.markLost p 2).abortActive (lostCause p)
  let s2 := { s1 with link := s1.link.endExchange }
  match s2.matrix.slot.issuer with
  | none => s2
  | some who => State.delivered (reports who (s2.setSlot .empty, some (.failed true p)))

/-- The attention exchange is over (R36): a plan that waited for the link goes on. -/
def State.attentionOver (s : State) : State :=
  State.delivered (State.linkFree { s with link := s.link.endExchange })

/-- An ATTN_CLEAR that fails (R26, R37). -/
def State.clearLost (s : State) (p : Nat) : State :=
  ((s.markLost p 5).abortActive (lostCause p)).attentionOver

/-! ### The status sweep (R41) -/

def State.sweepable (s : State) (p : Nat) : Bool :=
  decide ((s.posn p).state = .present) || decide ((s.posn p).state = .faulted)

/-- The next position of a sweep, or its end without a pending cause: polling is blocked (R41). -/
def State.sweepFrom (s : State) (after : Nat) : State :=
  match positions.find? (fun p => decide (after < p) && s.sweepable p) with
  | some p => s.sendCard (.status p)
  | none => State.attentionOver { s with link := { s.link with pollBlocked := true } }

/-- A STATUS that fails (R26, R41). -/
def State.statusLost (s : State) (p : Nat) : State :=
  ((s.markLost p 6).abortActive (lostCause p)).sweepFrom p

/-! ### Attention causes (R38) -/

def cardCause (c : CardCause) (p : Nat) : EndCause := ⟨.abortedCard, .card c p⟩

/-- DRIVER_FAULT, and cause codes 0 or undefined (Table 2-5). -/
def State.driverFault (s : State) (p : Nat) : State :=
  let s1 := { s with matrix :=
    { s.matrix.setPosn p { s.posn p with state := .faulted } with
      image := rewritePos s.matrix.image p (fun _ _ => some .opn) } }
  let s2 := (s1.appendSystem { kind := .cardFault, system := true, position := some p }).1
  (s2.raiseCard .driverFault p).abortActive (cardCause .driverFault p)

/-- STUCK (Table 2-5): a channel of the card's kind is blocked and UNKNOWN. -/
def State.stuckRelay (s : State) (p ch : Nat) : State :=
  let s1 := if ch < (s.posn p).kind.channels then
      { s with matrix := { s.matrix with
        blocked := insChan ⟨p, ch⟩ s.matrix.blocked, image := tdel s.matrix.image (p * 128 + ch) } }
    else s
  let s2 := (s1.appendSystem
    { kind := .stuckRelay, system := true, position := some p, channel := some ch }).1
  (s2.raiseCard .stuck p).abortActive (cardCause .stuck p)

/-- OVERTEMP (Table 2-5). -/
def State.overtemp (s : State) (p : Nat) : State :=
  ((s.appendSystem { kind := .cardWarn, system := true, position := some p }).1).raiseCard .overtemp p

/-- An attention cause at a PRESENT or FAULTED position (R38). -/
def State.attnCause (s : State) (p cause ch : Nat) : State :=
  if cause = 2 then s.stuckRelay p ch else if cause = 3 then s.overtemp p else s.driverFault p

/-- The cause is handled, then ATTN_CLEAR goes to the holder (R37, R41). -/
def State.serveHolder (s : State) (p cause ch : Nat) : State :=
  (s.attnCause p cause ch).sendCard (.attnClear p)

/-- An accepted ATTN_REPLY (R37). -/
def State.attnReply (s : State) (p : Nat) (pl : List Byte) : State :=
  match pl with
  | [c, ch] =>
    if s.sweepable p then s.serveHolder p c.toNat ch.toNat
    else State.attentionOver { s with link := { s.link with pollBlocked := true } }
  | _ => s

/-- An accepted STATUS_REPLY (R41). -/
def State.statusReply (s : State) (p : Nat) (pl : List Byte) : State :=
  match pl with
  | [c, ch] => if c.toNat = 0 then s.sweepFrom p else s.serveHolder p c.toNat ch.toNat
  | _ => s

/-- ATTN_QUERY may be sent (R36). -/
def State.mayPoll (s : State) : Bool :=
  s.link.exchange.isNone && !s.link.pollBlocked && !s.link.startup && !s.enumerating
    && (match s.matrix.slot with
        | .sending _ _ _ => false
        | .empty => true
        | .held _ => true
        | .settling _ _ _ => true)

/-! ### Plans on the link -/

/-- The ACK to a SET (R48). -/
def State.setAcked (s : State) (p : Nat) (items : List (Nat × Rail)) : State :=
  let s1 := { s with
    link := s.link.endExchange
    matrix := { s.matrix with image := writeImage s.matrix.image p items } }
  match s1.matrix.slot with
  | .sending t _ touched => State.delivered (reports t.plan.issuer (s1.dealRest t (p + 1) (touched ++ [p])))
  | .empty => s1
  | .held _ => s1
  | .settling _ _ _ => s1

/-- ALL_OPEN's last byte has been sent (R49). -/
def State.allOpenDone (s : State) : State :=
  let s1 := { s with
    link := s.link.endExchange
    matrix := { s.matrix with image := s.allOpenImage } }
  match s1.matrix.slot with
  | .sending t _ _ => State.delivered (reports t.plan.issuer (s1.dealt t s.allOpenTouched))
  | .empty => s1
  | .held _ => s1
  | .settling _ _ _ => s1

/-- The settle time expires: the plan is complete (R50). -/
def State.settleDone (s : State) : State :=
  match s.matrix.slot with
  | .settling t touched _ =>
    State.delivered (reports t.plan.issuer (s.setSlot .empty, some (.complete touched.length)))
  | .empty => s
  | .held _ => s
  | .sending _ _ _ => s

/-- A HELD plan passes to SENDING with the rail SAFE (R46). -/
def State.heldGoes (s : State) : State :=
  match s.matrix.slot with
  | .held t => if s.hv.rail = .safe then State.delivered (reports t.plan.issuer (s.enterSending t)) else s
  | .empty => s
  | .sending _ _ _ => s
  | .settling _ _ _ => s

/-- The reply timer expires (R25). -/
def State.replyTimeout (s : State) (e : Exchange) : State :=
  match e.sent with
  | .assign _ => s.closeEnum
  | .allOpen => s
  | .attnQuery => if e.resent then s.sweepFrom 0 else { s with link := s.link.resend e }
  | .set p _ => if e.resent then s.setLost p else { s with link := s.link.resend e }
  | .attnClear p => if e.resent then s.clearLost p else { s with link := s.link.resend e }
  | .status p => if e.resent then s.statusLost p else { s with link := s.link.resend e }

/-! ### Requests -/

/-- The place of the first value that fails, as a refusal names it (R27, R68, R111; log 7). -/
def badPlace (oks : List Bool) : Nat := (oks.findIdx? (fun b => !b)).getD 0

/-- SET_CARD_LINK (R27). -/
def doSetCardLink (p : List Byte) (s : State) : State × List Byte :=
  match p with
  | [t, lv, hv] =>
    let oks := [decide (1 ≤ t.toNat), decide (1 ≤ lv.toNat) && decide (lv.toNat ≤ 50),
      decide (1 ≤ hv.toNat) && decide (hv.toNat ≤ 50)]
    if s.jobActive then (s, reply .busy [])
    else if oks.all id then
      ({ s with link := { s.link with replyTimeout := t.toNat, lvSettle := lv.toNat, hvSettle := hv.toNat } },
        reply .ok [])
    else (s, reply .badValue (le1 (badPlace oks)))
  | _ => (s, reply .badLength [])

/-- The expected kinds of a roster, position by position. -/
def Matrix.setExpected (m : Matrix) (ks : List CardKind) (frozen : Bool) : Matrix :=
  { m with
    frozen := frozen
    roster := (m.roster.zip ks).map (fun x => { x.1 with expected := x.2 }) }

/-- The expected kind FREEZE_PRESENT gives a position (R33). -/
def RosterEntry.asExpected (e : RosterEntry) : CardKind :=
  if e.state = .absent then .none else if e.kind = .other then .none else e.kind

def rosterOk (m : Matrix) (s : State) : State × List Byte :=
  ({ s with matrix := m }, reply .ok (State.rosterBytes { s with matrix := m }))

/-- SET_ROSTER (R33): mode 0 FREEZE_LIST, 1 FREEZE_PRESENT, 2 UNFREEZE. -/
def doSetRoster (p : List Byte) (s : State) : State × List Byte :=
  match p with
  | [] => (s, reply .badLength [])
  | m :: ks =>
    if m = 0#8 then
      if ks.length ≠ 32 then (s, reply .badLength [])
      else if s.jobActive then (s, reply .busy [])
      else if ks.all (fun k => (expectedOf k).isSome) then
        rosterOk (s.matrix.setExpected (ks.map (fun k => (expectedOf k).getD .none)) true) s
      else (s, reply .badValue (le1 (firstBad ks (fun k => (expectedOf k).isNone) + 1)))
    else if ks.length ≠ 0 then (s, reply .badLength [])
    else if s.jobActive then (s, reply .busy [])
    else if m = 1#8 then
      rosterOk (s.matrix.setExpected (s.matrix.roster.map RosterEntry.asExpected) true) s
    else if m = 2#8 then
      rosterOk (s.matrix.setExpected (s.matrix.roster.map (fun _ => .none)) false) s
    else (s, reply .badValue (le1 0))

/-- ENUMERATE (R28): accepted, its reply is composed when the enumeration ends. -/
def doEnumerate (p : List Byte) (s : State) : State × Option (List Byte) :=
  match p with
  | _ :: _ => (s, some (reply .badLength []))
  | [] =>
    if s.jobActive || !s.matrix.slot.isEmpty then (s, some (reply .busy []))
    else if s.hv.rail ≠ .safe then (s, some (reply .badState []))
    else (State.endWait (State.startEnum { s with host := { s.host with carried := some .enumerate } } true), none)

/-- READ_ROSTER (R34). -/
def doReadRoster (p : List Byte) (s : State) : State × List Byte :=
  match p with
  | [] => (s, reply .ok s.rosterBytes)
  | _ :: _ => (s, reply .badLength [])

end Sys2Proof.Machine
end

