-- ==== Sys2Proof/Machine/HvUnit.lean ====
section
/-! DEFINITION. The HV unit's requests and the effects of its events on the rest of the part (07). -/

namespace Sys2Proof.Machine

open Sys2Proof

/-- SET_HV (R111). -/
def doSetHv (p : List Byte) (s : State) : State × List Byte :=
  match p with
  | [v0, v1, r, d0, d1, t0, t1, a0, a1, l, m0, m1, b] =>
    let v := u16 v0 v1
    let d := u16 d0 d1
    let t := u16 t0 t1
    let a := u16 a0 a1
    let m := u16 m0 m1
    let oks := [decide (50 ≤ v) && decide (v ≤ 1500) && decide (v % 10 = 0),
      decide (1 ≤ r.toNat) && decide (r.toNat ≤ 50), decide (2 ≤ d) && decide (d ≤ 6000),
      decide (10 ≤ t) && decide (t ≤ 500), decide (10 ≤ a) && decide (a ≤ 1000), true,
      decide (1 ≤ m) && decide (m ≤ 2000), decide (1 ≤ b.toNat) && decide (b.toNat ≤ 64)]
    if oks.all id then
      ({ s with hv := { s.hv with hvSet := ⟨v, r.toNat, d, t, a, l.toNat, m, b.toNat⟩ } }, reply .ok [])
    else (s, reply .badValue (le1 (badPlace oks)))
  | _ => (s, reply .badLength [])

/-- What a refused CLEAR_HV_FAULT reports (R125). -/
def State.railReport (s : State) : List Byte := le1 s.hv.rail.code ++ le2 s.hv.presentV

/-- CLEAR_HV_FAULT (R125). -/
def doClearHvFault (p : List Byte) (s : State) : State × List Byte :=
  match p with
  | _ :: _ => (s, reply .badLength s.railReport)
  | [] =>
    if s.hv.rail ≠ .fault then (s, reply .badState s.railReport)
    else if 300 ≤ s.hv.presentV then (s, reply .badState s.railReport)
    else (State.examineHead { s with hv := s.hv.enterSafe }, reply .ok (le2 s.hv.presentV))

/-- Step-start permission and an idle LMU with the rail SAFE (R46, R113). -/
def State.mayStep (s : State) : Bool := s.sourceAllowed && decide (s.lmu.phase = .idle)

/-- A step request is examined (R113): INTERLOCK with the cover OPEN, else the step starts. -/
def State.examineStep (s : State) (v : StepValues) : State :=
  if s.hv.coverClosed then { s with hv := s.hv.startStep v }
  else State.suspend { s with hv := { s.hv with request := none } } .openAtStart

/-- The hold timer expires (R123): SAFE, and a held result goes to the issuer. -/
def State.holdDone (s : State) : State :=
  let h := s.hv.enterSafe
  match h.held with
  | none => { s with hv := h }
  | some r => State.stepComplete { s with hv := { h with held := none, values := none } } r

/-- The HV_FAULT record (R124). -/
def State.hvFaultRec (s : State) : RecData :=
  { kind := .hvFault, system := true
    tag := s.activeJob.map (·.tag)
    value := some ⟨.dV, some s.hv.presentV⟩
    second := some ⟨.nA, some s.hv.presentI⟩
    cause := some (.discharge s.hv.cause) }

/-- The active job is ENDING and its all-open plan is HELD or waiting (R150). -/
def State.endingHeld (s : State) : Bool :=
  (s.activeJob.map (fun j => decide (j.state = .ending))).getD false
    && ((match s.matrix.slot with
         | .held t => decide (t.plan.issuer = .jobEnd)
         | .empty => false
         | .sending _ _ _ => false
         | .settling _ _ _ => false)
        || s.matrix.waiting.any (fun p => decide (p.issuer = .jobEnd)))

/-- The rail is in FAULT (R124): the record, the event, and nothing is kept of a step. An idle formatter acts on the
HV_FAULT record (R170), PRINTER and PAPER included, before the HV_FAULT event is raised: DESIGN CHOICE (log 30). -/
def State.railFault (s : State) : State :=
  let s1 := { s with hv := { s.hv with rail := .fault, holdTimer := none, limitTimer := none } }
  let (s2, taken) := s1.appendSystem s1.hvFaultRec
  let s3 := State.raise (if s1.jobActive then s2.countSystem taken else s2) .hvFault
  { s3 with hv := s3.hv.dropStep }

/-- The limit timer expires (R124). -/
def State.limitDone (s : State) : State :=
  let s1 := s.railFault
  if s1.endingHeld then s1.finishJob
  else State.examineHead (s1.abortActive ⟨.abortedHvFault, .nothing⟩)

/-- The COVER input changes level (R120): the debounce starts afresh. -/
def State.coverEdge (s : State) (closed : Bool) : State :=
  if s.pins.coverClosed = closed then s
  else { s with pins := { s.pins with coverClosed := closed }, hv := { s.hv with debounce := some 10 } }

/-- The input has held its level for 10 ms (R120): OPEN interrupts a step in RAMP or DWELL, CLOSED lets a
suspended job resume (R141). -/
def State.coverSettled (s : State) : State :=
  let s1 := { s with hv := { s.hv with debounce := none, coverClosed := s.pins.coverClosed } }
  if s.pins.coverClosed = s.hv.coverClosed then s1
  else if s.pins.coverClosed then s1.autoResume
  else match s.hv.rail with
    | .ramp => { s1 with hv := s1.hv.interrupt }
    | .dwell => { s1 with hv := s1.hv.interrupt }
    | .safe => s1
    | .discharge => s1
    | .fault => s1

end Sys2Proof.Machine
end

