-- ==== Sys2Proof/Machine/JobStart.lean ====
section
/-! DEFINITION. The start of a job (R146–R148): snapshot, JOB_START, validation. -/

namespace Sys2Proof.Machine

open Sys2Proof

/-- The range of nets a job names, whether its first net is above its last, and whether only HV nets count. -/
def JobSpec.netRange : JobSpec → Option (Nat × Nat)
  | .check f l _ => some (f, l)
  | .insulate f l _ _ => some (f, l)
  | .learn _ => none
  | .learnLeads _ => none
  | .refcheck => none

/-- Check 1 of Table 9-2. -/
def State.badRange (s : State) : JobSpec → Option EndCause
  | .check f l _ => if l < f then some ⟨.badRange, .nothing⟩ else none
  | .insulate f l _ _ => if l < f then some ⟨.badRange, .nothing⟩ else none
  | .learnLeads c =>
    if decide (c < 4) || (s.chanOf c).isNone || decide (s.mapped.length = 1) then some ⟨.badRange, .point c⟩
    else none
  | .learn _ => none
  | .refcheck => none

/-- Check 2: whether the reference state gates the kind (R74). -/
def JobSpec.refGated : JobSpec → Bool
  | .check _ _ _ => true
  | .insulate _ _ _ _ => true
  | .learn _ => true
  | .learnLeads _ => false
  | .refcheck => false

/-- Check 3: every stored net in the range is read, the contents of the sound ones kept; the first CORRUPT one
is named. -/
def State.readRange : List Nat → State → State × List NetBody × Option Nat
  | [], s => (s, [], none)
  | n :: rest, s =>
    match s.readNetFor .start n with
    | (s1, .contents b) =>
      let (s2, bs, bad) := State.readRange rest s1
      (s2, b :: bs, bad)
    | (s1, .missing) => State.readRange rest s1
    | (s1, .corrupt) =>
      let (s2, bs, _) := State.readRange rest s1
      (s2, bs, some n)
    | (s1, .upset _) =>
      let (s2, bs, _) := State.readRange rest s1
      (s2, bs, some n)

/-- The stored net numbers of a range, ascending. -/
def State.numsIn (s : State) (f l : Nat) : List Nat :=
  (s.store.nets.map (·.body.num)).filter (fun n => decide (f ≤ n) && decide (n ≤ l))

/-- The nets of the range a job works on: all of them, or those with the HV flag (Table 9-2, check 4). -/
def JobSpec.worksOn (j : JobSpec) (bs : List NetBody) : List NetBody :=
  match j with
  | .insulate _ _ _ _ => bs.filter (·.hv)
  | .check _ _ _ => bs
  | .learn _ => bs
  | .learnLeads _ => bs
  | .refcheck => bs

/-- The points an isolation phase touches beside the members in the range (R79): mapped members of nets above
the lowest net of the range, and every unassigned point. -/
def State.isoTouched (s : State) (bs : List NetBody) : List Nat :=
  match bs with
  | [] => []
  | b :: _ => s.mapped.filter (fun p => match s.ownerOf p with
      | none => true
      | some m => decide (b.num < m))

/-- The points a job touches, ascending (R79, R97, R105, R128). -/
def State.touched (s : State) (bs : List NetBody) : JobSpec → List Nat
  | .check _ _ .cont => sortPoints ((bs.filter (fun b => decide (2 ≤ b.members.length))).flatMap (·.members))
  | .check _ _ .iso => sortPoints (bs.flatMap (·.members) ++ s.isoTouched bs)
  | .check _ _ .both => sortPoints (bs.flatMap (·.members) ++ s.isoTouched bs)
  | .insulate _ _ _ _ => sortPoints ((bs.filter (·.hv)).flatMap (·.members) ++ s.mapped)
  | .learn _ => (s.store.map.filter (fun e => !(s.isBlocked e.2))).map (·.1)
  | .learnLeads _ => s.mapped
  | .refcheck => []

/-- Check 5 for a point: mapped, reachable, not blocked. -/
def State.pointFault (s : State) (p : Nat) : Option EndCause :=
  match s.chanOf p with
  | none => some ⟨.unmappedPoint, .point p⟩
  | some c =>
    if !(s.reachable c) then some ⟨.unreachableCard, .point p⟩
    else if s.isBlocked c then some ⟨.blockedPoint, .point p⟩
    else none

/-- A point on an HV-64 position (R128). -/
def State.onHv64 (s : State) (p : Nat) : Bool :=
  match s.chanOf p with
  | none => false
  | some c => decide ((s.posn c.pos).kind = .hv64)

/-- Check 6: the lowest member off HV-64 of the lowest such net (R128). -/
def State.notHv (s : State) (bs : List NetBody) : JobSpec → Option EndCause
  | .insulate _ _ _ _ =>
    (((bs.filter (·.hv)).flatMap (·.members)).find? (fun p => !(s.onHv64 p))).map (fun p => ⟨.notHvCapable, .point p⟩)
  | .check _ _ _ => none
  | .learn _ => none
  | .learnLeads _ => none
  | .refcheck => none

/-- Checks 5 and 6. -/
def State.checkPoints (s : State) (j : JobSpec) (bs : List NetBody) : Option EndCause :=
  ((s.touched bs j).findSome? s.pointFault).or (s.notHv bs j)

/-- Checks 3 to 6. -/
def State.validateTables (s : State) (j : JobSpec) : State × Option EndCause :=
  match j.netRange with
  | none => (s, s.checkPoints j [])
  | some (f, l) =>
    match State.readRange (s.numsIn f l) s with
    | (s1, _, some n) => (s1, some ⟨.tableCorrupt, .net n⟩)
    | (s1, bs, none) =>
      if (j.worksOn bs).isEmpty then (s1, some ⟨.emptyTable, .nothing⟩) else (s1, s1.checkPoints j bs)

/-- Validation (R148, Table 9-2): the first check that fails. -/
def State.validate (s : State) (j : JobSpec) : State × Option EndCause :=
  match s.badRange j with
  | some c => (s, some c)
  | none =>
    if j.refGated && decide (s.reference = .failed) then (s, some ⟨.refFailed, .nothing⟩)
    else s.validateTables j

/-- The JOB_START record (R147, R152). -/
def jobStartRec (j : Job) (system u : Bool) : RecData :=
  { kind := .jobStart, system := system, flags := { u := u }, tag := some j.tag, job := some j.spec }

/-- A job refused at its start (R148). -/
def State.refuseJob (s : State) (j : Job) (c : EndCause) : State :=
  let (s1, _) := s.appendSystem (jobEndZero j c)
  ((s1.raise .jobAborted).dropHead).examineHead

/-- Steps 1 to 4 of R147. -/
def State.openJob (s : State) (j : Job) : State :=
  let u := decide (s.reference = .unverified)
  let s1 := s.setHead (fun h => { h with snapshot := some ⟨s.limits, s.hv.hvSet⟩, flagU := u, state := .running })
  (State.appendTest { s1 with engine := Engine.reset } true (jobStartRec j false u)).1

/-- The head starts (R147, R148). -/
def State.startHead (s : State) (j : Job) : State :=
  match (s.openJob j).validate j.spec with
  | (s1, some c) => s1.refuseJob j c
  | (s1, none) => s1.engineStart j.spec

end Sys2Proof.Machine
end

