-- ==== Sys2Proof/Machine/JobQueue.lean ====
section
/-! DEFINITION. The requests of the job queue (9.2, 9.6, R141). -/

namespace Sys2Proof.Machine

open Sys2Proof

/-- A net number option (R78, R128). -/
def isNetNum (n : Nat) : Bool := decide (1 ≤ n) && decide (n ≤ 1024)

/-- The phases a code names (R78). -/
def phasesOf (b : Byte) : Option CheckPhases :=
  if b = 1#8 then some .cont else if b = 2#8 then some .iso else if b = 3#8 then some .both else none

/-- A two-valued option: 0 or 1. -/
def isFlag (b : Byte) : Bool := b == 0#8 || b == 1#8

/-- The options of a kind: none where the length does not fit, none inside where an option is out of its values
(R145, steps 2 and 3). -/
def parseOptions (k : Byte) (o : List Byte) : Option (Option JobSpec) :=
  if k = 1#8 then
    match o with
    | [a, b, c, d, ph] =>
      some (match phasesOf ph with
        | some x => if isNetNum (u16 a b) && isNetNum (u16 c d) then some (.check (u16 a b) (u16 c d) x) else none
        | none => none)
    | _ => none
  else if k = 2#8 then
    match o with
    | [a, b, c, d, l, r] =>
      some (if isNetNum (u16 a b) && isNetNum (u16 c d) && isFlag l && isFlag r then
          some (.insulate (u16 a b) (u16 c d) (l == 1#8) (r == 1#8)) else none)
    | _ => none
  else if k = 3#8 then
    match o with
    | [h] => some (if isFlag h then some (.learn (h == 1#8)) else none)
    | _ => none
  else if k = 4#8 then
    match o with
    | [a, b] => some (if u16 a b ≤ 4095 then some (.learnLeads (u16 a b)) else none)
    | _ => none
  else
    match o with
    | [] => some (some .refcheck)
    | _ :: _ => none

/-- A job as it joins the queue (R145). -/
def Job.fresh (tag : Nat) (j : JobSpec) : Job := ⟨tag, j, .queued, none, false, none, 0, 0, 0, 0, 0⟩

/-- SUBMIT_JOB (R145). An empty payload has no kind code and is answered BAD_LENGTH: DEDUCED (log 45). -/
def doSubmitJob (p : List Byte) (s : State) : State × List Byte :=
  match p with
  | [] => (s, reply .badLength [])
  | k :: rest =>
    if decide (k.toNat = 0) || decide (5 < k.toNat) then (s, reply .badValue [])
    else match rest with
      | [] => (s, reply .badLength [])
      | t :: o =>
        match parseOptions k o with
        | none => (s, reply .badLength [])
        | some none => (s, reply .badValue [])
        | some (some j) =>
          if t.toNat = 0 then (s, reply .badValue [])
          else if 8 ≤ s.queue.jobs.length then (s, reply .full [])
          else if s.queue.jobs.any (fun q => q.tag == t.toNat) then (s, reply .conflict [])
          else
            (State.examineHead { s with queue := { s.queue with jobs := s.queue.jobs ++ [Job.fresh t.toNat j] } },
              reply .ok (le1 s.queue.jobs.length))

/-- A QUEUED job is removed (R152) and the head is examined (R146); the wait for log space of a head that leaves
is over. -/
def State.removeQueued (s : State) (j : Job) : State :=
  let (s1, _) := s.appendSystem (jobStartRec j true false)
  let (s2, _) := s1.appendSystem (jobEndZero j ⟨.abortedHost, .nothing⟩)
  let s3 := s2.raise .jobAborted
  let s4 := { s3 with queue := { s3.queue with jobs := s3.queue.jobs.filter (fun q => q.tag != j.tag) } }
  State.examineHead (if s.head.map (·.tag) = some j.tag then s4.endWait else s4)

/-- ABORT_JOB on the state it finds (R152). -/
def State.abortJob (s : State) (j : Job) : State :=
  match j.state with
  | .queued => s.removeQueued j
  | .running => s.abortActive ⟨.abortedHost, .nothing⟩
  | .logWait => s.abortActive ⟨.abortedHost, .nothing⟩
  | .suspended => s.abortActive ⟨.abortedHost, .nothing⟩
  | .ending => s

/-- ABORT_JOB (R152). -/
def doAbortJob (p : List Byte) (s : State) : State × List Byte :=
  match p with
  | [t] =>
    if t.toNat = 0 then (s, reply .badValue [])
    else match s.queue.jobs.find? (fun q => q.tag == t.toNat) with
      | none => (s, reply .notFound [])
      | some j => (s.abortJob j, reply .ok (le1 j.state.code))
  | _ => (s, reply .badLength [])

/-- HOLD_QUEUE (R153). -/
def doHoldQueue (p : List Byte) (s : State) : State × List Byte :=
  match p with
  | [] => (State.endWait { s with queue := { s.queue with hold := true } }, reply .ok (flagByte true))
  | _ :: _ => (s, reply .badLength [])

/-- RELEASE_QUEUE (R153). -/
def doReleaseQueue (p : List Byte) (s : State) : State × List Byte :=
  match p with
  | [] => (State.examineHead { s with queue := { s.queue with hold := false } }, reply .ok (flagByte false))
  | _ :: _ => (s, reply .badLength [])

/-- The wait cause of a QUEUED head (R154): the first failing condition of those the rule lists; none while the head
is about to start (log 11). Condition 5 has none: no READ_QUEUE is handed over while it fails (log 46). -/
def State.waitCause (s : State) : List Byte :=
  if !s.cond2 then le1 0
  else if !s.cond3 then le1 1
  else if !s.cond4 then le1 2
  else if !s.cond6 then le1 3
  else []

/-- What READ_QUEUE says of the head beside its record (R154). -/
def State.headReport (s : State) : List Byte :=
  match s.head with
  | none => []
  | some j =>
    match j.state with
    | .queued => s.waitCause
    | .ending => le1 ((j.ended.map (fun c => c.reason.code)).getD 0)
    | .running => []
    | .logWait => []
    | .suspended => []

/-- READ_QUEUE (R154). -/
def doReadQueue (p : List Byte) (s : State) : State × List Byte :=
  match p with
  | [] =>
    (s, reply .ok (flagByte s.queue.hold ++ le1 s.queue.jobs.length
      ++ s.queue.jobs.flatMap (fun j => le1 j.tag ++ le1 j.spec.code ++ le1 j.state.code) ++ s.headReport))
  | _ :: _ => (s, reply .badLength [])

/-- RESUME (R141). -/
def doResume (p : List Byte) (s : State) : State × List Byte :=
  match p with
  | _ :: _ => (s, reply .badLength [])
  | [] =>
    if !s.suspended || !s.hv.coverClosed then (s, reply .badState [])
    else (s.resumeJob, reply .ok [])

end Sys2Proof.Machine
end

