-- ==== Sys2Proof/Machine/LogRequests.lean ====
section
/-! DEFINITION. The requests of the test log and of the event unit (10.5, 10.6, 12.6). -/

namespace Sys2Proof.Machine

open Sys2Proof

/-- The oldest host-marked entries, up to `n` (R162). -/
def Log.fetch (l : Log) (n : Nat) : List Entry := (l.entries.filter (·.hostMark)).take n

/-- The host marks of some entries are cleared (R158, R162). -/
def Log.clearHost (l : Log) (es : List Entry) : Log :=
  l.clearMarks (fun e => if es.any (fun x => x.seq == e.seq) then { e with hostMark := false } else e)

/-- FETCH_RECORDS (R162, R193); the number of host-marked records remaining is formed before the release that the
freed entries bring (log 37). -/
def doFetchRecords (p : List Byte) (s : State) : State × List Byte :=
  match p with
  | [n] =>
    if decide (n.toNat = 0) || decide (16 < n.toNat) then (s, reply .badValue [])
    else
      let es := s.log.fetch n.toNat
      let s1 := State.notifyEmptied { s with log := s.log.clearHost es }
      (s1.releaseFrom s.log.entries.length,
        reply .ok (le1 es.length ++ le2 s1.log.hostPending ++ flagByte s1.log.reporting ++ es.flatMap Entry.bytes))
  | _ => (s, reply .badLength [])

/-- Reporting turned off clears every host mark (R163). -/
def Log.dropHost (l : Log) : Log := l.clearMarks (fun e => { e with hostMark := false })

/-- The settings of an accepted SET_REPORTING (R163). The freed entries are told to a waiting producer once the new
settings stand: DEDUCED (log 44). -/
def State.applyReporting (s : State) (on : Bool) (threshold timeout : Nat) : State :=
  let l := if s.log.reporting && !on then { s.log.dropHost with notifyTimer := none } else s.log
  let s1 := { s with log := { l with reporting := on, threshold := threshold, timeout := timeout } }
  let s2 := if s1.events.isPending .defectReady then s1 else s1.notifyFresh
  s2.releaseFrom s.log.entries.length

/-- SET_REPORTING (R163). -/
def doSetReporting (p : List Byte) (s : State) : State × List Byte :=
  match p with
  | [r, th, t0, t1] =>
    let t := u16 t0 t1
    let oks := [decide (r.toNat ≤ 1), decide (1 ≤ th.toNat) && decide (th.toNat ≤ 64), decide (10 ≤ t) && decide (t ≤ 10000)]
    if oks.all id then (s.applyReporting (r == 1#8) th.toNat t, reply .ok [])
    else (s, reply .badValue (le1 (badPlace oks)))
  | _ => (s, reply .badLength [])

/-- SET_EVENTS (R190): a NOTICE becomes wanted when a pending event is unmasked. -/
def State.applyEvents (s : State) (mask : BitVec 12) (levels : List Nat) (attn : Nat) : State :=
  let s1 := { s with events := { s.events with mask := mask, levels := levels, attnLevel := attn } }
  if (s.events.pending &&& s.events.mask &&& ~~~mask) = 0#12 then s1 else s1.wantNotice

/-- SET_EVENTS (R190). -/
def doSetEvents (p : List Byte) (s : State) : State × List Byte :=
  match p with
  | m0 :: m1 :: rest =>
    if rest.length ≠ 13 then (s, reply .badLength [])
    else
      let oks := decide (u16 m0 m1 < 4096) :: rest.map (fun b => decide (b.toNat ≤ 3))
      if oks.all id then
        (s.applyEvents (BitVec.ofNat 12 (u16 m0 m1)) ((rest.take 12).map (·.toNat)) ((rest.getD 12 0#8).toNat),
          reply .ok [])
      else (s, reply .badValue (le1 (badPlace oks)))
  | [] => (s, reply .badLength [])
  | [_] => (s, reply .badLength [])

/-- The named events are cleared; notification is evaluated afresh when DEFECT_READY was named (R166, R191). -/
def State.clearEvents (s : State) (m : BitVec 12) : State :=
  let s1 := { s with events := s.events.clear m }
  if m.getLsbD Event.defectReady.num then s1.notifyFresh else s1

/-- CLEAR_EVENTS (R191). -/
def doClearEvents (p : List Byte) (s : State) : State × List Byte :=
  match p with
  | [a, b] =>
    if 4096 ≤ u16 a b then (s, reply .badValue [])
    else
      let s1 := s.clearEvents (BitVec.ofNat 12 (u16 a b))
      (s1, reply .ok (eventBytes s1.events.pending))
  | _ => (s, reply .badLength [])

end Sys2Proof.Machine
end

