-- ==== Sys2Proof/Machine/Relays.lean ====
section
/-! DEFINITION. The requests of the matrix controller (3.7): MANUAL_SWITCH, READ_RELAYS, UNBLOCK. -/

namespace Sys2Proof.Machine

open Sys2Proof

/-- A MANUAL_SWITCH item that fails step 4 of R54: its point is out of range or named twice (both items that name it
fail: log 32), its rail is not one it may ask for, or a reference point may not take it. -/
def manualBad (s : State) (items : List (Nat × Byte)) (it : Nat × Byte) : Bool :=
  decide (4095 < it.1) || decide (1 < items.countP (fun x => x.1 == it.1)) ||
    (match railOf it.2 with
     | none => true
     | some .opn => false
     | some .source => decide (it.1 < 4) && !(s.railAllowed ⟨0, it.1⟩ .source)
     | some .ret => decide (it.1 < 4) && !(s.railAllowed ⟨0, it.1⟩ .ret)
     | some .hv => true
     | some .collect => true)

/-- A MANUAL_SWITCH item that fails step 5 of R54. -/
def manualUnfit (s : State) (it : Nat × Byte) : Bool :=
  decide (4 ≤ it.1) &&
    (match s.chanOf it.1 with
     | none => true
     | some c => !(s.reachable c) || s.isBlocked c)

def manualTargets (items : List (Nat × Byte)) : List (Nat × Rail) :=
  items.map (fun it => (it.1, (railOf it.2).getD .opn))

/-- Carry on with a plan that a request offers (R55, R58). -/
def State.offerCarried (s : State) (c : Carried) (p : Plan) : State :=
  let s1 := State.endWait { s with host := { s.host with carried := some c } }
  State.delivered (s1.offerPlan p)

/-- MANUAL_SWITCH (R54, R55). -/
def doManualSwitch (p : List Byte) (s : State) : State × Option (List Byte) :=
  match p with
  | [] => (s, some (reply .badLength []))
  | o :: rest =>
    match counted items3 rest with
    | none => (s, some (reply .badLength []))
    | some (n, items) =>
      if s.jobActive || !s.matrix.slot.isEmpty then (s, some (reply .busy []))
      else if s.hv.rail ≠ .safe then (s, some (reply .badState []))
      else if decide (128 < n) || (n == 0 && o == 0#8) || decide (1 < o.toNat) || items.any (manualBad s items) then
        (s, some (reply .badValue (le1 (firstBad items (manualBad s items)))))
      else if items.any (manualUnfit s) then
        (s, some (reply .badState (le1 (firstBad items (manualUnfit s)))))
      else
        (s.offerCarried .manual ⟨.targets (manualTargets items) (o == 1#8), .manual⟩, none)

/-- What READ_RELAYS reports of a channel: its image value and whether it is blocked (R56). -/
def State.relayBytes (s : State) (c : Chan) : List Byte := imageByte (s.imageOf c) ++ flagByte (s.isBlocked c)

/-- What it reports of a point: an unmapped one is UNMAPPED (6) and not blocked (R56, R179). -/
def State.pointRelay (s : State) (p : Nat) : List Byte :=
  match s.chanOf p with
  | none => le1 6 ++ flagByte false
  | some c => s.relayBytes c

/-- The channels a READ_RELAYS names (R56); those of position 0 lie within 0–3 (log 34). -/
def channelRange (pos first count : Nat) : Option (List Chan) :=
  if decide (pos ≤ 32) && decide (1 ≤ count) && decide (count ≤ 128)
      && decide (first + count ≤ (if pos = 0 then 4 else 128)) then
    some ((List.range' first count).map (fun k => ⟨pos, k⟩))
  else none

/-- READ_RELAYS (R56): mode 0 POINTS, 1 CHANNELS (log 7); an undefined mode is a bad value at any length (log 33). -/
def doReadRelays (p : List Byte) (s : State) : State × List Byte :=
  match p with
  | [] => (s, reply .badLength [])
  | m :: rest =>
    if m = 0#8 then
      match rest with
      | [a, b, n] =>
        match pointRange (u16 a b) n.toNat with
        | none => (s, reply .badValue [])
        | some pts => (s, reply .ok (pts.flatMap s.pointRelay))
      | _ => (s, reply .badLength [])
    else if m = 1#8 then
      match rest with
      | [q, c, n] =>
        match channelRange q.toNat c.toNat n.toNat with
        | none => (s, reply .badValue [])
        | some cs => (s, reply .ok (cs.flatMap s.relayBytes))
      | _ => (s, reply .badLength [])
    else (s, reply .badValue [])

/-- The channels are removed and a plan opens them (R58). -/
def State.unblock (s : State) (cs : List Chan) : State :=
  let s1 := { s with matrix := { s.matrix with blocked := s.matrix.blocked.filter (fun c => !(cs.contains c)) } }
  s1.offerCarried (.unblock cs.length) ⟨.opens cs, .unblock⟩

/-- UNBLOCK (R57, R58): two bytes name a channel, one byte is ALL (log 7). -/
def doUnblock (p : List Byte) (s : State) : State × Option (List Byte) :=
  match p with
  | [_] =>
    if s.jobActive || !s.matrix.slot.isEmpty then (s, some (reply .busy []))
    else if s.hv.rail ≠ .safe then (s, some (reply .badState []))
    else (s.unblock s.matrix.blocked, none)
  | [q, c] =>
    if s.jobActive || !s.matrix.slot.isEmpty then (s, some (reply .busy []))
    else if s.hv.rail ≠ .safe then (s, some (reply .badState []))
    else if decide (q.toNat = 0) || decide (32 < q.toNat) || decide (127 < c.toNat) then (s, some (reply .badValue []))
    else if !(s.isBlocked ⟨q.toNat, c.toNat⟩) then (s, some (reply .notFound []))
    else (s.unblock [⟨q.toNat, c.toNat⟩], none)
  | _ => (s, some (reply .badLength []))

end Sys2Proof.Machine
end

