-- ==== Sys2Proof/Machine/Measure.lean ====
section
/-! DEFINITION. SET_LIMITS and the MEASURE request (R68, R75–R77), and where a measurement's result goes. -/

namespace Sys2Proof.Machine

open Sys2Proof

/-- A sample count (R59). -/
def isCount (n : Nat) : Bool := n == 1 || n == 2 || n == 4 || n == 8 || n == 16

/-- SET_LIMITS (R68). -/
def doSetLimits (p : List Byte) (s : State) : State × List Byte :=
  match p with
  | [a, b, c, d, e, f, g, h, i, j, k, l, n, r, w] =>
    let pass := u32 a b c d
    let opn := u32 e f g h
    let iso := u32 i j k l
    let oks := [decide (10 ≤ pass) && decide (pass ≤ 1000000), decide (pass < opn) && decide (opn ≤ 2000000),
      decide (100 ≤ iso) && decide (iso ≤ 100000), isCount n.toNat, (rangeOf r).isSome,
      decide (1 ≤ w.toNat) && decide (w.toNat ≤ 100)]
    if oks.all id then
      ({ s with limits := ⟨pass, opn, iso, n.toNat, (rangeOf r).getD .r100, w.toNat⟩ }, reply .ok [])
    else (s, reply .badValue (le1 (badPlace oks)))
  | _ => (s, reply .badLength [])

/-- The channels that hold a rail in the image (R75). -/
def State.onRail (s : State) (r : Rail) : List Chan :=
  (s.matrix.image.filter (fun e => e.2 == r)).map (fun e => ⟨e.1 / 128, e.1 % 128⟩)

/-- The pair whose leads a CONT MEASURE subtracts (R77). -/
def State.measurePair (s : State) : Option (Nat × Nat) :=
  match s.onRail .source, s.onRail .ret with
  | [a], [b] =>
    match s.pointAt a, s.pointAt b with
    | some x, some y => some (x, y)
    | _, _ => none
  | _, _ => none

/-- The request a MEASURE makes (R75). -/
def State.measureReq (s : State) (mode n r : Byte) : MeasReq :=
  ⟨if mode = 1#8 then .cont else .iso, if n = 0#8 then s.limits.n else n.toNat,
   if r = 0#8 then s.limits.range else (rangeOf r).getD .r100, s.limits.settle⟩

/-- MEASURE (R75, R76); an undefined range code is refused in ISO mode too (log 35). -/
def doMeasure (p : List Byte) (s : State) : State × Option (List Byte) :=
  match p with
  | [m, n, r] =>
    if s.jobActive || !s.matrix.slot.isEmpty then (s, some (reply .busy []))
    else if !(m == 1#8 || m == 2#8) || !(n == 0#8 || isCount n.toNat) || !(r == 0#8 || (rangeOf r).isSome) then
      (s, some (reply .badValue []))
    else if decide (s.hv.rail ≠ .safe) || (s.onRail .source).isEmpty || (s.onRail .ret).isEmpty then
      (s, some (reply .badState []))
    else
      let pair := if m = 1#8 then s.measurePair else none
      (State.requestMeasure (State.endWait { s with host := { s.host with carried := some (.measure pair) } })
        (s.measureReq m n r) .host, none)
  | _ => (s, some (reply .badLength []))

/-- Places of the bands (R76, R179). -/
def Band.code : Band → Nat
  | .connected => 0
  | .high => 1
  | .opn => 2

/-- The pair of the MEASURE being carried out. -/
def State.carriedPair (s : State) : Option (Nat × Nat) :=
  match s.host.carried with
  | some (.measure x) => x
  | some .enumerate => none
  | some .manual => none
  | some (.unblock _) => none
  | none => none

/-- The reply to a MEASURE (R76, R77). -/
def State.measureReply (s : State) (r : LmuResult) : List Byte :=
  match r with
  | .contOver steps =>
    reply .ok (le1 CRange.r1.code ++ le1 steps ++ le1 s.lmu.n ++ overOr none ++ overOr none ++ flagByte false
      ++ le1 (bandOf none s.limits.pass s.limits.opn).code)
  | .cont g steps n mean raw =>
    match s.carriedPair with
    | none =>
      reply .ok (le1 g.code ++ le1 steps ++ le1 n ++ overOr (some mean) ++ overOr (some raw) ++ flagByte false
        ++ le1 (bandOf (some raw) s.limits.pass s.limits.opn).code)
    | some (a, b) =>
      let rc := compensated raw (s.leadOf a) (s.leadOf b)
      reply .ok (le1 g.code ++ le1 steps ++ le1 n ++ overOr (some mean) ++ overOr (some raw) ++ flagByte true
        ++ le4 rc ++ le1 (bandOf (some rc) s.limits.pass s.limits.opn).code)
  | .iso n v i res =>
    reply .ok (le1 n ++ le2 v ++ le4 i ++ overOr res ++ le1 (if isLeak res s.limits.iso then 1 else 0))

/-- A measurement hands over its result (R63, R66): to the engine, or into the reply of MEASURE. -/
def State.measured (s : State) (r : LmuResult) : State :=
  match s.lmu.issuer with
  | .engine => s.engineMeasured r
  | .host => match s.host.carried with
    | some (.measure _) => s.composeTimed (s.measureReply r)
    | some .enumerate => s
    | some .manual => s
    | some (.unblock _) => s
    | none => s

/-- A conversion's outcome at the LMU: its state, and the result it may hand over. -/
def State.lmuAfter (s : State) (x : Lmu × Option LmuResult) : State :=
  match x with
  | (l, none) => { s with lmu := l }
  | (l, some r) => State.measured { s with lmu := l } r

/-- The LMU samples in a mode. -/
def Lmu.samples (l : Lmu) (m : LmuMode) : Bool := decide (l.phase = .sample) && decide (l.mode = m)

end Sys2Proof.Machine
end

