-- ==== Sys2Proof/Machine/PrinterRequests.lean ====
section
/-! DEFINITION. The requests of the print formatter (11.1, 11.3). -/

namespace Sys2Proof.Machine

open Sys2Proof

/-- Parity codes (Table 11-1). -/
def parityOf (n : Nat) : Parity := if n = 1 then .even else if n = 2 then .odd else if n = 3 then .zero else .none

/-- Every print mark is cleared and the current record dropped (R168, R176). -/
def State.dropPrints (s : State) : State :=
  { s with
    log := s.log.clearMarks (fun e => { e with printMark := false })
    printer := s.printer.dropRecord }

/-- The print marks in the log. -/
def Log.printPending (l : Log) : Nat := l.entries.countP (·.printMark)

/-- An accepted PRINTER_CONFIG (R168). Disabled from HELD, the printer is OFF before the freed entries are told to a
waiting producer, whose record then gets no print mark: the spec gives no order, DESIGN CHOICE (log 43). -/
def State.applyPrinter (s : State) (c : PrinterConfig) : State :=
  let s1 := { s with printer := { s.printer with cfg := c } }
  match s.printer.state, c.enable with
  | .off, true => State.printIdle { s1 with printer := { s1.printer with state := .idle } }
  | .off, false => s1
  | .held, false =>
    let s2 := s1.dropPrints
    State.releaseFrom { s2 with printer := { s2.printer with state := .off } } s.log.entries.length
  | _, _ => s1

/-- PRINTER_CONFIG (R168). -/
def doPrinterConfig (p : List Byte) (s : State) : State × List Byte :=
  match p with
  | [en, bd, db, pa, sb, pol, tm] =>
    if s.printer.state ≠ .off ∧ s.printer.state ≠ .held then (s, reply .badState (le1 s.printer.state.code))
    else
      let oks := [decide (en.toNat ≤ 1), decide (1 ≤ bd.toNat) && decide (bd.toNat ≤ 8),
        decide (db.toNat = 7) || decide (db.toNat = 8), decide (pa.toNat ≤ 3),
        decide (sb.toNat = 1) || decide (sb.toNat = 2), decide (pol.toNat ≤ 1),
        decide (1 ≤ tm.toNat) && decide (tm.toNat ≤ 60)]
      if oks.all id then
        let s1 := s.applyPrinter
          ⟨en == 1#8, bd.toNat, db.toNat, parityOf pa.toNat, sb.toNat, pol == 1#8, tm.toNat⟩
        (s1, reply .ok (le1 s1.printer.state.code))
      else (s, reply .badValue (le1 (badPlace oks)))
  | _ => (s, reply .badLength [])

def State.setPrinter (s : State) (x : PrinterState) : State := { s with printer := { s.printer with state := x } }

/-- The state a hold gives (R174). -/
def PrinterState.hold : PrinterState → PrinterState
  | .off => .off
  | .idle => .held
  | .paperOut => .held
  | .printing => .holdPending
  | .waitReady => .holdPending
  | .holdPending => .holdPending
  | .held => .held

/-- PRINT_HOLD (R174). -/
def doPrintHold (p : List Byte) (s : State) : State × List Byte :=
  match p with
  | _ :: _ => (s, reply .badLength [])
  | [] =>
    if s.printer.state = .off then (s, reply .badState [])
    else (s.setPrinter s.printer.state.hold, reply .ok (le1 s.printer.state.hold.code))

/-- A release (R175). -/
def State.release (s : State) : State :=
  match s.printer.state with
  | .holdPending => s.setPrinter (if s.printer.waiting then .waitReady else .printing)
  | .held => if s.printer.current.isSome then s.startLine else s.takeOldest
  | .off => s
  | .idle => s
  | .printing => s
  | .waitReady => s
  | .paperOut => s

/-- PRINT_RELEASE (R175). -/
def doPrintRelease (p : List Byte) (s : State) : State × List Byte :=
  match p with
  | _ :: _ => (s, reply .badLength [])
  | [] =>
    if s.printer.state ≠ .held ∧ s.printer.state ≠ .holdPending then (s, reply .badState [])
    else (s.release, reply .ok (le1 s.release.printer.state.code))

/-- PRINT_FLUSH (R176). -/
def doPrintFlush (p : List Byte) (s : State) : State × List Byte :=
  match p with
  | _ :: _ => (s, reply .badLength [])
  | [] =>
    if s.printer.state ≠ .held then (s, reply .badState [])
    else (s.dropPrints.releaseFrom s.log.entries.length, reply .ok (le2 s.log.printPending))

/-! ### Events of the printer port -/

/-- A character has gone (R172, R173): the entry's release is made before the formatter takes its next record
(log 26). -/
def State.printerSent (s : State) : State :=
  match s.charSent with
  | .done t => t
  | .recordOver t freed => State.afterRecord (if freed then t.entryFreed else t)

/-- The printer timer expires with a character waiting (R172). -/
def State.printerStall (s : State) : State :=
  State.raisePrinter { s with printer := { s.printer with timer := none } } .stall

end Sys2Proof.Machine
end

