-- ==== Sys2Proof/Machine/HostLink.lean ====
section
/-! DEFINITION. The host link (12): resets, link requests, dispatch, the receiver, the ends of transmission. -/

namespace Sys2Proof.Machine

open Sys2Proof

/-! ### Resets -/

/-- A hardware reset (R127 and the reset rule of every block). The levels of the input pins and the commands
waiting are outside it. -/
def State.hardReset (s : State) : State := { State.reset with pins := s.pins, pending := s.pending }

/-- A RESTART (R186): every block takes its RESTART value. An attention exchange in progress (ATTN_QUERY, ATTN_CLEAR or
STATUS) is dropped with its timer, so that no loss and no cause follows from it: DESIGN CHOICE (log 39). -/
def State.restart (s : State) : State :=
  { State.reset with
    store := s.store
    link := { Link.reset with
      replyTimeout := s.link.replyTimeout, lvSettle := s.link.lvSettle, hvSettle := s.link.hvSettle }
    matrix := { Matrix.reset with
      roster := s.matrix.roster, frozen := s.matrix.frozen, blocked := s.matrix.blocked }
    limits := s.limits
    hv := { Hv.reset with hvSet := s.hv.hvSet }
    log := { Log.reset with
      reporting := s.log.reporting, threshold := s.log.threshold, timeout := s.log.timeout }
    printer := { Printer.reset with
      cfg := s.printer.cfg, state := if s.printer.cfg.enable then .idle else .off }
    host := { HostLink.reset with baud := s.host.baud }
    events := { Events.reset with
      mask := s.events.mask, levels := s.events.levels, attnLevel := s.events.attnLevel }
    pins := s.pins
    pending := s.pending }

/-! ### Link requests -/

/-- IDENT (R184). -/
def doIdent (p : List Byte) (s : State) : State × List Byte :=
  match p with
  | [] =>
    (s, reply .ok (le2 2208 ++ [Config.siliconRevision] ++ le1 s.host.baud ++ le2 1024 ++ le1 2 ++ le1 8 ++ le2 256))
  | _ :: _ => (s, reply .badLength [])

/-- SET_LINK (R185): the baud changes when the reply has gone. -/
def doSetLink (p : List Byte) (s : State) : State × List Byte :=
  match p with
  | [c] =>
    if decide (1 ≤ c.toNat) && decide (c.toNat ≤ 8) then (s, reply .ok []) else (s, reply .badValue [])
  | _ => (s, reply .badLength [])

/-- RESTART (R186): the restart takes effect when the reply has gone. -/
def doRestart (p : List Byte) (s : State) : State × List Byte :=
  match p with
  | [] => (s, reply .ok [])
  | _ :: _ => (s, reply .badLength [])

/-- The job group of READ_STATUS (R192; log 9). -/
def State.jobStatus (s : State) : List Byte :=
  (match s.activeJob with
   | none => le1 0
   | some j => le1 j.tag ++ le1 j.state.code) ++ le1 s.queue.jobs.length ++ flagByte s.queue.hold

/-- The contents of READ_STATUS (R192). -/
def State.statusBytes (s : State) : List Byte :=
  s.jobStatus
    ++ (le1 s.hv.rail.code ++ le2 s.hv.presentV ++ le4 s.hv.presentI ++ flagByte s.hv.coverClosed ++ le4 s.hv.offset)
    ++ le1 s.reference.code
    ++ (le2 s.log.entries.length ++ le1 s.log.testOccupancy ++ le2 s.log.hostPending ++ le2 s.log.dropped
        ++ le4 s.log.nextSeq)
    ++ le1 s.printer.state.code
    ++ (eventBytes s.events.pending ++ eventBytes s.events.mask ++ le1 s.events.attnLevel
        ++ flagByte s.events.attn ++ s.events.card.bytes ++ s.events.printer.bytes ++ s.events.link.bytes)
    ++ le1 s.host.baud

/-- READ_STATUS (R192). -/
def doReadStatus (p : List Byte) (s : State) : State × List Byte :=
  match p with
  | [] => (s, reply .ok s.statusBytes)
  | _ :: _ => (s, reply .badLength [])

/-! ### Dispatch (R182) -/

/-- A request that is carried out in the event of its hand-over. -/
def answered (x : State × List Byte) : State × Option (List Byte) := (x.1, some x.2)

/-- The owning block checks the request and acts (R182). -/
def carry (r : Request) (p : List Byte) (s : State) : State × Option (List Byte) :=
  match r with
  | .ident => answered (doIdent p s)
  | .setLink => answered (doSetLink p s)
  | .restart => answered (doRestart p s)
  | .readStatus => answered (doReadStatus p s)
  | .setEvents => answered (doSetEvents p s)
  | .clearEvents => answered (doClearEvents p s)
  | .mapPoints => answered (doMapPoints p s)
  | .readMap => answered (doReadMap p s)
  | .setLeads => answered (doSetLeads p s)
  | .readLeads => answered (doReadLeads p s)
  | .loadNet => answered (doLoadNet p s)
  | .clearNets => answered (doClearNets p s)
  | .readNet => answered (doReadNet p s)
  | .setCardLink => answered (doSetCardLink p s)
  | .setRoster => answered (doSetRoster p s)
  | .enumerate => doEnumerate p s
  | .readRoster => answered (doReadRoster p s)
  | .manualSwitch => doManualSwitch p s
  | .readRelays => answered (doReadRelays p s)
  | .unblock => doUnblock p s
  | .setLimits => answered (doSetLimits p s)
  | .measure => doMeasure p s
  | .setHv => answered (doSetHv p s)
  | .clearHvFault => answered (doClearHvFault p s)
  | .submitJob => answered (doSubmitJob p s)
  | .abortJob => answered (doAbortJob p s)
  | .holdQueue => answered (doHoldQueue p s)
  | .releaseQueue => answered (doReleaseQueue p s)
  | .readQueue => answered (doReadQueue p s)
  | .resume => answered (doResume p s)
  | .setReporting => answered (doSetReporting p s)
  | .fetchRecords => answered (doFetchRecords p s)
  | .printerConfig => answered (doPrinterConfig p s)
  | .printHold => answered (doPrintHold p s)
  | .printRelease => answered (doPrintRelease p s)
  | .printFlush => answered (doPrintFlush p s)

/-- KIND is examined (R182). -/
def carryOut (kind : Byte) (p : List Byte) (s : State) : State × Option (List Byte) :=
  match requestOf kind with
  | some r => carry r p s
  | none => (s, some (reply .unknownKind []))

/-- The oldest slot not yet handed over is being carried out. -/
def markCarried : List RxSlot → Option (List RxSlot × RxSlot)
  | [] => none
  | r :: rest =>
    match r.phase with
    | .waiting => some ({ r with phase := .carried } :: rest, r)
    | .carried => (markCarried rest).map (fun x => (r :: x.1, x.2))
    | .ready _ => (markCarried rest).map (fun x => (r :: x.1, x.2))
    | .sending _ => (markCarried rest).map (fun x => (r :: x.1, x.2))

/-- The request in a slot is handed over and answered, unless it takes time. -/
def State.handOne (s : State) (slots : List RxSlot) (r : RxSlot) : State :=
  match carryOut r.kind r.payload { s with host := { s.host with slots := slots } } with
  | (s1, some p) => s1.compose p
  | (s1, none) => s1

/-- Requests are handed over one at a time, the older first (R182); there are two slots. -/
def State.handOver : Nat → State → State
  | 0, s => s
  | fuel + 1, s =>
    if s.handOverBlocked then s
    else match markCarried s.host.slots with
      | none => s
      | some (slots, r) => State.handOver fuel (s.handOne slots r)

/-- What the host link does at the end of an event that may have ended what it was waiting for. -/
def State.dispatch (s : State) : State := s.handOver 3

/-! ### Receiving (R180, R181) -/

/-- The receiver hunts. -/
def State.hunt (s : State) : State := { s with host := { s.host with assembly := [] } }

/-- A frame that passed its checks: a free slot takes it, or it is discarded with OVERRUN (R180, R181). -/
def State.received (s : State) (kind tag : Byte) (p : List Byte) : State :=
  if 2 ≤ s.host.slots.length then s.raiseLink .overrun
  else State.dispatch { s with host := { s.host with slots := s.host.slots ++ [⟨kind, tag, p, .waiting⟩] } }

/-- An intact frame arrives: its last byte ends the frame in assembly. A LEN above 1024 is discarded (R180). -/
def State.frame (s : State) (kind tag : Byte) (p : List Byte) : State :=
  if 1024 < p.length then s.hunt.raiseLink .length else s.hunt.received kind tag p

/-- The LEN of the frame in assembly. -/
def lenOf (a : List Byte) : Nat := u16 (a.getD 1 0#8) (a.getD 2 0#8)

/-- The last byte of a frame has been taken (R180). -/
def State.frameEnd (s : State) (a : List Byte) : State :=
  let n := lenOf a
  if crc16 ((a.drop 1).take (n + 4)) = (a.getD (n + 5) 0#8).append (a.getD (n + 6) 0#8) then
    s.hunt.received (a.getD 3 0#8) (a.getD 4 0#8) ((a.drop 5).take n)
  else s.hunt.raiseLink .crc

/-- The receiver takes a byte (R180). -/
def State.feed (s : State) (b : Byte) : State :=
  match s.host.assembly with
  | [] => if b = 0xA5#8 then { s with host := { s.host with assembly := [b] } } else s
  | x :: r =>
    let a := x :: r ++ [b]
    if a.length = 3 ∧ 1024 < lenOf a then s.hunt.raiseLink .length
    else if 7 ≤ a.length ∧ a.length = lenOf a + 7 then s.frameEnd a
    else { s with host := { s.host with assembly := a } }

def State.feedAll (s : State) (bs : List Byte) : State := bs.foldl State.feed s

/-- More than 20 ms have passed within a frame (R180). -/
def State.byteTimeout (s : State) : State :=
  if s.host.assembly.isEmpty then s else s.hunt.raiseLink .timeout

/-! ### Transmission ends (R183, R185, R186) -/

def RxSlot.isSending (r : RxSlot) : Bool :=
  match r.phase with
  | .sending _ => true
  | .waiting => false
  | .carried => false
  | .ready _ => false

/-- The reply being sent was OK. -/
def RxSlot.sentOk (r : RxSlot) : Bool :=
  match r.phase with
  | .sending p => p.head? == some 0#8
  | .waiting => false
  | .carried => false
  | .ready _ => false

/-- The baud changes after a SET_LINK reply; a frame in assembly is discarded (R185). -/
def State.changeBaud (s : State) (b : Nat) : State :=
  if s.host.baud = b then s else { s with host := { s.host with baud := b, assembly := [] } }

/-- What the end of a reply brings about (R185, R186); the transmit path takes its next frame (R183). -/
def State.replyGone (s : State) (r : RxSlot) : State :=
  if r.sentOk && r.kind == Request.restart.code then s.restart
  else if r.sentOk && r.kind == Request.setLink.code then (s.changeBaud (r.payload.headD 0#8).toNat).txKick
  else s.txKick

/-- The last byte of a reply has been sent (R181, R183): its slot frees. -/
def State.replySent (s : State) : State :=
  match s.host.tx, s.host.slots.find? RxSlot.isSending with
  | some ⟨true, _⟩, some r =>
    State.replyGone { s with host := { s.host with
      tx := none, slots := s.host.slots.filter (fun x => !x.isSending) } } r
  | _, _ => s

/-- The last byte of a NOTICE has been sent (R183). -/
def State.noticeSent (s : State) : State :=
  match s.host.tx with
  | some ⟨false, _⟩ => State.txKick { s with host := { s.host with tx := none } }
  | some ⟨true, _⟩ => s
  | none => s

end Sys2Proof.Machine
end

