-- ==== Sys2Proof/Machine/CardEvents.lean ====
section
/-! DEFINITION. The meanings of the card-link events (02, 3.3, 3.4). An event that cannot occur in a state has no effect
in it (log 4). -/

namespace Sys2Proof.Machine

open Sys2Proof

/-- STARTUP_ENUMERATION (R28). -/
def execStartupEnumeration (s : State) : Host.Outcome State Fault Refusal :=
  .next (if s.link.startup && decide (s.hv.rail = .safe) && !s.jobActive && s.matrix.slot.isEmpty && !s.enumerating then
      s.startEnum false else s)

/-- LINK_BREAK_END (R29). -/
def execLinkBreakEnd (s : State) : Host.Outcome State Fault Refusal :=
  .next (if s.link.enumPhase = .linkBreak then s.breakEnd else s)

/-- IDENT_RECEIVED (R29). -/
def execIdentReceived (f : CardFrame) (s : State) : Host.Outcome State Fault Refusal :=
  match s.accepted f with
  | some (.assign a) => .next (s.identTaken a f.payload).dispatch
  | _ => .next s

/-- CARD_FRAME_DISCARDED (R21): the frame is discarded, and the card link goes on waiting. -/
def execCardFrameDiscarded (_f : CardFrame) (s : State) : Host.Outcome State Fault Refusal :=
  .next s

/-- SET_ACK (R48). -/
def execSetAck (f : CardFrame) (s : State) : Host.Outcome State Fault Refusal :=
  match s.accepted f with
  | some (.set p items) => .next (s.setAcked p items).dispatch
  | _ => .next s

/-- ALL_OPEN_SENT (R49). -/
def execAllOpenSent (s : State) : Host.Outcome State Fault Refusal :=
  .next (if s.link.exchange.map (·.sent) = some .allOpen then s.allOpenDone.dispatch else s)

/-- CARD_REPLY_TIMEOUT (R25). -/
def execCardReplyTimeout (s : State) : Host.Outcome State Fault Refusal :=
  match s.link.exchange, s.link.replyTimer with
  | some e, some _ => .next (s.replyTimeout e).dispatch
  | _, _ => .next s

/-- ATTN_QUERY_POLL (R36): CATTN is active (log 14). -/
def execAttnQueryPoll (s : State) : Host.Outcome State Fault Refusal :=
  .next (if s.mayPoll then State.sendCard { s with pins := { s.pins with cattn := true } } .attnQuery else s)

/-- ATTN_REPLY_RECEIVED (R37). -/
def execAttnReplyReceived (f : CardFrame) (s : State) : Host.Outcome State Fault Refusal :=
  match s.accepted f with
  | some .attnQuery => .next (s.attnReply f.addr.toNat f.payload).dispatch
  | _ => .next s

/-- ATTN_CLEAR_ACK (R37). -/
def execAttnClearAck (f : CardFrame) (s : State) : Host.Outcome State Fault Refusal :=
  match s.accepted f with
  | some (.attnClear _) => .next s.attentionOver.dispatch
  | _ => .next s

/-- STATUS_REPLY_RECEIVED (R41). -/
def execStatusReplyReceived (f : CardFrame) (s : State) : Host.Outcome State Fault Refusal :=
  match s.accepted f with
  | some (.status p) => .next (s.statusReply p f.payload).dispatch
  | _ => .next s

/-- CATTN_INACTIVE (R37). -/
def execCattnInactive (s : State) : Host.Outcome State Fault Refusal :=
  .next { s with pins := { s.pins with cattn := false }, link := { s.link with pollBlocked := false } }

/-- HELD_PLAN_SENDING (R46). -/
def execHeldPlanSending (s : State) : Host.Outcome State Fault Refusal :=
  .next s.heldGoes.dispatch

/-- SETTLE_EXPIRY (R50). -/
def execSettleExpiry (s : State) : Host.Outcome State Fault Refusal :=
  .next s.settleDone.dispatch

end Sys2Proof.Machine
end

