-- ==== Sys2Proof/Machine/EngineEvents.lean ====
section
/-! DEFINITION. The meanings of the LMU events and of the start of a job (04, 9.3). An event that cannot occur in a
state has no effect in it (log 4). -/

namespace Sys2Proof.Machine

open Sys2Proof

/-- LMU_SOURCE_ON (R60): the measurement that waited begins. -/
def execLmuSourceOn (s : State) : Host.Outcome State Fault Refusal :=
  match s.lmu.waiting with
  | some (m, who) => .next (if s.sourceAllowed then { s with lmu := s.lmu.start m who } else s)
  | none => .next s

/-- STABILISE_END (R61, R66). -/
def execStabiliseEnd (s : State) : Host.Outcome State Fault Refusal :=
  .next (if s.lmu.phase = .stabilise then { s with lmu := s.lmu.sampling } else s)

/-- CONT_CONVERSION (R61, R62). -/
def execContConversion (code : Word16) (s : State) : Host.Outcome State Fault Refusal :=
  .next (if s.lmu.samples .cont then (s.lmuAfter (s.lmu.contCode code.toNat)).dispatch else s)

/-- ISO_CONVERSION (R66). -/
def execIsoConversion (v i : Nat) (s : State) : Host.Outcome State Fault Refusal :=
  .next (if s.lmu.samples .iso then (s.lmuAfter (s.lmu.isoPair v i)).dispatch else s)

/-- HEAD_JOB_START (R147). -/
def execHeadJobStart (s : State) : Host.Outcome State Fault Refusal :=
  match s.head with
  | some j => .next (if s.mayStart then s.startHead j else s)
  | none => .next s

end Sys2Proof.Machine
end

