-- ==== Sys2Proof/Machine/HvEvents.lean ====
section
/-! DEFINITION. The meanings of the HV unit's events (07). An event that cannot occur in a state has no effect in it
(log 4). -/

namespace Sys2Proof.Machine

open Sys2Proof

/-- STEP_REQUEST_EXAMINED (R113). -/
def execStepRequestExamined (s : State) : Host.Outcome State Fault Refusal :=
  match s.hv.request with
  | some v => .next (if s.mayStep then s.examineStep v else s)
  | none => .next s

/-- RAMP_TICK (R114). -/
def execRampTick (s : State) : Host.Outcome State Fault Refusal :=
  match s.hv.values, s.hv.tickTimer with
  | some v, some _ => .next (if s.hv.rail = .ramp then { s with hv := s.hv.tick v } else s)
  | _, _ => .next s

/-- HV_SAMPLE (R110). -/
def execHvSample (v i : Nat) (s : State) : Host.Outcome State Fault Refusal :=
  .next { s with hv := s.hv.sample v i }

/-- DWELL_EXPIRY (R117–R119; log 15). -/
def execDwellExpiry (s : State) : Host.Outcome State Fault Refusal :=
  match s.hv.values, s.hv.dwellTimer with
  | some v, some _ =>
    .next (if s.hv.rail = .dwell ∧ s.hv.history.length = 16 then { s with hv := s.hv.dwellExpire v } else s)
  | _, _ => .next s

/-- SAFE_HOLD_EXPIRY (R123). -/
def execSafeHoldExpiry (s : State) : Host.Outcome State Fault Refusal :=
  .next (if s.hv.rail = .discharge ∧ s.hv.holdTimer.isSome then s.holdDone else s)

/-- DISCHARGE_LIMIT (R124). -/
def execDischargeLimit (s : State) : Host.Outcome State Fault Refusal :=
  .next (if s.hv.rail = .discharge ∧ s.hv.limitTimer.isSome then s.limitDone else s)

/-- COVER_INPUT_CHANGE (R120). -/
def execCoverInputChange (closed : Bool) (s : State) : Host.Outcome State Fault Refusal :=
  .next (s.coverEdge closed)

/-- COVER_DEBOUNCED (R120). -/
def execCoverDebounced (s : State) : Host.Outcome State Fault Refusal :=
  .next (if s.hv.debounce.isSome then s.coverSettled else s)

end Sys2Proof.Machine
end

