-- ==== Sys2Proof/Machine/LinkEvents.lean ====
section
/-! DEFINITION. The meanings of the system commands and of the host-link events (12.2–12.4). An event that
cannot occur in a state has no effect in it (log 4). -/

namespace Sys2Proof.Machine

open Sys2Proof

/-- HARDWARE_RESET (R127). -/
def execHardwareReset (s : State) : Host.Outcome State Fault Refusal :=
  .next s.hardReset

/-- STORAGE_UPSET (R16; log 6). -/
def execStorageUpset (net : Nat) (flip : Word16) (s : State) : Host.Outcome State Fault Refusal :=
  .next { s with store := s.store.upset net flip }

/-- HOST_FRAME_RECEIVED (R180): the bytes of the frame reach the receiver. -/
def execHostFrameReceived (bytes : List Byte) (s : State) : Host.Outcome State Fault Refusal :=
  .next (s.feedAll bytes)

/-- LEN_TOO_LARGE (R180): the start byte and the LEN bytes reach the receiver. -/
def execLenTooLarge (len : Word16) (s : State) : Host.Outcome State Fault Refusal :=
  .next (s.feedAll (0xA5#8 :: le2 len.toNat))

/-- FRAME_BYTE_TIMEOUT (R180): the bytes of the frame so far, then the silence. -/
def execFrameByteTimeout (bytes : List Byte) (s : State) : Host.Outcome State Fault Refusal :=
  .next (s.feedAll bytes).byteTimeout

/-- UNKNOWN_KIND (R182): a frame whose KIND names no request. -/
def execUnknownKind (kind tag : Byte) (payload : List Byte) (s : State) : Host.Outcome State Fault Refusal :=
  .next (if (requestOf kind).isNone then s.frame kind tag payload else s)

/-- REPLY_SENT (R183). -/
def execReplySent (s : State) : Host.Outcome State Fault Refusal :=
  .next s.replySent

/-- NOTICE_SENT (R183, R189). -/
def execNoticeSent (s : State) : Host.Outcome State Fault Refusal :=
  .next s.noticeSent

end Sys2Proof.Machine
end

