-- ==== Sys2Proof/Machine/PrinterEvents.lean ====
section
/-! DEFINITION. The meanings of the notify timer and of the printer port's events (10.7, 11.2). An event that cannot
occur in a state has no effect in it (log 4). -/

namespace Sys2Proof.Machine

open Sys2Proof

/-- NOTIFY_TIMER_EXPIRY (R165). -/
def execNotifyTimerExpiry (s : State) : Host.Outcome State Fault Refusal :=
  .next (if s.log.notifyTimer.isSome then s.defectReady else s)

/-- PRINTER_CHAR_SENT (R172, R173), with the levels of PREADY and PPAPER as the part then samples them (log 14). -/
def execPrinterCharSent (pready ppaper : Bool) (s : State) : Host.Outcome State Fault Refusal :=
  .next (if s.printer.sending then
      State.printerSent { s with pins := { s.pins with pready := pready, ppaper := ppaper } } else s)

/-- PREADY_ASSERTED (R172). -/
def execPreadyAsserted (s : State) : Host.Outcome State Fault Refusal :=
  let s1 := { s with pins := { s.pins with pready := !s.printer.cfg.lowTrue } }
  .next (if s.printer.waiting then s1.readySent else s1)

/-- PRINTER_TIMEOUT (R172). -/
def execPrinterTimeout (s : State) : Host.Outcome State Fault Refusal :=
  .next (if s.printer.waiting && s.printer.timer.isSome then s.printerStall else s)

/-- PAPER_PRESENT (R171). -/
def execPaperPresent (s : State) : Host.Outcome State Fault Refusal :=
  let s1 := { s with pins := { s.pins with ppaper := true } }
  .next (if s.printer.state = .paperOut then s1.beginLine else s1)

end Sys2Proof.Machine
end

