-- ==== Sys2Proof/Machine/Requests.lean ====
section
/-! DEFINITION. The meanings of the host requests: each row is the arrival of an intact frame of its KIND
(log 3), received into a slot (R181) and handed over in its turn (R182). What the owning block does is the
request's own operation. -/

namespace Sys2Proof.Machine

open Sys2Proof

/-- IDENT (R184, R180–R182). -/
def execIdent (tag : Byte) (payload : List Byte) (s : State) : Host.Outcome State Fault Refusal :=
  .next (s.frame Request.ident.code tag payload)

/-- SET_LINK (R185, R180–R182). -/
def execSetLink (tag : Byte) (payload : List Byte) (s : State) : Host.Outcome State Fault Refusal :=
  .next (s.frame Request.setLink.code tag payload)

/-- RESTART (R186, R180–R182). -/
def execRestart (tag : Byte) (payload : List Byte) (s : State) : Host.Outcome State Fault Refusal :=
  .next (s.frame Request.restart.code tag payload)

/-- READ_STATUS (R192, R180–R182). -/
def execReadStatus (tag : Byte) (payload : List Byte) (s : State) : Host.Outcome State Fault Refusal :=
  .next (s.frame Request.readStatus.code tag payload)

/-- SET_EVENTS (R190, R180–R182). -/
def execSetEvents (tag : Byte) (payload : List Byte) (s : State) : Host.Outcome State Fault Refusal :=
  .next (s.frame Request.setEvents.code tag payload)

/-- CLEAR_EVENTS (R191, R180–R182). -/
def execClearEvents (tag : Byte) (payload : List Byte) (s : State) : Host.Outcome State Fault Refusal :=
  .next (s.frame Request.clearEvents.code tag payload)

/-- MAP_POINTS (R4, R180–R182). -/
def execMapPoints (tag : Byte) (payload : List Byte) (s : State) : Host.Outcome State Fault Refusal :=
  .next (s.frame Request.mapPoints.code tag payload)

/-- READ_MAP (R6, R180–R182). -/
def execReadMap (tag : Byte) (payload : List Byte) (s : State) : Host.Outcome State Fault Refusal :=
  .next (s.frame Request.readMap.code tag payload)

/-- SET_LEADS (R8, R180–R182). -/
def execSetLeads (tag : Byte) (payload : List Byte) (s : State) : Host.Outcome State Fault Refusal :=
  .next (s.frame Request.setLeads.code tag payload)

/-- READ_LEADS (R9, R180–R182). -/
def execReadLeads (tag : Byte) (payload : List Byte) (s : State) : Host.Outcome State Fault Refusal :=
  .next (s.frame Request.readLeads.code tag payload)

/-- LOAD_NET (R12, R180–R182). -/
def execLoadNet (tag : Byte) (payload : List Byte) (s : State) : Host.Outcome State Fault Refusal :=
  .next (s.frame Request.loadNet.code tag payload)

/-- CLEAR_NETS (R14, R180–R182). -/
def execClearNets (tag : Byte) (payload : List Byte) (s : State) : Host.Outcome State Fault Refusal :=
  .next (s.frame Request.clearNets.code tag payload)

/-- READ_NET (R15, R180–R182). -/
def execReadNet (tag : Byte) (payload : List Byte) (s : State) : Host.Outcome State Fault Refusal :=
  .next (s.frame Request.readNet.code tag payload)

/-- SET_CARD_LINK (R27, R180–R182). -/
def execSetCardLink (tag : Byte) (payload : List Byte) (s : State) : Host.Outcome State Fault Refusal :=
  .next (s.frame Request.setCardLink.code tag payload)

/-- SET_ROSTER (R33, R180–R182). -/
def execSetRoster (tag : Byte) (payload : List Byte) (s : State) : Host.Outcome State Fault Refusal :=
  .next (s.frame Request.setRoster.code tag payload)

/-- ENUMERATE (R28, R180–R182). -/
def execEnumerate (tag : Byte) (payload : List Byte) (s : State) : Host.Outcome State Fault Refusal :=
  .next (s.frame Request.enumerate.code tag payload)

/-- READ_ROSTER (R34, R180–R182). -/
def execReadRoster (tag : Byte) (payload : List Byte) (s : State) : Host.Outcome State Fault Refusal :=
  .next (s.frame Request.readRoster.code tag payload)

/-- MANUAL_SWITCH (R54, R180–R182). -/
def execManualSwitch (tag : Byte) (payload : List Byte) (s : State) : Host.Outcome State Fault Refusal :=
  .next (s.frame Request.manualSwitch.code tag payload)

/-- READ_RELAYS (R56, R180–R182). -/
def execReadRelays (tag : Byte) (payload : List Byte) (s : State) : Host.Outcome State Fault Refusal :=
  .next (s.frame Request.readRelays.code tag payload)

/-- UNBLOCK (R57, R180–R182). -/
def execUnblock (tag : Byte) (payload : List Byte) (s : State) : Host.Outcome State Fault Refusal :=
  .next (s.frame Request.unblock.code tag payload)

/-- SET_LIMITS (R68, R180–R182). -/
def execSetLimits (tag : Byte) (payload : List Byte) (s : State) : Host.Outcome State Fault Refusal :=
  .next (s.frame Request.setLimits.code tag payload)

/-- MEASURE (R75, R180–R182). -/
def execMeasure (tag : Byte) (payload : List Byte) (s : State) : Host.Outcome State Fault Refusal :=
  .next (s.frame Request.measure.code tag payload)

/-- SET_HV (R111, R180–R182). -/
def execSetHv (tag : Byte) (payload : List Byte) (s : State) : Host.Outcome State Fault Refusal :=
  .next (s.frame Request.setHv.code tag payload)

/-- CLEAR_HV_FAULT (R125, R180–R182). -/
def execClearHvFault (tag : Byte) (payload : List Byte) (s : State) : Host.Outcome State Fault Refusal :=
  .next (s.frame Request.clearHvFault.code tag payload)

/-- SUBMIT_JOB (R145, R180–R182). -/
def execSubmitJob (tag : Byte) (payload : List Byte) (s : State) : Host.Outcome State Fault Refusal :=
  .next (s.frame Request.submitJob.code tag payload)

/-- ABORT_JOB (R152, R180–R182). -/
def execAbortJob (tag : Byte) (payload : List Byte) (s : State) : Host.Outcome State Fault Refusal :=
  .next (s.frame Request.abortJob.code tag payload)

/-- HOLD_QUEUE (R153, R180–R182). -/
def execHoldQueue (tag : Byte) (payload : List Byte) (s : State) : Host.Outcome State Fault Refusal :=
  .next (s.frame Request.holdQueue.code tag payload)

/-- RELEASE_QUEUE (R153, R180–R182). -/
def execReleaseQueue (tag : Byte) (payload : List Byte) (s : State) : Host.Outcome State Fault Refusal :=
  .next (s.frame Request.releaseQueue.code tag payload)

/-- READ_QUEUE (R154, R180–R182). -/
def execReadQueue (tag : Byte) (payload : List Byte) (s : State) : Host.Outcome State Fault Refusal :=
  .next (s.frame Request.readQueue.code tag payload)

/-- RESUME (R141, R180–R182). -/
def execResume (tag : Byte) (payload : List Byte) (s : State) : Host.Outcome State Fault Refusal :=
  .next (s.frame Request.resume.code tag payload)

/-- SET_REPORTING (R163, R180–R182). -/
def execSetReporting (tag : Byte) (payload : List Byte) (s : State) : Host.Outcome State Fault Refusal :=
  .next (s.frame Request.setReporting.code tag payload)

/-- FETCH_RECORDS (R162, R180–R182). -/
def execFetchRecords (tag : Byte) (payload : List Byte) (s : State) : Host.Outcome State Fault Refusal :=
  .next (s.frame Request.fetchRecords.code tag payload)

/-- PRINTER_CONFIG (R168, R180–R182). -/
def execPrinterConfig (tag : Byte) (payload : List Byte) (s : State) : Host.Outcome State Fault Refusal :=
  .next (s.frame Request.printerConfig.code tag payload)

/-- PRINT_HOLD (R174, R180–R182). -/
def execPrintHold (tag : Byte) (payload : List Byte) (s : State) : Host.Outcome State Fault Refusal :=
  .next (s.frame Request.printHold.code tag payload)

/-- PRINT_RELEASE (R175, R180–R182). -/
def execPrintRelease (tag : Byte) (payload : List Byte) (s : State) : Host.Outcome State Fault Refusal :=
  .next (s.frame Request.printRelease.code tag payload)

/-- PRINT_FLUSH (R176, R180–R182). -/
def execPrintFlush (tag : Byte) (payload : List Byte) (s : State) : Host.Outcome State Fault Refusal :=
  .next (s.frame Request.printFlush.code tag payload)

end Sys2Proof.Machine
end

