-- ==== Sys2Proof/Machine/Dispatch.lean ====
section
/-! DEFINITION. One arm for each command. -/

namespace Sys2Proof.Machine

open Sys2Proof

def exec (i : Instr) (s : State) : Host.Outcome State Fault Refusal :=
  match i with
  | .hardwareReset => Sys2Proof.Machine.execHardwareReset s
  | .storageUpset net flip => Sys2Proof.Machine.execStorageUpset net flip s
  | .hostFrameReceived bytes => Sys2Proof.Machine.execHostFrameReceived bytes s
  | .lenTooLarge len => Sys2Proof.Machine.execLenTooLarge len s
  | .frameByteTimeout bytes => Sys2Proof.Machine.execFrameByteTimeout bytes s
  | .unknownKind kind tag payload => Sys2Proof.Machine.execUnknownKind kind tag payload s
  | .replySent => Sys2Proof.Machine.execReplySent s
  | .noticeSent => Sys2Proof.Machine.execNoticeSent s
  | .ident tag payload => Sys2Proof.Machine.execIdent tag payload s
  | .setLink tag payload => Sys2Proof.Machine.execSetLink tag payload s
  | .restart tag payload => Sys2Proof.Machine.execRestart tag payload s
  | .readStatus tag payload => Sys2Proof.Machine.execReadStatus tag payload s
  | .setEvents tag payload => Sys2Proof.Machine.execSetEvents tag payload s
  | .clearEvents tag payload => Sys2Proof.Machine.execClearEvents tag payload s
  | .mapPoints tag payload => Sys2Proof.Machine.execMapPoints tag payload s
  | .readMap tag payload => Sys2Proof.Machine.execReadMap tag payload s
  | .setLeads tag payload => Sys2Proof.Machine.execSetLeads tag payload s
  | .readLeads tag payload => Sys2Proof.Machine.execReadLeads tag payload s
  | .loadNet tag payload => Sys2Proof.Machine.execLoadNet tag payload s
  | .clearNets tag payload => Sys2Proof.Machine.execClearNets tag payload s
  | .readNet tag payload => Sys2Proof.Machine.execReadNet tag payload s
  | .setCardLink tag payload => Sys2Proof.Machine.execSetCardLink tag payload s
  | .setRoster tag payload => Sys2Proof.Machine.execSetRoster tag payload s
  | .enumerate tag payload => Sys2Proof.Machine.execEnumerate tag payload s
  | .readRoster tag payload => Sys2Proof.Machine.execReadRoster tag payload s
  | .manualSwitch tag payload => Sys2Proof.Machine.execManualSwitch tag payload s
  | .readRelays tag payload => Sys2Proof.Machine.execReadRelays tag payload s
  | .unblock tag payload => Sys2Proof.Machine.execUnblock tag payload s
  | .setLimits tag payload => Sys2Proof.Machine.execSetLimits tag payload s
  | .measure tag payload => Sys2Proof.Machine.execMeasure tag payload s
  | .setHv tag payload => Sys2Proof.Machine.execSetHv tag payload s
  | .clearHvFault tag payload => Sys2Proof.Machine.execClearHvFault tag payload s
  | .submitJob tag payload => Sys2Proof.Machine.execSubmitJob tag payload s
  | .abortJob tag payload => Sys2Proof.Machine.execAbortJob tag payload s
  | .holdQueue tag payload => Sys2Proof.Machine.execHoldQueue tag payload s
  | .releaseQueue tag payload => Sys2Proof.Machine.execReleaseQueue tag payload s
  | .readQueue tag payload => Sys2Proof.Machine.execReadQueue tag payload s
  | .resume tag payload => Sys2Proof.Machine.execResume tag payload s
  | .setReporting tag payload => Sys2Proof.Machine.execSetReporting tag payload s
  | .fetchRecords tag payload => Sys2Proof.Machine.execFetchRecords tag payload s
  | .printerConfig tag payload => Sys2Proof.Machine.execPrinterConfig tag payload s
  | .printHold tag payload => Sys2Proof.Machine.execPrintHold tag payload s
  | .printRelease tag payload => Sys2Proof.Machine.execPrintRelease tag payload s
  | .printFlush tag payload => Sys2Proof.Machine.execPrintFlush tag payload s
  | .startupEnumeration => Sys2Proof.Machine.execStartupEnumeration s
  | .linkBreakEnd => Sys2Proof.Machine.execLinkBreakEnd s
  | .identReceived f => Sys2Proof.Machine.execIdentReceived f s
  | .cardFrameDiscarded f => Sys2Proof.Machine.execCardFrameDiscarded f s
  | .setAck f => Sys2Proof.Machine.execSetAck f s
  | .allOpenSent => Sys2Proof.Machine.execAllOpenSent s
  | .cardReplyTimeout => Sys2Proof.Machine.execCardReplyTimeout s
  | .attnQueryPoll => Sys2Proof.Machine.execAttnQueryPoll s
  | .attnReplyReceived f => Sys2Proof.Machine.execAttnReplyReceived f s
  | .attnClearAck f => Sys2Proof.Machine.execAttnClearAck f s
  | .statusReplyReceived f => Sys2Proof.Machine.execStatusReplyReceived f s
  | .cattnInactive => Sys2Proof.Machine.execCattnInactive s
  | .heldPlanSending => Sys2Proof.Machine.execHeldPlanSending s
  | .settleExpiry => Sys2Proof.Machine.execSettleExpiry s
  | .lmuSourceOn => Sys2Proof.Machine.execLmuSourceOn s
  | .stabiliseEnd => Sys2Proof.Machine.execStabiliseEnd s
  | .contConversion code => Sys2Proof.Machine.execContConversion code s
  | .isoConversion mv nA => Sys2Proof.Machine.execIsoConversion mv nA s
  | .headJobStart => Sys2Proof.Machine.execHeadJobStart s
  | .stepRequestExamined => Sys2Proof.Machine.execStepRequestExamined s
  | .rampTick => Sys2Proof.Machine.execRampTick s
  | .hvSample dv nA => Sys2Proof.Machine.execHvSample dv nA s
  | .dwellExpiry => Sys2Proof.Machine.execDwellExpiry s
  | .safeHoldExpiry => Sys2Proof.Machine.execSafeHoldExpiry s
  | .dischargeLimit => Sys2Proof.Machine.execDischargeLimit s
  | .coverInputChange closed => Sys2Proof.Machine.execCoverInputChange closed s
  | .coverDebounced => Sys2Proof.Machine.execCoverDebounced s
  | .notifyTimerExpiry => Sys2Proof.Machine.execNotifyTimerExpiry s
  | .printerCharSent pready ppaper => Sys2Proof.Machine.execPrinterCharSent pready ppaper s
  | .preadyAsserted => Sys2Proof.Machine.execPreadyAsserted s
  | .printerTimeout => Sys2Proof.Machine.execPrinterTimeout s
  | .paperPresent => Sys2Proof.Machine.execPaperPresent s

end Sys2Proof.Machine
end

