-- ==== Sys2Proof/Machine/Pins.lean ====
section
/-! DEFINITION. The output pins (00, Table 0-2) as functions of the state (log 24): the module lines (R109),
ATTN (R188), LBRK (R29), the LMU lines, and the characters on TXD, PTXD and the card link. -/

namespace Sys2Proof.Machine

open Sys2Proof

/-! ### The module lines (Table 7-2) -/

def RailState.driven : RailState → Bool
  | .safe => false
  | .ramp => true
  | .dwell => true
  | .discharge => false
  | .fault => false

/-- HV_EN. -/
def State.hvEn (s : State) : Bool := s.hv.rail.driven

/-- HV_SET in volts. -/
def State.hvSetV (s : State) : Nat := if s.hv.rail.driven then s.hv.target else 0

/-- HV_DIS. -/
def State.hvDis (s : State) : Bool := !s.hv.rail.driven

/-- A change of one module line. -/
inductive LineMove where
  | en (on : Bool)
  | set (v : Nat)
  | dis (on : Bool)
  deriving DecidableEq, Repr

/-- The order of line changes between two rail states (R109): the discharge path goes off before the supply
goes on, and the supply goes off before the discharge path goes on. -/
def lineMoves (a b : RailState) : List LineMove :=
  match a.driven, b.driven with
  | false, true => [.dis false, .set 0, .en true]
  | true, false => [.en false, .set 0, .dis true]
  | false, false => []
  | true, true => []

/-! ### Other lines -/

/-- ATTN (R188). -/
def State.attnPin (s : State) : Bool := s.events.attn

/-- LBRK (R29). -/
def State.lbrk (s : State) : Bool := decide (s.link.enumPhase = .linkBreak)

/-- LV_SRC (Table 4-1). -/
def State.lvSrc (s : State) : Bool := decide (s.lmu.phase ≠ .idle)

/-- The mode LV_MODE selects and the range LV_RNG1 and LV_RNG0 select (4.1). -/
def State.lvMode (s : State) : LmuMode := s.lmu.mode
def State.lvRange (s : State) : CRange := s.lmu.range

/-! ### Characters -/

/-- `n` bits of a character, least significant first. -/
def lsbFirst (n : Nat) (b : Byte) : List Bool := (List.range n).map (fun i => b.getLsbD i)

/-- A character of the host link or of the card link (12.1, 2.2): start bit, 8 data bits, stop bit. -/
def linkChar (b : Byte) : List Bool := false :: lsbFirst 8 b ++ [true]

/-- The parity bit of a printer character (R169). -/
def parityBit (p : Parity) (data : List Bool) : List Bool :=
  match p with
  | .none => []
  | .even => [data.foldl xor false]
  | .odd => [!(data.foldl xor false)]
  | .zero => [false]

/-- A character on PTXD (R169). -/
def printerChar (c : PrinterConfig) (b : Byte) : List Bool :=
  let data := lsbFirst c.dataBits b
  false :: data ++ parityBit c.parity data ++ List.replicate c.stopBits true

/-- The bits of the frame on TXD; the idle line is high. -/
def State.txdBits (s : State) : List Bool :=
  match s.host.tx with
  | none => [true]
  | some f => f.bytes.flatMap linkChar

/-- The character going out on PTXD (R172); between characters the line rests high. -/
def State.ptxdBits (s : State) : List Bool :=
  if s.printer.sending then printerChar s.printer.cfg (s.printer.lineNow.getD s.printer.pos 0#8) else [true]

/-! ### Frames on the card link (Tables 2-2 and 2-3) -/

/-- The address field of a frame the part sends. -/
def Sent.addrField : Sent → Nat
  | .assign _ => 0
  | .set p _ => p
  | .allOpen => 63
  | .attnQuery => 63
  | .attnClear p => p
  | .status p => p

/-- The payload of a frame the part sends. -/
def Sent.payload : Sent → List Byte
  | .assign a => le1 a
  | .set _ items => items.flatMap (fun it => le1 it.1 ++ le1 it.2.code)
  | .allOpen => []
  | .attnQuery => []
  | .attnClear _ => []
  | .status _ => []

/-- The bytes of a frame the part sends. -/
def Exchange.bytes (e : Exchange) : List Byte :=
  let body := cardBody false e.seq e.sent.addrField (BitVec.ofNat 8 e.sent.code) e.sent.payload
  0xC3#8 :: body ++ crcBytes (crc16 body)

end Sys2Proof.Machine
end

