-- ==== Sys2Proof/Safety.lean ====
section
/-! DEFINITION. What statements about runs use: the canonical form of the tables, the interlocks that every state
meets, the bounds of the log and of the queue, and the standing of the host link between requests. -/

namespace Sys2Proof.Machine

open Sys2Proof

/-! ### Canonical form -/

/-- The wire-list store in canonical form: every table rising, no lead entry of 0, nets in ascending number. -/
def Store.wf (st : Store) : Bool :=
  tableWf st.map && tableWf st.leads && st.leads.all (fun e => e.2 != 0) && tableWf st.owner
    && tableWf (st.nets.map (fun r => (r.body.num, ())))

/-- The tables and the relay image in canonical form. -/
def State.tablesWf (s : State) : Bool := s.store.wf && tableWf s.matrix.image

/-! ### What the store and the matrix controller keep true -/

/-- Every entry of the map is a harness point on a channel of positions 1 to 32, and no two points are on one channel
(R3). -/
def Store.mapSound (st : Store) : Prop :=
  (∀ e ∈ st.map, harnessPoint e.1 = true ∧ 1 ≤ e.2.pos ∧ e.2.pos ≤ 32 ∧ e.2.ch ≤ 127) ∧ (st.map.map (·.2)).Nodup

/-- The net numbers are 1 to 1024, and the owner index gives a point the number of a net exactly when that net's record
has the point among its members, so that no point is in two nets (R10, R11). -/
def Store.owned (st : Store) : Prop :=
  (∀ r ∈ st.nets, 1 ≤ r.body.num ∧ r.body.num ≤ 1024) ∧
  ∀ p n, tget st.owner p = some n ↔ ∃ r ∈ st.nets, r.body.num = n ∧ p ∈ r.body.members

/-- A LEARN stands on its table (R98–R102): the next number is one above the nets stored, which all have lower numbers;
the points of the pool and the root are in no net; the root is not in the pool; the search list lies in the pool, the
found list and the point being confirmed in the search list. -/
def LearnWork.sound (w : LearnWork) (st : Store) : Prop :=
  w.nextNum = st.nets.length + 1 ∧ (∀ r ∈ st.nets, r.body.num < w.nextNum) ∧ w.pool.Nodup ∧
  (∀ p ∈ w.pool, tget st.owner p = none) ∧ (∀ p, w.root = some p → tget st.owner p = none ∧ p ∉ w.pool) ∧
  (w.root = none → w.list = []) ∧ (∀ p ∈ w.list, p ∈ w.pool) ∧ (∀ p ∈ w.found, p ∈ w.list) ∧
  (w.doing = .confirm → w.resolved ∈ w.list)

/-- Records and owner index agree; an engine that works has an active job; a LEARN stands on its table. -/
def State.netsAgree (s : State) : Prop :=
  s.store.owned ∧ (s.engine.work ≠ .none → s.jobActive = true) ∧ ∀ w, s.engine.work = .learn w → w.sound s.store

/-- HV stands in the image, and in the SET on the link, for channels of HV-64 positions alone (R19, R45). -/
def State.hvOnHv64 (s : State) : Prop :=
  (∀ c : Chan, 1 ≤ c.pos → c.pos ≤ 32 → c.ch ≤ 127 → s.imageOf c = some .hv →
    (s.posn c.pos).kind = .hv64 ∧ c.ch < 64) ∧
  ∀ e p items, s.link.exchange = some e → e.sent = .set p items → ∀ it ∈ items, it.2 = .hv →
    it.1 < 64 ∧ (1 ≤ p → p ≤ 32 → (s.posn p).kind = .hv64)

/-! ### Interlocks -/

/-- A plan is SENDING or SETTLING only with the rail SAFE (R46); the LMU source is on only with the slot EMPTY or
HELD and the rail SAFE (R60); the rail is in RAMP or DWELL only with the cover CLOSED (R113). -/
def State.interlocked (s : State) : Prop :=
  (s.matrix.slot.sourceOk = false → s.hv.rail = .safe) ∧
  (s.lmu.phase ≠ .idle → s.sourceAllowed = true) ∧
  (s.hv.rail.driven = true → s.hv.coverClosed = true)

/-! ### The log and the queue -/

/-- At most 256 entries, at most 248 of test records, each with a mark (R158, R159). -/
def Log.bounded (l : Log) : Prop :=
  l.entries.length ≤ 256 ∧ l.testOccupancy ≤ 248 ∧ ∀ e ∈ l.entries, (e.printMark || e.hostMark) = true

/-- At most 8 jobs, tags unique, every job behind the head QUEUED (R144). -/
def Queue.ordered (q : Queue) : Prop :=
  q.jobs.length ≤ 8 ∧ (q.jobs.map (·.tag)).Nodup ∧ ∀ j ∈ q.jobs.tail, j.state = .queued

/-- The collections of fixed size and the two counters: two receive slots (R181), 32 roster positions (R34), sequence
numbers from 1 to 4,294,967,295 (R156), a dropped count of at most 65535 (R160). -/
def State.withinCapacity (s : State) : Prop :=
  s.host.slots.length ≤ 2 ∧ s.matrix.roster.length = 32 ∧ 1 ≤ s.log.nextSeq ∧ s.log.nextSeq ≤ 4294967295 ∧
  s.log.dropped ≤ 65535

/-! ### A step's plan on its way to the cards -/

/-- The plan of a step of an engine, as it is taken: its targets and the flag all others OPEN (R42, R81, R130). -/
def State.stepTaken (s : State) (ts : List (Nat × Rail)) : Taken := ⟨⟨.targets ts true, .engine⟩, s.translate ts⟩

/-- A step's plan may go out, and position `p` is the first with a change and is PRESENT (R43–R47). -/
def State.sendsTo (s : State) (ts : List (Nat × Rail)) (p : Nat) : Prop :=
  s.hv.rail = .safe ∧ s.matrix.slot = .empty ∧ s.link.exchange = none ∧ (∀ x ∈ ts, s.checkTarget x = none) ∧
  1 ≤ p ∧ p ≤ 32 ∧ (∀ r, 1 ≤ r → r < p → s.changeList (s.stepTaken ts) r = []) ∧
  s.changeList (s.stepTaken ts) p ≠ [] ∧ (s.posn p).state = .present

/-- A step's plan finds every channel at its target already, so that it is complete at once (R50, R141). -/
def State.unchangedBy (s : State) (ts : List (Nat × Rail)) : Prop :=
  s.hv.rail = .safe ∧ s.matrix.slot = .empty ∧ s.matrix.waiting = [] ∧ (∀ x ∈ ts, s.checkTarget x = none) ∧
  s.refChanges (s.stepTaken ts) = [] ∧ ∀ r, 1 ≤ r → r ≤ 32 → s.changeList (s.stepTaken ts) r = []

/-- The state once a plan goes out: the source off, the reference channels switched, the SET of `p` on the link (R46–R48). -/
def State.planSent (s : State) (t : Taken) (p : Nat) : State :=
  { s with
    lmu := s.lmu.sourceOff
    matrix := { s.matrix with
      image := writeImage s.matrix.image 0 (s.refChanges t)
      slot := .sending t p (if s.refChanges t = [] then [] else [0]) }
    link := { s.link with
      seqBits := s.link.seqBits.set (p - 1) (!s.link.seqBit p)
      exchange := some ⟨.set p (s.changeList t p),
        (s.link.seqBits.set (p - 1) (!s.link.seqBit p)).getD (p - 1) false, false⟩
      replyTimer := some s.link.replyTimeout } }

/-! ### The isolation search as a whole -/

/-- A search driven to its end by a test of groups: the members it resolves, in order, and whether it ever met an
aggregate. A run's members are those of its positions that `member` names; a group fails when one of its members is
`bad`. -/
def searchFrom (member bad : Nat → Bool) : Nat → SearchOut → Option (List Nat × Bool)
  | 0, _ => none
  | fuel + 1, o =>
    let inRun (r : Run) : List Nat := (List.range' r.first r.count).filter member
    let m (r : Run) : Nat := (inRun r).length
    match o with
    | .test q => searchFrom member bad fuel (q.result m ((inRun q.testing).any bad))
    | .resolve q => (searchFrom member bad fuel (q.goOn m)).map (fun x => ((inRun q.g) ++ x.1, x.2))
    | .aggregate q => (searchFrom member bad fuel (q.goOn m)).map (fun x => (x.1, true))
    | .over => some ([], false)

/-! ### The host link between requests -/

/-- The row that stands for the arrival of a request's frame. -/
def requestInstr (r : Request) (tag : Byte) (p : List Byte) : Instr :=
  match r with
  | .ident => .ident tag p
  | .setLink => .setLink tag p
  | .restart => .restart tag p
  | .readStatus => .readStatus tag p
  | .setEvents => .setEvents tag p
  | .clearEvents => .clearEvents tag p
  | .mapPoints => .mapPoints tag p
  | .readMap => .readMap tag p
  | .setLeads => .setLeads tag p
  | .readLeads => .readLeads tag p
  | .loadNet => .loadNet tag p
  | .clearNets => .clearNets tag p
  | .readNet => .readNet tag p
  | .setCardLink => .setCardLink tag p
  | .setRoster => .setRoster tag p
  | .enumerate => .enumerate tag p
  | .readRoster => .readRoster tag p
  | .manualSwitch => .manualSwitch tag p
  | .readRelays => .readRelays tag p
  | .unblock => .unblock tag p
  | .setLimits => .setLimits tag p
  | .measure => .measure tag p
  | .setHv => .setHv tag p
  | .clearHvFault => .clearHvFault tag p
  | .submitJob => .submitJob tag p
  | .abortJob => .abortJob tag p
  | .holdQueue => .holdQueue tag p
  | .releaseQueue => .releaseQueue tag p
  | .readQueue => .readQueue tag p
  | .resume => .resume tag p
  | .setReporting => .setReporting tag p
  | .fetchRecords => .fetchRecords tag p
  | .printerConfig => .printerConfig tag p
  | .printHold => .printHold tag p
  | .printRelease => .printRelease tag p
  | .printFlush => .printFlush tag p

/-- Both slots free, the path idle, the receiver hunting, nothing that holds back a hand-over. -/
def State.ready (s : State) : Prop :=
  s.host.slots = [] ∧ s.host.assembly = [] ∧ s.host.tx = none ∧ s.host.carried = none ∧
  s.enumerating = false ∧ (s.link.startup && decide (s.hv.rail = .safe)) = false

/-- The state while a request is being carried out (R182). -/
def State.handed (s : State) (kind tag : Byte) (p : List Byte) : State :=
  { s with host := { s.host with slots := [⟨kind, tag, p, .carried⟩] } }

/-- The state with the reply to a request in transmission (R182, R183). -/
def State.replying (s : State) (kind tag : Byte) (p r : List Byte) : State :=
  { s with host := { s.host with
    slots := [⟨kind, tag, p, .sending r⟩]
    tx := some ⟨true, hostFrame (replyKind kind) tag r⟩ } }

end Sys2Proof.Machine
end

