-- ==== Sys2Proof/Certificates/Slice0/Obligations.lean ====
section
/-! DEFINITION. The statements for the provers. Where a statement is the model's own choice its docstring says so and
names the log entry. -/

open Sys2Proof Sys2Proof.Machine

/-! ### The machine as a whole -/

/-- Each command is one step (95): a step with a command at the front of the queue is that command on the state with
the queue's rest. -/
def Obligations.StepRunsTheFrontCommand : Prop :=
  ∀ (c : Instr) (rest : List Instr) (s : State),
    step { s with pending := c :: rest } = exec c { s with pending := rest }

/-- The model's choice (log 2): with no command waiting a step changes nothing. -/
def Obligations.EmptyQueueIdles : Prop := ∀ s : State, s.pending = [] → step s = .next s

/-- A hardware reset gives every block its reset value in every state, and the values listed are those the reset rules of
the blocks state; the levels of the input pins and the commands that wait are outside the part. What State.reset holds
beside them (the present reading 0, the LMU's mode, N, settle and issuer) and the pins that a reset leaves are the model's
choice (log 13, DESIGN CHOICE). -/
def Obligations.HardwareResetGivesEveryBlockItsValues : Prop :=
  (∀ s : State, exec .hardwareReset s = .next { State.reset with pins := s.pins, pending := s.pending }) ∧
  (State.reset.store = ⟨[], [], [], []⟩ ∧
   State.reset.link.replyTimeout = 4 ∧ State.reset.link.lvSettle = 3 ∧ State.reset.link.hvSettle = 6 ∧
   State.reset.link.seqBits = List.replicate 32 false ∧ State.reset.link.startup = true ∧
   State.reset.matrix.roster = List.replicate 32 ⟨.absent, .none, 0, 0, .none⟩ ∧ State.reset.matrix.frozen = false ∧
   (∀ p ch, State.reset.imageOf ⟨p, ch⟩ = some .opn ↔ p * 128 + ch < 4) ∧
   (∀ p ch, 4 ≤ p * 128 + ch → State.reset.imageOf ⟨p, ch⟩ = none) ∧
   State.reset.matrix.blocked = [] ∧ State.reset.matrix.slot = .empty ∧ State.reset.matrix.waiting = [] ∧
   State.reset.lmu.phase = .idle ∧ State.reset.lmu.range = .r100 ∧
   State.reset.limits = ⟨2000, 100000, 1000, 4, .r100, 5⟩ ∧ State.reset.reference = .unverified ∧
   State.reset.hv.rail = .discharge ∧ State.reset.hv.target = 0 ∧ State.reset.hv.limitTimer = some 2000 ∧
   State.reset.hv.holdTimer = none ∧ State.reset.hv.cause = .reset ∧ State.reset.hv.offset = 0 ∧
   State.reset.hv.coverClosed = false ∧ State.reset.hv.hvSet = ⟨500, 10, 100, 200, 50, 10, 100, 16⟩ ∧
   State.reset.queue.jobs = [] ∧ State.reset.queue.hold = false ∧
   State.reset.log.entries = [] ∧ State.reset.log.nextSeq = 1 ∧ State.reset.log.dropped = 0 ∧
   State.reset.log.reporting = true ∧ State.reset.log.threshold = 8 ∧ State.reset.log.timeout = 500 ∧
   State.reset.printer.state = .off ∧ State.reset.printer.cfg = ⟨false, 4, 8, .none, 1, false, 10⟩ ∧
   State.reset.host.slots = [] ∧ State.reset.host.tx = none ∧ State.reset.host.baud = 5 ∧
   State.reset.events.pending = 0 ∧ State.reset.events.mask = 0 ∧ State.reset.events.attnLevel = 1 ∧
   State.reset.events.levels = [3, 3, 3, 3, 2, 2, 2, 2, 1, 1, 1, 0] ∧ State.reset.events.attn = false)

/-- The state after a hardware reset meets every invariant stated below. -/
def Obligations.ResetMeetsTheInvariants : Prop :=
  State.reset.interlocked ∧ State.reset.log.bounded ∧ State.reset.queue.ordered ∧ State.reset.withinCapacity ∧
  State.reset.tablesWf = true ∧ State.reset.store.mapSound ∧ State.reset.netsAgree ∧ State.reset.hvOnHv64

/-- No command takes the part out of its interlocks, whatever state they hold in: a plan is SENDING or SETTLING only
with the rail SAFE, the LMU source is on only with the slot EMPTY or HELD and the rail SAFE, the rail is in RAMP or DWELL
only with the cover CLOSED. -/
def Obligations.EveryStepKeepsTheInterlocks : Prop :=
  ∀ s t : State, s.interlocked → step s = .next t → t.interlocked

/-- After every step: two receive slots, 32 roster positions, sequence numbers in range, a dropped count that saturates;
at most 256 entries in the log, at most 248 of test records, a mark on each; at most 8 jobs in the queue, tags unique,
every job behind the head QUEUED. -/
def Obligations.EveryStepKeepsTheCapacities : Prop :=
  (∀ s t : State, s.withinCapacity → step s = .next t → t.withinCapacity) ∧
  (∀ s t : State, s.log.bounded → step s = .next t → t.log.bounded) ∧
  ∀ s t : State, s.queue.ordered → step s = .next t → t.queue.ordered

/-- The tables and the relay image stay in canonical form, so that equal contents are equal data (the model's own form).
With them so, after every step: the map has harness points on channels of positions 1 to 32, no two on one channel (R3);
the owner index gives a point the number of a net exactly when that net's record has the point as a member, so that no
point is in two nets (R10, R11; an active job owns the engine that works, and a LEARN stands on its table); HV stands in
the image and in the SET on the link for channels of HV-64 positions alone, so on none of an LV-128 (R45). -/
def Obligations.EveryStepKeepsTheTablesCanonical : Prop :=
  (∀ s t : State, s.tablesWf = true → step s = .next t → t.tablesWf = true) ∧
  (∀ s t : State, s.tablesWf = true → s.store.mapSound → step s = .next t → t.store.mapSound) ∧
  (∀ s t : State, s.tablesWf = true → s.netsAgree → step s = .next t → t.netsAgree ∧
    ∀ r ∈ t.store.nets, ∀ q ∈ t.store.nets, ∀ p, p ∈ r.body.members → p ∈ q.body.members → r = q) ∧
  ∀ s t : State, s.tablesWf = true → s.hvOnHv64 → step s = .next t → t.hvOnHv64 ∧
    ∀ c : Chan, 1 ≤ c.pos → c.pos ≤ 32 → c.ch ≤ 127 → (t.posn c.pos).kind = .lv128 → t.imageOf c ≠ some .hv

/-! ### The host link -/

/-- The bytes of a request's frame (Table 12-1), arriving at a receiver that hunts, do what the request's row does (a row
is its frame's arrival: log 3): every KIND, TAG and payload passes through the bytes of the frame unchanged. A good frame
takes a free slot with its KIND, TAG and payload: the second slot while the request in the first is being carried out,
where it waits; the first, in a state that is ready, where it is handed over at once, as an undefined KIND and an IDENT
show. The bytes of a frame that has not ended are kept. -/
def Obligations.FrameBytesCarryTheRequest : Prop :=
  (∀ (r : Request) (tag : Byte) (p : List Byte) (s : State), s.host.assembly = [] → p.length ≤ 1024 →
    exec (.hostFrameReceived (hostFrame r.code tag p)) s = exec (requestInstr r tag p) s) ∧
  (∀ (kind tag : Byte) (p : List Byte) (x : RxSlot) (s : State), s.host.assembly = [] → p.length ≤ 1024 →
    s.host.slots = [x] → x.phase = .carried →
    exec (.hostFrameReceived (hostFrame kind tag p)) s =
      .next { s with host := { s.host with slots := [x, ⟨kind, tag, p, .waiting⟩] } }) ∧
  (∀ (kind tag : Byte) (p : List Byte) (s : State), s.ready → p.length ≤ 1024 →
    (requestOf kind = none → exec (.hostFrameReceived (hostFrame kind tag p)) s =
      .next { s with host := { s.host with
        slots := [⟨kind, tag, p, .sending [0x06#8]⟩]
        tx := some ⟨true, hostFrame (replyKind kind) tag [0x06#8]⟩ } }) ∧
    exec (.hostFrameReceived (hostFrame 0x01#8 tag [])) s = .next (s.replying 0x01#8 tag []
      ([0x00#8, 0xA0#8, 0x08#8, Config.siliconRevision] ++ le1 s.host.baud ++
        [0x00#8, 0x04#8, 2#8, 8#8, 0x00#8, 0x01#8]))) ∧
  ∀ (kind tag : Byte) (p : List Byte) (k : Nat) (s : State), s.host.assembly = [] → p.length ≤ 1024 →
    1 ≤ k → k < p.length + 7 →
    exec (.hostFrameReceived ((hostFrame kind tag p).take k)) s =
      .next { s with host := { s.host with assembly := (hostFrame kind tag p).take k } }

/-- A frame whose CRC bytes are not those of its contents, one whose LEN is above 1024, and one that stops before its
last byte for 20 ms are discarded: LINK_ERROR is raised with its cause, the receiver hunts again, and nothing else
changes. Raising it enters the cause in the register of LINK_ERROR, which keeps those entered before, and raises the
event. -/
def Obligations.DamagedFramesAreDiscarded : Prop :=
  (∀ (kind tag c d : Byte) (p : List Byte) (s : State), s.host.assembly = [] → p.length ≤ 1024 →
     [c, d] ≠ crcBytes (crc16 (le2 p.length ++ [kind, tag] ++ p)) →
     exec (.hostFrameReceived (0xA5#8 :: (le2 p.length ++ [kind, tag] ++ p ++ [c, d]))) s = .next (s.raiseLink .crc)) ∧
  (∀ (len : Word16) (s : State), s.host.assembly = [] → 1024 < len.toNat →
     exec (.lenTooLarge len) s = .next (s.raiseLink .length)) ∧
  (∀ (kind tag : Byte) (p : List Byte) (k : Nat) (s : State), s.host.assembly = [] → p.length ≤ 1024 →
    1 ≤ k → k < p.length + 7 →
    exec (.frameByteTimeout ((hostFrame kind tag p).take k)) s = .next (s.raiseLink .timeout)) ∧
  ∀ (c : LinkCause) (s : State), ∃ reg : LinkReg, reg = (match c with
      | .crc => { s.events.link with crc := true }
      | .timeout => { s.events.link with timeout := true }
      | .overrun => { s.events.link with overrun := true }
      | .length => { s.events.link with length := true }) ∧
    s.raiseLink c = State.raise { s with events := { s.events with link := reg } } .linkError ∧
    (s.raiseLink c).events.link = reg ∧ (s.raiseLink c).events.pending.getLsbD 11 = true

/-- A frame received while a request is being carried out takes the second slot and waits there; it is handed over
once the reply it waits for has been composed (so for a READ_QUEUE behind a MANUAL_SWITCH whose plan completes), and a
READ_QUEUE received while a reply is in transmission at once (R182; how R55 stands to it: log 46, DEDUCED). A frame
that finds both slots occupied is discarded with OVERRUN, whatever request it carries. -/
def Obligations.TwoSlotsHoldTheRequests : Prop :=
  (∀ (r : Request) (tag : Byte) (p : List Byte) (x : RxSlot) (s : State), s.host.assembly = [] → p.length ≤ 1024 →
     s.host.slots = [x] → x.phase = .carried →
     exec (requestInstr r tag p) s =
       .next { s with host := { s.host with slots := [x, ⟨r.code, tag, p, .waiting⟩] } }) ∧
  (∀ (tag t2 : Byte) (p : List Byte) (t : Taken) (touched : List Nat) (ms : Nat) (s : State),
     s.matrix.slot = .settling t touched ms → t.plan.issuer = .manual → s.matrix.waiting = [] → s.host.tx = none →
     s.host.slots = [⟨0x14#8, tag, p, .carried⟩, ⟨0x24#8, t2, [], .waiting⟩] → s.queue.jobs = [] →
     s.enumerating = false → s.link.startup = false →
     exec .settleExpiry s = .next { s with
       matrix := { s.matrix with slot := .empty }
       queue := { s.queue with stallWait := false }
       host := { s.host with
         slots := [⟨0x14#8, tag, p, .sending ([0x00#8, 0x00#8] ++ le1 touched.length)⟩,
           ⟨0x24#8, t2, [], .ready ([0x00#8] ++ flagByte s.queue.hold ++ [0x00#8])⟩]
         tx := some ⟨true, hostFrame 0x94#8 tag ([0x00#8, 0x00#8] ++ le1 touched.length)⟩, carried := none } }) ∧
  (∀ (kind tag t2 : Byte) (p r fr : List Byte) (s : State), s.host.slots = [⟨kind, tag, p, .sending r⟩] →
     s.host.tx = some ⟨true, fr⟩ → s.host.carried = none → s.host.assembly = [] → s.queue.jobs = [] →
     s.enumerating = false → s.link.startup = false →
     exec (.readQueue t2 []) s = .next { s with host := { s.host with
       slots := [⟨kind, tag, p, .sending r⟩,
         ⟨0x24#8, t2, [], .ready ([0x00#8] ++ flagByte s.queue.hold ++ [0x00#8])⟩] } }) ∧
  ∀ (r : Request) (tag : Byte) (p : List Byte) (s : State), s.host.assembly = [] → p.length ≤ 1024 →
    2 ≤ s.host.slots.length → exec (requestInstr r tag p) s = .next (s.raiseLink .overrun)

/-- A KIND that Table 12-2 leaves undefined is answered UNKNOWN_KIND at once; the reply's KIND is KIND plus 0x80, or
0xFF from 0x40 on. -/
def Obligations.UndefinedKindIsAnswered : Prop :=
  ∀ (kind tag : Byte) (p : List Byte) (s : State), s.ready → p.length ≤ 1024 → requestOf kind = none →
    exec (.unknownKind kind tag p) s = .next { s with host := { s.host with
      slots := [⟨kind, tag, p, .sending [0x06#8]⟩]
      tx := some ⟨true, hostFrame (if kind.toNat < 64 then kind + 0x80#8 else 0xFF#8) tag [0x06#8]⟩ } }

/-- A request that is answered with another status than OK changes nothing but its slot and the transmit path.
READ_NET is apart: a refusal with CORRUPT may have marked the net. -/
def Obligations.RefusedRequestChangesNothing : Prop :=
  ∀ (r : Request) (tag : Byte) (p : List Byte) (s : State) (st : Byte) (more : List Byte), s.ready →
    p.length ≤ 1024 → r ≠ .readNet → (carry r p (s.handed r.code tag p)).2 = some (st :: more) → st ≠ 0x00#8 →
    exec (requestInstr r tag p) s = .next (s.replying r.code tag p (st :: more))

/-- Raising an event sets its pending flag and no other; an event newly raised and unmasked starts a NOTICE on an idle
path with no reply ready (its composition in the same event is the model's reading: log 5, DEDUCED), and leaves a
NOTICE wanted where the path is busy or, while it is free, a reply is ready, which then goes first; a masked or
pending one changes nothing else. -/
def Obligations.RaisingAnEvent : Prop :=
  ∀ (s : State) (e : Event),
    (∀ n, (s.raise e).events.pending.getLsbD n = (s.events.pending.getLsbD n || decide (n = e.num))) ∧
    ((s.events.isPending e = true ∨ s.events.isMasked e = true) →
      s.raise e = { s with events := { s.events with pending := s.events.pending ||| e.bit } }) ∧
    (s.events.isPending e = false → s.events.isMasked e = false → s.host.tx = none → s.host.slots = [] →
      ∃ v : Events, v = { s.events with pending := s.events.pending ||| e.bit } ∧
        s.raise e = { s with
          events := { v with noticeWanted := false }
          host := { s.host with tx := some ⟨false, hostFrame 0xC0#8 0#8 v.noticePayload⟩ } }) ∧
    (∀ fr, s.events.isPending e = false → s.events.isMasked e = false → s.host.tx = some fr →
      s.raise e = { s with events := { s.events with pending := s.events.pending ||| e.bit, noticeWanted := true } }) ∧
    ∀ k t q r, s.events.isPending e = false → s.events.isMasked e = false → s.host.tx = none →
      s.host.slots = [⟨k, t, q, .ready r⟩] →
      s.raise e = { s with
        events := { s.events with pending := s.events.pending ||| e.bit, noticeWanted := true }
        host := { s.host with
          slots := [⟨k, t, q, .sending r⟩], tx := some ⟨true, hostFrame (replyKind k) t r⟩ } }

/-- ATTN is high exactly while an event is pending, unmasked and at a level at or above the ATTN level; after a
hardware reset it is low. -/
def Obligations.AttnFollowsTheEvents : Prop :=
  (∀ v : Events, v.attn = true ↔
    ∃ n, n < 12 ∧ v.pending.getLsbD n = true ∧ v.mask.getLsbD n = false ∧ v.attnLevel ≤ v.levels.getD n 0) ∧
  State.reset.events.attn = false

/-- The last byte of a reply frees its slot, and a SET_LINK that was answered OK then changes the baud and discards a
frame in assembly. A path that the last byte of a NOTICE frees takes the older ready reply, else the other, else a
wanted NOTICE composed from what is pending and unmasked then, else nothing. -/
def Obligations.EndsOfTransmissionFreeThePath : Prop :=
  (∀ (kind tag : Byte) (p : List Byte) (st : Byte) (more fr : List Byte) (s : State),
     s.host.slots = [⟨kind, tag, p, .sending (st :: more)⟩] → s.host.tx = some ⟨true, fr⟩ →
     s.events.noticeWanted = false →
     (st ≠ 0x00#8 ∨ kind ∉ [0x02#8, 0x03#8] →
       exec .replySent s = .next { s with host := { s.host with slots := [], tx := none } }) ∧
     (st = 0x00#8 → kind = 0x02#8 → (p.headD 0#8).toNat ≠ s.host.baud →
       exec .replySent s = .next { s with host := { s.host with
         slots := [], tx := none, assembly := [], baud := (p.headD 0#8).toNat } })) ∧
  ∀ (fr : List Byte) (s : State), s.host.tx = some ⟨false, fr⟩ →
    (s.host.slots = [] → s.events.noticeWanted = false →
      exec .noticeSent s = .next { s with host := { s.host with tx := none } }) ∧
    (s.host.slots = [] → s.events.noticeWanted = true → s.events.visible ≠ [] →
      exec .noticeSent s = .next { s with
        events := { s.events with noticeWanted := false }
        host := { s.host with tx := some ⟨false, hostFrame 0xC0#8 0#8 s.events.noticePayload⟩ } }) ∧
    (s.host.slots = [] → s.events.noticeWanted = true → s.events.visible = [] →
      exec .noticeSent s = .next { s with
        events := { s.events with noticeWanted := false }, host := { s.host with tx := none } }) ∧
    (∀ k t q r x, s.host.slots = [⟨k, t, q, .ready r⟩, x] →
      exec .noticeSent s = .next { s with host := { s.host with
        slots := [⟨k, t, q, .sending r⟩, x], tx := some ⟨true, hostFrame (replyKind k) t r⟩ } }) ∧
    (∀ k t q r x, s.host.slots = [x, ⟨k, t, q, .ready r⟩] → (x.phase = .waiting ∨ x.phase = .carried) →
      exec .noticeSent s = .next { s with host := { s.host with
        slots := [x, ⟨k, t, q, .sending r⟩], tx := some ⟨true, hostFrame (replyKind k) t r⟩ } })

/-- IDENT answers what the part is and changes nothing; with a payload it is refused with BAD_LENGTH. -/
def Obligations.IdentReportsThePart : Prop :=
  ∀ (tag : Byte) (s : State), s.ready →
    exec (.ident tag []) s = .next (s.replying 0x01#8 tag [] ([0x00#8, 0xA0#8, 0x08#8, Config.siliconRevision]
      ++ le1 s.host.baud ++ [0x00#8, 0x04#8, 2#8, 8#8, 0x00#8, 0x01#8])) ∧
    ∀ (b : Byte) (p : List Byte), p.length < 1024 →
      exec (.ident tag (b :: p)) s = .next (s.replying 0x01#8 tag (b :: p) [0x05#8])

/-- SET_LINK is answered OK at the baud in force for the codes 1 to 8, refused for others and for other lengths. -/
def Obligations.SetLinkIsAnsweredAtTheOldBaud : Prop :=
  ∀ (tag c : Byte) (s : State), s.ready →
    (1 ≤ c.toNat ∧ c.toNat ≤ 8 → exec (.setLink tag [c]) s = .next (s.replying 0x02#8 tag [c] [0x00#8])) ∧
    (¬ (1 ≤ c.toNat ∧ c.toNat ≤ 8) → exec (.setLink tag [c]) s = .next (s.replying 0x02#8 tag [c] [0x03#8])) ∧
    ∀ p : List Byte, p.length ≤ 1024 → p.length ≠ 1 →
      exec (.setLink tag p) s = .next (s.replying 0x02#8 tag p [0x05#8])

/-- RESTART is answered OK and nothing else changes until its reply has gone; then every block takes its RESTART value:
what the rules keep is kept, all else is as after a hardware reset, and the printer is IDLE when it is enabled. The
present reading 0 and the idle LMU's mode, N, settle and issuer are the model's choice (log 13, DESIGN CHOICE), and so is
that an attention exchange in progress is dropped (log 39, DESIGN CHOICE). -/
def Obligations.RestartKeepsWhatTheRulesKeep : Prop :=
  (∀ (tag : Byte) (s : State), s.ready →
    exec (.restart tag []) s = .next (s.replying 0x03#8 tag [] [0x00#8]) ∧
    ∀ (b : Byte) (p : List Byte), p.length < 1024 →
      exec (.restart tag (b :: p)) s = .next (s.replying 0x03#8 tag (b :: p) [0x05#8])) ∧
  ∀ (tag : Byte) (p more fr : List Byte) (s : State),
    s.host.slots.find? RxSlot.isSending = some ⟨0x03#8, tag, p, .sending (0x00#8 :: more)⟩ →
    s.host.tx = some ⟨true, fr⟩ →
    ∃ t : State, exec .replySent s = .next t ∧
      t.store = s.store ∧ t.limits = s.limits ∧ t.hv.hvSet = s.hv.hvSet ∧ t.printer.cfg = s.printer.cfg ∧
      t.link = { Link.reset with
        replyTimeout := s.link.replyTimeout, lvSettle := s.link.lvSettle, hvSettle := s.link.hvSettle } ∧
      t.matrix = { Matrix.reset with
        roster := s.matrix.roster, frozen := s.matrix.frozen, blocked := s.matrix.blocked } ∧
      t.log = { Log.reset with
        reporting := s.log.reporting, threshold := s.log.threshold, timeout := s.log.timeout } ∧
      t.printer = { Printer.reset with
        cfg := s.printer.cfg, state := if s.printer.cfg.enable then .idle else .off } ∧
      t.events = { Events.reset with
        mask := s.events.mask, levels := s.events.levels, attnLevel := s.events.attnLevel } ∧
      t.host = { HostLink.reset with baud := s.host.baud } ∧ t.hv = { Hv.reset with hvSet := s.hv.hvSet } ∧
      t.lmu = Lmu.reset ∧ t.reference = .unverified ∧ t.engine = Engine.reset ∧ t.queue = Queue.reset ∧
      t.pins = s.pins ∧ t.pending = s.pending

/-- READ_STATUS answers the state of the part at its hand-over and changes nothing. What stands for the job group with
no active job is the model's reading (log 9). -/
def Obligations.ReadStatusReportsThePart : Prop :=
  ∀ (tag : Byte) (s : State), s.ready →
    exec (.readStatus tag []) s = .next (s.replying 0x04#8 tag [] ([0x00#8] ++
      (match s.activeJob with
        | none => [0#8]
        | some j => le1 j.tag ++ le1 j.state.code) ++
      le1 s.queue.jobs.length ++ flagByte s.queue.hold ++
      le1 s.hv.rail.code ++ le2 s.hv.presentV ++ le4 s.hv.presentI ++ flagByte s.hv.coverClosed ++ le4 s.hv.offset ++
      le1 s.reference.code ++
      le2 s.log.entries.length ++ le1 (s.log.entries.countP (fun e => !e.data.system)) ++
      le2 (s.log.entries.countP (·.hostMark)) ++ le2 s.log.dropped ++ le4 s.log.nextSeq ++
      le1 s.printer.state.code ++
      eventBytes s.events.pending ++ eventBytes s.events.mask ++ le1 s.events.attnLevel ++ flagByte s.events.attn ++
      s.events.card.bytes ++ s.events.printer.bytes ++ s.events.link.bytes ++ le1 s.host.baud)) ∧
    ∀ (b : Byte) (p : List Byte), p.length < 1024 →
      exec (.readStatus tag (b :: p)) s = .next (s.replying 0x04#8 tag (b :: p) [0x05#8])

/-- SET_EVENTS replaces the masks, the levels and the ATTN level together; the pending flags and the cause registers stay,
and a pending event that it unmasks makes a NOTICE wanted (composed before the reply, which waits ready: the model's
reading, log 5, DEDUCED). CLEAR_EVENTS clears the named pending flags with the cause registers of the shared events, and
answers the pending set that is left. Where it names DEFECT_READY notification is evaluated afresh: with as many records
waiting for the host as the threshold the flag is set again, with fewer the notify timer starts, or runs on (log 38), and
with none nothing more happens. -/
def Obligations.EventRequestsMaskAndClear : Prop :=
  (∀ (tag : Byte) (m : Nat) (levels : List Nat) (a : Nat) (s : State), s.ready → m < 4096 → levels.length = 12 →
     (∀ l ∈ levels, l ≤ 3) → a ≤ 3 →
     ((s.events.pending &&& s.events.mask &&& ~~~(BitVec.ofNat 12 m)) = 0#12 →
       exec (.setEvents tag (le2 m ++ levels.flatMap le1 ++ le1 a)) s =
         .next (State.replying { s with events := { s.events with
             mask := BitVec.ofNat 12 m, levels := levels, attnLevel := a } }
           0x05#8 tag (le2 m ++ levels.flatMap le1 ++ le1 a) [0x00#8])) ∧
     ((s.events.pending &&& s.events.mask &&& ~~~(BitVec.ofNat 12 m)) ≠ 0#12 →
       ∃ v : Events, v = { s.events with mask := BitVec.ofNat 12 m, levels := levels, attnLevel := a } ∧
         exec (.setEvents tag (le2 m ++ levels.flatMap le1 ++ le1 a)) s = .next { s with
           events := { v with noticeWanted := false }
           host := { s.host with
             slots := [⟨0x05#8, tag, le2 m ++ levels.flatMap le1 ++ le1 a, .ready [0x00#8]⟩]
             tx := some ⟨false, hostFrame 0xC0#8 0#8 v.noticePayload⟩ } })) ∧
  ∀ (tag : Byte) (m : Nat) (s : State), s.ready → m < 4096 →
    ∃ (v : Events) (hosts : Nat),
      v = { s.events with
        pending := s.events.pending &&& ~~~(BitVec.ofNat 12 m)
        card := if m.testBit 2 then ⟨none, none, none, none⟩ else s.events.card
        printer := if m.testBit 8 then ⟨false, false⟩ else s.events.printer
        link := if m.testBit 11 then ⟨false, false, false, false⟩ else s.events.link } ∧
      hosts = s.log.entries.countP (·.hostMark) ∧
      (m.testBit 9 = false → exec (.clearEvents tag (le2 m)) s = .next (State.replying { s with events := v }
        0x06#8 tag (le2 m) ([0x00#8] ++ le2 v.pending.toNat))) ∧
      (m.testBit 9 = true → hosts < s.log.threshold →
        exec (.clearEvents tag (le2 m)) s = .next (State.replying { s with
            events := v
            log := { s.log with notifyTimer :=
              if hosts = 0 ∨ s.log.notifyTimer ≠ none then s.log.notifyTimer else some s.log.timeout } }
          0x06#8 tag (le2 m) ([0x00#8] ++ le2 v.pending.toNat))) ∧
      (m.testBit 9 = true → s.log.threshold ≤ hosts → ∃ w : Events, w = { v with pending := v.pending ||| 0x200#12 } ∧
        (s.events.mask.getLsbD 9 = true → exec (.clearEvents tag (le2 m)) s = .next (State.replying { s with
            events := w, log := { s.log with notifyTimer := none } }
          0x06#8 tag (le2 m) ([0x00#8] ++ le2 w.pending.toNat))) ∧
        (s.events.mask.getLsbD 9 = false → exec (.clearEvents tag (le2 m)) s = .next { s with
          events := { w with noticeWanted := false }
          log := { s.log with notifyTimer := none }
          host := { s.host with
            slots := [⟨0x06#8, tag, le2 m, .ready ([0x00#8] ++ le2 w.pending.toNat)⟩]
            tx := some ⟨false, hostFrame 0xC0#8 0#8 w.noticePayload⟩ } }))

/-! ### The wire-list store -/

/-- An accepted MAP_POINTS gives each point named its channel or UNMAPPED and leaves every other point and everything
else alone. -/
def Obligations.MapPointsWritesTheMap : Prop :=
  ∀ (tag : Byte) (items : List (Nat × Option Chan)) (s : State), s.ready → s.jobActive = false →
    tableWf s.store.map = true → 1 ≤ items.length → items.length ≤ 128 → (items.map (·.1)).Nodup →
    (∀ it ∈ items, 4 ≤ it.1 ∧ it.1 ≤ 4095) →
    (∀ it ∈ items, ∀ c, it.2 = some c → 1 ≤ c.pos ∧ c.pos ≤ 32 ∧ c.ch ≤ 127) →
    (∀ it ∈ items, ∀ c, it.2 = some c →
      (∀ jt ∈ items, jt.1 ≠ it.1 → jt.2 ≠ some c) ∧
      (∀ e ∈ s.store.map, e.1 ∉ items.map (·.1) → e.2 ≠ c)) →
    ∃ m : List (Nat × Chan),
      exec (.mapPoints tag (le1 items.length ++ items.flatMap (fun it => le2 it.1 ++ chanBytes it.2))) s =
        .next (State.replying { s with store := { s.store with map := m } } 0x08#8 tag
          (le1 items.length ++ items.flatMap (fun it => le2 it.1 ++ chanBytes it.2)) [0x00#8]) ∧
      tableWf m = true ∧ (∀ it ∈ items, tget m it.1 = it.2) ∧
      ∀ q, q ∉ items.map (·.1) → tget m q = tget s.store.map q

/-- READ_MAP answers the channel and the net, READ_LEADS the lead, of each point named, in ascending order, and neither
changes anything; another range is refused with BAD_VALUE. -/
def Obligations.ReadMapAndReadLeadsReportTheTables : Prop :=
  (∀ (tag : Byte) (first count : Nat) (s : State), s.ready → first < 65536 → count < 256 →
     (first ≤ 4095 → 1 ≤ count → count ≤ 128 → first + count ≤ 4096 →
       exec (.readMap tag (le2 first ++ le1 count)) s = .next (s.replying 0x09#8 tag (le2 first ++ le1 count)
         ([0x00#8] ++ (List.range' first count).flatMap (fun q =>
           chanBytes (s.chanOf q) ++ le2 ((s.ownerOf q).getD 0))))) ∧
     (4095 < first ∨ count = 0 ∨ 128 < count ∨ 4096 < first + count →
       exec (.readMap tag (le2 first ++ le1 count)) s =
         .next (s.replying 0x09#8 tag (le2 first ++ le1 count) [0x03#8]))) ∧
  ∀ (tag : Byte) (first count : Nat) (s : State), s.ready → first < 65536 → count < 256 →
    (first ≤ 4095 → 1 ≤ count → count ≤ 128 → first + count ≤ 4096 →
      exec (.readLeads tag (le2 first ++ le1 count)) s = .next (s.replying 0x0B#8 tag (le2 first ++ le1 count)
        ([0x00#8] ++ (List.range' first count).flatMap (fun q => le2 (s.leadOf q))))) ∧
    (4095 < first ∨ count = 0 ∨ 128 < count ∨ 4096 < first + count →
      exec (.readLeads tag (le2 first ++ le1 count)) s =
        .next (s.replying 0x0B#8 tag (le2 first ++ le1 count) [0x03#8]))

/-- An accepted SET_LEADS gives each point named its value and leaves every other lead and everything else alone. -/
def Obligations.SetLeadsWritesTheLeads : Prop :=
  ∀ (tag : Byte) (items : List (Nat × Nat)) (s : State), s.ready → s.jobActive = false →
    tableWf s.store.leads = true → 1 ≤ items.length → items.length ≤ 128 → (items.map (·.1)).Nodup →
    (∀ it ∈ items, 4 ≤ it.1 ∧ it.1 ≤ 4095 ∧ it.2 ≤ 5000) →
    ∃ l : List (Nat × Nat), ∃ t : State, t = { s with store := { s.store with leads := l } } ∧
      exec (.setLeads tag (le1 items.length ++ items.flatMap (fun it => le2 it.1 ++ le2 it.2))) s =
        .next (t.replying 0x0A#8 tag (le1 items.length ++ items.flatMap (fun it => le2 it.1 ++ le2 it.2)) [0x00#8]) ∧
      (∀ it ∈ items, t.leadOf it.1 = it.2) ∧ ∀ q, q ∉ items.map (·.1) → t.leadOf q = s.leadOf q

/-- An accepted LOAD_NET stores the net, its members in ascending order, with a fresh check value and no mark, enters
its members in the owner index, takes from it those of an older net of the number, and leaves every other net and
everything else alone. -/
def Obligations.LoadNetStoresTheNet : Prop :=
  ∀ (tag : Byte) (n : Nat) (ms : List Nat) (hv : Bool) (ov : Option Nat) (label : List Byte) (s : State), s.ready →
    s.jobActive = false → s.store.wf = true → 1 ≤ n → n ≤ 1024 → 1 ≤ ms.length → ms.length ≤ 256 → ms.Nodup →
    (∀ p ∈ ms, 4 ≤ p ∧ p ≤ 4095) → (∀ v, ov = some v → 10 ≤ v ∧ v ≤ 1000000) → label.length ≤ 8 →
    (∀ b ∈ label, 0x20 ≤ b.toNat ∧ b.toNat ≤ 0x7E) → (∀ p ∈ ms, s.ownerOf p = none ∨ s.ownerOf p = some n) →
    ∃ (payload : List Byte) (b : NetBody) (nets : List NetRec) (owner : List (Nat × Nat)) (t : State),
      payload = le2 n ++ le2 ms.length ++ ms.flatMap le2 ++ flagByte hv ++ flagByte ov.isSome ++ le4 (ov.getD 0)
        ++ le1 label.length ++ label ∧
      b = ⟨n, sortPoints ms, hv, ov, label⟩ ∧ t = { s with store := { s.store with nets := nets, owner := owner } } ∧
      exec (.loadNet tag payload) s =
        .next (t.replying 0x0C#8 tag payload ([0x00#8] ++ le2 n ++ le2 nets.length)) ∧
      (∀ p, p ∈ b.members ↔ p ∈ ms) ∧ b.members.Pairwise (· < ·) ∧ t.findNet n = some ⟨b, crc16 b.bytes, false⟩ ∧
      (∀ k, k ≠ n → t.findNet k = s.findNet k) ∧
      ∀ p, t.ownerOf p = if p ∈ ms then some n else if s.ownerOf p = some n then none else s.ownerOf p

/-- CLEAR_NETS removes every net and empties the owner index, so that no point is in a net, and changes nothing else;
while a job is active it is refused with BUSY, and with a payload with BAD_LENGTH. -/
def Obligations.ClearNetsEmptiesTheTable : Prop :=
  ∀ (tag : Byte) (s : State), s.ready →
    (s.jobActive = false → ∃ t : State, t = { s with store := { s.store with nets := [], owner := [] } } ∧
      exec (.clearNets tag []) s = .next (t.replying 0x0D#8 tag [] [0x00#8]) ∧
      (∀ n, t.findNet n = none) ∧ (∀ p, t.ownerOf p = none) ∧ t.unassigned = t.mapped ∧ t.mapped = s.mapped) ∧
    (s.jobActive = true → exec (.clearNets tag []) s = .next (s.replying 0x0D#8 tag [] [0x01#8])) ∧
    ∀ (b : Byte) (p : List Byte), p.length < 1024 →
      exec (.clearNets tag (b :: p)) s = .next (s.replying 0x0D#8 tag (b :: p) [0x05#8])

/-- READ_NET answers the contents of the sound net it selects and changes nothing: EXACT the net of its number, NEXT the
lowest stored net at or above it; NOT_FOUND where there is none. A selected net marked CORRUPT is answered CORRUPT with its
number, and one whose check fails too, after its mark, its TABLE_FAULT record and the event. The codes of the modes are the
model's reading (log 7). -/
def Obligations.ReadNetAnswersTheContents : Prop :=
  ∀ (tag mode : Byte) (n : Nat) (s : State), s.ready →
    ∃ (p : List Byte) (selects : NetRec → Prop), p = le2 n ++ [mode] ∧
      (∀ r, selects r ↔
        (mode = 0x00#8 ∧ 1 ≤ n ∧ n ≤ 1024 ∧ s.findNet n = some r) ∨
        (mode = 0x01#8 ∧ n ≤ 1025 ∧ s.store.wf = true ∧ r ∈ s.store.nets ∧ n ≤ r.body.num ∧
          ∀ x ∈ s.store.nets, n ≤ x.body.num → r.body.num ≤ x.body.num)) ∧
      (∀ r, selects r → r.corrupt = false → r.check = crc16 r.body.bytes →
        exec (.readNet tag p) s = .next (s.replying 0x0E#8 tag p
          ([0x00#8] ++ le2 r.body.num ++ le2 s.store.nets.length ++ le2 r.body.members.length ++
            r.body.members.flatMap le2 ++ flagByte r.body.hv ++ flagByte r.body.override.isSome ++
            le4 (r.body.override.getD 0) ++ le1 r.body.label.length ++ r.body.label))) ∧
      (∀ r, selects r → r.corrupt = true →
        exec (.readNet tag p) s = .next (s.replying 0x0E#8 tag p
          ([0x09#8] ++ le2 r.body.num ++ le2 s.store.nets.length))) ∧
      (∀ r, selects r → r.corrupt = false → r.check ≠ crc16 r.body.bytes → s.printer.state ≠ .idle →
        s.log.reporting = true → s.log.entries.length < 256 →
        ∃ (u : State) (ph : SlotPhase) (answer : List Byte),
          answer = [0x09#8] ++ le2 r.body.num ++ le2 s.store.nets.length ∧
          exec (.readNet tag p) s = .next u ∧ (ph = .ready answer ∨ ph = .sending answer) ∧
          u.host.slots = [⟨0x0E#8, tag, p, ph⟩] ∧ u.store = s.store.markCorrupt r.body.num ∧
          u.findNet r.body.num = some { r with corrupt := true } ∧
          u.log.entries.map (·.data) = s.log.entries.map (·.data) ++
            [{ kind := .tableFault, system := true, net := some r.body.num, cause := some (.table .read) }] ∧
          u.events.pending.getLsbD 3 = true ∧ u.queue = s.queue ∧ u.engine = s.engine ∧ u.matrix = s.matrix ∧
          u.link = s.link ∧ u.hv = s.hv ∧ u.lmu = s.lmu) ∧
      ((mode = 0x00#8 ∧ 1 ≤ n ∧ n ≤ 1024 ∧ s.findNet n = none) ∨
          (mode = 0x01#8 ∧ n ≤ 1025 ∧ ∀ x ∈ s.store.nets, x.body.num < n) →
        exec (.readNet tag p) s = .next (s.replying 0x0E#8 tag p ([0x07#8] ++ le2 s.store.nets.length))) ∧
      (n < 65536 → (mode = 0x00#8 ∧ (n = 0 ∨ 1024 < n)) ∨ (mode = 0x01#8 ∧ 1025 < n) ∨ 1 < mode.toNat →
        exec (.readNet tag p) s = .next (s.replying 0x0E#8 tag p [0x03#8]))

/-- A storage upset leaves the struck net's contents and mark, and its check value no longer agrees with them (log 6). The
first read of such a net marks it CORRUPT, appends one TABLE_FAULT record naming it and raises the event; a net marked
CORRUPT is not read again and nothing changes. -/
def Obligations.UpsetNetIsMarkedAtItsFirstRead : Prop :=
  (∀ (n : Nat) (f : Word16) (s : State), ∃ nets : List NetRec, ∃ t : State,
     t = { s with store := { s.store with nets := nets } } ∧ exec (.storageUpset n f) s = .next t ∧
     (∀ r, s.findNet n = some r → ∃ c : Word16, t.findNet n = some { r with check := c } ∧ c ≠ crc16 r.body.bytes) ∧
     ∀ k, k ≠ n → t.findNet k = s.findNet k) ∧
  ∀ (s : State) (c : ReadCause) (r : NetRec), s.findNet r.body.num = some r →
    (r.corrupt = true → s.readNetFor c r.body.num = (s, .corrupt)) ∧
    (r.corrupt = false → r.check = crc16 r.body.bytes → s.readNetFor c r.body.num = (s, .contents r.body)) ∧
    (r.corrupt = false → r.check ≠ crc16 r.body.bytes → s.printer.state ≠ .idle →
      ((s.printer.state ≠ .off ∨ s.log.reporting = true) ∧ s.log.entries.length < 256) →
      ∃ t : State, s.readNetFor c r.body.num = (t, .upset true) ∧
        t.store = s.store.markCorrupt r.body.num ∧ t.findNet r.body.num = some { r with corrupt := true } ∧
        t.events.pending.getLsbD 3 = true ∧
        t.log.entries = s.log.entries ++ [⟨s.log.nextSeq, decide (s.printer.state ≠ .off), s.log.reporting,
          { kind := .tableFault, system := true, net := some r.body.num, cause := some (.table c)
            tag := if c = .read then none else s.head.map (·.tag) }⟩] ∧
        (t.readNetFor c r.body.num) = (t, .corrupt))


/-! ### The card link, the roster and the relays -/

/-- SET_CARD_LINK stores its three values and changes nothing else; while a job is active it is refused with BUSY, and
a value out of range with BAD_VALUE naming the first such (its place counted from 0: log 7). -/
def Obligations.SetCardLinkStoresTheTimes : Prop :=
  ∀ (tag : Byte) (t lv hv : Nat) (s : State), s.ready → t ≤ 255 → lv ≤ 255 → hv ≤ 255 →
    (s.jobActive = true → exec (.setCardLink tag (le1 t ++ le1 lv ++ le1 hv)) s =
      .next (s.replying 0x10#8 tag (le1 t ++ le1 lv ++ le1 hv) [0x01#8])) ∧
    (s.jobActive = false → (1 ≤ t ∧ (1 ≤ lv ∧ lv ≤ 50) ∧ 1 ≤ hv ∧ hv ≤ 50) →
      exec (.setCardLink tag (le1 t ++ le1 lv ++ le1 hv)) s =
        .next (State.replying { s with link := { s.link with replyTimeout := t, lvSettle := lv, hvSettle := hv } }
          0x10#8 tag (le1 t ++ le1 lv ++ le1 hv) [0x00#8])) ∧
    (s.jobActive = false → ¬ (1 ≤ t ∧ (1 ≤ lv ∧ lv ≤ 50) ∧ 1 ≤ hv ∧ hv ≤ 50) →
      exec (.setCardLink tag (le1 t ++ le1 lv ++ le1 hv)) s =
        .next (s.replying 0x10#8 tag (le1 t ++ le1 lv ++ le1 hv)
          [0x03#8, if t = 0 then 0#8 else if lv = 0 ∨ 50 < lv then 1#8 else 2#8]))

/-- SET_ROSTER gives every position its expected kind and the freeze flag its value, by mode, and answers with the
roster; READ_ROSTER answers it in every job state. Neither changes a state, a recorded kind or the relay image. The
codes of the modes are the model's reading (log 7). -/
def Obligations.RosterRequestsFreezeAndReport : Prop :=
  ∀ (tag : Byte) (s : State), s.ready → s.matrix.roster.length = 32 →
    exec (.readRoster tag []) s = .next (s.replying 0x13#8 tag [] ([0x00#8] ++ flagByte s.matrix.frozen ++
      s.matrix.roster.flatMap (fun e => le1 e.state.code ++ le1 e.kind.code ++ le4 e.serial ++ le1 e.revision ++
        (if s.matrix.frozen then le1 e.expected.code else [])))) ∧
    (s.jobActive = true → ∀ p ∈ [[0x01#8], [0x02#8], 0x00#8 :: List.replicate 32 0x01#8],
      exec (.setRoster tag p) s = .next (s.replying 0x11#8 tag p [0x01#8])) ∧
    (s.jobActive = false →
      (∀ ks : List CardKind, ks.length = 32 → (∀ k ∈ ks, k ≠ .other) →
        ∃ t : State, t = { s with matrix := { s.matrix with
            frozen := true, roster := (s.matrix.roster.zip ks).map (fun x => { x.1 with expected := x.2 }) } } ∧
          exec (.setRoster tag (0x00#8 :: ks.flatMap (fun k => le1 k.code))) s =
            .next (t.replying 0x11#8 tag (0x00#8 :: ks.flatMap (fun k => le1 k.code)) (0x00#8 :: t.rosterBytes))) ∧
      (∃ t : State, t = { s with matrix := { s.matrix with
            frozen := true
            roster := s.matrix.roster.map (fun e =>
              { e with expected := if e.state = .absent ∨ e.kind = .other then .none else e.kind }) } } ∧
          exec (.setRoster tag [0x01#8]) s = .next (t.replying 0x11#8 tag [0x01#8] (0x00#8 :: t.rosterBytes))) ∧
      (∃ t : State, t = { s with matrix := { s.matrix with
            frozen := false, roster := s.matrix.roster.map (fun e => { e with expected := .none }) } } ∧
          exec (.setRoster tag [0x02#8]) s = .next (t.replying 0x11#8 tag [0x02#8] (0x00#8 :: t.rosterBytes))))

/-- ENUMERATE and the start-up enumeration begin with the link break, the end of the break sends ASSIGN 1, and each
accepted IDENT below position 32 is entered in the list and answered with the next ASSIGN. An accepted ENUMERATE is
answered only when the enumeration ends. One that starts while an attention exchange is on the link waits for its end,
the ACK to the ATTN_CLEAR or the last reply of a status sweep, and begins its link break then. -/
def Obligations.EnumerationBreaksAndAssigns : Prop :=
  (∀ (tag : Byte) (s : State), s.ready → s.jobActive = false → s.matrix.slot = .empty → s.hv.rail = .safe →
    s.link.exchange = none →
    exec (.enumerate tag []) s = .next { s with
      host := { s.host with slots := [⟨0x12#8, tag, [], .carried⟩], carried := some .enumerate }
      link := { s.link with startup := false, enumHost := true, enumPhase := .linkBreak, discovered := [] }
      queue := { s.queue with stallWait := false } }) ∧
  (∀ s : State, s.link.startup = true → s.hv.rail = .safe → s.jobActive = false → s.matrix.slot = .empty →
    s.link.enumPhase = .idle → s.link.exchange = none →
    exec .startupEnumeration s = .next { s with
      link := { s.link with startup := false, enumHost := false, enumPhase := .linkBreak, discovered := [] } }) ∧
  (∀ (e : Exchange) (s : State), s.jobActive = false → s.matrix.slot = .empty → s.hv.rail = .safe →
    s.link.exchange = some e →
    (∀ tag : Byte, s.ready → exec (.enumerate tag []) s = .next { s with
      host := { s.host with slots := [⟨0x12#8, tag, [], .carried⟩], carried := some .enumerate }
      link := { s.link with startup := false, enumHost := true, enumPhase := .waitLink }
      queue := { s.queue with stallWait := false } }) ∧
    (s.link.startup = true → s.link.enumPhase = .idle → exec .startupEnumeration s = .next { s with
      link := { s.link with startup := false, enumHost := false, enumPhase := .waitLink } })) ∧
  (∀ (f : CardFrame) (p : Nat) (s : State), s.link.enumPhase = .waitLink →
    (s.accepted f = some (.attnClear p) → exec (.attnClearAck f) s = .next { s with link := { s.link with
      exchange := none, replyTimer := none, enumPhase := .linkBreak, discovered := [] } }) ∧
    ∀ ch : Byte, s.accepted f = some (.status p) → f.payload = [0x00#8, ch] →
      (∀ r, p < r → r ≤ 32 → s.sweepable r = false) →
      exec (.statusReplyReceived f) s = .next { s with link := { s.link with
        exchange := none, replyTimer := none, pollBlocked := true, enumPhase := .linkBreak, discovered := [] } }) ∧
  (∀ s : State, s.link.enumPhase = .linkBreak →
    exec .linkBreakEnd s = .next { s with link := { s.link with
      enumPhase := .assigning, exchange := some ⟨.assign 1, false, false⟩
      replyTimer := some s.link.replyTimeout } }) ∧
  ∀ (a : Nat) (k b1 b2 b3 b4 r : Byte) (f : CardFrame) (s : State), s.accepted f = some (.assign a) → a < 32 →
    s.link.enumPhase = .assigning → f.payload = [k, b1, b2, b3, b4, r] →
    exec (.identReceived f) s = .next { s with link := { s.link with
      discovered := s.link.discovered ++ [⟨if k = 0x01#8 then .lv128 else if k = 0x02#8 then .hv64 else .other,
        16777216 * b1.toNat + 65536 * b2.toNat + 256 * b3.toNat + b4.toNat, r.toNat⟩]
      exchange := some ⟨.assign (a + 1), false, false⟩
      replyTimer := some s.link.replyTimeout } }

/-- An ASSIGN that draws no reply ends the enumeration, and so does an accepted IDENT at address 32, whose card is
entered in the list first: the discovered list becomes the roster, or is compared with the expected kinds of a frozen
one; a channel of a PRESENT position is OPEN in the image and every other channel of the positions is UNKNOWN; every
sequence bit is 0. Each mismatch, an expected card that is absent among them, gives a ROSTER_MISMATCH record with the
expected kind and the one found, in ascending order of position, and raises ROSTER. An ENUMERATE is answered OK with
the roster in the form of READ_ROSTER; the start-up enumeration answers nothing. -/
def Obligations.EnumerationCloses : Prop :=
  ∀ (i : Instr) (disc : List Discovered) (s : State), tableWf s.matrix.image = true →
    (∀ r ∈ s.host.slots, r.phase ≠ .waiting) →
    (i = .cardReplyTimeout ∧ disc = s.link.discovered ∧
        ∃ a q rs ms, s.link.exchange = some ⟨.assign a, q, rs⟩ ∧ s.link.replyTimer = some ms) ∨
      (∃ f k b1 b2 b3 b4 r, i = .identReceived f ∧ s.accepted f = some (.assign 32) ∧
        f.payload = [k, b1, b2, b3, b4, r] ∧
        disc = s.link.discovered ++ [⟨if k = 0x01#8 then .lv128 else if k = 0x02#8 then .hv64 else .other,
          16777216 * b1.toNat + 65536 * b2.toNat + 256 * b3.toNat + b4.toNat, r.toNat⟩]) →
    ∃ (t : State) (found : Nat → CardKind) (bad : Nat → Bool), exec i s = .next t ∧
      (∀ p, found p = match disc[p - 1]? with
        | some d => d.kind
        | none => .none) ∧
      (∀ p, bad p = if s.matrix.frozen then decide ((s.posn p).expected ≠ found p) else decide (found p = .other)) ∧
      t.link = { s.link with
        exchange := none, replyTimer := none, enumPhase := .idle, enumHost := false, discovered := []
        seqBits := List.replicate 32 false } ∧
      t.matrix.frozen = s.matrix.frozen ∧ t.matrix.blocked = s.matrix.blocked ∧ t.matrix.slot = s.matrix.slot ∧
      t.hv = s.hv ∧ t.lmu = s.lmu ∧ t.engine = s.engine ∧ t.queue.jobs = s.queue.jobs ∧
      (∀ p, 1 ≤ p → p ≤ 32 →
        (disc[p - 1]? = none → t.posn p = ⟨.absent, .none, 0, 0, (s.posn p).expected⟩) ∧
        ∀ d, disc[p - 1]? = some d →
          t.posn p = ⟨if bad p then .mismatch else .present, d.kind, d.serial, d.revision, (s.posn p).expected⟩) ∧
      (∀ c : Chan, 1 ≤ c.pos → c.pos ≤ 32 → c.ch ≤ 127 →
        t.imageOf c = if (t.posn c.pos).state = .present ∧ c.ch < (t.posn c.pos).kind.channels
          then some .opn else none) ∧
      (∀ k, k ≤ 3 → t.imageOf ⟨0, k⟩ = s.imageOf ⟨0, k⟩) ∧
      (∀ p, 1 ≤ p → p ≤ 32 → bad p = true → t.events.pending.getLsbD 6 = true) ∧
      (s.printer.state ≠ .idle → s.log.reporting = true →
        s.log.entries.length + ((List.range' 1 32).filter bad).length ≤ 256 →
        t.log.entries.map (·.data) = s.log.entries.map (·.data) ++ ((List.range' 1 32).filter bad).map (fun p =>
          { kind := .rosterMismatch, system := true, position := some p
            cause := some (.roster (s.posn p).expected (found p)) })) ∧
      (s.link.enumHost = false → s.host.slots = [] → t.host.slots = []) ∧
      ∀ tag pl, s.link.enumHost = true → s.host.slots = [⟨0x12#8, tag, pl, .carried⟩] →
        ∃ (answer : List Byte) (ph : SlotPhase), answer = [0x00#8] ++ flagByte t.matrix.frozen ++
            t.matrix.roster.flatMap (fun e => le1 e.state.code ++ le1 e.kind.code ++ le4 e.serial ++ le1 e.revision ++
              (if t.matrix.frozen then le1 e.expected.code else [])) ∧
          (ph = .ready answer ∨ ph = .sending answer) ∧ t.host.slots = [⟨0x12#8, tag, pl, ph⟩]

/-- A frame from the link is the reply of the exchange in progress only if its CRC, direction, kind, address, sequence
bit and payload length (the last by log 16) are those due; any other frame changes nothing. -/
def Obligations.OnlyTheReplyDueIsAccepted : Prop :=
  (∀ (e : Exchange) (f : CardFrame), e.accepts f = true ↔
    f.crc = crc16 (frameBody f) ∧ f.toController = true ∧
    (match e.sent with
     | .assign a => f.kind = 0x81#8 ∧ f.addr.toNat = a ∧ f.seq = e.seq ∧ f.payload.length = 6
     | .set p _ => f.kind = 0x82#8 ∧ f.addr.toNat = p ∧ f.seq = e.seq ∧ f.payload.length = 0
     | .attnClear p => f.kind = 0x82#8 ∧ f.addr.toNat = p ∧ f.seq = e.seq ∧ f.payload.length = 0
     | .attnQuery => f.kind = 0x84#8 ∧ 1 ≤ f.addr.toNat ∧ f.addr.toNat ≤ 32 ∧ f.payload.length = 2
     | .status p => f.kind = 0x86#8 ∧ f.addr.toNat = p ∧ f.seq = e.seq ∧ f.payload.length = 2
     | .allOpen => False)) ∧
  ∀ (f : CardFrame) (s : State),
    exec (.cardFrameDiscarded f) s = .next s ∧
    ((∀ e, s.link.exchange = some e → e.accepts f = false) →
      exec (.identReceived f) s = .next s ∧ exec (.setAck f) s = .next s ∧ exec (.attnReplyReceived f) s = .next s ∧
      exec (.attnClearAck f) s = .next s ∧ exec (.statusReplyReceived f) s = .next s)

/-- The ACK to a SET gives every listed channel its rail and leaves the rest of the image; then the next PRESENT
position with changes is sent its SET with an inverted bit, or, with none left, the slot settles for the longest settle
time of the positions touched. -/
def Obligations.SetAckAdvancesThePlan : Prop :=
  ∀ (p : Nat) (items : List (Nat × Rail)) (t : Taken) (pos : Nat) (touched : List Nat) (f : CardFrame) (s : State),
    s.accepted f = some (.set p items) → s.matrix.slot = .sending t pos touched → p ≤ 32 →
    (∀ r ∈ s.host.slots, r.phase ≠ .waiting) →
    ∃ im : List (Nat × Rail), ∃ u : State,
      u = { s with
        link := { s.link with exchange := none, replyTimer := none }, matrix := { s.matrix with image := im } } ∧
      ((items.map (·.1)).Nodup → (∀ it ∈ items, it.1 ≤ 127) → ∀ c : Chan, c.ch ≤ 127 →
        u.imageOf c = match items.find? (fun it => c.pos = p ∧ it.1 = c.ch) with
          | some it => some it.2
          | none => s.imageOf c) ∧
      ((∀ q, p < q → q ≤ 32 → u.changeList t q = []) →
        exec (.setAck f) s = .next (u.setSlot (.settling t (touched ++ [p])
          (((touched ++ [p]).map u.settleOf).foldl max 0)))) ∧
      ∀ q, p < q → q ≤ 32 → (∀ r, p < r → r < q → u.changeList t r = []) → u.changeList t q ≠ [] →
        (u.posn q).state = .present →
        exec (.setAck f) s = .next { u with
          matrix := { u.matrix with slot := .sending t q (touched ++ [p]) }
          link := { u.link with
            seqBits := u.link.seqBits.set (q - 1) (!u.link.seqBit q)
            exchange := some ⟨.set q (u.changeList t q), (u.link.seqBits.set (q - 1) (!u.link.seqBit q)).getD (q - 1) false, false⟩
            replyTimer := some u.link.replyTimeout } }

/-- A HELD plan stays while the rail is not SAFE; an all-open plan then opens the reference channels and sends
ALL_OPEN with the LMU source off; with its last byte the unblocked channels of the PRESENT positions are OPEN and the
slot settles. At the end of the settle time the slot is EMPTY and the issuer is told: of a plan without issuer nobody;
of a MANUAL_SWITCH or an UNBLOCK its reply, COMPLETE with the count of positions touched, and the head of the queue is
examined (R146; log 46, DEDUCED); of an engine's plan its engine, which has the LMU measure or requests the
high-voltage step, or, when an abort has arrived, lets the job end; and the plan of an ENDING job completes its end
(R150): JOB_END with its reason and counts, JOB_DONE or JOB_ABORTED, and the job leaves. -/
def Obligations.AllOpenPlanRunsToItsEnd : Prop :=
  (∀ s : State, s.hv.rail ≠ .safe → (∀ r ∈ s.host.slots, r.phase ≠ .waiting) →
    exec .heldPlanSending s = .next s) ∧
  (∀ (who : Issuer) (s : State), s.hv.rail = .safe →
    s.matrix.slot = .held ⟨⟨.allOpen, who⟩, []⟩ → s.link.exchange = none → (∀ r ∈ s.host.slots, r.phase ≠ .waiting) →
    (∀ k, s.isBlocked ⟨0, k⟩ = false) →
    ∃ t : State, exec .heldPlanSending s = .next t ∧ (∃ touched, t.matrix.slot = .sending ⟨⟨.allOpen, who⟩, []⟩ 0 touched) ∧
      t.link = { s.link with exchange := some ⟨.allOpen, false, false⟩, replyTimer := none } ∧
      t.lmu.phase = .idle ∧ (∀ k, k ≤ 3 → t.imageOf ⟨0, k⟩ = some .opn) ∧
      (∀ c : Chan, 1 ≤ c.pos → t.imageOf c = s.imageOf c) ∧
      t.matrix.roster = s.matrix.roster ∧ t.matrix.blocked = s.matrix.blocked ∧ t.hv = s.hv ∧ t.log = s.log ∧
      t.events = s.events ∧ t.host = s.host) ∧
  (∀ (t : Taken) (pos : Nat) (touched : List Nat) (q rs : Bool) (s : State), s.matrix.slot = .sending t pos touched →
    s.link.exchange = some ⟨.allOpen, q, rs⟩ → tableWf s.matrix.image = true →
    (∀ r ∈ s.host.slots, r.phase ≠ .waiting) →
    ∃ (im : List (Nat × Rail)) (u : State),
      u = { s with
        link := { s.link with exchange := none, replyTimer := none }
        matrix := { s.matrix with
          image := im
          slot := .settling t (0 :: positions.filter (fun p => decide ((s.posn p).state = .present)))
            (((0 :: positions.filter (fun p => decide ((s.posn p).state = .present))).map s.settleOf).foldl max 0) } } ∧
      exec .allOpenSent s = .next u ∧
      ∀ c : Chan, c.ch ≤ 127 → u.imageOf c = if 1 ≤ c.pos ∧ c.pos ≤ 32 ∧ (s.posn c.pos).state = .present ∧
        c.ch < (s.posn c.pos).kind.channels ∧ s.isBlocked c = false then some .opn else s.imageOf c) ∧
  ∀ (t : Taken) (touched : List Nat) (ms : Nat) (s : State), s.matrix.slot = .settling t touched ms →
    s.matrix.waiting = [] → (∀ r ∈ s.host.slots, r.phase ≠ .waiting) →
    ∃ u : State, u = { s with matrix := { s.matrix with slot := .empty } } ∧
      (t.plan.issuer = .nobody → exec .settleExpiry s = .next u) ∧
      (∀ tag p, t.plan.issuer = .manual → s.host.slots = [⟨0x14#8, tag, p, .carried⟩] → s.host.tx = none →
        exec .settleExpiry s = .next (State.examineHead (State.replying
          { u with host := { s.host with carried := none } } 0x14#8 tag p ([0x00#8, 0x00#8] ++ le1 touched.length)))) ∧
      (∀ tag p n, t.plan.issuer = .unblock → s.host.slots = [⟨0x16#8, tag, p, .carried⟩] → s.host.tx = none →
        s.host.carried = some (.unblock n) →
        exec .settleExpiry s = .next (State.examineHead (State.replying
          { u with host := { s.host with carried := none } } 0x16#8 tag p
          ([0x00#8, 0x00#8] ++ le1 touched.length ++ le2 n)))) ∧
      (t.plan.issuer = .engine → s.hv.rail = .safe →
        (∀ b m, s.engine.abort = none → s.engine.inHand = some ⟨b, .lmu m⟩ → exec .settleExpiry s = .next { u with
          engine := { s.engine with phase := .measure }, lmu := s.lmu.start m .engine }) ∧
        (∀ b v, s.engine.abort = none → s.engine.inHand = some ⟨b, .hv v⟩ → exec .settleExpiry s = .next { u with
          engine := { s.engine with phase := .hvStep }, hv := { s.hv with request := some v } }) ∧
        ∀ c j rest, s.engine.abort = some c → s.queue.jobs = j :: rest → s.link.exchange = none →
          ∃ v : State, exec .settleExpiry s = .next v ∧ v.engine = Engine.reset ∧
            v.queue = { s.queue with jobs := { j with
              state := .ending, ended := some c
              steps := s.engine.steps, nets := s.engine.nets, extra := s.engine.extra } :: rest } ∧
            (∃ l, v.matrix.slot = .sending ⟨⟨.allOpen, .jobEnd⟩, []⟩ 0 l) ∧
            v.link.exchange = some ⟨.allOpen, false, false⟩ ∧ v.hv = s.hv ∧ v.log = s.log ∧ v.store = s.store) ∧
      ∀ j rest c, t.plan.issuer = .jobEnd → s.queue.jobs = j :: rest → j.ended = some c → s.printer.state ≠ .idle →
        s.log.reporting = true → s.log.entries.length < 256 →
        ∃ v : State, exec .settleExpiry s = .next v ∧ v.queue.jobs = rest ∧ v.queue.hold = s.queue.hold ∧
          v.log.entries = s.log.entries ++ [⟨s.log.nextSeq, decide (s.printer.state ≠ .off), true,
            { kind := .jobEnd, system := true, tag := some j.tag, job := some j.spec
              counts := some ⟨c, j.nets, j.steps, j.tests, j.systems, j.extra⟩ }⟩] ∧
          v.events.pending.getLsbD (if c.reason = .complete then 10 else 7) = true ∧
          v.matrix = u.matrix ∧ v.hv = s.hv ∧ v.lmu = s.lmu ∧ v.link = s.link ∧ v.store = s.store ∧
          v.reference = s.reference

/-- The first expiry of the reply timer resends the identical frame, its bit included, and restarts the timer. The
second expiry of a SET loses the position: LOST with its kind kept, its channels UNKNOWN, a CARD_LOST record with the
frame that failed, a CARD event with the position; the plan fails, and the MANUAL_SWITCH that offered it is answered
FAILED, LOST, at that position, while a job whose step offered it is aborted with ABORTED_CARD, that cause and the
position (R26): it is ENDING with its counts, and its all-open plan goes out. With no job active, the second expiry of
an ATTN_CLEAR, or of a STATUS at the end of its sweep, loses the position likewise and ends the exchange; that of an
ATTN_QUERY begins a status sweep (R41). -/
def Obligations.ReplyTimerResendsOnceThenLoses : Prop :=
  (∀ (e : Exchange) (ms : Nat) (s : State), s.link.exchange = some e → s.link.replyTimer = some ms →
    e.resent = false → (∀ a, e.sent ≠ .assign a) → e.sent ≠ .allOpen → (∀ r ∈ s.host.slots, r.phase ≠ .waiting) →
    exec .cardReplyTimeout s = .next { s with link := { s.link with
      exchange := some ⟨e.sent, e.seq, true⟩, replyTimer := some s.link.replyTimeout } }) ∧
  (∀ (p : Nat) (items : List (Nat × Rail)) (q : Bool) (ms : Nat) (t : Taken) (pos : Nat) (touched : List Nat)
    (tag : Byte) (pl : List Byte) (s : State), 1 ≤ p → p ≤ 32 → s.matrix.roster.length = 32 →
    tableWf s.matrix.image = true → s.link.exchange = some ⟨.set p items, q, true⟩ → s.link.replyTimer = some ms →
    s.jobActive = false → s.link.enumPhase = .idle → s.matrix.slot = .sending t pos touched → t.plan.issuer = .manual →
    s.matrix.waiting = [] → s.host.slots = [⟨0x14#8, tag, pl, .carried⟩] →
    ∃ u : State, exec .cardReplyTimeout s = .next u ∧
      u.posn p = { s.posn p with state := .lost } ∧ (∀ r, 1 ≤ r → r ≠ p → u.posn r = s.posn r) ∧
      (∀ c : Chan, c.ch ≤ 127 → u.imageOf c = if c.pos = p then none else s.imageOf c) ∧
      u.matrix.slot = .empty ∧ u.matrix.blocked = s.matrix.blocked ∧
      u.link = { s.link with exchange := none, replyTimer := none } ∧
      u.events.pending.getLsbD 2 = true ∧ u.events.card.lost = s.events.card.lost.or (some p) ∧
      u.hv = s.hv ∧ u.lmu = s.lmu ∧ u.engine = s.engine ∧
      (s.printer.state ≠ .idle → s.log.reporting = true → s.log.entries.length < 256 →
        u.log.entries = s.log.entries ++ [⟨s.log.nextSeq, decide (s.printer.state ≠ .off), true,
          { kind := .cardLost, system := true, position := some p, cause := some (.frame 2) }⟩]) ∧
      ∃ ph, u.host.slots = [⟨0x14#8, tag, pl, ph⟩] ∧
        (ph = .ready ([0x00#8, 0x01#8, 0x03#8] ++ le1 p) ∨ ph = .sending ([0x00#8, 0x01#8, 0x03#8] ++ le1 p))) ∧
  (∀ (sent : Sent) (p code : Nat) (q : Bool) (ms : Nat) (s : State), 1 ≤ p → p ≤ 32 → s.matrix.roster.length = 32 →
    tableWf s.matrix.image = true → s.link.exchange = some ⟨sent, q, true⟩ → s.link.replyTimer = some ms →
    s.jobActive = false → s.link.enumPhase = .idle → s.matrix.slot = .empty →
    (∀ r ∈ s.host.slots, r.phase ≠ .waiting) →
    (sent = .attnClear p ∧ code = 5) ∨
      (sent = .status p ∧ code = 6 ∧ ∀ r, p < r → r ≤ 32 → s.sweepable r = false) →
    ∃ u : State, exec .cardReplyTimeout s = .next u ∧ u.posn p = { s.posn p with state := .lost } ∧
      (∀ r, 1 ≤ r → r ≠ p → u.posn r = s.posn r) ∧
      (∀ c : Chan, c.ch ≤ 127 → u.imageOf c = if c.pos = p then none else s.imageOf c) ∧
      u.link = { s.link with
        exchange := none, replyTimer := none
        pollBlocked := if sent = .status p then true else s.link.pollBlocked } ∧
      u.matrix.slot = .empty ∧ u.hv = s.hv ∧ u.lmu = s.lmu ∧ u.engine = s.engine ∧ u.queue = s.queue ∧
      u.events.pending.getLsbD 2 = true ∧ u.events.card.lost = s.events.card.lost.or (some p) ∧
      (s.printer.state ≠ .idle → s.log.reporting = true → s.log.entries.length < 256 →
        u.log.entries = s.log.entries ++ [⟨s.log.nextSeq, decide (s.printer.state ≠ .off), true,
          { kind := .cardLost, system := true, position := some p, cause := some (.frame code) }⟩])) ∧
  (∀ (q : Bool) (ms p : Nat) (s : State), s.link.exchange = some ⟨.attnQuery, q, true⟩ → s.link.replyTimer = some ms →
    (∀ r ∈ s.host.slots, r.phase ≠ .waiting) → 1 ≤ p → p ≤ 32 → s.sweepable p = true →
    (∀ r, 1 ≤ r → r < p → s.sweepable r = false) →
    exec .cardReplyTimeout s = .next { s with link := { s.link with
      seqBits := s.link.seqBits.set (p - 1) (!s.link.seqBit p)
      exchange := some ⟨.status p, (s.link.seqBits.set (p - 1) (!s.link.seqBit p)).getD (p - 1) false, false⟩
      replyTimer := some s.link.replyTimeout } }) ∧
  ∀ (p : Nat) (items : List (Nat × Rail)) (q : Bool) (ms : Nat) (t : Taken) (pos : Nat) (touched : List Nat)
    (j : Job) (rest : List Job) (s : State), 1 ≤ p → p ≤ 32 → s.matrix.roster.length = 32 →
    s.link.exchange = some ⟨.set p items, q, true⟩ → s.link.replyTimer = some ms → s.hv.rail = .safe →
    s.matrix.slot = .sending t pos touched → t.plan.issuer = .engine → s.matrix.waiting = [] →
    s.queue.jobs = j :: rest → j.state = .running → s.engine.phase = .plan → s.engine.abort = none →
    (∀ r ∈ s.host.slots, r.phase ≠ .waiting) →
    ∃ u : State, exec .cardReplyTimeout s = .next u ∧ u.posn p = { s.posn p with state := .lost } ∧
      u.events.pending.getLsbD 2 = true ∧ u.events.card.lost = s.events.card.lost.or (some p) ∧
      u.queue.jobs = { j with
        state := .ending, ended := some ⟨.abortedCard, .card .lost p⟩
        steps := s.engine.steps, nets := s.engine.nets, extra := s.engine.extra } :: rest ∧
      u.engine = Engine.reset ∧ (∃ l, u.matrix.slot = .sending ⟨⟨.allOpen, .jobEnd⟩, []⟩ 0 l) ∧
      u.link = { s.link with exchange := some ⟨.allOpen, false, false⟩, replyTimer := none } ∧
      u.lmu.phase = .idle ∧ u.hv = s.hv ∧ (s.printer.state ≠ .idle → u.store = s.store) ∧
      (s.printer.state ≠ .idle → s.log.reporting = true → s.log.entries.length < 256 →
        u.log.entries = s.log.entries ++ [⟨s.log.nextSeq, decide (s.printer.state ≠ .off), true,
          { kind := .cardLost, system := true, position := some p, cause := some (.frame 2) }⟩])

/-- An attention exchange: ATTN_QUERY goes out when polling may begin; an accepted reply from a PRESENT or FAULTED
position has its cause handled, with its record (CARD_FAULT, STUCK_RELAY with the channel as reported, CARD_WARN), and
draws ATTN_CLEAR with an inverted bit; its ACK ends the exchange. A reply from any other position is discarded and
blocks polling until CATTN is inactive. A DRIVER_FAULT leaves every channel of its position OPEN, of an HV-64 too (log
27, DEDUCED), and the pin CATTN has the level a command says (log 14, DESIGN CHOICE). With a job active (the last
clause) DRIVER_FAULT and STUCK abort it with ABORTED_CARD, the cause and the position (R38): an engine in PLAN keeps
the abort until its plan is done, a measurement is discarded, a LOG_WAIT or SUSPENDED job lets go, a high-voltage step
is stopped and discharged; the job is ENDING with its all-open plan SENDING once the link is free, or HELD through the
discharge. OVERTEMP aborts nothing. -/
def Obligations.AttentionIsServedAndCleared : Prop :=
  (∀ s : State, s.link.exchange = none → s.link.pollBlocked = false → s.link.startup = false →
    s.link.enumPhase = .idle → (∀ t pos touched, s.matrix.slot ≠ .sending t pos touched) →
    exec .attnQueryPoll s = .next { s with
    pins := { s.pins with cattn := true }
    link := { s.link with exchange := some ⟨.attnQuery, false, false⟩, replyTimer := some s.link.replyTimeout } }) ∧
  (∀ (f : CardFrame) (p : Nat) (c ch : Byte) (s : State), s.accepted f = some .attnQuery → f.addr.toNat = p →
    f.payload = [c, ch] → s.matrix.roster.length = 32 → tableWf s.matrix.image = true → s.jobActive = false →
    (∀ r ∈ s.host.slots, r.phase ≠ .waiting) →
    ((s.posn p).state = .present ∨ (s.posn p).state = .faulted →
      ∃ t : State, exec (.attnReplyReceived f) s = .next t ∧
        t.link = { s.link with
          seqBits := s.link.seqBits.set (p - 1) (!s.link.seqBit p)
          exchange := some ⟨.attnClear p, (s.link.seqBits.set (p - 1) (!s.link.seqBit p)).getD (p - 1) false, false⟩
          replyTimer := some s.link.replyTimeout } ∧
        t.events.pending.getLsbD 2 = true ∧ t.matrix.slot = s.matrix.slot ∧ t.hv = s.hv ∧ t.lmu = s.lmu ∧
        (∀ r, 1 ≤ r → r ≠ p → t.posn r = s.posn r) ∧
        (s.printer.state ≠ .idle → s.log.reporting = true → s.log.entries.length < 256 →
          t.log.entries = s.log.entries ++ [⟨s.log.nextSeq, decide (s.printer.state ≠ .off), true,
            { kind := if c.toNat = 2 then .stuckRelay else if c.toNat = 3 then .cardWarn else .cardFault
              system := true, position := some p, channel := if c.toNat = 2 then some ch.toNat else none }⟩]) ∧
        (c.toNat = 3 → t.matrix = s.matrix ∧ t.events.card.overtemp = s.events.card.overtemp.or (some p)) ∧
        (c.toNat = 2 → t.matrix.roster = s.matrix.roster ∧ t.events.card.stuck = s.events.card.stuck.or (some p) ∧
          (ch.toNat < (s.posn p).kind.channels →
            (∀ d : Chan, d ∈ t.matrix.blocked ↔ d = ⟨p, ch.toNat⟩ ∨ d ∈ s.matrix.blocked) ∧
            ∀ d : Chan, d.ch ≤ 127 → t.imageOf d = if d = ⟨p, ch.toNat⟩ then none else s.imageOf d) ∧
          (¬ ch.toNat < (s.posn p).kind.channels → t.matrix = s.matrix)) ∧
        (c.toNat ≠ 2 → c.toNat ≠ 3 → t.posn p = { s.posn p with state := .faulted } ∧
          t.matrix.blocked = s.matrix.blocked ∧ t.events.card.driverFault = s.events.card.driverFault.or (some p) ∧
          ∀ d : Chan, d.ch ≤ 127 → t.imageOf d = if d.pos = p then some .opn else s.imageOf d)) ∧
    ((s.posn p).state ≠ .present → (s.posn p).state ≠ .faulted → s.matrix.slot = .empty → s.link.enumPhase = .idle →
      exec (.attnReplyReceived f) s = .next { s with
        link := { s.link with exchange := none, replyTimer := none, pollBlocked := true } })) ∧
  (∀ (f : CardFrame) (p : Nat) (s : State), s.accepted f = some (.attnClear p) → s.matrix.slot = .empty →
    s.link.enumPhase = .idle → (∀ r ∈ s.host.slots, r.phase ≠ .waiting) →
    exec (.attnClearAck f) s = .next { s with link := { s.link with exchange := none, replyTimer := none } }) ∧
  (∀ s : State, exec .cattnInactive s = .next { s with
    pins := { s.pins with cattn := false }, link := { s.link with pollBlocked := false } }) ∧
  ∀ (f : CardFrame) (p : Nat) (c ch : Byte) (j : Job) (rest : List Job) (s : State),
    s.accepted f = some .attnQuery → f.addr.toNat = p → f.payload = [c, ch] → 1 ≤ p → p ≤ 32 →
    (s.posn p).state = .present ∨ (s.posn p).state = .faulted → s.queue.jobs = j :: rest → s.engine.abort = none →
    (∀ r ∈ s.host.slots, r.phase ≠ .waiting) →
    ∃ (t : State) (why : EndCause) (gone : List Job), exec (.attnReplyReceived f) s = .next t ∧
      why = ⟨.abortedCard, .card (if c.toNat = 2 then .stuck else .driverFault) p⟩ ∧
      gone = { j with
        state := .ending, ended := some why
        steps := s.engine.steps, nets := s.engine.nets, extra := s.engine.extra } :: rest ∧
      t.events.pending.getLsbD 2 = true ∧ t.link.exchange = some ⟨.attnClear p, t.link.seqBit p, false⟩ ∧
      t.link.replyTimer = some s.link.replyTimeout ∧ (s.printer.state ≠ .idle → t.store = s.store) ∧
      (s.hv.rail ≠ .fault → s.printer.state ≠ .idle → s.log.reporting = true → s.log.entries.length < 256 →
        t.log.entries = s.log.entries ++ [⟨s.log.nextSeq, decide (s.printer.state ≠ .off), true,
          { kind := if c.toNat = 2 then .stuckRelay else if c.toNat = 3 then .cardWarn else .cardFault
            system := true, position := some p, channel := if c.toNat = 2 then some ch.toNat else none }⟩]) ∧
      (c.toNat = 3 ∨ j.state = .ending → t.engine = s.engine ∧ t.queue = s.queue ∧ t.matrix.slot = s.matrix.slot ∧
        t.lmu = s.lmu ∧ t.hv = s.hv) ∧
      (c.toNat ≠ 3 → j.state = .running → s.engine.phase = .plan → (∀ q ∈ s.matrix.waiting, q.issuer ≠ .engine) →
        t.engine = { s.engine with abort := some why } ∧ t.queue = s.queue ∧ t.matrix.slot = s.matrix.slot ∧
        t.lmu = s.lmu ∧ t.hv = s.hv) ∧
      (c.toNat ≠ 3 → s.matrix.slot = .empty → s.hv.rail = .safe →
        (j.state = .running ∧ s.engine.phase = .measure) ∨ j.state = .logWait ∨ j.state = .suspended →
        t.engine = Engine.reset ∧ t.queue = { s.queue with jobs := gone } ∧
        (∃ l, t.matrix.slot = .sending ⟨⟨.allOpen, .jobEnd⟩, []⟩ 0 l) ∧ t.lmu.phase = .idle ∧ t.hv = s.hv) ∧
      (c.toNat ≠ 3 → s.matrix.slot = .empty → s.hv.rail = .ramp ∨ s.hv.rail = .dwell → j.state = .running →
        s.engine.phase = .hvStep →
        t.engine = Engine.reset ∧ t.queue = { s.queue with jobs := gone } ∧
        t.matrix.slot = .held ⟨⟨.allOpen, .jobEnd⟩, []⟩ ∧ t.hv = { s.hv with
          rail := .discharge, target := 0, values := none, held := none, request := none, history := [], prevI := none
          arcs := 0, tickTimer := none, dwellTimer := none, holdTimer := none, limitTimer := some 2000, cause := .stop })

/-- A status sweep: a STATUS_REPLY without a cause goes on to the next PRESENT or FAULTED position, or, at the end of
the sweep, blocks polling; one with the cause OVERTEMP raises CARD and draws ATTN_CLEAR. With no job active any cause
is handled as that of an ATTN_REPLY is, with its record (CARD_FAULT, STUCK_RELAY, CARD_WARN) and its entry in the CARD
register (a DRIVER_FAULT of an HV-64: log 27, DEDUCED). -/
def Obligations.StatusSweepGoesOnToTheNext : Prop :=
  ∀ (f : CardFrame) (p : Nat) (c ch : Byte) (s : State), s.accepted f = some (.status p) → f.payload = [c, ch] →
    (∀ r ∈ s.host.slots, r.phase ≠ .waiting) →
    (c = 0#8 → ∀ q, p < q → q ≤ 32 → s.sweepable q = true → (∀ r, p < r → r < q → s.sweepable r = false) →
      exec (.statusReplyReceived f) s = .next { s with link := { s.link with
        seqBits := s.link.seqBits.set (q - 1) (!s.link.seqBit q)
        exchange := some ⟨.status q, (s.link.seqBits.set (q - 1) (!s.link.seqBit q)).getD (q - 1) false, false⟩
        replyTimer := some s.link.replyTimeout } }) ∧
    (c = 0#8 → (∀ r, p < r → r ≤ 32 → s.sweepable r = false) → s.matrix.slot = .empty → s.link.enumPhase = .idle →
      exec (.statusReplyReceived f) s = .next { s with
        link := { s.link with exchange := none, replyTimer := none, pollBlocked := true } }) ∧
    (c = 3#8 → ∃ t : State, exec (.statusReplyReceived f) s = .next t ∧ t.matrix = s.matrix ∧ t.hv = s.hv ∧
      t.events.pending.getLsbD 2 = true ∧ t.events.card.overtemp = s.events.card.overtemp.or (some p) ∧
      t.link = { s.link with
        seqBits := s.link.seqBits.set (p - 1) (!s.link.seqBit p)
        exchange := some ⟨.attnClear p, (s.link.seqBits.set (p - 1) (!s.link.seqBit p)).getD (p - 1) false, false⟩
        replyTimer := some s.link.replyTimeout }) ∧
    (c ≠ 0#8 → s.jobActive = false → 1 ≤ p → p ≤ 32 → s.matrix.roster.length = 32 → tableWf s.matrix.image = true →
      ∃ t : State, exec (.statusReplyReceived f) s = .next t ∧ t.events.pending.getLsbD 2 = true ∧
        t.link = { s.link with
          seqBits := s.link.seqBits.set (p - 1) (!s.link.seqBit p)
          exchange := some ⟨.attnClear p, (s.link.seqBits.set (p - 1) (!s.link.seqBit p)).getD (p - 1) false, false⟩
          replyTimer := some s.link.replyTimeout } ∧
        t.matrix.slot = s.matrix.slot ∧ t.hv = s.hv ∧ t.lmu = s.lmu ∧ t.engine = s.engine ∧
        (∀ r, 1 ≤ r → r ≠ p → t.posn r = s.posn r) ∧
        (s.printer.state ≠ .idle → s.log.reporting = true → s.log.entries.length < 256 →
          t.log.entries = s.log.entries ++ [⟨s.log.nextSeq, decide (s.printer.state ≠ .off), true,
            { kind := if c.toNat = 2 then .stuckRelay else if c.toNat = 3 then .cardWarn else .cardFault
              system := true, position := some p, channel := if c.toNat = 2 then some ch.toNat else none }⟩]) ∧
        (c.toNat = 2 → t.matrix.roster = s.matrix.roster ∧ t.events.card.stuck = s.events.card.stuck.or (some p) ∧
          (ch.toNat < (s.posn p).kind.channels →
            (∀ d : Chan, d ∈ t.matrix.blocked ↔ d = ⟨p, ch.toNat⟩ ∨ d ∈ s.matrix.blocked) ∧
            ∀ d : Chan, d.ch ≤ 127 → t.imageOf d = if d = ⟨p, ch.toNat⟩ then none else s.imageOf d) ∧
          (¬ ch.toNat < (s.posn p).kind.channels → t.matrix = s.matrix)) ∧
        (c.toNat ≠ 2 → c.toNat ≠ 3 → t.posn p = { s.posn p with state := .faulted } ∧
          t.matrix.blocked = s.matrix.blocked ∧ t.events.card.driverFault = s.events.card.driverFault.or (some p) ∧
          ∀ d : Chan, d.ch ≤ 127 → t.imageOf d = if d.pos = p then some .opn else s.imageOf d))

/-- An accepted MANUAL_SWITCH turns the LMU source off and enters SENDING: the first PRESENT position with changes is
sent them in one SET while the request is being carried out; with nothing to change it is answered COMPLETE, 0
positions, at once, and with reference channels alone to change it settles at once: with an attention exchange on the
link both are the model's choice (log 31, DESIGN CHOICE). With the answer the head of the queue is examined (log 46,
DEDUCED). It is refused BUSY in a job and BAD_STATE off SAFE. -/
def Obligations.ManualSwitchSendsItsPlan : Prop :=
  ∀ (tag : Byte) (others : Bool) (items : List (Nat × Rail)) (s : State), s.ready → items.length ≤ 128 →
    (items ≠ [] ∨ others = true) → (items.map (·.1)).Nodup → (∀ it ∈ items, it.1 ≤ 4095) →
    (∀ it ∈ items, it.2 = .opn ∨ it.2 = .source ∨ it.2 = .ret) →
    (∀ it ∈ items, it.1 < 4 → s.railAllowed ⟨0, it.1⟩ it.2 = true) →
    (∀ it ∈ items, 4 ≤ it.1 → ∃ c : Chan, s.chanOf it.1 = some c ∧ 1 ≤ c.pos ∧ s.reachable c = true ∧
      s.isBlocked c = false) →
    ∃ (payload : List Byte) (t : Taken),
      payload = flagByte others ++ le1 items.length ++ items.flatMap (fun it => le2 it.1 ++ le1 it.2.code) ∧
      t = ⟨⟨.targets items others, .manual⟩, s.translate items⟩ ∧
      (s.jobActive = true → exec (.manualSwitch tag payload) s = .next (s.replying 0x14#8 tag payload [0x01#8])) ∧
      (s.jobActive = false → s.matrix.slot = .empty → s.hv.rail ≠ .safe →
        exec (.manualSwitch tag payload) s = .next (s.replying 0x14#8 tag payload [0x04#8])) ∧
      (s.jobActive = false → s.matrix.slot = .empty → s.hv.rail = .safe → s.matrix.waiting = [] →
        ∃ (u : State) (touched : List Nat),
          u = { s with
            lmu := s.lmu.sourceOff
            queue := { s.queue with stallWait := false }
            matrix := { s.matrix with image := writeImage s.matrix.image 0 (s.refChanges t) } } ∧
          touched = (if s.refChanges t = [] then [] else [0]) ∧
          ((∀ p, 1 ≤ p → p ≤ 32 → u.changeList t p = []) →
            (touched = [] → exec (.manualSwitch tag payload) s =
              .next (State.examineHead (u.replying 0x14#8 tag payload [0x00#8, 0x00#8, 0x00#8]))) ∧
            (touched = [0] → exec (.manualSwitch tag payload) s = .next { u with
              host := { s.host with slots := [⟨0x14#8, tag, payload, .carried⟩], carried := some .manual }
              matrix := { u.matrix with slot := .settling t [0] 1 } })) ∧
          ∀ p, 1 ≤ p → p ≤ 32 → (∀ r, 1 ≤ r → r < p → u.changeList t r = []) → u.changeList t p ≠ [] →
            (s.posn p).state = .present → s.link.exchange = none →
            exec (.manualSwitch tag payload) s = .next { u with
              host := { s.host with slots := [⟨0x14#8, tag, payload, .carried⟩], carried := some .manual }
              matrix := { u.matrix with slot := .sending t p touched }
              link := { s.link with
                seqBits := s.link.seqBits.set (p - 1) (!s.link.seqBit p)
                exchange := some ⟨.set p (u.changeList t p),
                  (s.link.seqBits.set (p - 1) (!s.link.seqBit p)).getD (p - 1) false, false⟩
                replyTimer := some s.link.replyTimeout } })

/-- UNBLOCK removes its channels from the blocked set and opens them by a plan of its own: a channel that is OPEN
already, or on a position that is not PRESENT, sends nothing, and the answer is COMPLETE, 0 positions, with the count
removed; so does one that the card now recorded there does not have (R19; log 29, DEDUCED). A channel outside the set
is NOT_FOUND. One byte stands for ALL (log 7), which does the same for the whole set: the first PRESENT position with
channels to open is sent them, or the answer is COMPLETE at once. The answers given at once are the model's choice
where an attention exchange is on the link (log 31, DESIGN CHOICE); with them the head of the queue is examined (log
46, DEDUCED). -/
def Obligations.UnblockRemovesAndOpens : Prop :=
  ∀ (tag b : Byte) (c : Chan) (s : State), s.ready → s.jobActive = false → s.matrix.slot = .empty →
    s.hv.rail = .safe → s.matrix.waiting = [] → 1 ≤ c.pos → c.pos ≤ 32 → c.ch ≤ 127 →
    (s.isBlocked c = false → exec (.unblock tag (le1 c.pos ++ le1 c.ch)) s =
      .next (s.replying 0x16#8 tag (le1 c.pos ++ le1 c.ch) [0x07#8])) ∧
    (s.isBlocked c = true → s.imageOf c = some .opn ∨ (s.posn c.pos).state ≠ .present ∨
        ¬ c.ch < (s.posn c.pos).kind.channels →
      ∃ u : State, exec (.unblock tag (le1 c.pos ++ le1 c.ch)) s =
          .next (State.examineHead
            (u.replying 0x16#8 tag (le1 c.pos ++ le1 c.ch) [0x00#8, 0x00#8, 0x00#8, 0x01#8, 0x00#8])) ∧
        (∀ d, d ∈ u.matrix.blocked ↔ d ∈ s.matrix.blocked ∧ d ≠ c) ∧
        u = { s with
          matrix := { s.matrix with blocked := u.matrix.blocked }
          lmu := s.lmu.sourceOff, queue := { s.queue with stallWait := false } }) ∧
    (s.isBlocked c = true → s.imageOf c ≠ some .opn → (s.posn c.pos).state = .present →
      c.ch < (s.posn c.pos).kind.channels → s.link.exchange = none →
      ∃ u : State, exec (.unblock tag (le1 c.pos ++ le1 c.ch)) s = .next u ∧
        (∀ d, d ∈ u.matrix.blocked ↔ d ∈ s.matrix.blocked ∧ d ≠ c) ∧
        u.matrix.slot = .sending ⟨⟨.opens [c], .unblock⟩, [(c, .opn)]⟩ c.pos [] ∧
        u.link.exchange = some ⟨.set c.pos [(c.ch, .opn)],
          (s.link.seqBits.set (c.pos - 1) (!s.link.seqBit c.pos)).getD (c.pos - 1) false, false⟩ ∧
        u.host.carried = some (.unblock 1) ∧ u.matrix.image = s.matrix.image ∧ u.matrix.roster = s.matrix.roster) ∧
    (s.matrix.blocked = [] → exec (.unblock tag [b]) s = .next (State.examineHead (State.replying
      { s with lmu := s.lmu.sourceOff, queue := { s.queue with stallWait := false } }
      0x16#8 tag [b] [0x00#8, 0x00#8, 0x00#8, 0x00#8, 0x00#8]))) ∧
    ∀ (cs : List Chan) (t : Taken), s.matrix.blocked = cs → (∀ d ∈ cs, 1 ≤ d.pos) →
      t = ⟨⟨.opens cs, .unblock⟩, cs.map (fun d => (d, .opn))⟩ →
      ∃ u : State, u = { s with
          matrix := { s.matrix with blocked := [] }
          lmu := s.lmu.sourceOff, queue := { s.queue with stallWait := false } } ∧
        ((∀ p, 1 ≤ p → p ≤ 32 → u.changeList t p = [] ∨ (s.posn p).state ≠ .present) →
          exec (.unblock tag [b]) s =
            .next (State.examineHead (u.replying 0x16#8 tag [b] ([0x00#8, 0x00#8, 0x00#8] ++ le2 cs.length)))) ∧
        ∀ p, 1 ≤ p → p ≤ 32 → (∀ r, 1 ≤ r → r < p → u.changeList t r = [] ∨ (s.posn r).state ≠ .present) →
          u.changeList t p ≠ [] → (s.posn p).state = .present → s.link.exchange = none →
          exec (.unblock tag [b]) s = .next { u with
            host := { s.host with slots := [⟨0x16#8, tag, [b], .carried⟩], carried := some (.unblock cs.length) }
            matrix := { u.matrix with slot := .sending t p [] }
            link := { s.link with
              seqBits := s.link.seqBits.set (p - 1) (!s.link.seqBit p)
              exchange := some ⟨.set p (u.changeList t p),
                (s.link.seqBits.set (p - 1) (!s.link.seqBit p)).getD (p - 1) false, false⟩
              replyTimer := some s.link.replyTimeout } }

/-- READ_RELAYS answers the image value and the blocked flag of each point or channel of its range, and changes
nothing; an unmapped point is UNMAPPED (6) and an unknown channel UNKNOWN (5). The codes of its modes are the model's
reading (log 7), and so is the range of position 0, of which first 0 with count 4 is taken (log 34, DEDUCED). -/
def Obligations.ReadRelaysReportsTheImage : Prop :=
  ∀ (tag : Byte) (x n : Nat) (s : State), s.ready → x < 65536 → n < 256 →
    (x ≤ 4095 → 1 ≤ n → n ≤ 128 → x + n ≤ 4096 →
      exec (.readRelays tag (0x00#8 :: le2 x ++ le1 n)) s =
        .next (s.replying 0x15#8 tag (0x00#8 :: le2 x ++ le1 n) ([0x00#8] ++ (List.range' x n).flatMap (fun q =>
          match s.chanOf q with
          | none => [6#8, 0#8]
          | some c => (match s.imageOf c with
            | none => [5#8]
            | some r => le1 r.code) ++ flagByte (decide (c ∈ s.matrix.blocked)))))) ∧
    (4095 < x ∨ n = 0 ∨ 128 < n ∨ 4096 < x + n →
      exec (.readRelays tag (0x00#8 :: le2 x ++ le1 n)) s =
        .next (s.replying 0x15#8 tag (0x00#8 :: le2 x ++ le1 n) [0x03#8])) ∧
    ∀ (p c : Nat), p < 256 → c < 256 →
      (p ≤ 32 → 1 ≤ n → n ≤ 128 → c + n ≤ (if p = 0 then 4 else 128) →
        exec (.readRelays tag (0x01#8 :: le1 p ++ le1 c ++ le1 n)) s =
          .next (s.replying 0x15#8 tag (0x01#8 :: le1 p ++ le1 c ++ le1 n) ([0x00#8] ++
            (List.range' c n).flatMap (fun k => (match s.imageOf ⟨p, k⟩ with
              | none => [5#8]
              | some r => le1 r.code) ++ flagByte (decide ((⟨p, k⟩ : Chan) ∈ s.matrix.blocked)))))) ∧
      (32 < p ∨ n = 0 ∨ 128 < n ∨ (if p = 0 then 4 else 128) < c + n →
        exec (.readRelays tag (0x01#8 :: le1 p ++ le1 c ++ le1 n)) s =
          .next (s.replying 0x15#8 tag (0x01#8 :: le1 p ++ le1 c ++ le1 n) [0x03#8]))

/-! ### Low-voltage measurement -/

/-- SET_LIMITS and SET_HV replace all their values together and change nothing else, in every state of the part; with
a value out of range they change nothing and name the first such (its place counted from 0: log 7). -/
def Obligations.SetLimitsAndSetHvReplaceTheirSets : Prop :=
  (∀ (tag : Byte) (pass opn iso n r w : Nat) (s : State), s.ready → pass < 4294967296 → opn < 4294967296 →
    iso < 4294967296 → n < 256 → r < 256 → w < 256 →
    ∃ (payload : List Byte) (oks : List Bool), payload = le4 pass ++ le4 opn ++ le4 iso ++ le1 n ++ le1 r ++ le1 w ∧
      oks = [decide (10 ≤ pass ∧ pass ≤ 1000000), decide (pass < opn ∧ opn ≤ 2000000),
        decide (100 ≤ iso ∧ iso ≤ 100000), decide (n ∈ [1, 2, 4, 8, 16]), decide (r ∈ [1, 2, 3]),
        decide (1 ≤ w ∧ w ≤ 100)] ∧
      ((∀ b ∈ oks, b = true) → exec (.setLimits tag payload) s = .next (State.replying
        { s with limits := ⟨pass, opn, iso, n, if r = 1 then .r100 else if r = 2 then .r10 else .r1, w⟩ }
        0x18#8 tag payload [0x00#8])) ∧
      ∀ k, oks[k]? = some false → (∀ j < k, oks[j]? = some true) →
        exec (.setLimits tag payload) s = .next (s.replying 0x18#8 tag payload ([0x03#8] ++ le1 k))) ∧
  ∀ (tag : Byte) (v rate d t a l m b : Nat) (s : State), s.ready → v < 65536 → rate < 256 → d < 65536 → t < 65536 →
    a < 65536 → l < 256 → m < 65536 → b < 256 →
    ∃ (payload : List Byte) (oks : List Bool),
      payload = le2 v ++ le1 rate ++ le2 d ++ le2 t ++ le2 a ++ le1 l ++ le2 m ++ le1 b ∧
      oks = [decide (50 ≤ v ∧ v ≤ 1500 ∧ v % 10 = 0), decide (1 ≤ rate ∧ rate ≤ 50), decide (2 ≤ d ∧ d ≤ 6000),
        decide (10 ≤ t ∧ t ≤ 500), decide (10 ≤ a ∧ a ≤ 1000), true, decide (1 ≤ m ∧ m ≤ 2000),
        decide (1 ≤ b ∧ b ≤ 64)] ∧
      ((∀ x ∈ oks, x = true) → exec (.setHv tag payload) s = .next (State.replying
        { s with hv := { s.hv with hvSet := ⟨v, rate, d, t, a, l, m, b⟩ } } 0x1C#8 tag payload [0x00#8])) ∧
      ∀ k, oks[k]? = some false → (∀ j < k, oks[j]? = some true) →
        exec (.setHv tag payload) s = .next (s.replying 0x1C#8 tag payload ([0x03#8] ++ le1 k))

/-- An accepted MEASURE begins at once, with the source on and STABILISE running, and is answered later; without a
channel on SOURCE or on RETURN it is refused with BAD_STATE. A measurement that waits begins only with the slot EMPTY or
HELD and the rail SAFE; at the end of STABILISE sampling begins with empty sums. -/
def Obligations.MeasurementBeginsAndStabilises : Prop :=
  (∀ (tag m n r : Byte) (s : State), s.ready → s.jobActive = false → s.matrix.slot = .empty → s.hv.rail = .safe →
    m.toNat ∈ [1, 2] → n.toNat ∈ [0, 1, 2, 4, 8, 16] → r.toNat ∈ [0, 1, 2, 3] →
    ((s.onRail .source = [] ∨ s.onRail .ret = []) →
      exec (.measure tag [m, n, r]) s = .next (s.replying 0x19#8 tag [m, n, r] [0x04#8])) ∧
    (s.onRail .source ≠ [] → s.onRail .ret ≠ [] → exec (.measure tag [m, n, r]) s = .next { s with
      host := { s.host with
        slots := [⟨0x19#8, tag, [m, n, r], .carried⟩]
        carried := some (.measure (if m.toNat = 1 then s.measurePair else none)) }
      queue := { s.queue with stallWait := false }
      lmu := { s.lmu with
        phase := .stabilise
        mode := if m.toNat = 1 then .cont else .iso
        range := if m.toNat = 1 then (if r.toNat = 0 then s.limits.range else if r.toNat = 1 then .r100
          else if r.toNat = 2 then .r10 else .r1) else s.lmu.range
        n := if n.toNat = 0 then s.limits.n else n.toNat
        settle := s.limits.settle
        count := 0, codeSum := 0, vSum := 0, iSum := 0, rangeSteps := 0
        issuer := .host
        timer := some (if m.toNat = 1 then 2 else s.limits.settle)
        waiting := none } })) ∧
  (∀ (q : MeasReq) (who : LmuIssuer) (s : State), s.lmu.waiting = some (q, who) →
    (s.hv.rail = .safe → (s.matrix.slot = .empty ∨ ∃ t, s.matrix.slot = .held t) →
      exec .lmuSourceOn s = .next { s with lmu := { s.lmu with
        phase := .stabilise, mode := q.mode, range := if q.mode = .cont then q.range else s.lmu.range
        n := q.n, settle := q.settle, count := 0, codeSum := 0, vSum := 0, iSum := 0, rangeSteps := 0
        issuer := who, timer := some (if q.mode = .cont then 2 else q.settle), waiting := none } }) ∧
    (s.hv.rail ≠ .safe ∨ (s.matrix.slot ≠ .empty ∧ ∀ t, s.matrix.slot ≠ .held t) →
      exec .lmuSourceOn s = .next s)) ∧
  ∀ s : State, s.lmu.phase = .stabilise → exec .stabiliseEnd s = .next { s with lmu := { s.lmu with
    phase := .sample, timer := none, count := 0, codeSum := 0, vSum := 0, iSum := 0 } }

/-- A CONT conversion in SAMPLE: a code is summed; an over-range steps the range down with the samples discarded; the
N-th code ends the measurement of a MEASURE with the mean and the resistance, both rounded half up, compensated for
the pair it found, and its band; an over-range at 1 mA ends it with OVER, not compensated (log 10). With the reply the
head of the queue is examined (log 46, DEDUCED). -/
def Obligations.ContConversionSumsStepsOrEnds : Prop :=
  ∀ (code : Word16) (s : State), s.lmu.phase = .sample → s.lmu.mode = .cont →
    (∀ r ∈ s.host.slots, r.phase ≠ .waiting) →
    (code.toNat ≠ 65535 → s.lmu.count + 1 < s.lmu.n →
      exec (.contConversion code) s = .next { s with lmu := { s.lmu with
        count := s.lmu.count + 1, codeSum := s.lmu.codeSum + code.toNat } }) ∧
    (code.toNat = 65535 → s.lmu.range ≠ .r1 →
      exec (.contConversion code) s = .next { s with lmu := { s.lmu with
        phase := .stabilise, timer := some 2, range := if s.lmu.range = .r100 then .r10 else .r1
        rangeSteps := s.lmu.rangeSteps + 1, count := 0, codeSum := 0 } }) ∧
    ∀ (tag : Byte) (p : List Byte) (pair : Option (Nat × Nat)), s.lmu.issuer = .host →
      s.host.slots = [⟨0x19#8, tag, p, .carried⟩] → s.host.carried = some (.measure pair) → s.host.tx = none →
      (code.toNat = 65535 → s.lmu.range = .r1 →
        exec (.contConversion code) s = .next (State.examineHead (State.replying { s with
            lmu := { s.lmu with phase := .idle, timer := none, count := 0, codeSum := 0 }
            host := { s.host with carried := none } } 0x19#8 tag p
          ([0x00#8, 0x03#8] ++ le1 s.lmu.rangeSteps ++ le1 s.lmu.n ++ List.replicate 8 0xFF#8 ++ [0x00#8, 0x02#8])))) ∧
      (code.toNat ≠ 65535 → s.lmu.n = s.lmu.count + 1 →
        ∃ mean div raw : Nat,
          mean = (s.lmu.codeSum + code.toNat + s.lmu.n / 2) / s.lmu.n ∧
          div = (match s.lmu.range with
            | .r100 => 10000
            | .r10 => 1000
            | .r1 => 100) ∧
          raw = (mean * 3125 + div / 2) / div ∧
          exec (.contConversion code) s = .next (State.examineHead (State.replying { s with
              lmu := { s.lmu with
                phase := .idle, timer := none, count := s.lmu.n, codeSum := s.lmu.codeSum + code.toNat }
              host := { s.host with carried := none } } 0x19#8 tag p
            ([0x00#8] ++ le1 s.lmu.range.code ++ le1 s.lmu.rangeSteps ++ le1 s.lmu.n ++ le4 mean ++ le4 raw ++
              (match pair with
                | none => [0x00#8] ++
                  (if raw ≤ s.limits.pass then [0x00#8] else if raw < s.limits.opn then [0x01#8] else [0x02#8])
                | some (a, b) => [0x01#8] ++ le4 (raw - s.leadOf a - s.leadOf b) ++
                  (if raw - s.leadOf a - s.leadOf b ≤ s.limits.pass then [0x00#8]
                   else if raw - s.leadOf a - s.leadOf b < s.limits.opn then [0x01#8] else [0x02#8]))))))

/-- An ISO conversion in SAMPLE: both readings, saturated, are summed; the N-th pair ends the measurement of a MEASURE
with the means, the resistance rounded half up, or OVER for a mean current of 0, and the band. With the reply the head
of the queue is examined (log 46, DEDUCED). -/
def Obligations.IsoConversionSumsOrEnds : Prop :=
  ∀ (v i : Nat) (s : State), s.lmu.phase = .sample → s.lmu.mode = .iso →
    (∀ r ∈ s.host.slots, r.phase ≠ .waiting) →
    (s.lmu.count + 1 < s.lmu.n → exec (.isoConversion v i) s = .next { s with lmu := { s.lmu with
      count := s.lmu.count + 1, vSum := s.lmu.vSum + min v 10000, iSum := s.lmu.iSum + min i 10000000 } }) ∧
    ∀ (tag : Byte) (p : List Byte) (pair : Option (Nat × Nat)), s.lmu.issuer = .host →
      s.host.slots = [⟨0x19#8, tag, p, .carried⟩] → s.host.carried = some (.measure pair) → s.host.tx = none →
      s.lmu.n = s.lmu.count + 1 →
      ∃ vm im : Nat,
        vm = (s.lmu.vSum + min v 10000 + s.lmu.n / 2) / s.lmu.n ∧
        im = (s.lmu.iSum + min i 10000000 + s.lmu.n / 2) / s.lmu.n ∧
        exec (.isoConversion v i) s = .next (State.examineHead (State.replying { s with
            lmu := { s.lmu with
              phase := .idle, timer := none, count := s.lmu.n
              vSum := s.lmu.vSum + min v 10000, iSum := s.lmu.iSum + min i 10000000 }
            host := { s.host with carried := none } } 0x19#8 tag p
          ([0x00#8] ++ le1 s.lmu.n ++ le2 vm ++ le4 im ++
            (if im = 0 then List.replicate 4 0xFF#8 ++ [0x00#8]
             else le4 ((vm * 1000 + im / 2) / im) ++
              (if (vm * 1000 + im / 2) / im < s.limits.iso then [0x01#8] else [0x00#8])))))

/-- The raw resistance is the mean code times 31.25 µV over the range current, rounded half up, with the largest value of
each range; compensation stops at 0; the ISO resistance is the mean voltage over the mean current, rounded half up, OVER,
which is isolated, for a current of 0, and at most 10,000,000 kΩ; every value has one band. -/
def Obligations.LowVoltageResultsStayInTheirRanges : Prop :=
  (∀ (mean : Nat) (r : CRange), ∃ div : Nat, div = (match r with
      | .r100 => 10000
      | .r10 => 1000
      | .r1 => 100) ∧
    rawResistance mean r = (mean * 3125 + div / 2) / div ∧
    (mean ≤ 65534 → rawResistance mean r ≤ rawResistance 65534 r ∧ rawResistance mean r ≤ 2047938)) ∧
  (rawResistance 65534 .r100 = 20479 ∧ rawResistance 65534 .r10 = 204794 ∧ rawResistance 65534 .r1 = 2047938) ∧
  (∀ raw a b : Nat, (compensated raw a b : Int) = max 0 ((raw : Int) - a - b)) ∧
  (∀ v i : Nat, (i = 0 → isoResistance v i = none) ∧
    (0 < i → isoResistance v i = some ((v * 1000 + i / 2) / i)) ∧
    (v ≤ 10000 → ∀ k, isoResistance v i = some k → k ≤ 10000000)) ∧
  isoResistance 10000 1 = some 10000000 ∧ (∀ limit, isLeak none limit = false) ∧
  (∀ (v : Option Nat) (pass opn : Nat),
    (bandOf v pass opn = .connected ↔ ∃ r, v = some r ∧ r ≤ pass) ∧
    (bandOf v pass opn = .high ↔ ∃ r, v = some r ∧ pass < r ∧ r < opn) ∧
    (bandOf v pass opn = .opn ↔ v = none ∨ ∃ r, v = some r ∧ pass < r ∧ opn ≤ r)) ∧
  ∀ (r : Option Nat) (limit : Nat), isLeak r limit = true ↔ ∃ k, r = some k ∧ k < limit

/-! ### The high-voltage rail -/

/-- A step request is examined only with the rail SAFE, the slot EMPTY or HELD and the LMU idle: with the cover CLOSED
the step starts in RAMP from a target of 0; with the cover OPEN the request is refused, the rail stays SAFE, the job is
SUSPENDED and INTERLOCK raised. Each tick raises the target by the rate up to the set voltage, where DWELL begins. -/
def Obligations.HvStepStartsAndRamps : Prop :=
  (∀ (v : StepValues) (s : State), s.hv.request = some v →
    (s.hv.rail = .safe → (s.matrix.slot = .empty ∨ ∃ t, s.matrix.slot = .held t) → s.lmu.phase = .idle →
      (s.hv.coverClosed = true → exec .stepRequestExamined s = .next { s with hv := { s.hv with
        rail := .ramp, target := 0, values := some v, request := none, history := [], prevI := none, arcs := 0
        tickTimer := some 10 } }) ∧
      (s.hv.coverClosed = false → ∃ t : State, exec .stepRequestExamined s = .next t ∧
        t.hv = { s.hv with request := none } ∧ t.matrix = s.matrix ∧ t.lmu = s.lmu ∧ t.link = s.link ∧
        t.events.pending.getLsbD 1 = true ∧ t.engine = { s.engine with phase := .between, isRepeat := true } ∧
        ∀ j r, s.queue.jobs = j :: r → ∃ k, t.queue.jobs = { j with state := .suspended, systems := k } :: r)) ∧
    (s.hv.rail ≠ .safe ∨ (s.matrix.slot ≠ .empty ∧ ∀ t, s.matrix.slot ≠ .held t) ∨ s.lmu.phase ≠ .idle →
      exec .stepRequestExamined s = .next s)) ∧
  ∀ (v : StepValues) (ms : Nat) (s : State), s.hv.rail = .ramp → s.hv.values = some v → s.hv.tickTimer = some ms →
    (s.hv.target + v.rate < v.setV → exec .rampTick s = .next { s with hv := { s.hv with
      target := s.hv.target + v.rate, tickTimer := some 10 } }) ∧
    (v.setV ≤ s.hv.target + v.rate → exec .rampTick s = .next { s with hv := { s.hv with
      target := v.setV, rail := .dwell, tickTimer := none, dwellTimer := some (v.dwell * 10) } })

/-- A conversion is the present reading in every rail state, saturated. In RAMP and DWELL it is examined for the trip
current, in DWELL also for collapse, arcs (a rise by the threshold or more, counted to 255) and the history of 16; a
breakdown holds its verdict and discharges the rail. In DISCHARGE it starts or stops the safe hold. -/
def Obligations.HvSampleIsExaminedByState : Prop :=
  ∀ (u0 i0 : Nat) (s : State), ∃ (u i : Nat) (h : Hv), u = min u0 16000 ∧ i = min i0 5000000 ∧
    h = { s.hv with presentV := u, presentI := i } ∧
    (s.hv.rail = .safe ∨ s.hv.rail = .fault → exec (.hvSample u0 i0) s = .next { s with hv := h }) ∧
    (s.hv.rail = .discharge → exec (.hvSample u0 i0) s = .next { s with hv := { h with
      holdTimer := if u < 300 then (if s.hv.holdTimer.isSome then s.hv.holdTimer else some 10) else none } }) ∧
    ∀ v : StepValues, s.hv.values = some v → ∃ (arcs : Nat) (hist : List (Nat × Nat)) (down : BreakCause → Nat → Hv),
      arcs = (match s.hv.prevI with
        | some p => if p + v.arcTh * 1000 ≤ i then min 255 (s.hv.arcs + 1) else s.hv.arcs
        | none => s.hv.arcs) ∧
      hist = (if s.hv.history.length < 16 then s.hv.history ++ [(u, i)]
        else (s.hv.history ++ [(u, i)]).drop (s.hv.history.length - 15)) ∧
      (∀ c n, down c n = { h with
        prevI := some i, held := some ⟨.breakdown c, u, i, 0, 0, n⟩, rail := .discharge, target := 0
        tickTimer := none, dwellTimer := none, holdTimer := none, limitTimer := some 2000, cause := .breakdown }) ∧
      (s.hv.rail = .ramp →
        (i < v.trip * 10000 → exec (.hvSample u0 i0) s = .next { s with hv := { h with prevI := some i } }) ∧
        (v.trip * 10000 ≤ i → exec (.hvSample u0 i0) s = .next { s with hv := down .trip s.hv.arcs })) ∧
      (s.hv.rail = .dwell →
        (i < v.trip * 10000 → v.setV * 70 ≤ u * 8 → exec (.hvSample u0 i0) s = .next { s with
          hv := { h with prevI := some i, arcs := arcs, history := hist } }) ∧
        (v.trip * 10000 ≤ i → exec (.hvSample u0 i0) s = .next { s with
          hv := { down .trip arcs with arcs := arcs, history := hist } }) ∧
        (i < v.trip * 10000 → u * 8 < v.setV * 70 → exec (.hvSample u0 i0) s = .next { s with
          hv := { down .collapse arcs with arcs := arcs, history := hist } }))

/-- With 16 samples in the history, the dwell expiry forms their means and the insulation resistance, rounded half up and
clamped, with the offset its mode gives, fixes the verdict by precedence and discharges the rail; a MEASURE step writes
the offset. -/
def Obligations.DwellExpiryFixesTheVerdict : Prop :=
  ∀ (v : StepValues) (ms : Nat) (s : State), s.hv.rail = .dwell → s.hv.values = some v → s.hv.dwellTimer = some ms →
    s.hv.history.length = 16 →
    ∃ (vm im off ir : Nat) (verdict : Verdict),
      vm = ((s.hv.history.map (·.1)).sum + 8) / 16 ∧ im = ((s.hv.history.map (·.2)).sum + 8) / 16 ∧
      off = (if v.offsetMode = .apply then s.hv.offset else 0) ∧
      (im ≤ off → ir = 99999999) ∧
      (off < im → ir = min 99999999 ((vm * 100000 + (im - off) / 2) / (im - off))) ∧
      (ir < v.minIr * 1000 → verdict = .irLow) ∧
      (v.minIr * 1000 ≤ ir → 0 < v.arcLim → v.arcLim ≤ s.hv.arcs → verdict = .arc) ∧
      (v.minIr * 1000 ≤ ir → v.arcLim = 0 ∨ s.hv.arcs < v.arcLim → verdict = .pass) ∧
      exec .dwellExpiry s = .next { s with hv := { s.hv with
        held := some ⟨verdict, vm, im, off, ir, s.hv.arcs⟩
        offset := if v.offsetMode = .measure then im else s.hv.offset
        rail := .discharge, target := 0, tickTimer := none, dwellTimer := none, holdTimer := none
        limitTimer := some 2000, cause := .verdict } }

/-- The end of the hold makes the rail SAFE and hands a held result to the engine as its step complete, or, with
nothing held, changes nothing else. The limit makes it FAULT, with the record, the event and the step dropped. With a
job active the record carries its tag and the job's end is completed at once (R124, R142, R150; 7.8.4): a job with its
step, one SUSPENDED or in LOG_WAIT ends ABORTED_HV_FAULT, and one that is ENDING already, its all-open plan HELD,
keeps its reason; JOB_END follows the HV_FAULT record, the job leaves the queue and the all-open plan stays HELD
without an issuer. CLEAR_HV_FAULT makes a faulted rail SAFE at a reading below 30.0 V and is refused otherwise with
the rail state and the reading. -/
def Obligations.DischargeEndsInSafeOrFault : Prop :=
  (∀ (ms : Nat) (s : State), s.hv.rail = .discharge → s.hv.holdTimer = some ms → s.hv.held = none →
    exec .safeHoldExpiry s = .next { s with
      hv := { s.hv with rail := .safe, holdTimer := none, limitTimer := none } }) ∧
  (∀ (ms : Nat) (r : HeldResult) (s : State), s.hv.rail = .discharge → s.hv.holdTimer = some ms →
    s.hv.held = some r →
    exec .safeHoldExpiry s = .next (State.stepComplete { s with
      hv := { s.hv with rail := .safe, holdTimer := none, limitTimer := none, held := none, values := none } } r)) ∧
  (∀ (ms : Nat) (s : State), s.hv.rail = .discharge → s.hv.limitTimer = some ms → s.jobActive = false →
    ∃ t : State, exec .dischargeLimit s = .next t ∧
      t.hv = { s.hv with
        rail := .fault, holdTimer := none, limitTimer := none, values := none, held := none, request := none
        history := [], prevI := none, arcs := 0 } ∧
      t.matrix = s.matrix ∧ t.link = s.link ∧ t.lmu = s.lmu ∧ t.engine = s.engine ∧ t.queue.jobs = s.queue.jobs ∧
      t.events.pending.getLsbD 0 = true ∧
      (s.printer.state ≠ .idle → s.log.reporting = true → s.log.entries.length < 256 →
        t.log.entries = s.log.entries ++ [⟨s.log.nextSeq, decide (s.printer.state ≠ .off), true,
          { kind := .hvFault, system := true, value := some ⟨.dV, some s.hv.presentV⟩
            second := some ⟨.nA, some s.hv.presentI⟩, cause := some (.discharge s.hv.cause) }⟩])) ∧
  (∀ (ms : Nat) (j : Job) (rest : List Job) (c : EndCause) (counts : Counts) (s : State), s.hv.rail = .discharge →
    s.hv.limitTimer = some ms → s.queue.jobs = j :: rest → s.matrix.waiting = [] → s.printer.state ≠ .idle →
    s.log.reporting = true → s.log.entries.length + 2 ≤ 256 →
    (s.matrix.slot = .empty ∧ c = ⟨.abortedHvFault, .nothing⟩ ∧
        counts = ⟨c, s.engine.nets, s.engine.steps, j.tests, j.systems + 1, s.engine.extra⟩ ∧
        ((j.state = .running ∧ s.engine.phase = .hvStep ∧ s.engine.abort = none) ∨ j.state = .suspended ∨
          j.state = .logWait)) ∨
      (s.matrix.slot = .held ⟨⟨.allOpen, .jobEnd⟩, []⟩ ∧ j.state = .ending ∧ j.ended = some c ∧
        counts = ⟨c, j.nets, j.steps, j.tests, j.systems + 1, j.extra⟩) →
    ∃ t : State, exec .dischargeLimit s = .next t ∧
      t.hv = { s.hv with
        rail := .fault, holdTimer := none, limitTimer := none, values := none, held := none, request := none
        history := [], prevI := none, arcs := 0 } ∧
      t.matrix = { s.matrix with slot := .held ⟨⟨.allOpen, .nobody⟩, []⟩ } ∧ t.engine = Engine.reset ∧
      t.queue = { s.queue with jobs := rest, stallWait := false } ∧ t.link = s.link ∧ t.lmu = s.lmu ∧
      t.store = s.store ∧ t.reference = s.reference ∧ t.events.pending.getLsbD 0 = true ∧
      t.events.pending.getLsbD (if c.reason = .complete then 10 else 7) = true ∧
      t.log.entries.map (·.data) = s.log.entries.map (·.data) ++
        [{ kind := .hvFault, system := true, tag := some j.tag, value := some ⟨.dV, some s.hv.presentV⟩
           second := some ⟨.nA, some s.hv.presentI⟩, cause := some (.discharge s.hv.cause) },
         { kind := .jobEnd, system := true, tag := some j.tag, job := some j.spec, counts := some counts }]) ∧
  ∀ (tag : Byte) (s : State), s.ready →
    (s.hv.rail = .fault → s.hv.presentV < 300 → s.head = none →
      exec (.clearHvFault tag []) s = .next (State.replying { s with
        hv := { s.hv with rail := .safe, holdTimer := none, limitTimer := none }
        queue := { s.queue with stallWait := false } } 0x1D#8 tag [] ([0x00#8] ++ le2 s.hv.presentV))) ∧
    (s.hv.rail ≠ .fault ∨ 300 ≤ s.hv.presentV → exec (.clearHvFault tag []) s =
      .next (s.replying 0x1D#8 tag [] ([0x04#8] ++ le1 s.hv.rail.code ++ le2 s.hv.presentV)))

/-- A change of the COVER input starts the debounce afresh; at its end the cover state takes the level of the input:
OPEN in RAMP or DWELL fixes INTERRUPTED with the present readings, which are the last sample's, or, before the step's first
sample, those from before it (log 36, DESIGN CHOICE), and discharges the rail, and in any other rail state changes only the
cover state, as CLOSED does with no suspended job or one that does not resume by itself. A COVER_INPUT_CHANGE to the level
the input has already changes nothing (log 4, DESIGN CHOICE). At the end
of the hold an INTERRUPTED step is not judged: with the INTERLOCK record and event its job is SUSPENDED, the step in hand
a repeat. A job that resumes by itself (a REFCHECK, an INSULATE with auto-resume) does so when the cover is CLOSED, at once
where it is CLOSED then: RUNNING, and, with the relays as the step's plan left them, its step requested again, at once even
with an attention exchange on the link (log 31, DESIGN CHOICE). -/
def Obligations.CoverIsDebouncedAndInterrupts : Prop :=
  (∀ (closed : Bool) (s : State),
    (s.pins.coverClosed = closed → exec (.coverInputChange closed) s = .next s) ∧
    (s.pins.coverClosed ≠ closed → exec (.coverInputChange closed) s = .next { s with
      pins := { s.pins with coverClosed := closed }, hv := { s.hv with debounce := some 10 } })) ∧
  (∀ (ms : Nat) (s : State), s.hv.debounce = some ms →
    (s.pins.coverClosed = s.hv.coverClosed →
      exec .coverDebounced s = .next { s with hv := { s.hv with debounce := none } }) ∧
    (s.pins.coverClosed = true → s.hv.coverClosed = false → s.suspended = false →
      exec .coverDebounced s = .next { s with hv := { s.hv with debounce := none, coverClosed := true } }) ∧
    (s.pins.coverClosed = false → s.hv.coverClosed = true →
      (s.hv.rail = .ramp ∨ s.hv.rail = .dwell → exec .coverDebounced s = .next { s with hv := { s.hv with
        debounce := none, coverClosed := false
        held := some ⟨.interrupted, s.hv.presentV, s.hv.presentI, 0, 0, s.hv.arcs⟩
        rail := .discharge, target := 0, tickTimer := none, dwellTimer := none, holdTimer := none
        limitTimer := some 2000, cause := .interrupted } }) ∧
      (s.hv.rail ≠ .ramp → s.hv.rail ≠ .dwell →
        exec .coverDebounced s = .next { s with hv := { s.hv with debounce := none, coverClosed := false } }))) ∧
  (∀ (ms : Nat) (ts : List (Nat × Rail)) (v : StepValues) (j : Job) (rest : List Job) (s : State),
    s.hv.debounce = some ms → s.pins.coverClosed = true → s.hv.coverClosed = false → s.queue.jobs = j :: rest →
    j.state = .suspended →
    (∀ w : InsWork, s.engine.work = .insulate w → w.auto = false →
      exec .coverDebounced s = .next { s with hv := { s.hv with debounce := none, coverClosed := true } }) ∧
    ((∃ w : InsWork, s.engine.work = .insulate w ∧ w.auto = true) ∨ (∃ b, s.engine.work = .refHv b) →
      s.engine.inHand = some ⟨.targets ts true, .hv v⟩ → s.engine.abort = none → s.unchangedBy ts →
      exec .coverDebounced s = .next { s with
        hv := { s.hv with debounce := none, coverClosed := true, request := some v }
        queue := { s.queue with jobs := { j with state := .running } :: rest }
        engine := { s.engine with phase := .hvStep, isRepeat := true, ctl := .wait }
        lmu := s.lmu.sourceOff })) ∧
  ∀ (ms : Nat) (r : HeldResult) (ts : List (Nat × Rail)) (v : StepValues) (j : Job) (rest : List Job) (s : State),
    s.hv.rail = .discharge → s.hv.holdTimer = some ms → s.hv.held = some r → r.verdict = .interrupted →
    s.engine.phase = .hvStep → s.queue.jobs = j :: rest → j.state = .running → s.printer.state ≠ .idle →
    s.log.reporting = true → s.log.entries.length < 256 →
    ∃ (t : State) (auto : Bool), exec .safeHoldExpiry s = .next t ∧
      auto = (match s.engine.work with
        | .insulate w => w.auto
        | .refHv _ => true
        | _ => false) ∧
      (s.hv.coverClosed = false ∨ auto = false ∨ (s.engine.inHand = some ⟨.targets ts true, .hv v⟩ ∧
          s.engine.abort = none ∧ State.unchangedBy { s with hv := { s.hv with rail := .safe } } ts) →
        t.log.entries = s.log.entries ++ [⟨s.log.nextSeq, decide (s.printer.state ≠ .off), true,
          { kind := .interlock, system := true, tag := some j.tag, cause := some .openedDuringStep
            net := match s.engine.work with
              | .insulate w => if w.stage = .offset then none else some w.num
              | _ => none }⟩] ∧
        t.events.pending.getLsbD 1 = true ∧ t.store = s.store ∧ t.link = s.link ∧ t.reference = s.reference) ∧
      (s.hv.coverClosed = false ∨ auto = false →
        t.hv = { s.hv with rail := .safe, holdTimer := none, limitTimer := none, held := none, values := none } ∧
        t.engine = { s.engine with phase := .between, isRepeat := true } ∧ t.matrix = s.matrix ∧ t.lmu = s.lmu ∧
        t.queue = { s.queue with jobs := { j with state := .suspended, systems := j.systems + 1 } :: rest }) ∧
      (s.hv.coverClosed = true → auto = true → s.engine.inHand = some ⟨.targets ts true, .hv v⟩ →
        s.engine.abort = none → State.unchangedBy { s with hv := { s.hv with rail := .safe } } ts →
        t.hv = { s.hv with
          rail := .safe, holdTimer := none, limitTimer := none, held := none, values := none, request := some v } ∧
        t.engine = { s.engine with phase := .hvStep, isRepeat := true, ctl := .wait } ∧ t.matrix = s.matrix ∧
        t.lmu = s.lmu.sourceOff ∧
        t.queue = { s.queue with jobs := { j with state := .running, systems := j.systems + 1 } :: rest })

/-! ### Jobs -/

/-- SUBMIT_JOB puts a fresh job at the tail and answers its place, or answers FULL or CONFLICT; HOLD_QUEUE and
RELEASE_QUEUE set the hold flag and answer it; READ_QUEUE answers the queue, with the wait cause of a QUEUED head or
the end reason of an ENDING one, and changes nothing. With every condition of R146 met no wait cause is sent (log 11).
The mark of a wait for log space may change with the examination of the head: a QUEUED head that waits for log space
alone has LOG_STALL raised once for that wait, and any other head ends it (when condition 5 holds again: log 46,
DEDUCED). -/
def Obligations.QueueRequestsKeepTheQueue : Prop :=
  (∀ s : State, ∃ waits : Prop,
    (waits ↔ (∃ j rest, s.queue.jobs = j :: rest ∧ j.state = .queued) ∧ s.queue.hold = false ∧ s.hv.rail ≠ .fault ∧
      s.link.startup = false ∧ s.enumerating = false ∧
      ∀ r ∈ s.host.slots, r.phase = .carried → r.kind ∉ [0x14#8, 0x16#8, 0x19#8]) ∧
    (¬ waits → s.examineHead = { s with queue := { s.queue with stallWait := false } }) ∧
    (waits → s.log.entries.length + 9 ≤ 256 ∨ s.queue.stallWait = true → s.examineHead = s) ∧
    (waits → 256 < s.log.entries.length + 9 → s.queue.stallWait = false →
      s.examineHead = State.raise { s with queue := { s.queue with stallWait := true } } .logStall)) ∧
  (∀ (tag t : Byte) (j : JobSpec) (s : State), s.ready → 1 ≤ t.toNat →
    (match j with
      | .check f l _ => (1 ≤ f ∧ f ≤ 1024) ∧ 1 ≤ l ∧ l ≤ 1024
      | .insulate f l _ _ => (1 ≤ f ∧ f ≤ 1024) ∧ 1 ≤ l ∧ l ≤ 1024
      | .learn _ => True
      | .learnLeads c => c ≤ 4095
      | .refcheck => True) →
    ∃ p : List Byte, p = (match j with
        | .check f l ph => [0x01#8, t] ++ le2 f ++ le2 l ++ (match ph with
          | .cont => [1#8]
          | .iso => [2#8]
          | .both => [3#8])
        | .insulate f l loc auto => [0x02#8, t] ++ le2 f ++ le2 l ++ flagByte loc ++ flagByte auto
        | .learn hv => [0x03#8, t] ++ flagByte hv
        | .learnLeads c => [0x04#8, t] ++ le2 c
        | .refcheck => [0x05#8, t]) ∧
      (8 ≤ s.queue.jobs.length → exec (.submitJob tag p) s = .next (s.replying 0x20#8 tag p [0x02#8])) ∧
      (s.queue.jobs.length < 8 → (∃ q ∈ s.queue.jobs, q.tag = t.toNat) →
        exec (.submitJob tag p) s = .next (s.replying 0x20#8 tag p [0x08#8])) ∧
      (s.queue.jobs.length < 8 → (∀ q ∈ s.queue.jobs, q.tag ≠ t.toNat) →
        (s.jobActive = true ∨ s.log.entries.length + 9 ≤ 256) →
        ∃ w : Bool, exec (.submitJob tag p) s = .next (State.replying
          { s with queue := { s.queue with
            jobs := s.queue.jobs ++ [⟨t.toNat, j, .queued, none, false, none, 0, 0, 0, 0, 0⟩], stallWait := w } }
          0x20#8 tag p ([0x00#8] ++ le1 s.queue.jobs.length)))) ∧
  ∀ (tag : Byte) (s : State), s.ready →
    exec (.holdQueue tag []) s = .next (State.replying
      { s with queue := { s.queue with hold := true, stallWait := false } } 0x22#8 tag [] [0x00#8, 0x01#8]) ∧
    ((s.jobActive = true ∨ s.log.entries.length + 9 ≤ 256) → ∃ w : Bool,
      exec (.releaseQueue tag []) s = .next (State.replying
        { s with queue := { s.queue with hold := false, stallWait := w } } 0x23#8 tag [] [0x00#8, 0x00#8])) ∧
    exec (.readQueue tag []) s = .next (s.replying 0x24#8 tag [] ([0x00#8] ++ flagByte s.queue.hold ++
      le1 s.queue.jobs.length ++
      s.queue.jobs.flatMap (fun j => le1 j.tag ++ le1 j.spec.code ++ le1 j.state.code) ++
      (match s.queue.jobs with
        | [] => []
        | j :: _ => match j.state with
          | .queued =>
            if s.queue.hold then [0x00#8]
            else if s.hv.rail = .fault then [0x01#8]
            else if s.link.startup = true ∨ s.link.enumPhase ≠ .idle then [0x02#8]
            else if 256 < s.log.entries.length + 9 then [0x03#8]
            else []
          | .ending => (match j.ended with
            | some c => le1 c.reason.code
            | none => [0x00#8])
          | .running => []
          | .logWait => []
          | .suspended => [])))

/-- ABORT_JOB removes a QUEUED job with two system records and JOB_ABORTED, and the head is examined (LOG_STALL where
the two records take the space it needs). Of the active job: in PLAN the engine keeps the abort until its plan is
done, or withdraws a plan that waits; a measurement is discarded, a LOG_WAIT or SUSPENDED job lets go, and the
all-open plan goes out; a high-voltage step is stopped and discharged, the all-open plan HELD; one already in
DISCHARGE loses what it held and goes on discharging, and a step request that waits is withdrawn, the all-open plan
going out; an ENDING job stays. The reply is the state it found. RESUME (the slot EMPTY, the rail SAFE) puts a
SUSPENDED job back to RUNNING with its step's plan offered again: complete at once with the relays as the plan left
them, which requests the step; settling or sent where channels are to change; what it does at once with an attention
exchange on the link is the model's choice (log 31, DESIGN CHOICE). It is refused otherwise. -/
def Obligations.AbortAndResumeReachTheJob : Prop :=
  (∀ (tag t : Byte) (s : State), s.ready → 1 ≤ t.toNat →
    ((∀ q ∈ s.queue.jobs, q.tag ≠ t.toNat) →
      exec (.abortJob tag [t]) s = .next (s.replying 0x21#8 tag [t] [0x07#8])) ∧
    (∀ j ∈ s.queue.jobs, j.tag = t.toNat → j.state = .queued → (∀ q ∈ s.queue.jobs, q.tag = t.toNat → q = j) →
      s.printer.state ≠ .idle → s.log.reporting = true → s.log.entries.length + 2 ≤ 256 →
      ∃ (u : State) (ph : SlotPhase) (w : Bool), exec (.abortJob tag [t]) s = .next u ∧
        (ph = .ready [0x00#8, 0x00#8] ∨ ph = .sending [0x00#8, 0x00#8]) ∧
        u.host.slots = [⟨0x21#8, tag, [t], ph⟩] ∧
        u.queue = { s.queue with jobs := s.queue.jobs.filter (fun q => decide (q.tag ≠ t.toNat)), stallWait := w } ∧
        u.log.entries.map (·.data) = s.log.entries.map (·.data) ++
          [{ kind := .jobStart, system := true, tag := some j.tag, job := some j.spec },
           { kind := .jobEnd, system := true, tag := some j.tag, job := some j.spec
             counts := some ⟨⟨.abortedHost, .nothing⟩, 0, 0, 0, 0, 0⟩ }] ∧
        u.events.pending.getLsbD 7 = true ∧ u.engine = s.engine ∧ u.matrix = s.matrix ∧ u.lmu = s.lmu ∧
        u.hv = s.hv ∧ u.store = s.store ∧ u.link = s.link ∧
        ∀ h rest, s.queue.jobs = h :: rest → h.tag ≠ t.toNat → h.state = .queued → s.queue.hold = false →
          s.hv.rail ≠ .fault → s.link.startup = false → s.queue.stallWait = false → 245 < s.log.entries.length →
          w = true ∧ u.events.pending.getLsbD 5 = true) ∧
    ∀ j rest, s.queue.jobs = j :: rest → j.tag = t.toNat →
      ∃ gone : Queue, gone = { s.queue with jobs := { j with
          state := .ending, ended := some ⟨.abortedHost, .nothing⟩
          steps := s.engine.steps, nets := s.engine.nets, extra := s.engine.extra } :: rest } ∧
        (j.state = .ending → exec (.abortJob tag [t]) s = .next (s.replying 0x21#8 tag [t] [0x00#8, 0x04#8])) ∧
        (j.state = .running → s.engine.phase = .plan → s.engine.abort = none →
          ((∀ q ∈ s.matrix.waiting, q.issuer ≠ .engine) → exec (.abortJob tag [t]) s = .next (State.replying
            { s with engine := { s.engine with abort := some ⟨.abortedHost, .nothing⟩ } }
            0x21#8 tag [t] [0x00#8, 0x01#8])) ∧
          ((∃ q ∈ s.matrix.waiting, q.issuer = .engine) → s.matrix.slot ≠ .empty → s.hv.rail ≠ .fault →
            exec (.abortJob tag [t]) s = .next (State.replying { s with
              queue := gone, engine := Engine.reset
              matrix := { s.matrix with
                waiting := s.matrix.waiting.filter (fun q => decide (q.issuer ≠ .engine)) ++ [⟨.allOpen, .jobEnd⟩] } }
              0x21#8 tag [t] [0x00#8, 0x01#8]))) ∧
        ((j.state = .running ∧ s.engine.phase = .measure ∧ s.engine.abort = none) ∨ j.state = .logWait ∨
            j.state = .suspended →
          s.matrix.slot = .empty → s.hv.rail = .safe → s.link.exchange = none →
          ∃ (l : Lmu) (im : List (Nat × Rail)) (touched : List Nat),
            l.phase = .idle ∧ (∀ c : Chan, 1 ≤ c.pos → tget im c.key = s.imageOf c) ∧
            (∀ k, k ≤ 3 → s.isBlocked ⟨0, k⟩ = false → tget im k = some .opn) ∧
            exec (.abortJob tag [t]) s = .next (State.replying { s with
              queue := gone, engine := Engine.reset, lmu := l
              matrix := { s.matrix with image := im, slot := .sending ⟨⟨.allOpen, .jobEnd⟩, []⟩ 0 touched }
              link := { s.link with exchange := some ⟨.allOpen, false, false⟩, replyTimer := none } }
              0x21#8 tag [t] ([0x00#8] ++ le1 j.state.code))) ∧
        (j.state = .running → s.engine.phase = .hvStep → s.engine.abort = none → s.matrix.slot = .empty →
          (s.hv.rail = .ramp ∨ s.hv.rail = .dwell) →
          exec (.abortJob tag [t]) s = .next (State.replying { s with
            queue := gone, engine := Engine.reset
            hv := { s.hv with
              rail := .discharge, target := 0, values := none, held := none, request := none, history := []
              prevI := none, arcs := 0, tickTimer := none, dwellTimer := none, holdTimer := none
              limitTimer := some 2000, cause := .stop }
            matrix := { s.matrix with slot := .held ⟨⟨.allOpen, .jobEnd⟩, []⟩ } } 0x21#8 tag [t] [0x00#8, 0x01#8])) ∧
        (j.state = .running → s.engine.phase = .hvStep → s.engine.abort = none → s.matrix.slot = .empty →
          ∃ hv : Hv, hv = { s.hv with
              values := none, held := none, request := none, history := [], prevI := none, arcs := 0 } ∧
            (s.hv.rail = .discharge → exec (.abortJob tag [t]) s = .next (State.replying { s with
              queue := gone, engine := Engine.reset, hv := hv
              matrix := { s.matrix with slot := .held ⟨⟨.allOpen, .jobEnd⟩, []⟩ } }
              0x21#8 tag [t] [0x00#8, 0x01#8])) ∧
            (s.hv.rail = .safe → s.link.exchange = none →
              ∃ (l : Lmu) (im : List (Nat × Rail)) (touched : List Nat),
                l.phase = .idle ∧ (∀ c : Chan, 1 ≤ c.pos → tget im c.key = s.imageOf c) ∧
                (∀ k, k ≤ 3 → s.isBlocked ⟨0, k⟩ = false → tget im k = some .opn) ∧
                exec (.abortJob tag [t]) s = .next (State.replying { s with
                  queue := gone, engine := Engine.reset, lmu := l, hv := hv
                  matrix := { s.matrix with image := im, slot := .sending ⟨⟨.allOpen, .jobEnd⟩, []⟩ 0 touched }
                  link := { s.link with exchange := some ⟨.allOpen, false, false⟩, replyTimer := none } }
                  0x21#8 tag [t] [0x00#8, 0x01#8])))) ∧
  ∀ (tag : Byte) (s : State), s.ready →
    (((∀ j rest, s.queue.jobs = j :: rest → j.state ≠ .suspended) ∨ s.hv.coverClosed = false) →
      exec (.resume tag []) s = .next (s.replying 0x25#8 tag [] [0x04#8])) ∧
    ∀ j rest ts v, s.queue.jobs = j :: rest → j.state = .suspended → s.hv.coverClosed = true →
      s.engine.inHand = some ⟨.targets ts true, .hv v⟩ → s.engine.abort = none →
      ∃ u : State, u = { s with
          queue := { s.queue with jobs := { j with state := .running } :: rest }
          engine := { s.engine with phase := .plan, isRepeat := true, ctl := .wait } } ∧
        (s.unchangedBy ts → exec (.resume tag []) s = .next (State.replying { u with
          engine := { u.engine with phase := .hvStep }, lmu := s.lmu.sourceOff
          hv := { s.hv with request := some v } } 0x25#8 tag [] [0x00#8])) ∧
        (s.hv.rail = .safe → s.matrix.slot = .empty → (∀ x ∈ ts, s.checkTarget x = none) →
          (∀ r, 1 ≤ r → r ≤ 32 → s.changeList (s.stepTaken ts) r = []) → s.refChanges (s.stepTaken ts) ≠ [] →
          exec (.resume tag []) s = .next (State.replying { u with
            lmu := s.lmu.sourceOff
            matrix := { s.matrix with
              image := writeImage s.matrix.image 0 (s.refChanges (s.stepTaken ts))
              slot := .settling (s.stepTaken ts) [0] 1 } } 0x25#8 tag [] [0x00#8])) ∧
        ∀ p, s.sendsTo ts p → exec (.resume tag []) s =
          .next (State.replying (u.planSent (s.stepTaken ts) p) 0x25#8 tag [] [0x00#8])

/-- The head starts when every condition holds (the slot EMPTY, the rail SAFE): it takes its snapshot and its mark and
is RUNNING with a JOB_START record. A REFCHECK's engine offers P0 on SOURCE and P1 on RETURN, all others OPEN: the
plan enters SENDING, P0 and P1 are switched, and with no card to switch the slot settles for 1 ms; else the first SET
goes out. A LEARN clears the net table, draws its first root and offers the whole-pool step. A LEARN_LEADS offers the
common point and its partner. With the nets of the range sound and the points touched fit, a CHECK offers the first
pair of its first net (of two members or more), or, with no pair to measure, that net's whole-net test; and an
INSULATE, its members on HV-64 positions, its offset step with every channel OPEN, which is requested at once where
they are. What a plan does at once with an attention exchange on the link is the model's choice (log 31, DESIGN
CHOICE). A CHECK whose first net is above its last is refused with BAD_RANGE and leaves the queue. -/
def Obligations.HeadJobStartsOrIsRefused : Prop :=
  ∀ (j : Job) (rest : List Job) (s : State), s.queue.jobs = j :: rest → j.state = .queued → s.queue.hold = false →
    s.link.startup = false → s.link.enumPhase = .idle → s.host.slots = [] → s.log.entries.length + 9 ≤ 256 →
    s.printer.state ≠ .idle → s.log.reporting = true →
    ∃ (runs : Queue) (start : RecData),
      runs = { s.queue with jobs := { j with
        state := .running, snapshot := some ⟨s.limits, s.hv.hvSet⟩
        flagU := decide (s.reference = .unverified) } :: rest } ∧
      start = { kind := .jobStart, system := false, flags := { u := decide (s.reference = .unverified) }
                tag := some j.tag, job := some j.spec } ∧
      (j.spec = .refcheck → s.matrix.slot = .empty → s.hv.rail = .safe →
        ∃ (ts : List (Nat × Rail)) (tk : Taken), ts = [(0, .source), (1, .ret)] ∧ tk = s.stepTaken ts ∧
          tk = ⟨⟨.targets ts true, .engine⟩, [(⟨0, 0⟩, .source), (⟨0, 1⟩, .ret)]⟩ ∧
          ((s.imageOf ⟨0, 0⟩ ≠ some .source ∧ ∀ p, 1 ≤ p → p ≤ 32 → s.changeList tk p = []) ∨ (∃ p, s.sendsTo ts p) →
            ∃ t : State, exec .headJobStart s = .next t ∧ t.queue = runs ∧
              t.log.entries.map (·.data) = s.log.entries.map (·.data) ++ [start] ∧
              t.engine = { Engine.reset with
                work := .refLv, phase := .plan
                inHand := some ⟨.targets ts true, .lmu ⟨.cont, 16, .r100, s.limits.settle⟩⟩ } ∧
              t.hv = s.hv ∧ t.lmu = s.lmu.sourceOff ∧ t.store = s.store ∧ t.reference = s.reference ∧
              ((∀ p, 1 ≤ p → p ≤ 32 → s.changeList tk p = []) →
                t.matrix = { s.matrix with slot := .settling tk [0] 1, image := t.matrix.image } ∧ t.link = s.link ∧
                t.imageOf ⟨0, 0⟩ = some .source ∧ t.imageOf ⟨0, 1⟩ = some .ret ∧
                (∀ k, 2 ≤ k → k ≤ 3 → t.imageOf ⟨0, k⟩ =
                  if s.isBlocked ⟨0, k⟩ = true then s.imageOf ⟨0, k⟩ else some .opn) ∧
                ∀ c : Chan, 1 ≤ c.pos → t.imageOf c = s.imageOf c) ∧
              ∀ p, s.sendsTo ts p → t.matrix = (s.planSent tk p).matrix ∧ t.link = (s.planSent tk p).link)) ∧
      (∀ hv p q more n ts, j.spec = .learn hv → s.reference ≠ .failed → s.store.mapSound →
        (s.store.map.filter (fun e => !(s.isBlocked e.2))).map (·.1) = p :: q :: more →
        ts = (p, .source) :: (q :: more).map (fun x => (x, .ret)) → s.sendsTo ts n →
        ∃ t : State, exec .headJobStart s = .next t ∧ t.queue = runs ∧
          t.log.entries.map (·.data) = s.log.entries.map (·.data) ++ [start] ∧
          t.store = { s.store with nets := [], owner := [] } ∧
          t.engine = { Engine.reset with
            work := .learn ⟨hv, q :: more, some p, q :: more, [], 0, ⟨⟨0, 0⟩, [], ⟨0, 0⟩, .popped⟩, 1, .whole⟩
            phase := .plan, nets := 1
            inHand := some ⟨.targets ts true, .lmu ⟨.iso, s.limits.n, s.limits.range, s.limits.settle⟩⟩ } ∧
          t.hv = s.hv ∧ t.lmu = s.lmu.sourceOff ∧ t.reference = s.reference ∧
          t.matrix = (s.planSent (s.stepTaken ts) n).matrix ∧ t.link = (s.planSent (s.stepTaken ts) n).link) ∧
      (∃ (fit : Nat → Prop) (sound : Nat → Nat → Prop) (begun : Engine → List (Nat × Rail) → Nat → Prop)
          (lv : MeasReq),
        (∀ p, fit p ↔ ∃ c, s.chanOf p = some c ∧ s.reachable c = true ∧ s.isBlocked c = false) ∧
        (∀ f l, sound f l ↔ 1 ≤ f ∧ f ≤ l ∧ s.reference ≠ .failed ∧ s.store.wf = true ∧ ∀ r ∈ s.store.nets,
          f ≤ r.body.num → r.body.num ≤ l → r.corrupt = false ∧ r.check = crc16 r.body.bytes) ∧
        lv = ⟨.cont, s.limits.n, s.limits.range, s.limits.settle⟩ ∧
        (∀ e ts n, begun e ts n ↔ ∃ t : State, exec .headJobStart s = .next t ∧ t.queue = runs ∧
          t.log.entries.map (·.data) = s.log.entries.map (·.data) ++ [start] ∧ t.engine = e ∧ t.hv = s.hv ∧
          t.lmu = s.lmu.sourceOff ∧ t.store = s.store ∧ t.reference = s.reference ∧
          t.matrix = (s.planSent (s.stepTaken ts) n).matrix ∧ t.link = (s.planSent (s.stepTaken ts) n).link) ∧
        (∀ c q ts n, j.spec = .learnLeads c → 4 ≤ c → c ∈ s.mapped → q ≠ c → tableWf s.store.map = true →
          (∀ p ∈ s.mapped, fit p) → q ∈ s.mapped →
          (if c < q then ∀ p ∈ s.mapped, c < p → q ≤ p else ∀ p ∈ s.mapped, q ≤ p ∧ p ≤ c) →
          ts = [(c, .source), (q, .ret)] → s.sendsTo ts n →
          begun { Engine.reset with
            work := .leads ⟨s.mapped, c, q, none, 0⟩, phase := .plan, inHand := some ⟨.targets ts true, .lmu lv⟩ } ts n) ∧
        (∀ f l ph b more ts n, j.spec = .check f l ph → sound f l →
          (s.store.nets.map (·.body)).filter (fun b => decide (f ≤ b.num ∧ b.num ≤ l)) = b :: more →
          (∀ q ∈ b :: more, ph = .cont → 2 ≤ q.members.length → ∀ p ∈ q.members, fit p) →
          (ph ≠ .cont → (∀ q ∈ b :: more, ∀ p ∈ q.members, fit p) ∧
            ∀ p ∈ s.mapped, (∀ m, s.ownerOf p = some m → b.num < m) → fit p) → s.sendsTo ts n →
          (∀ x y ms, ph ≠ .iso → b.members = x :: y :: ms → ts = [(x, .source), (y, .ret)] →
            begun { Engine.reset with
              work := .check ⟨l, ph, b.num, b.members, b.override.getD s.limits.pass, false, 0, 1, [], [], 0,
                ⟨⟨0, 0⟩, [], ⟨0, 0⟩, .popped⟩, .sweep⟩
              phase := .plan, inHand := some ⟨.targets ts true, .lmu lv⟩ } ts n) ∧
          ∀ cs, ph = .iso ∨ (ph = .both ∧ b.members.length = 1) →
            cs = s.mapped.filter (fun p => decide (∀ m ∈ s.ownerOf p, b.num < m)) → cs ≠ [] →
            ts = b.members.map (fun p => (p, .source)) ++ cs.map (fun p => (p, .ret)) →
            begun { Engine.reset with
              work := .check ⟨l, ph, b.num, b.members, b.override.getD s.limits.pass, true, 0, 1, [],
                cs.map (fun p => ⟨p, false⟩), 0, ⟨⟨0, 0⟩, [], ⟨0, 0⟩, .popped⟩, .whole⟩
              phase := .plan, inHand := some ⟨.targets ts true, .lmu { lv with mode := .iso }⟩ } ts n) ∧
        ∀ f l loc auto e v, j.spec = .insulate f l loc auto → sound f l →
          (∃ r ∈ s.store.nets, f ≤ r.body.num ∧ r.body.num ≤ l ∧ r.body.hv = true) → (∀ p ∈ s.mapped, fit p) →
          (∀ r ∈ s.store.nets, f ≤ r.body.num → r.body.num ≤ l → r.body.hv = true → ∀ p ∈ r.body.members,
            fit p ∧ ∀ c ∈ s.chanOf p, (s.posn c.pos).kind = .hv64) →
          v = ⟨s.hv.hvSet.setV, s.hv.hvSet.rate, s.hv.hvSet.dwell, s.hv.hvSet.trip, s.hv.hvSet.arcTh,
            s.hv.hvSet.arcLim, s.hv.hvSet.minIr, .measure⟩ →
          e = { Engine.reset with
            work := .insulate ⟨l, loc, auto, .offset, f - 1, [], [], HeldResult.empty, false, HeldResult.empty, false,
              ⟨⟨0, 0⟩, [], ⟨0, 0⟩, .popped⟩, 0⟩
            phase := .plan, inHand := some ⟨.targets [] true, .hv v⟩ } →
          (∀ n, s.sendsTo [] n → begun e [] n) ∧
          (s.unchangedBy [] → ∃ t : State, exec .headJobStart s = .next t ∧ t.queue = runs ∧
            t.log.entries.map (·.data) = s.log.entries.map (·.data) ++ [start] ∧
            t.engine = { e with phase := .hvStep } ∧ t.hv = { s.hv with request := some v } ∧
            t.lmu = s.lmu.sourceOff ∧ t.store = s.store ∧ t.reference = s.reference ∧ t.matrix = s.matrix ∧
            t.link = s.link)) ∧
      ∀ f l ph, j.spec = .check f l ph → l < f → s.hv.rail ≠ .fault →
        ∃ t : State, exec .headJobStart s = .next t ∧ t.queue.jobs = rest ∧
          t.log.entries.map (·.data) = s.log.entries.map (·.data) ++
            [start,
             { kind := .jobEnd, system := true, tag := some j.tag, job := some j.spec
               counts := some ⟨⟨.badRange, .nothing⟩, 0, 0, 0, 0, 0⟩ }] ∧
          t.events.pending.getLsbD 7 = true ∧ t.store = s.store ∧ t.hv = s.hv ∧ t.lmu = s.lmu ∧
          t.matrix.slot = (if s.matrix.slot.issuer = some .jobEnd then s.matrix.slot.orphan else s.matrix.slot) ∧
          t.matrix.image = s.matrix.image ∧ t.matrix.roster = s.matrix.roster

/-- A high-voltage step that is complete at the end of the safe hold is judged. Of a REFCHECK by its own window:
inside it with the low-voltage step passed the reference is VERIFIED, outside it or after a breakdown FAILED, with a
REF_FAIL record (WINDOW with the resistance and the arcs, BREAKDOWN with the voltage and the current), and the job
ends COMPLETE. Of an INSULATE: an offset step with a leak (a current of a quarter of the trip current or more, or a
breakdown) ends the job with FIXTURE_LEAK, and one without is followed by the main step of the next net with the HV
flag: its members on HV, every mapped point outside it on COLLECT. A main step that passes, or fails with locate off
(with its record), processes its net. A locate of one unit records that unit as the partner; one of more tests the
lower half; and when the budget is spent before the next test the last failing result is recorded with flag N. Past
the last net the job ends COMPLETE with its all-open plan. -/
def Obligations.RefcheckSetsTheReferenceState : Prop :=
  (∀ (lv : Bool) (r : HeldResult) (ms : Nat) (j : Job) (rest : List Job) (s : State), s.hv.rail = .discharge →
    s.hv.holdTimer = some ms → s.hv.held = some r → s.engine.phase = .hvStep → s.engine.work = .refHv lv →
    s.engine.abort = none → s.engine.toAppend = [] → s.queue.jobs = j :: rest →
    r.verdict ≠ .interrupted → s.log.entries.length + 9 ≤ 256 →
    s.matrix.slot = .empty → s.link.exchange = none →
    ∃ (t : State) (recs : List RecData), exec .safeHoldExpiry s = .next t ∧
      ((∃ c, r.verdict = .breakdown c) → t.reference = .failed ∧
        recs = [{ kind := .refFail, system := false, flags := { u := j.flagU, s := s.engine.isRepeat }
                  tag := some j.tag, pointA := some 2, pointB := some 3, cause := some .refBreakdown
                  value := some ⟨.dV, some r.v⟩, second := some ⟨.nA, some r.i⟩ }]) ∧
      ((∀ c, r.verdict ≠ .breakdown c) → 19000 ≤ r.ir ∧ r.ir ≤ 21000 →
        t.reference = (if lv then .verified else s.reference) ∧ recs = []) ∧
      ((∀ c, r.verdict ≠ .breakdown c) → ¬ (19000 ≤ r.ir ∧ r.ir ≤ 21000) → t.reference = .failed ∧
        recs = [{ kind := .refFail, system := false, flags := { u := j.flagU, s := s.engine.isRepeat }
                  tag := some j.tag, pointA := some 2, pointB := some 3, cause := some .window
                  value := some ⟨.kOhm, some r.ir⟩, arcs := some r.arcs }]) ∧
      (s.log.reporting = true → s.printer.state ≠ .idle →
        t.log.entries.map (·.data) = s.log.entries.map (·.data) ++ recs ∧ t.store = s.store) ∧
      t.hv = { s.hv with
        rail := .safe, holdTimer := none, limitTimer := none, held := none, values := none } ∧
      t.engine = Engine.reset ∧
      t.queue.jobs = { j with
        state := .ending, ended := some ⟨.complete, .nothing⟩, steps := s.engine.steps + 1, nets := s.engine.nets
        extra := s.engine.extra, tests := j.tests + recs.length } :: rest ∧
      (∃ touched, t.matrix.slot = .sending ⟨⟨.allOpen, .jobEnd⟩, []⟩ 0 touched) ∧
      t.link.exchange = some ⟨.allOpen, false, false⟩ ∧ t.lmu.phase = .idle) ∧
  ∀ (w : InsWork) (r : HeldResult) (ms : Nat) (j : Job) (rest : List Job) (snap : Snapshot) (s : State),
    s.hv.rail = .discharge → s.hv.holdTimer = some ms → s.hv.held = some r → s.engine.phase = .hvStep →
    s.engine.work = .insulate w → s.engine.abort = none → s.engine.toAppend = [] → s.queue.jobs = j :: rest →
    j.snapshot = some snap → r.verdict ≠ .interrupted → s.log.entries.length + 9 ≤ 256 → s.log.reporting = true →
    s.printer.state ≠ .idle → s.matrix.slot = .empty → s.link.exchange = none →
    ∃ (hv : Hv) (safe t : State) (kept : Prop) (ended : EndCause → Nat → Nat → Prop)
        (recOf : HeldResult → Bool → RecData),
      hv = { s.hv with rail := .safe, holdTimer := none, limitTimer := none, held := none, values := none } ∧
      safe = { s with hv := hv } ∧ exec .safeHoldExpiry s = .next t ∧
      (kept ↔ t.hv = hv ∧ t.store = s.store ∧ t.reference = s.reference) ∧
      (∀ c n k, ended c n k ↔ kept ∧ t.engine = Engine.reset ∧
        (∃ l, t.matrix.slot = .sending ⟨⟨.allOpen, .jobEnd⟩, []⟩ 0 l) ∧ t.queue.jobs = { j with
          state := .ending, ended := some c, steps := s.engine.steps + 1, nets := s.engine.nets + n
          extra := s.engine.extra, tests := j.tests + k } :: rest) ∧
      (∀ h rep, recOf h rep = {
          kind := match h.verdict with
            | .breakdown _ => .breakdown
            | .arc => .arc
            | _ => .irLow
          system := false, flags := { u := j.flagU, s := rep }, tag := some j.tag, net := some w.num
          pointA := w.members.head?
          value := some (match h.verdict with
            | .breakdown _ => ⟨.dV, some h.v⟩
            | _ => ⟨.kOhm, some h.ir⟩)
          second := some ⟨.nA, some (match h.verdict with
            | .breakdown _ => h.i
            | _ => h.offset)⟩
          arcs := some h.arcs
          cause := match h.verdict with
            | .breakdown c => some (.brk c)
            | _ => none }) ∧
      (w.stage = .offset →
        ((∃ c, r.verdict = .breakdown c) → ended ⟨.fixtureLeak, .current r.i⟩ 0 0) ∧
        ((∀ c, r.verdict ≠ .breakdown c) → snap.hv.trip * 2500 ≤ s.hv.offset →
          ended ⟨.fixtureLeak, .current s.hv.offset⟩ 0 0) ∧
        ∀ pre b post ts n, (∀ c, r.verdict ≠ .breakdown c) → s.hv.offset < snap.hv.trip * 2500 →
          s.store.nets = pre ++ ⟨b, crc16 b.bytes, false⟩ :: post → (∀ x ∈ pre, x.body.num ≤ w.num) →
          w.num < b.num → b.num ≤ w.last → b.hv = true →
          ts = b.members.map (fun p => (p, .hv)) ++
            (s.mapped.filter (fun p => decide (s.ownerOf p ≠ some b.num))).map (fun p => (p, .collect)) →
          safe.sendsTo ts n → kept ∧
          t.queue = s.queue ∧ t.log = s.log ∧ t.matrix = (safe.planSent (s.stepTaken ts) n).matrix ∧
          t.link = (safe.planSent (s.stepTaken ts) n).link ∧ t.engine = { s.engine with
            work := .insulate { w with stage := .main, num := b.num, members := b.members }
            phase := .plan, isRepeat := false, ctl := .wait, steps := s.engine.steps + 1
            inHand := some ⟨.targets ts true, .hv ⟨snap.hv.setV, snap.hv.rate, snap.hv.dwell, snap.hv.trip,
              snap.hv.arcTh, snap.hv.arcLim, snap.hv.minIr, .apply⟩⟩ }) ∧
      (w.stage = .main → (∀ x ∈ s.store.nets, x.body.num ≤ w.num ∨ w.last < x.body.num) →
        (r.verdict = .pass → ended ⟨.complete, .nothing⟩ 1 0 ∧ t.log = s.log) ∧
        (r.verdict ≠ .pass → w.locate = false → ended ⟨.complete, .nothing⟩ 1 1 ∧
          t.log.entries.map (·.data) = s.log.entries.map (·.data) ++ [recOf r s.engine.isRepeat]) ∧
        (r.verdict ≠ .pass → w.locate = true → (∀ x ∈ s.store.nets, x.body.num = w.num) →
          (∀ p, s.unassigned = [p] → ended ⟨.complete, .nothing⟩ 1 1 ∧
            t.log.entries.map (·.data) =
              s.log.entries.map (·.data) ++ [{ recOf r s.engine.isRepeat with pointB := some p }]) ∧
          ∀ ps m ts n, s.unassigned = ps → 2 ≤ ps.length → m = (ps.length + 1) / 2 → 1 ≤ snap.hv.budget →
            ts = w.members.map (fun p => (p, .hv)) ++ (ps.take m).map (fun p => (p, .collect)) →
            safe.sendsTo ts n → kept ∧
            t.queue = s.queue ∧ t.log = s.log ∧ t.matrix = (safe.planSent (s.stepTaken ts) n).matrix ∧
            t.link = (safe.planSent (s.stepTaken ts) n).link ∧ t.engine.phase = .plan ∧
            t.engine.work = .insulate { w with
              stage := .locate, units := ps.map (fun p => ⟨.point p, [p], false⟩)
              gRes := r, gRepeat := s.engine.isRepeat, mainRes := r, mainRepeat := s.engine.isRepeat, locCount := 0
              search := ⟨⟨0, ps.length⟩, [⟨m, ps.length - m⟩], ⟨0, m⟩, .lower⟩ })) ∧
      (∀ p q, w.stage = .locate → (∀ x ∈ s.store.nets, x.body.num ≤ w.num ∨ w.last < x.body.num) →
        w.units = [⟨.point p, [p], false⟩, ⟨.point q, [q], false⟩] →
        w.search = ⟨⟨0, 2⟩, [⟨1, 1⟩], ⟨0, 1⟩, .lower⟩ → r.verdict = .pass → snap.hv.budget = w.locCount + 1 →
        ended ⟨.complete, .nothing⟩ 1 1 ∧
        t.log.entries.map (·.data) = s.log.entries.map (·.data) ++
          [{ recOf w.gRes w.gRepeat with pointB := some p, flags := { u := j.flagU, n := true, s := w.gRepeat } }])

/-- The result that ends a low-voltage step is judged, recorded and followed by the next step. CHECK, the last pair of
a two-member net: the mean as a resistance less both leads is CONNECTED up to the net's pass limit without a record,
HIGH below the open limit and OPEN from it on, with its record; a HIGH that finds fewer than nine free entries becomes
the engine's pending record, the job passes from RUNNING to LOG_WAIT and LOG_STALL is raised (R93, R159), and so for
the REF_FAIL of a REFCHECK, whose reference is FAILED all the same; a pair with a member left is followed by the next
pair, a root of three members found OPEN to both others is DETACHED and the second member is the next root. The
isolation phase then tests the whole net against its candidates (mapped points of no net or of a net above): isolated,
the net is done; a leak is resolved where the group has one member, by a confirming step from the lowest member, and
is split otherwise; a half that passes is followed by the other, and two that pass give an aggregate SHORT. A
confirmed SHORT carries the value of the confirming step, or that of the isolation test where it is OVER; of a member
of another net it carries that net, with flag C where it has two members or more, whose other members are excluded
from the groups that wait; where that net is CORRUPT the job ends with ABORTED_TABLE and no record. A group that waits
is tested next; with none the net is done. LEARN: a whole pool isolated from its root leaves the root unassigned and
the next one is drawn (past the last, the job is COMPLETE); a leak resolves a single point with a confirming step or
tests the lower half; a resolved point that is CONNECTED or HIGH (LEARN_HIGH) makes the root's net, stored under the
next net number, and one that is OPEN gives LEARN_LEAK and no net. LEARN_LEADS: the common point's lead is half the
value, another point's the value less that lead, both clamped to 5000 with LEAD_HIGH. REFCHECK (R72): the low-voltage
step passes within 1,960 to 2,040 mΩ, without lead compensation, and fails outside it or with OVER, the reference then
FAILED with a REF_FAIL record; the high-voltage step's plan follows either way, P2 on HV and P3 on COLLECT. A job with
no step left ends COMPLETE with its counts and its all-open plan. -/
def Obligations.CheckJudgesAPairByItsBand : Prop :=
  (∀ (j : Job) (rest : List Job) (snap : Snapshot) (code : Word16) (s : State), s.lmu.phase = .sample →
    s.lmu.issuer = .engine → s.lmu.n = s.lmu.count + 1 → s.engine.phase = .measure → s.engine.toAppend = [] →
    s.queue.jobs = j :: rest → j.snapshot = some snap → 256 < s.log.entries.length + 9 →
    s.log.reporting = true → s.printer.state ≠ .idle → (∀ r ∈ s.host.slots, r.phase ≠ .waiting) →
    s.lmu.mode = .cont → code.toNat ≠ 65535 →
    ∃ (mean div raw : Nat) (t : State) (stalled : Work → Ctl → RecData → Prop),
      mean = (s.lmu.codeSum + code.toNat + s.lmu.n / 2) / s.lmu.n ∧
      div = (match s.lmu.range with
        | .r100 => 10000
        | .r10 => 1000
        | .r1 => 100) ∧
      raw = (mean * 3125 + div / 2) / div ∧ exec (.contConversion code) s = .next t ∧
      (∀ w c rec, stalled w c rec ↔ t.log = s.log ∧ t.queue = { s.queue with jobs := { j with state := .logWait } :: rest } ∧
        t.engine = { s.engine with
          work := w, phase := .between, ctl := c, pendingRec := some rec, toAppend := [], steps := s.engine.steps + 1 } ∧
        t.events.pending.getLsbD 5 = true ∧ t.lmu.phase = .idle ∧ t.matrix = s.matrix ∧ t.link = s.link ∧
        t.hv = s.hv ∧ t.store = s.store) ∧
      (∀ w a b rc, s.engine.work = .check w → w.doing = .sweep → w.members[w.rootIdx]? = some a →
        w.members[w.next]? = some b → rc = raw - s.leadOf a - s.leadOf b → w.passLimit < rc → rc < snap.limits.opn →
        t.reference = s.reference ∧ stalled (.check { w with next := w.next + 1 }) .sweep
          { kind := .high, system := false, flags := { u := j.flagU }, tag := some j.tag, net := some w.num
            pointA := some a, pointB := some b, value := some ⟨.mOhm, some rc⟩, range := some s.lmu.range }) ∧
      (s.engine.work = .refLv → raw < 1960 ∨ 2040 < raw →
        t.reference = .failed ∧ stalled (.refHv false) .toRefHv
          { kind := .refFail, system := false, flags := { u := j.flagU }, tag := some j.tag, pointA := some 0
            pointB := some 1, cause := some .window, value := some ⟨.mOhm, some raw⟩, range := some s.lmu.range })) ∧
  ∀ (j : Job) (rest : List Job) (snap : Snapshot) (s : State), s.lmu.phase = .sample → s.lmu.issuer = .engine →
    s.lmu.n = s.lmu.count + 1 → s.engine.phase = .measure → s.engine.toAppend = [] → s.queue.jobs = j :: rest →
    j.snapshot = some snap → s.log.entries.length + 9 ≤ 256 → s.log.reporting = true → s.printer.state ≠ .idle →
    s.matrix.slot = .empty → s.hv.rail = .safe → s.link.exchange = none → (∀ r ∈ s.host.slots, r.phase ≠ .waiting) →
    ∃ (log : List RecData) (cont iso : MeasReq) (ended : State → Nat → Nat → Nat → Prop)
        (sent : State → Work → List (Nat × Rail) → Nat → MeasReq → Nat → Nat → Prop),
      log = s.log.entries.map (·.data) ∧
      cont = ⟨.cont, snap.limits.n, snap.limits.range, snap.limits.settle⟩ ∧
      iso = ⟨.iso, snap.limits.n, snap.limits.range, snap.limits.settle⟩ ∧
      (∀ t n x k, ended t n x k ↔ t.hv = s.hv ∧ t.engine = Engine.reset ∧ t.lmu.phase = .idle ∧
        (∃ touched, t.matrix.slot = .sending ⟨⟨.allOpen, .jobEnd⟩, []⟩ 0 touched) ∧ t.queue.jobs = { j with
          state := .ending, ended := some ⟨.complete, .nothing⟩, steps := s.engine.steps + 1
          nets := s.engine.nets + n, extra := s.engine.extra + x, tests := j.tests + k } :: rest) ∧
      (∀ t w ts p m n x, sent t w ts p m n x ↔ t.hv = s.hv ∧
        t.engine = { s.engine with
          work := w, phase := .plan, isRepeat := false, ctl := .wait, inHand := some ⟨.targets ts true, .lmu m⟩
          steps := s.engine.steps + 1, nets := s.engine.nets + n, extra := s.engine.extra + x } ∧
        t.matrix = (s.planSent (s.stepTaken ts) p).matrix ∧ t.link = (s.planSent (s.stepTaken ts) p).link) ∧
      (∀ code : Word16, s.lmu.mode = .cont → s.engine.work = .refLv → code.toNat ≠ 65535 ∨ s.lmu.range = .r1 →
        ∃ (mean div raw : Nat) (value : Option Nat) (pass : Bool) (recs : List RecData) (t : State),
          mean = (s.lmu.codeSum + code.toNat + s.lmu.n / 2) / s.lmu.n ∧
          div = (match s.lmu.range with
            | .r100 => 10000
            | .r10 => 1000
            | .r1 => 100) ∧
          raw = (mean * 3125 + div / 2) / div ∧ value = (if code.toNat = 65535 then none else some raw) ∧
          pass = decide (code.toNat ≠ 65535 ∧ 1960 ≤ raw ∧ raw ≤ 2040) ∧
          recs = (if pass then [] else [{
            kind := .refFail, system := false, flags := { u := j.flagU }, tag := some j.tag, pointA := some 0
            pointB := some 1, cause := some .window, value := some ⟨.mOhm, value⟩, range := some s.lmu.range }]) ∧
          exec (.contConversion code) s = .next t ∧
          ∀ ts v, ts = [(2, .hv), (3, .collect)] →
            v = ⟨500, 10, 100, snap.hv.trip, snap.hv.arcTh, snap.hv.arcLim, snap.hv.minIr, .zero⟩ →
            (∃ n, s.sendsTo ts n) ∨ ((∀ x ∈ ts, s.checkTarget x = none) ∧ s.refChanges (s.stepTaken ts) ≠ [] ∧
              ∀ p, 1 ≤ p → p ≤ 32 → s.changeList (s.stepTaken ts) p = []) →
            t.reference = (if pass then s.reference else .failed) ∧ t.log.entries.map (·.data) = log ++ recs ∧
            t.queue = { s.queue with jobs := { j with tests := j.tests + recs.length } :: rest } ∧
            t.hv = s.hv ∧ t.store = s.store ∧ t.engine = { s.engine with
              work := .refHv pass, phase := .plan, isRepeat := false, ctl := .wait
              inHand := some ⟨.targets ts true, .hv v⟩, steps := s.engine.steps + 1 } ∧
            (∀ n, s.sendsTo ts n → t.matrix = (s.planSent (s.stepTaken ts) n).matrix ∧
              t.link = (s.planSent (s.stepTaken ts) n).link) ∧
            ((∀ p, 1 ≤ p → p ≤ 32 → s.changeList (s.stepTaken ts) p = []) → t.link = s.link ∧
              t.matrix = { s.matrix with
                image := writeImage s.matrix.image 0 (s.refChanges (s.stepTaken ts))
                slot := .settling (s.stepTaken ts) [0] 1 })) ∧
      (∀ code : Word16, s.lmu.mode = .cont → code.toNat ≠ 65535 →
        ∃ (mean div raw : Nat) (t : State),
          mean = (s.lmu.codeSum + code.toNat + s.lmu.n / 2) / s.lmu.n ∧
          div = (match s.lmu.range with
            | .r100 => 10000
            | .r10 => 1000
            | .r1 => 100) ∧
          raw = (mean * 3125 + div / 2) / div ∧ exec (.contConversion code) s = .next t ∧
          (∀ w a b rc, s.engine.work = .check w → w.doing = .sweep → w.members = [a, b] → w.rootIdx = 0 → w.next = 1 →
            w.openList = [] → rc = raw - s.leadOf a - s.leadOf b →
            ∃ (recs : List RecData) (cs : List Nat), recs = (if rc ≤ w.passLimit then [] else
                [{ kind := if rc < snap.limits.opn then .high else .opn, system := false, flags := { u := j.flagU }
                   tag := some j.tag, net := some w.num, pointA := some a, pointB := some b
                   value := some ⟨.mOhm, some rc⟩, range := some s.lmu.range }]) ∧
              cs = s.mapped.filter (fun p => decide (∀ m ∈ s.ownerOf p, w.num < m)) ∧
              ((∀ r ∈ s.store.nets, r.body.num ≤ w.num ∨ w.last < r.body.num) → w.phases = .cont ∨ cs = [] →
                ended t 1 0 recs.length ∧ t.store = s.store ∧ t.log.entries.map (·.data) = log ++ recs) ∧
              ∀ ts n, w.phases = .both → cs ≠ [] →
                ts = [(a, .source), (b, .source)] ++ cs.map (fun p => (p, .ret)) → s.sendsTo ts n →
                sent t (.check { w with
                  next := 2, inIso := true, doing := .whole, cands := cs.map (fun p => ⟨p, false⟩)
                  search := ⟨⟨0, 0⟩, [], ⟨0, 0⟩, .popped⟩ }) ts n iso 0 0 ∧
                t.store = s.store ∧ t.log.entries.map (·.data) = log ++ recs) ∧
          (∀ w a b c rc ts n, s.engine.work = .check w → w.doing = .sweep → w.members[w.rootIdx]? = some a →
            w.members[w.next]? = some b → w.members[w.next + 1]? = some c → rc = raw - s.leadOf a - s.leadOf b →
            ts = [(a, .source), (c, .ret)] → s.sendsTo ts n → t.store = s.store ∧
            sent t (.check { w with
              next := w.next + 1
              openList := w.openList ++
                if rc ≤ w.passLimit ∨ rc < snap.limits.opn then [] else [⟨b, some rc, s.lmu.range⟩] }) ts n cont 0 0 ∧
            t.log.entries.map (·.data) = log ++ (if w.passLimit < rc ∧ rc < snap.limits.opn then
              [{ kind := .high, system := false, flags := { u := j.flagU }, tag := some j.tag, net := some w.num
                 pointA := some a, pointB := some b, value := some ⟨.mOhm, some rc⟩, range := some s.lmu.range }]
              else [])) ∧
          (∀ w a b c o rc ts n, s.engine.work = .check w → w.doing = .sweep → w.members = [a, b, c] → w.rootIdx = 0 →
            w.next = 2 → w.openList = [o] → rc = raw - s.leadOf a - s.leadOf c → w.passLimit < rc →
            snap.limits.opn ≤ rc → ts = [(b, .source), (c, .ret)] → s.sendsTo ts n → t.store = s.store ∧
            sent t (.check { w with rootIdx := 1, openList := [] }) ts n cont 0 0 ∧
            t.log.entries.map (·.data) = log ++
              [{ kind := .detached, system := false, flags := { u := j.flagU }, tag := some j.tag, net := some w.num
                 pointA := some a }]) ∧
          (∀ w p x rc, s.engine.work = .learn w → w.doing = .confirm → w.root = some p → w.pool = [x] → w.list = [x] →
            w.found = [] → w.search.g = ⟨0, 1⟩ → w.search.stack = [] → 4 ≤ p → p < x →
            (∀ r ∈ s.store.nets, r.body.num < w.nextNum) → s.store.nets.length < 1024 →
            (∀ e ∈ s.store.owner, e.2 ≠ w.nextNum) → rc = raw - s.leadOf p - s.leadOf x →
            (rc < snap.limits.opn → ∃ b : NetBody, b = ⟨w.nextNum, [p, x], w.hv, none, []⟩ ∧
              t.store.nets = s.store.nets ++ [⟨b, crc16 b.bytes, false⟩] ∧
              (∀ q, t.ownerOf q = if q = p ∨ q = x then some w.nextNum else s.ownerOf q) ∧
              t.store.map = s.store.map ∧ t.store.leads = s.store.leads ∧
              ended t 0 1 (if rc ≤ snap.limits.pass then 0 else 1) ∧
              t.log.entries.map (·.data) = log ++ (if rc ≤ snap.limits.pass then [] else
                [{ kind := .learnHigh, system := false, flags := { u := j.flagU }, tag := some j.tag
                   net := some w.nextNum, pointA := some p, pointB := some x, value := some ⟨.mOhm, some rc⟩
                   range := some s.lmu.range }])) ∧
            (snap.limits.opn ≤ rc → snap.limits.pass < rc → t.store = s.store ∧ ended t 1 0 1 ∧
              t.log.entries.map (·.data) = log ++
                [{ kind := .learnLeak, system := false, flags := { u := j.flagU }, tag := some j.tag
                   net := some w.nextNum, pointA := some p, pointB := some x, value := some ⟨.kOhm, some w.gRes⟩
                   second := some ⟨.mOhm, some rc⟩, range := some s.lmu.range }])) ∧
          (∀ w k lead q more ts n, s.engine.work = .leads w → w.lead = none → lead = min 5000 (raw / 2) →
            4 ≤ w.common → s.store.wf = true → ((w.points = q :: more ∧ k = 0) ∨
              (w.points = w.common :: q :: more ∧ k = 1)) → q ≠ w.common →
            ts = [(q, .source), (w.common, .ret)] → s.sendsTo ts n →
            (∀ p, t.leadOf p = if p = w.common then lead else s.leadOf p) ∧ t.store.map = s.store.map ∧
            t.store.nets = s.store.nets ∧ t.store.owner = s.store.owner ∧
            sent t (.leads { w with lead := some lead, next := k }) ts n cont 0 1 ∧
            t.log.entries.map (·.data) = log ++ (if raw / 2 ≤ 5000 then [] else
              [{ kind := .leadHigh, system := false, flags := { u := j.flagU }, tag := some j.tag
                 pointA := some w.common, pointB := some w.partner, value := some ⟨.mOhm, some (raw / 2)⟩
                 range := some s.lmu.range }])) ∧
          ∀ w lc q lead, s.engine.work = .leads w → w.lead = some lc → w.points.drop w.next = [q] →
            lead = min 5000 (raw - lc) → 4 ≤ q → s.store.wf = true →
            (∀ p, t.leadOf p = if p = q then lead else s.leadOf p) ∧ t.store.map = s.store.map ∧
            t.store.nets = s.store.nets ∧ t.store.owner = s.store.owner ∧
            ended t 0 1 (if raw - lc ≤ 5000 then 0 else 1) ∧
            t.log.entries.map (·.data) = log ++ (if raw - lc ≤ 5000 then [] else
              [{ kind := .leadHigh, system := false, flags := { u := j.flagU }, tag := some j.tag
                 pointA := some q, pointB := some w.common, value := some ⟨.mOhm, some (raw - lc)⟩
                 range := some s.lmu.range }])) ∧
      (∀ (v i : Nat) (w : LearnWork) (p : Nat), s.lmu.mode = .iso → s.engine.work = .learn w → w.doing = .whole →
        w.root = some p →
        ∃ (vm im : Nat) (ohms : Option Nat) (t : State),
          vm = (s.lmu.vSum + min v 10000 + s.lmu.n / 2) / s.lmu.n ∧
          im = (s.lmu.iSum + min i 10000000 + s.lmu.n / 2) / s.lmu.n ∧
          ohms = (if im = 0 then none else some ((vm * 1000 + im / 2) / im)) ∧ exec (.isoConversion v i) s = .next t ∧
          ((∀ k, ohms = some k → snap.limits.iso ≤ k) →
            (w.pool = [] → ended t 0 0 0 ∧ t.store = s.store ∧ t.log = s.log) ∧
            (∀ q, w.pool = [q] → ended t 1 0 0 ∧ t.store = s.store ∧ t.log = s.log) ∧
            ∀ q r more ts n, w.pool = q :: r :: more → ts = (q, .source) :: (r :: more).map (fun x => (x, .ret)) →
              s.sendsTo ts n → t.queue = s.queue ∧ t.store = s.store ∧ t.log = s.log ∧
              sent t (.learn { w with
                pool := r :: more, root := some q, list := r :: more, found := []
                search := ⟨⟨0, 0⟩, [], ⟨0, 0⟩, .popped⟩ }) ts n iso 1 0) ∧
          ∀ k ts n, ohms = some k → k < snap.limits.iso → s.sendsTo ts n →
            (∀ x, w.list = [x] → ts = [(p, .source), (x, .ret)] → t.queue = s.queue ∧ t.store = s.store ∧
              t.log = s.log ∧ sent t (.learn { w with
                gRes := k, search := ⟨⟨0, 1⟩, [], ⟨0, 1⟩, .popped⟩, doing := .confirm }) ts n cont 0 0) ∧
            ∀ m, 2 ≤ w.list.length → m = (w.list.length + 1) / 2 →
              ts = (p, .source) :: (w.list.take m).map (fun x => (x, .ret)) → t.queue = s.queue ∧ t.store = s.store ∧
              t.log = s.log ∧ sent t (.learn { w with
                gRes := k, doing := .group
                search := ⟨⟨0, w.list.length⟩, [⟨m, w.list.length - m⟩], ⟨0, m⟩, .lower⟩ }) ts n iso 0 0) ∧
      ∃ mem : CheckWork → Run → List Nat,
        (∀ w r, mem w r = (((w.cands.drop r.first).take r.count).filter (fun c => !c.excluded)).map (·.pt)) ∧
        (∀ (v i : Nat) (w : CheckWork), s.lmu.mode = .iso → s.engine.work = .check w →
          w.doing = .whole ∨ w.doing = .group →
          ∃ (vm im : Nat) (ohms : Option Nat) (src : List (Nat × Rail)) (t : State),
            vm = (s.lmu.vSum + min v 10000 + s.lmu.n / 2) / s.lmu.n ∧
            im = (s.lmu.iSum + min i 10000000 + s.lmu.n / 2) / s.lmu.n ∧
            ohms = (if im = 0 then none else some ((vm * 1000 + im / 2) / im)) ∧
            src = w.members.map (fun p => (p, .source)) ∧ exec (.isoConversion v i) s = .next t ∧
            ((∀ k, ohms = some k → snap.limits.iso ≤ k) →
              ((∀ r ∈ s.store.nets, r.body.num ≤ w.num ∨ w.last < r.body.num) →
                (w.doing = .whole ∨ (w.search.which = .popped ∧ ∀ q ∈ w.search.stack, mem w q = []) →
                  ended t 1 0 0 ∧ t.store = s.store ∧ t.log = s.log) ∧
                ∀ a ms f c b bs, w.doing = .group → w.members = a :: ms → w.search.g = ⟨f, c⟩ →
                  mem w ⟨f, c⟩ = b :: bs → ((w.search.which = .upper ∧ w.search.stack = []) ∨
                    (w.search.which = .lower ∧ w.search.stack.drop 1 = [] ∧
                      mem w ⟨f + (c + 1) / 2, c - (c + 1) / 2⟩ = [])) →
                  ended t 1 0 1 ∧ t.store = s.store ∧ t.log.entries.map (·.data) = log ++
                    [{ kind := .short, system := false, flags := { u := j.flagU, a := true }, tag := some j.tag
                       net := some w.num, pointA := some a, pointB := some b, otherNet := s.ownerOf b
                       value := some ⟨.kOhm, some w.gRes⟩, second := some ⟨.count, some (bs.length + 1)⟩ }]) ∧
              ∀ r ts n, w.doing = .group → mem w r ≠ [] → ts = src ++ (mem w r).map (fun p => (p, .ret)) →
                s.sendsTo ts n →
                (∀ f c low st, w.search = ⟨⟨f, c⟩, r :: st, low, .lower⟩ → r = ⟨f + (c + 1) / 2, c - (c + 1) / 2⟩ →
                  t.queue = s.queue ∧ t.store = s.store ∧ t.log = s.log ∧
                  sent t (.check { w with search := ⟨⟨f, c⟩, st, r, .upper⟩ }) ts n iso 0 0) ∧
                ∀ pre st, w.search.which = .popped → w.search.stack = pre ++ r :: st → (∀ q ∈ pre, mem w q = []) →
                  t.queue = s.queue ∧ t.store = s.store ∧ t.log = s.log ∧
                  sent t (.check { w with search := ⟨w.search.g, st, r, .popped⟩ }) ts n iso 0 0) ∧
            ∀ k r st ts n, ohms = some k → k < snap.limits.iso → s.sendsTo ts n →
              (w.doing = .whole ∧ r = ⟨0, w.cands.length⟩ ∧ st = []) ∨
                (w.doing = .group ∧ r = w.search.testing ∧ st = w.search.stack) →
              (∀ a ms x, w.members = a :: ms → mem w r = [x] → ts = [(a, .source), (x, .ret)] →
                t.queue = s.queue ∧ t.store = s.store ∧ t.log = s.log ∧
                sent t (.check { w with gRes := k, search := ⟨r, st, r, .popped⟩, doing := .confirm }) ts n cont 0 0) ∧
              ∀ lo hi, 2 ≤ (mem w r).length → lo = ⟨r.first, (r.count + 1) / 2⟩ →
                hi = ⟨r.first + (r.count + 1) / 2, r.count - (r.count + 1) / 2⟩ → mem w lo ≠ [] →
                ts = src ++ (mem w lo).map (fun p => (p, .ret)) → t.queue = s.queue ∧
                t.store = s.store ∧ t.log = s.log ∧
                sent t (.check { w with gRes := k, search := ⟨r, hi :: st, lo, .lower⟩, doing := .group }) ts n iso 0 0) ∧
        ∀ (code : Word16) (w : CheckWork) (a p : Nat) (ms : List Nat), s.lmu.mode = .cont →
          (code.toNat ≠ 65535 ∨ s.lmu.range = .r1) → s.engine.work = .check w → w.doing = .confirm →
          w.members = a :: ms → mem w w.search.g = [p] →
          ∃ (mean div : Nat) (value : Value) (range : Option CRange) (t : State),
            mean = (s.lmu.codeSum + code.toNat + s.lmu.n / 2) / s.lmu.n ∧
            div = (match s.lmu.range with
              | .r100 => 10000
              | .r10 => 1000
              | .r1 => 100) ∧
            (code.toNat ≠ 65535 → range = some s.lmu.range ∧
              value = ⟨.mOhm, some ((mean * 3125 + div / 2) / div - s.leadOf a - s.leadOf p)⟩) ∧
            (code.toNat = 65535 → range = none ∧ value = ⟨.kOhm, some w.gRes⟩) ∧
            exec (.contConversion code) s = .next t ∧
            (∀ m r, s.ownerOf p = some m → s.findNet m = some r → r.corrupt = true → t.store = s.store ∧
              t.log = s.log ∧ t.hv = s.hv ∧ t.engine = Engine.reset ∧ t.lmu.phase = .idle ∧
              (∃ touched, t.matrix.slot = .sending ⟨⟨.allOpen, .jobEnd⟩, []⟩ 0 touched) ∧ t.queue.jobs = { j with
                state := .ending, ended := some ⟨.abortedTable, .net m⟩, steps := s.engine.steps + 1
                nets := s.engine.nets, extra := s.engine.extra } :: rest) ∧
            ∀ (other : Option Nat) (c : Bool) (w1 : CheckWork),
              (other = none ∧ s.ownerOf p = none ∧ c = false ∧ w1 = w) ∨
                (∃ m b, other = some m ∧ s.ownerOf p = some m ∧ s.findNet m = some ⟨b, crc16 b.bytes, false⟩ ∧
                  c = decide (2 ≤ b.members.length) ∧ w1 = { w with
                    cands := w.cands.map (fun d =>
                      if d.pt ∈ b.members ∧ d.pt ≠ p then { d with excluded := true } else d) }) →
              ∃ short : RecData, short = {
                  kind := .short, system := false, flags := { u := j.flagU, c := c }, tag := some j.tag
                  net := some w.num, pointA := some a, pointB := some p, otherNet := other, value := some value
                  range := range } ∧
                ((∀ r ∈ s.store.nets, r.body.num ≤ w.num ∨ w.last < r.body.num) →
                  (∀ q ∈ w.search.stack, mem w1 q = []) →
                  ended t 1 0 1 ∧ t.store = s.store ∧ t.log.entries.map (·.data) = log ++ [short]) ∧
                ∀ pre r st ts n, w.search.stack = pre ++ r :: st → (∀ q ∈ pre, mem w1 q = []) → mem w1 r ≠ [] →
                  ts = w.members.map (fun p => (p, .source)) ++ (mem w1 r).map (fun p => (p, .ret)) →
                  s.sendsTo ts n → t.store = s.store ∧ t.log.entries.map (·.data) = log ++ [short] ∧
                  t.queue = { s.queue with jobs := { j with tests := j.tests + 1 } :: rest } ∧
                  sent t (.check { w1 with search := ⟨w.search.g, st, r, .popped⟩, doing := .group }) ts n iso 0 0

/-- The isolation search resolves every bad member of its run exactly once, in ascending order, and meets no aggregate,
when a group fails exactly when one of its members is bad and at least one is. -/
def Obligations.SearchFindsEveryBadMember : Prop :=
  ∀ (member bad : Nat → Bool) (n : Nat), (∃ p, p < n ∧ member p = true ∧ bad p = true) →
    ∃ fuel, searchFrom member bad fuel
        (examine (fun r => ((List.range' r.first r.count).filter member).length) ⟨0, n⟩ []) =
      some ((List.range n).filter (fun p => member p && bad p), false)

/-! ### The test log and the printout -/

/-- The log takes a record with the next number and its marks, without an entry when it has none; a marked test record
needs nine free entries, or is refused, with LOG_STALL at its first offering; a marked system record needs one, or is
dropped and counted, with RECORD_LOST. -/
def Obligations.LogTakesRefusesOrDrops : Prop :=
  ∀ (s : State) (d : RecData) (first : Bool), ∃ (marked takesTest takesSystem : Bool) (nextSeq : Nat),
    marked = (decide (s.printer.state ≠ .off) || s.log.reporting) ∧
    takesTest = (!marked || decide (s.log.entries.length + 9 ≤ 256)) ∧
    takesSystem = (!marked || decide (s.log.entries.length < 256)) ∧
    nextSeq = (if s.log.nextSeq = 4294967295 then 1 else s.log.nextSeq + 1) ∧
    (s.offerTest first d).2 = takesTest ∧
    (takesTest = false → (s.offerTest first d).1 = if first then s.raise .logStall else s) ∧
    (s.offerSystem d).2 = takesSystem ∧
    (takesSystem = false → (s.offerSystem d).1.log = { s.log with dropped := min 65535 (s.log.dropped + 1) } ∧
      (s.offerSystem d).1.events.pending.getLsbD 4 = true) ∧
    ∀ u : State, (u = (s.offerTest first d).1 ∨ u = (s.offerSystem d).1) →
      u.matrix = s.matrix ∧ u.link = s.link ∧ u.hv = s.hv ∧ u.lmu = s.lmu ∧ u.engine = s.engine ∧ u.queue = s.queue ∧
      u.store = s.store ∧ u.printer = s.printer ∧
      ((s.offerTest first d = (u, true) ∨ s.offerSystem d = (u, true)) →
        u.log.nextSeq = nextSeq ∧ u.log.dropped = s.log.dropped ∧ u.log.reporting = s.log.reporting ∧
        u.log.entries = s.log.entries ++
          (if marked then [⟨s.log.nextSeq, decide (s.printer.state ≠ .off), s.log.reporting, d⟩] else []))

/-- SET_REPORTING replaces its three settings and names the first one out of range by its place, in one byte (log 7);
turning reporting off clears every host mark; with it on and DEFECT_READY not pending, host marks at or above the new
threshold raise DEFECT_READY and stop the timer, fewer start it for the new timeout or leave it running. FETCH_RECORDS
answers the oldest host-marked records and clears their marks; an entry without a mark is gone; the expiry of the
notify timer raises DEFECT_READY. A record is fetched as its length, number, kind, class and flags, presence bits and
the fields present, in their order: so for a SHORT, a JOB_START of a CHECK, a JOB_END and a ROSTER_MISMATCH. In these
no job waits for the log. Where one does (the last clause), an entry freed by FETCH_RECORDS, by reporting turned off,
by PRINT_FLUSH or by the formatter offers the engine's pending record again, once, after all have freed: with nine
free entries it is taken, the job is RUNNING again and the engine goes on, here a CHECK with its next pair; with fewer
the job stays in LOG_WAIT, and LOG_STALL is not raised again (R93, R159, R161). Reporting turned off gives the record
no host mark (log 44, DEDUCED). -/
def Obligations.HostReadsTheLog : Prop :=
  (∀ (tag : Byte) (r th t : Nat) (s : State), s.ready → s.queue.jobs = [] → r < 256 → th < 256 → t < 65536 →
    ∃ (p : List Byte) (oks : List Bool), p = le1 r ++ le1 th ++ le2 t ∧
      oks = [decide (r ≤ 1), decide (1 ≤ th ∧ th ≤ 64), decide (10 ≤ t ∧ t ≤ 10000)] ∧
      ((∀ b ∈ oks, b = true) →
        (r = 1 → s.log.entries.countP (·.hostMark) = 0 ∨ s.events.pending.getLsbD 9 = true →
          exec (.setReporting tag p) s = .next (State.replying
            { s with log := { s.log with reporting := true, threshold := th, timeout := t } } 0x28#8 tag p [0x00#8])) ∧
        (r = 1 → 1 ≤ s.log.entries.countP (·.hostMark) → s.log.entries.countP (·.hostMark) < th →
          s.events.pending.getLsbD 9 = false → exec (.setReporting tag p) s = .next (State.replying
            { s with log := { s.log with
              reporting := true, threshold := th, timeout := t, notifyTimer := some (s.log.notifyTimer.getD t) } }
            0x28#8 tag p [0x00#8])) ∧
        (r = 1 → th ≤ s.log.entries.countP (·.hostMark) → s.events.pending.getLsbD 9 = false →
          ∃ (u : State) (ph : SlotPhase), exec (.setReporting tag p) s = .next u ∧
            (ph = .ready [0x00#8] ∨ ph = .sending [0x00#8]) ∧ u.host.slots = [⟨0x28#8, tag, p, ph⟩] ∧
            u.log = { s.log with reporting := true, threshold := th, timeout := t, notifyTimer := none } ∧
            u.events.pending = s.events.pending ||| 0x200#12 ∧ u.store = s.store ∧ u.matrix = s.matrix ∧
            u.link = s.link ∧ u.hv = s.hv ∧ u.lmu = s.lmu ∧ u.engine = s.engine ∧ u.queue = s.queue ∧
            u.printer = s.printer) ∧
        (r = 0 → s.log.reporting = true → ∃ w : Bool, exec (.setReporting tag p) s = .next (State.replying { s with
          log := { s.log with
            entries := (s.log.entries.map (fun e => { e with hostMark := false })).filter (·.printMark)
            reporting := false, threshold := th, timeout := t, notifyTimer := none }
          queue := { s.queue with stallWait := w } } 0x28#8 tag p [0x00#8]))) ∧
      ∀ k, oks[k]? = some false → (∀ j < k, oks[j]? = some true) →
        exec (.setReporting tag p) s = .next (s.replying 0x28#8 tag p ([0x03#8] ++ le1 k))) ∧
  (∀ (tag n : Byte) (s : State), s.ready → s.queue.jobs = [] →
    (1 ≤ n.toNat → n.toNat ≤ 16 →
      ∃ (es left : List Entry) (hosts : Nat) (w : Bool),
        es = (s.log.entries.filter (·.hostMark)).take n.toNat ∧
        left = (s.log.entries.map (fun e => if e.seq ∈ es.map (·.seq) then { e with hostMark := false } else e)).filter
          (fun e => e.printMark || e.hostMark) ∧
        hosts = left.countP (·.hostMark) ∧
        exec (.fetchRecords tag [n]) s = .next (State.replying { s with
            log := { s.log with
              entries := left, notifyTimer := if hosts = 0 then none else s.log.notifyTimer }
            queue := { s.queue with stallWait := w } } 0x29#8 tag [n]
          ([0x00#8] ++ le1 es.length ++ le2 hosts ++ flagByte s.log.reporting ++ es.flatMap Entry.bytes))) ∧
    (n.toNat = 0 ∨ 16 < n.toNat → exec (.fetchRecords tag [n]) s = .next (s.replying 0x29#8 tag [n] [0x03#8]))) ∧
  (∀ (seq g : Nat) (pm hm : Bool) (d : RecData),
    (∀ n a b m v c r, d = { kind := .short, system := false, flags := { c := true }, tag := some g, net := some n
                            pointA := some a, pointB := some b, otherNet := some m, value := some ⟨.mOhm, some v⟩
                            second := some ⟨.count, some c⟩, range := some r } →
      Entry.bytes ⟨seq, pm, hm, d⟩ = [29#8] ++ le4 seq ++ [0x05#8, 0x02#8, 0xFD#8, 0x01#8] ++ le1 g ++ le2 n ++ le2 a ++
        le2 b ++ le2 m ++ [0x01#8] ++ le4 v ++ [0x05#8] ++ le4 c ++ [match r with
          | .r100 => 1#8
          | .r10 => 2#8
          | .r1 => 3#8]) ∧
    (∀ f l ph u, d = { kind := .jobStart, system := false, flags := { u := u }, tag := some g
                       job := some (.check f l ph) } →
      Entry.bytes ⟨seq, pm, hm, d⟩ = [17#8] ++ le4 seq ++ [0x01#8, if u then 0x01#8 else 0x00#8, 0x03#8, 0x00#8] ++
        le1 g ++ [0x01#8, 0x05#8] ++ le2 f ++ le2 l ++ [match ph with
          | .cont => 1#8
          | .iso => 2#8
          | .both => 3#8]) ∧
    (∀ net nets steps tests systems extra, d = {
        kind := .jobEnd, system := true, tag := some g, job := some .refcheck
        counts := some ⟨⟨.abortedTable, .net net⟩, nets, steps, tests, systems, extra⟩ } →
      Entry.bytes ⟨seq, pm, hm, d⟩ = [34#8] ++ le4 seq ++ [0x20#8, 0x80#8, 0x03#8, 0x20#8] ++ le1 g ++
        [0x05#8, 0x00#8, 0x03#8, 0x01#8] ++ le4 net ++ le2 nets ++ le4 steps ++ le4 tests ++ le4 systems ++
        le2 extra)) ∧
  (∀ (seq pos : Nat) (pm hm : Bool), Entry.bytes ⟨seq, pm, hm, {
      kind := .rosterMismatch, system := true
      position := some pos, cause := some (.roster .hv64 .lv128) }⟩ =
    [12#8] ++ le4 seq ++ [0x25#8, 0x80#8, 0x00#8, 0x14#8] ++ le1 pos ++ [0x02#8, 0x01#8]) ∧
  (∀ (i : Instr) (rec : RecData) (w : CheckWork) (a c n : Nat) (ts : List (Nat × Rail)) (left : List Entry)
    (j : Job) (rest : List Job) (snap : Snapshot) (s : State), s.queue.jobs = j :: rest → j.state = .logWait →
    j.snapshot = some snap → s.engine.pendingRec = some rec → s.engine.toAppend = [] → s.engine.work = .check w →
    s.engine.ctl = .sweep → w.doing = .sweep → w.members[w.rootIdx]? = some a → w.members[w.next]? = some c →
    ts = [(a, .source), (c, .ret)] → s.sendsTo ts n → left.length < s.log.entries.length →
    (∃ (tag k : Byte) (es : List Entry), i = .fetchRecords tag [k] ∧ s.ready ∧ 1 ≤ k.toNat ∧ k.toNat ≤ 16 ∧
        s.log.reporting = true ∧ s.printer.state ≠ .idle ∧ es = (s.log.entries.filter (·.hostMark)).take k.toNat ∧
        left = (s.log.entries.map (fun e => if e.seq ∈ es.map (·.seq) then { e with hostMark := false } else e)).filter
          (fun e => e.printMark || e.hostMark)) ∨
      (∃ (tag : Byte) (th t : Nat), i = .setReporting tag ([0x00#8] ++ le1 th ++ le2 t) ∧ s.ready ∧ 1 ≤ th ∧ th ≤ 64 ∧
        10 ≤ t ∧ t ≤ 10000 ∧ s.log.reporting = true ∧ s.printer.state ≠ .idle ∧ s.printer.state ≠ .off ∧
        left = (s.log.entries.map (fun e => { e with hostMark := false })).filter (·.printMark)) ∨
      (∃ tag : Byte, i = .printFlush tag [] ∧ s.ready ∧ s.printer.state = .held ∧
        left = (s.log.entries.map (fun e => { e with printMark := false })).filter (·.hostMark)) ∨
      (∃ (rdy pap : Bool) (k : Nat), i = .printerCharSent rdy pap ∧ (∀ r ∈ s.host.slots, r.phase ≠ .waiting) ∧
        s.printer.current = some k ∧ s.printer.waiting = false ∧ s.printer.state = .holdPending ∧
        (s.printer.lines.getD s.printer.line []).length ≤ s.printer.pos + 1 ∧
        s.printer.lines.length ≤ s.printer.line + 1 ∧
        left = (s.log.entries.map (fun e => if e.seq = k then { e with printMark := false } else e)).filter
          (fun e => e.printMark || e.hostMark)) →
    ∃ t : State, exec i s = .next t ∧
      (left.length + 9 ≤ 256 → t.log.entries.map (·.data) = left.map (·.data) ++ [rec] ∧
        t.queue.jobs = { j with state := .running, tests := j.tests + 1 } :: rest ∧
        t.engine = { s.engine with
          pendingRec := none, phase := .plan, isRepeat := false, ctl := .wait
          inHand := some ⟨.targets ts true,
            .lmu ⟨.cont, snap.limits.n, snap.limits.range, snap.limits.settle⟩⟩ } ∧
        t.matrix = (s.planSent (s.stepTaken ts) n).matrix ∧ t.link = (s.planSent (s.stepTaken ts) n).link ∧
        t.hv = s.hv ∧ t.store = s.store) ∧
      (256 < left.length + 9 → t.log.entries = left ∧ t.queue.jobs = s.queue.jobs ∧ t.engine = s.engine ∧
        t.matrix = s.matrix ∧ t.link = s.link ∧ t.hv = s.hv ∧ t.store = s.store ∧
        t.events.pending = s.events.pending)) ∧
  ∀ (ms : Nat) (s : State), s.log.notifyTimer = some ms →
    ∃ t : State, exec .notifyTimerExpiry s = .next t ∧ t.log = { s.log with notifyTimer := none } ∧
      t.events.pending = s.events.pending ||| 0x200#12 ∧ t.store = s.store ∧ t.matrix = s.matrix ∧ t.link = s.link ∧
      t.hv = s.hv ∧ t.lmu = s.lmu ∧ t.engine = s.engine ∧ t.queue = s.queue ∧ t.printer = s.printer

/-- PRINTER_CONFIG stores its settings OFF or HELD and answers the state that results, discarding the prints when it
disables a held printer, and names the first setting out of range by its place, in one byte (log 7); PRINT_HOLD,
PRINT_RELEASE and PRINT_FLUSH act by the printer state and answer it, or the count of print marks cleared. A release is
refused in every state but HELD and HOLD_PENDING; from HELD it starts the remaining line (with paper out: PAPER_OUT and
PRINTER), or takes the oldest print-marked record, here one that names no net. No job waits for the log here. -/
def Obligations.PrinterRequestsFollowTheState : Prop :=
  ∀ (tag : Byte) (s : State), s.ready →
    (∀ (en bd db pa sb pol tm : Nat), en < 256 → bd < 256 → db < 256 → pa < 256 → sb < 256 → pol < 256 → tm < 256 →
      ∃ (p : List Byte) (oks : List Bool) (cfg : PrinterConfig),
        p = le1 en ++ le1 bd ++ le1 db ++ le1 pa ++ le1 sb ++ le1 pol ++ le1 tm ∧
        oks = [decide (en ≤ 1), decide (1 ≤ bd ∧ bd ≤ 8), decide (db = 7 ∨ db = 8), decide (pa ≤ 3),
          decide (sb = 1 ∨ sb = 2), decide (pol ≤ 1), decide (1 ≤ tm ∧ tm ≤ 60)] ∧
        cfg = ⟨decide (en = 1), bd, db,
          if pa = 1 then .even else if pa = 2 then .odd else if pa = 3 then .zero else .none, sb,
          decide (pol = 1), tm⟩ ∧
        (s.printer.state ≠ .off → s.printer.state ≠ .held → exec (.printerConfig tag p) s =
          .next (s.replying 0x2C#8 tag p ([0x04#8] ++ le1 s.printer.state.code))) ∧
        ((∀ b ∈ oks, b = true) →
          (s.printer.state = .off → en = 0 → exec (.printerConfig tag p) s = .next (State.replying
            { s with printer := { s.printer with cfg := cfg } } 0x2C#8 tag p [0x00#8, 0x00#8])) ∧
          (s.printer.state = .off → en = 1 → (∀ e ∈ s.log.entries, e.printMark = false) →
            exec (.printerConfig tag p) s = .next (State.replying
              { s with printer := { s.printer with cfg := cfg, state := .idle } } 0x2C#8 tag p [0x00#8, 0x01#8])) ∧
          (s.printer.state = .held → en = 1 → exec (.printerConfig tag p) s = .next (State.replying
            { s with printer := { s.printer with cfg := cfg } } 0x2C#8 tag p [0x00#8, 0x06#8])) ∧
          (s.printer.state = .held → en = 0 → s.queue.jobs = [] → ∃ w : Bool,
            exec (.printerConfig tag p) s = .next (State.replying { s with
              log := { s.log with
                entries := (s.log.entries.map (fun e => { e with printMark := false })).filter (·.hostMark) }
              printer := ⟨.off, cfg, none, [], 0, 0, false, none⟩
              queue := { s.queue with stallWait := w } } 0x2C#8 tag p [0x00#8, 0x00#8]))) ∧
        ∀ k, (s.printer.state = .off ∨ s.printer.state = .held) → oks[k]? = some false →
          (∀ j < k, oks[j]? = some true) →
          exec (.printerConfig tag p) s = .next (s.replying 0x2C#8 tag p ([0x03#8] ++ le1 k))) ∧
    (s.printer.state = .off → exec (.printHold tag []) s = .next (s.replying 0x2D#8 tag [] [0x04#8])) ∧
    (s.printer.state ≠ .held → s.printer.state ≠ .holdPending →
      exec (.printRelease tag []) s = .next (s.replying 0x2E#8 tag [] [0x04#8])) ∧
    (s.printer.state ≠ .off → exec (.printHold tag []) s = .next (State.replying
      { s with printer := { s.printer with state :=
        if s.printer.state = .printing ∨ s.printer.state = .waitReady ∨ s.printer.state = .holdPending then .holdPending
        else .held } } 0x2D#8 tag []
      (if s.printer.state = .printing ∨ s.printer.state = .waitReady ∨ s.printer.state = .holdPending
        then [0x00#8, 0x05#8] else [0x00#8, 0x06#8]))) ∧
    (s.printer.state = .holdPending → exec (.printRelease tag []) s = .next (State.replying
      { s with printer := { s.printer with state := if s.printer.waiting then .waitReady else .printing } } 0x2E#8 tag []
      (if s.printer.waiting then [0x00#8, 0x03#8] else [0x00#8, 0x02#8]))) ∧
    (s.printer.state = .held → s.printer.current = none → (∀ e ∈ s.log.entries, e.printMark = false) →
      exec (.printRelease tag []) s = .next (State.replying
        { s with printer := { s.printer with state := .idle } } 0x2E#8 tag [] [0x00#8, 0x01#8])) ∧
    (∀ e, s.printer.state = .held → s.printer.current = none → s.log.entries.find? (·.printMark) = some e →
      e.data.net = none → e.data.otherNet = none → e.data.counts = none → s.pins.ppaper = true →
      s.pins.pready ≠ s.printer.cfg.lowTrue → exec (.printRelease tag []) s = .next (State.replying
        { s with printer := { s.printer with
          state := .printing, current := some e.seq, lines := renderLines [] e, line := 0, pos := 0, waiting := false } }
        0x2E#8 tag [] [0x00#8, 0x02#8])) ∧
    (∀ n, s.printer.state = .held → s.printer.current = some n → s.pins.ppaper = false →
      ∃ (u : State) (ph : SlotPhase), exec (.printRelease tag []) s = .next u ∧
        (ph = .ready [0x00#8, 0x04#8] ∨ ph = .sending [0x00#8, 0x04#8]) ∧ u.host.slots = [⟨0x2E#8, tag, [], ph⟩] ∧
        u.printer = { s.printer with state := .paperOut, pos := 0 } ∧ u.events.pending.getLsbD 8 = true ∧
        u.events.printer = { s.events.printer with paper := true } ∧ u.log = s.log ∧ u.queue = s.queue ∧
        u.pins = s.pins) ∧
    (∀ n, s.printer.state = .held → s.printer.current = some n → s.pins.ppaper = true →
      s.pins.pready ≠ s.printer.cfg.lowTrue → exec (.printRelease tag []) s = .next (State.replying
        { s with printer := { s.printer with state := .printing, pos := 0, waiting := false } } 0x2E#8 tag []
        [0x00#8, 0x02#8])) ∧
    (s.printer.state ≠ .held → exec (.printFlush tag []) s = .next (s.replying 0x2F#8 tag [] [0x04#8])) ∧
    (s.printer.state = .held → s.queue.jobs = [] → ∃ w : Bool,
      exec (.printFlush tag []) s = .next (State.replying { s with
        log := { s.log with
          entries := (s.log.entries.map (fun e => { e with printMark := false })).filter (·.hostMark) }
        printer := ⟨.held, s.printer.cfg, none, [], 0, 0, false, none⟩
        queue := { s.queue with stallWait := w } } 0x2F#8 tag []
        ([0x00#8] ++ le2 (s.log.entries.countP (·.printMark)))))

/-- A character that has gone is followed by the next, sent when READY is asserted and waiting with the printer timer
started otherwise; the last character of a line starts the second line, or, with paper out, raises PRINTER with cause
PAPER, or takes a hold; the last line clears the record's print mark and, with no other to print, leaves the formatter
IDLE. READY sends a waiting character, the timer raises STALL, paper starts the line that met PAPER_OUT. The levels that
PRINTER_CHAR_SENT, PREADY_ASSERTED and PAPER_PRESENT give the pins are log 14 (DESIGN CHOICE). The lines are rendered as
numerals, decimal ones without leading zeros, the quantities in the form of their units, the first line in its columns and
the second, where the kind has one, as its fields separated by one space: so for a SHORT of two nets without a label, a
JOB_END and a CARD_FAULT. -/
def Obligations.FormatterSendsItsLines : Prop :=
  (∀ (rdy pap : Bool) (n : Nat) (s : State), s.printer.current = some n → s.printer.waiting = false →
    (s.printer.state = .printing ∨ s.printer.state = .holdPending) →
    ∃ (len : Nat) (z : State), len = (s.printer.lines.getD s.printer.line []).length ∧
      z = { s with pins := { s.pins with pready := rdy, ppaper := pap } } ∧
      (s.printer.pos + 1 < len → rdy ≠ s.printer.cfg.lowTrue → exec (.printerCharSent rdy pap) s =
        .next { z with printer := { s.printer with pos := s.printer.pos + 1 } }) ∧
      (s.printer.pos + 1 < len → rdy = s.printer.cfg.lowTrue → exec (.printerCharSent rdy pap) s =
        .next { z with printer := { s.printer with
          pos := s.printer.pos + 1, waiting := true, timer := some (s.printer.cfg.timeout * 1000)
          state := if s.printer.state = .printing then .waitReady else .holdPending } }) ∧
      (len ≤ s.printer.pos + 1 → s.printer.line + 1 < s.printer.lines.length →
        (s.printer.state = .holdPending → exec (.printerCharSent rdy pap) s =
          .next { z with printer := { s.printer with line := s.printer.line + 1, pos := 0, state := .held } }) ∧
        (s.printer.state = .printing → pap = true → rdy ≠ s.printer.cfg.lowTrue →
          exec (.printerCharSent rdy pap) s =
            .next { z with printer := { s.printer with line := s.printer.line + 1, pos := 0 } }) ∧
        (s.printer.state = .printing → pap = false → ∃ t : State, exec (.printerCharSent rdy pap) s = .next t ∧
          t.printer = { s.printer with line := s.printer.line + 1, pos := 0, state := .paperOut } ∧
          t.events.pending.getLsbD 8 = true ∧ t.events.printer = { s.events.printer with paper := true } ∧
          t.log = s.log ∧ t.pins = z.pins ∧ t.queue = s.queue ∧ t.engine = s.engine)) ∧
      (len ≤ s.printer.pos + 1 → s.printer.lines.length ≤ s.printer.line + 1 → s.queue.jobs = [] →
        (∀ e ∈ s.log.entries, e.printMark = true → e.seq = n) → ∃ w : Bool,
        exec (.printerCharSent rdy pap) s = .next { z with
          log := { s.log with
            entries := (s.log.entries.map (fun e => { e with printMark := false })).filter (·.hostMark) }
          queue := { s.queue with stallWait := w }
          printer := ⟨if s.printer.state = .printing then .idle else .held, s.printer.cfg, none, [], 0, 0, false,
            none⟩ })) ∧
  (∃ value : List Byte → Nat, (∀ l, value l = l.foldl (fun v b => 10 * v + (b.toNat - 48)) 0) ∧
    (∀ k n, (padded k n).length = k ∧ value (padded k n) = n % 10 ^ k ∧ ∀ b ∈ padded k n, 48 ≤ b.toNat ∧ b.toNat ≤ 57) ∧
    ∀ n, n < 10 ^ 20 → value (decimal n) = n ∧ (∀ b ∈ decimal n, 48 ≤ b.toNat ∧ b.toNat ≤ 57) ∧
      (10 ≤ n → ∃ b r, decimal n = b :: r ∧ 49 ≤ b.toNat)) ∧
  (∀ n : Nat, renderValue ⟨.mOhm, some n⟩ = decimal (n / 1000) ++ [0x2E#8] ++ padded 3 (n % 1000) ++ ascii " OHM" ∧
    renderValue ⟨.kOhm, some n⟩ = (if n = 99999999 then ascii ">99999.999 MOHM"
      else decimal (n / 1000) ++ [0x2E#8] ++ padded 3 (n % 1000) ++ ascii " MOHM") ∧
    renderValue ⟨.dV, some n⟩ = decimal (n / 10) ++ [0x2E#8] ++ decimal (n % 10) ++ ascii " V" ∧
    renderValue ⟨.nA, some n⟩ = decimal (n / 1000) ++ [0x2E#8] ++ padded 3 (n % 1000) ++ ascii " UA" ∧
    renderValue ⟨.count, some n⟩ = ascii "G" ++ decimal n ∧ ∀ u, renderValue ⟨u, none⟩ = ascii "OPEN") ∧
  (∀ (seq g n a b m v : Nat) (pm hm : Bool) (r : CRange) (names : List (Nat × List Byte)),
    (∀ e ∈ names, e.2 = []) → renderLines names ⟨seq, pm, hm, {
        kind := .short, system := false, flags := { c := true }, tag := some g, net := some n
        pointA := some a, pointB := some b, otherNet := some m
        value := some ⟨.mOhm, some v⟩, range := some r }⟩ =
      [padded 6 (seq % 1000000) ++ ascii " " ++ padded 3 g ++ ascii " SHORT          .C... N" ++ padded 4 n ++
        [0x0D#8, 0x0A#8],
       ascii "P" ++ padded 4 a ++ ascii " P" ++ padded 4 b ++ ascii " N" ++ padded 4 m ++ ascii " " ++
        decimal (v / 1000) ++ ascii "." ++ padded 3 (v % 1000) ++ ascii " OHM " ++ (match r with
          | .r100 => ascii "100MA"
          | .r10 => ascii "10MA"
          | .r1 => ascii "1MA") ++ [0x0D#8, 0x0A#8]]) ∧
  (∀ (seq g nets steps tests systems extra : Nat) (pm hm : Bool), renderLines [] ⟨seq, pm, hm, {
        kind := .jobEnd, system := true, tag := some g, job := some .refcheck
        counts := some ⟨⟨.complete, .nothing⟩, nets, steps, tests, systems, extra⟩ }⟩ =
      [padded 6 (seq % 1000000) ++ ascii " " ++ padded 3 g ++ ascii " JOB_END              T" ++
        decimal (min 9999999 tests) ++ [0x0D#8, 0x0A#8], ascii "COMPLETE" ++ [0x0D#8, 0x0A#8]]) ∧
  (∀ (seq pos : Nat) (pm hm : Bool), renderLines [] ⟨seq, pm, hm, {
        kind := .cardFault, system := true
        position := some pos }⟩ =
      [padded 6 (seq % 1000000) ++ ascii " --- CARD_FAULT           C" ++ padded 2 pos ++ [0x0D#8, 0x0A#8]]) ∧
  ∀ s : State,
    (s.printer.waiting = true → s.printer.state = .waitReady ∨ s.printer.state = .holdPending →
      exec .preadyAsserted s = .next { s with
        pins := { s.pins with pready := !s.printer.cfg.lowTrue }
        printer := { s.printer with waiting := false, timer := none
                                    state := if s.printer.state = .waitReady then .printing else .holdPending } }) ∧
    (s.printer.waiting = false → exec .preadyAsserted s = .next { s with
      pins := { s.pins with pready := !s.printer.cfg.lowTrue } }) ∧
    (∀ ms, s.printer.waiting = true → s.printer.timer = some ms → ∃ t : State, exec .printerTimeout s = .next t ∧
      t.printer = { s.printer with timer := none } ∧ t.events.pending.getLsbD 8 = true ∧
      t.events.printer = { s.events.printer with stall := true } ∧ t.log = s.log ∧ t.queue = s.queue ∧
      t.engine = s.engine ∧ t.matrix = s.matrix ∧ t.pins = s.pins) ∧
    (s.printer.state = .paperOut → s.pins.pready ≠ s.printer.cfg.lowTrue → exec .paperPresent s = .next { s with
      pins := { s.pins with ppaper := true }
      printer := { s.printer with state := .printing, pos := 0, waiting := false } }) ∧
    (s.printer.state ≠ .paperOut → exec .paperPresent s = .next { s with pins := { s.pins with ppaper := true } })
end

