-- ==== Sys2Proof/Laws/Bytes.lean ====
section
/-! SUPPORT. Numbers as bytes and back (R179). -/

namespace Sys2Proof.Machine

open Sys2Proof

theorem byte_toNat (n : Nat) (h : n < 256) : (BitVec.ofNat 8 n).toNat = n := by
  simp; omega

theorem u16_of (n : Nat) (h : n < 65536) : u16 (BitVec.ofNat 8 n) (BitVec.ofNat 8 (n / 256)) = n := by
  simp [u16]; omega

theorem u32_of (n : Nat) (h : n < 4294967296) :
    u32 (BitVec.ofNat 8 n) (BitVec.ofNat 8 (n / 256)) (BitVec.ofNat 8 (n / 65536))
      (BitVec.ofNat 8 (n / 16777216)) = n := by
  simp [u32]; omega

@[simp] theorem le1_length (n : Nat) : (le1 n).length = 1 := rfl
@[simp] theorem le2_length (n : Nat) : (le2 n).length = 2 := rfl
@[simp] theorem le4_length (n : Nat) : (le4 n).length = 4 := rfl
@[simp] theorem flagByte_length (b : Bool) : (flagByte b).length = 1 := rfl

/-- A list of points written and read. -/
theorem takePoints_of (l : List Nat) (rest : List Byte) (h : ∀ p ∈ l, p < 65536) :
    takePoints l.length (l.flatMap le2 ++ rest) = some (l, rest) := by
  induction l with
  | nil => rfl
  | cons p l ih =>
    have hp : p < 65536 := h p (List.mem_cons_self ..)
    have := ih (fun q hq => h q (List.mem_cons_of_mem _ hq))
    simp only [List.length_cons, List.flatMap_cons, le2, List.cons_append, List.nil_append, takePoints, this,
      Option.map_some, u16_of p hp]

/-- Items of four bytes written and read. -/
theorem items4_of (l : List (Nat × Byte × Byte)) (h : ∀ x ∈ l, x.1 < 65536) :
    items4 l.length (l.flatMap (fun x => le2 x.1 ++ [x.2.1, x.2.2])) = some l := by
  induction l with
  | nil => rfl
  | cons x l ih =>
    have hx : x.1 < 65536 := h x (List.mem_cons_self ..)
    rw [List.length_cons, List.flatMap_cons]
    show (items4 l.length (l.flatMap _)).map _ = _
    rw [ih (fun y hy => h y (List.mem_cons_of_mem _ hy)), u16_of x.1 hx]
    rfl

/-- Items of three bytes written and read. -/
theorem items3_of (l : List (Nat × Byte)) (h : ∀ x ∈ l, x.1 < 65536) :
    items3 l.length (l.flatMap (fun x => le2 x.1 ++ [x.2])) = some l := by
  induction l with
  | nil => rfl
  | cons x l ih =>
    have hx : x.1 < 65536 := h x (List.mem_cons_self ..)
    rw [List.length_cons, List.flatMap_cons]
    show (items3 l.length (l.flatMap _)).map _ = _
    rw [ih (fun y hy => h y (List.mem_cons_of_mem _ hy)), u16_of x.1 hx]
    rfl

end Sys2Proof.Machine
end

