-- ==== Sys2Proof/Laws/State.lean ====
section
/-! SUPPORT. One lemma for each field and each update of State, so that no proof unfolds a record update. -/

namespace Sys2Proof.Machine

open Sys2Proof

variable (s : State)

/-! ### setEngine -/

@[simp] theorem State.setEngine_store (e : Engine) : (s.setEngine e).store = s.store := rfl
@[simp] theorem State.setEngine_link (e : Engine) : (s.setEngine e).link = s.link := rfl
@[simp] theorem State.setEngine_matrix (e : Engine) : (s.setEngine e).matrix = s.matrix := rfl
@[simp] theorem State.setEngine_lmu (e : Engine) : (s.setEngine e).lmu = s.lmu := rfl
@[simp] theorem State.setEngine_limits (e : Engine) : (s.setEngine e).limits = s.limits := rfl
@[simp] theorem State.setEngine_reference (e : Engine) : (s.setEngine e).reference = s.reference := rfl
@[simp] theorem State.setEngine_engine (e : Engine) : (s.setEngine e).engine = e := rfl
@[simp] theorem State.setEngine_hv (e : Engine) : (s.setEngine e).hv = s.hv := rfl
@[simp] theorem State.setEngine_queue (e : Engine) : (s.setEngine e).queue = s.queue := rfl
@[simp] theorem State.setEngine_log (e : Engine) : (s.setEngine e).log = s.log := rfl
@[simp] theorem State.setEngine_printer (e : Engine) : (s.setEngine e).printer = s.printer := rfl
@[simp] theorem State.setEngine_host (e : Engine) : (s.setEngine e).host = s.host := rfl
@[simp] theorem State.setEngine_events (e : Engine) : (s.setEngine e).events = s.events := rfl
@[simp] theorem State.setEngine_pins (e : Engine) : (s.setEngine e).pins = s.pins := rfl
@[simp] theorem State.setEngine_pending (e : Engine) : (s.setEngine e).pending = s.pending := rfl

/-! ### setWork -/

@[simp] theorem State.setWork_store (w : Work) : (s.setWork w).store = s.store := rfl
@[simp] theorem State.setWork_link (w : Work) : (s.setWork w).link = s.link := rfl
@[simp] theorem State.setWork_matrix (w : Work) : (s.setWork w).matrix = s.matrix := rfl
@[simp] theorem State.setWork_lmu (w : Work) : (s.setWork w).lmu = s.lmu := rfl
@[simp] theorem State.setWork_limits (w : Work) : (s.setWork w).limits = s.limits := rfl
@[simp] theorem State.setWork_reference (w : Work) : (s.setWork w).reference = s.reference := rfl
@[simp] theorem State.setWork_engine (w : Work) : (s.setWork w).engine = { s.engine with work := w } := rfl
@[simp] theorem State.setWork_hv (w : Work) : (s.setWork w).hv = s.hv := rfl
@[simp] theorem State.setWork_queue (w : Work) : (s.setWork w).queue = s.queue := rfl
@[simp] theorem State.setWork_log (w : Work) : (s.setWork w).log = s.log := rfl
@[simp] theorem State.setWork_printer (w : Work) : (s.setWork w).printer = s.printer := rfl
@[simp] theorem State.setWork_host (w : Work) : (s.setWork w).host = s.host := rfl
@[simp] theorem State.setWork_events (w : Work) : (s.setWork w).events = s.events := rfl
@[simp] theorem State.setWork_pins (w : Work) : (s.setWork w).pins = s.pins := rfl
@[simp] theorem State.setWork_pending (w : Work) : (s.setWork w).pending = s.pending := rfl

/-! ### todo -/

@[simp] theorem State.todo_store (w : Work) (r : List RecData) (c : Ctl) : (s.todo w r c).store = s.store := rfl
@[simp] theorem State.todo_link (w : Work) (r : List RecData) (c : Ctl) : (s.todo w r c).link = s.link := rfl
@[simp] theorem State.todo_matrix (w : Work) (r : List RecData) (c : Ctl) : (s.todo w r c).matrix = s.matrix := rfl
@[simp] theorem State.todo_lmu (w : Work) (r : List RecData) (c : Ctl) : (s.todo w r c).lmu = s.lmu := rfl
@[simp] theorem State.todo_limits (w : Work) (r : List RecData) (c : Ctl) : (s.todo w r c).limits = s.limits := rfl
@[simp] theorem State.todo_reference (w : Work) (r : List RecData) (c : Ctl) : (s.todo w r c).reference = s.reference := rfl
@[simp] theorem State.todo_engine (w : Work) (r : List RecData) (c : Ctl) : (s.todo w r c).engine = { s.engine with work := w, toAppend := r, ctl := c } := rfl
@[simp] theorem State.todo_hv (w : Work) (r : List RecData) (c : Ctl) : (s.todo w r c).hv = s.hv := rfl
@[simp] theorem State.todo_queue (w : Work) (r : List RecData) (c : Ctl) : (s.todo w r c).queue = s.queue := rfl
@[simp] theorem State.todo_log (w : Work) (r : List RecData) (c : Ctl) : (s.todo w r c).log = s.log := rfl
@[simp] theorem State.todo_printer (w : Work) (r : List RecData) (c : Ctl) : (s.todo w r c).printer = s.printer := rfl
@[simp] theorem State.todo_host (w : Work) (r : List RecData) (c : Ctl) : (s.todo w r c).host = s.host := rfl
@[simp] theorem State.todo_events (w : Work) (r : List RecData) (c : Ctl) : (s.todo w r c).events = s.events := rfl
@[simp] theorem State.todo_pins (w : Work) (r : List RecData) (c : Ctl) : (s.todo w r c).pins = s.pins := rfl
@[simp] theorem State.todo_pending (w : Work) (r : List RecData) (c : Ctl) : (s.todo w r c).pending = s.pending := rfl

/-! ### countStep -/

@[simp] theorem State.countStep_store : (s.countStep).store = s.store := rfl
@[simp] theorem State.countStep_link : (s.countStep).link = s.link := rfl
@[simp] theorem State.countStep_matrix : (s.countStep).matrix = s.matrix := rfl
@[simp] theorem State.countStep_lmu : (s.countStep).lmu = s.lmu := rfl
@[simp] theorem State.countStep_limits : (s.countStep).limits = s.limits := rfl
@[simp] theorem State.countStep_reference : (s.countStep).reference = s.reference := rfl
@[simp] theorem State.countStep_engine : (s.countStep).engine = { s.engine with steps := s.engine.steps + 1, phase := .between } := rfl
@[simp] theorem State.countStep_hv : (s.countStep).hv = s.hv := rfl
@[simp] theorem State.countStep_queue : (s.countStep).queue = s.queue := rfl
@[simp] theorem State.countStep_log : (s.countStep).log = s.log := rfl
@[simp] theorem State.countStep_printer : (s.countStep).printer = s.printer := rfl
@[simp] theorem State.countStep_host : (s.countStep).host = s.host := rfl
@[simp] theorem State.countStep_events : (s.countStep).events = s.events := rfl
@[simp] theorem State.countStep_pins : (s.countStep).pins = s.pins := rfl
@[simp] theorem State.countStep_pending : (s.countStep).pending = s.pending := rfl

/-! ### setSlot -/

@[simp] theorem State.setSlot_store (x : Slot) : (s.setSlot x).store = s.store := rfl
@[simp] theorem State.setSlot_link (x : Slot) : (s.setSlot x).link = s.link := rfl
@[simp] theorem State.setSlot_matrix (x : Slot) : (s.setSlot x).matrix = { s.matrix with slot := x } := rfl
@[simp] theorem State.setSlot_lmu (x : Slot) : (s.setSlot x).lmu = s.lmu := rfl
@[simp] theorem State.setSlot_limits (x : Slot) : (s.setSlot x).limits = s.limits := rfl
@[simp] theorem State.setSlot_reference (x : Slot) : (s.setSlot x).reference = s.reference := rfl
@[simp] theorem State.setSlot_engine (x : Slot) : (s.setSlot x).engine = s.engine := rfl
@[simp] theorem State.setSlot_hv (x : Slot) : (s.setSlot x).hv = s.hv := rfl
@[simp] theorem State.setSlot_queue (x : Slot) : (s.setSlot x).queue = s.queue := rfl
@[simp] theorem State.setSlot_log (x : Slot) : (s.setSlot x).log = s.log := rfl
@[simp] theorem State.setSlot_printer (x : Slot) : (s.setSlot x).printer = s.printer := rfl
@[simp] theorem State.setSlot_host (x : Slot) : (s.setSlot x).host = s.host := rfl
@[simp] theorem State.setSlot_events (x : Slot) : (s.setSlot x).events = s.events := rfl
@[simp] theorem State.setSlot_pins (x : Slot) : (s.setSlot x).pins = s.pins := rfl
@[simp] theorem State.setSlot_pending (x : Slot) : (s.setSlot x).pending = s.pending := rfl

/-! ### setImage -/

@[simp] theorem State.setImage_store (im : List (Nat × Rail)) : (s.setImage im).store = s.store := rfl
@[simp] theorem State.setImage_link (im : List (Nat × Rail)) : (s.setImage im).link = s.link := rfl
@[simp] theorem State.setImage_matrix (im : List (Nat × Rail)) : (s.setImage im).matrix = { s.matrix with image := im } := rfl
@[simp] theorem State.setImage_lmu (im : List (Nat × Rail)) : (s.setImage im).lmu = s.lmu := rfl
@[simp] theorem State.setImage_limits (im : List (Nat × Rail)) : (s.setImage im).limits = s.limits := rfl
@[simp] theorem State.setImage_reference (im : List (Nat × Rail)) : (s.setImage im).reference = s.reference := rfl
@[simp] theorem State.setImage_engine (im : List (Nat × Rail)) : (s.setImage im).engine = s.engine := rfl
@[simp] theorem State.setImage_hv (im : List (Nat × Rail)) : (s.setImage im).hv = s.hv := rfl
@[simp] theorem State.setImage_queue (im : List (Nat × Rail)) : (s.setImage im).queue = s.queue := rfl
@[simp] theorem State.setImage_log (im : List (Nat × Rail)) : (s.setImage im).log = s.log := rfl
@[simp] theorem State.setImage_printer (im : List (Nat × Rail)) : (s.setImage im).printer = s.printer := rfl
@[simp] theorem State.setImage_host (im : List (Nat × Rail)) : (s.setImage im).host = s.host := rfl
@[simp] theorem State.setImage_events (im : List (Nat × Rail)) : (s.setImage im).events = s.events := rfl
@[simp] theorem State.setImage_pins (im : List (Nat × Rail)) : (s.setImage im).pins = s.pins := rfl
@[simp] theorem State.setImage_pending (im : List (Nat × Rail)) : (s.setImage im).pending = s.pending := rfl

/-! ### setPrinter -/

@[simp] theorem State.setPrinter_store (x : PrinterState) : (s.setPrinter x).store = s.store := rfl
@[simp] theorem State.setPrinter_link (x : PrinterState) : (s.setPrinter x).link = s.link := rfl
@[simp] theorem State.setPrinter_matrix (x : PrinterState) : (s.setPrinter x).matrix = s.matrix := rfl
@[simp] theorem State.setPrinter_lmu (x : PrinterState) : (s.setPrinter x).lmu = s.lmu := rfl
@[simp] theorem State.setPrinter_limits (x : PrinterState) : (s.setPrinter x).limits = s.limits := rfl
@[simp] theorem State.setPrinter_reference (x : PrinterState) : (s.setPrinter x).reference = s.reference := rfl
@[simp] theorem State.setPrinter_engine (x : PrinterState) : (s.setPrinter x).engine = s.engine := rfl
@[simp] theorem State.setPrinter_hv (x : PrinterState) : (s.setPrinter x).hv = s.hv := rfl
@[simp] theorem State.setPrinter_queue (x : PrinterState) : (s.setPrinter x).queue = s.queue := rfl
@[simp] theorem State.setPrinter_log (x : PrinterState) : (s.setPrinter x).log = s.log := rfl
@[simp] theorem State.setPrinter_printer (x : PrinterState) : (s.setPrinter x).printer = { s.printer with state := x } := rfl
@[simp] theorem State.setPrinter_host (x : PrinterState) : (s.setPrinter x).host = s.host := rfl
@[simp] theorem State.setPrinter_events (x : PrinterState) : (s.setPrinter x).events = s.events := rfl
@[simp] theorem State.setPrinter_pins (x : PrinterState) : (s.setPrinter x).pins = s.pins := rfl
@[simp] theorem State.setPrinter_pending (x : PrinterState) : (s.setPrinter x).pending = s.pending := rfl

/-! ### sendCard -/

@[simp] theorem State.sendCard_store (f : Sent) : (s.sendCard f).store = s.store := rfl
@[simp] theorem State.sendCard_link (f : Sent) : (s.sendCard f).link = s.link.send f := rfl
@[simp] theorem State.sendCard_matrix (f : Sent) : (s.sendCard f).matrix = s.matrix := rfl
@[simp] theorem State.sendCard_lmu (f : Sent) : (s.sendCard f).lmu = s.lmu := rfl
@[simp] theorem State.sendCard_limits (f : Sent) : (s.sendCard f).limits = s.limits := rfl
@[simp] theorem State.sendCard_reference (f : Sent) : (s.sendCard f).reference = s.reference := rfl
@[simp] theorem State.sendCard_engine (f : Sent) : (s.sendCard f).engine = s.engine := rfl
@[simp] theorem State.sendCard_hv (f : Sent) : (s.sendCard f).hv = s.hv := rfl
@[simp] theorem State.sendCard_queue (f : Sent) : (s.sendCard f).queue = s.queue := rfl
@[simp] theorem State.sendCard_log (f : Sent) : (s.sendCard f).log = s.log := rfl
@[simp] theorem State.sendCard_printer (f : Sent) : (s.sendCard f).printer = s.printer := rfl
@[simp] theorem State.sendCard_host (f : Sent) : (s.sendCard f).host = s.host := rfl
@[simp] theorem State.sendCard_events (f : Sent) : (s.sendCard f).events = s.events := rfl
@[simp] theorem State.sendCard_pins (f : Sent) : (s.sendCard f).pins = s.pins := rfl
@[simp] theorem State.sendCard_pending (f : Sent) : (s.sendCard f).pending = s.pending := rfl

/-! ### startBreak -/

@[simp] theorem State.startBreak_store : (s.startBreak).store = s.store := rfl
@[simp] theorem State.startBreak_link : (s.startBreak).link = { s.link with enumPhase := .linkBreak, discovered := [] } := rfl
@[simp] theorem State.startBreak_matrix : (s.startBreak).matrix = s.matrix := rfl
@[simp] theorem State.startBreak_lmu : (s.startBreak).lmu = s.lmu := rfl
@[simp] theorem State.startBreak_limits : (s.startBreak).limits = s.limits := rfl
@[simp] theorem State.startBreak_reference : (s.startBreak).reference = s.reference := rfl
@[simp] theorem State.startBreak_engine : (s.startBreak).engine = s.engine := rfl
@[simp] theorem State.startBreak_hv : (s.startBreak).hv = s.hv := rfl
@[simp] theorem State.startBreak_queue : (s.startBreak).queue = s.queue := rfl
@[simp] theorem State.startBreak_log : (s.startBreak).log = s.log := rfl
@[simp] theorem State.startBreak_printer : (s.startBreak).printer = s.printer := rfl
@[simp] theorem State.startBreak_host : (s.startBreak).host = s.host := rfl
@[simp] theorem State.startBreak_events : (s.startBreak).events = s.events := rfl
@[simp] theorem State.startBreak_pins : (s.startBreak).pins = s.pins := rfl
@[simp] theorem State.startBreak_pending : (s.startBreak).pending = s.pending := rfl

/-! ### stopNotify -/

@[simp] theorem State.stopNotify_store : (s.stopNotify).store = s.store := rfl
@[simp] theorem State.stopNotify_link : (s.stopNotify).link = s.link := rfl
@[simp] theorem State.stopNotify_matrix : (s.stopNotify).matrix = s.matrix := rfl
@[simp] theorem State.stopNotify_lmu : (s.stopNotify).lmu = s.lmu := rfl
@[simp] theorem State.stopNotify_limits : (s.stopNotify).limits = s.limits := rfl
@[simp] theorem State.stopNotify_reference : (s.stopNotify).reference = s.reference := rfl
@[simp] theorem State.stopNotify_engine : (s.stopNotify).engine = s.engine := rfl
@[simp] theorem State.stopNotify_hv : (s.stopNotify).hv = s.hv := rfl
@[simp] theorem State.stopNotify_queue : (s.stopNotify).queue = s.queue := rfl
@[simp] theorem State.stopNotify_log : (s.stopNotify).log = { s.log with notifyTimer := none } := rfl
@[simp] theorem State.stopNotify_printer : (s.stopNotify).printer = s.printer := rfl
@[simp] theorem State.stopNotify_host : (s.stopNotify).host = s.host := rfl
@[simp] theorem State.stopNotify_events : (s.stopNotify).events = s.events := rfl
@[simp] theorem State.stopNotify_pins : (s.stopNotify).pins = s.pins := rfl
@[simp] theorem State.stopNotify_pending : (s.stopNotify).pending = s.pending := rfl

/-! ### startNotify -/

@[simp] theorem State.startNotify_store : (s.startNotify).store = s.store := rfl
@[simp] theorem State.startNotify_link : (s.startNotify).link = s.link := rfl
@[simp] theorem State.startNotify_matrix : (s.startNotify).matrix = s.matrix := rfl
@[simp] theorem State.startNotify_lmu : (s.startNotify).lmu = s.lmu := rfl
@[simp] theorem State.startNotify_limits : (s.startNotify).limits = s.limits := rfl
@[simp] theorem State.startNotify_reference : (s.startNotify).reference = s.reference := rfl
@[simp] theorem State.startNotify_engine : (s.startNotify).engine = s.engine := rfl
@[simp] theorem State.startNotify_hv : (s.startNotify).hv = s.hv := rfl
@[simp] theorem State.startNotify_queue : (s.startNotify).queue = s.queue := rfl
@[simp] theorem State.startNotify_log : (s.startNotify).log = { s.log with notifyTimer := some s.log.timeout } := rfl
@[simp] theorem State.startNotify_printer : (s.startNotify).printer = s.printer := rfl
@[simp] theorem State.startNotify_host : (s.startNotify).host = s.host := rfl
@[simp] theorem State.startNotify_events : (s.startNotify).events = s.events := rfl
@[simp] theorem State.startNotify_pins : (s.startNotify).pins = s.pins := rfl
@[simp] theorem State.startNotify_pending : (s.startNotify).pending = s.pending := rfl

/-! ### endWait -/

@[simp] theorem State.endWait_store : (s.endWait).store = s.store := rfl
@[simp] theorem State.endWait_link : (s.endWait).link = s.link := rfl
@[simp] theorem State.endWait_matrix : (s.endWait).matrix = s.matrix := rfl
@[simp] theorem State.endWait_lmu : (s.endWait).lmu = s.lmu := rfl
@[simp] theorem State.endWait_limits : (s.endWait).limits = s.limits := rfl
@[simp] theorem State.endWait_reference : (s.endWait).reference = s.reference := rfl
@[simp] theorem State.endWait_engine : (s.endWait).engine = s.engine := rfl
@[simp] theorem State.endWait_hv : (s.endWait).hv = s.hv := rfl
@[simp] theorem State.endWait_queue : (s.endWait).queue = { s.queue with stallWait := false } := rfl
@[simp] theorem State.endWait_log : (s.endWait).log = s.log := rfl
@[simp] theorem State.endWait_printer : (s.endWait).printer = s.printer := rfl
@[simp] theorem State.endWait_host : (s.endWait).host = s.host := rfl
@[simp] theorem State.endWait_events : (s.endWait).events = s.events := rfl
@[simp] theorem State.endWait_pins : (s.endWait).pins = s.pins := rfl
@[simp] theorem State.endWait_pending : (s.endWait).pending = s.pending := rfl

/-! ### hunt -/

@[simp] theorem State.hunt_store : (s.hunt).store = s.store := rfl
@[simp] theorem State.hunt_link : (s.hunt).link = s.link := rfl
@[simp] theorem State.hunt_matrix : (s.hunt).matrix = s.matrix := rfl
@[simp] theorem State.hunt_lmu : (s.hunt).lmu = s.lmu := rfl
@[simp] theorem State.hunt_limits : (s.hunt).limits = s.limits := rfl
@[simp] theorem State.hunt_reference : (s.hunt).reference = s.reference := rfl
@[simp] theorem State.hunt_engine : (s.hunt).engine = s.engine := rfl
@[simp] theorem State.hunt_hv : (s.hunt).hv = s.hv := rfl
@[simp] theorem State.hunt_queue : (s.hunt).queue = s.queue := rfl
@[simp] theorem State.hunt_log : (s.hunt).log = s.log := rfl
@[simp] theorem State.hunt_printer : (s.hunt).printer = s.printer := rfl
@[simp] theorem State.hunt_host : (s.hunt).host = { s.host with assembly := [] } := rfl
@[simp] theorem State.hunt_events : (s.hunt).events = s.events := rfl
@[simp] theorem State.hunt_pins : (s.hunt).pins = s.pins := rfl
@[simp] theorem State.hunt_pending : (s.hunt).pending = s.pending := rfl

/-! ### handed -/

@[simp] theorem State.handed_store (k g : Byte) (p : List Byte) : (s.handed k g p).store = s.store := rfl
@[simp] theorem State.handed_link (k g : Byte) (p : List Byte) : (s.handed k g p).link = s.link := rfl
@[simp] theorem State.handed_matrix (k g : Byte) (p : List Byte) : (s.handed k g p).matrix = s.matrix := rfl
@[simp] theorem State.handed_lmu (k g : Byte) (p : List Byte) : (s.handed k g p).lmu = s.lmu := rfl
@[simp] theorem State.handed_limits (k g : Byte) (p : List Byte) : (s.handed k g p).limits = s.limits := rfl
@[simp] theorem State.handed_reference (k g : Byte) (p : List Byte) : (s.handed k g p).reference = s.reference := rfl
@[simp] theorem State.handed_engine (k g : Byte) (p : List Byte) : (s.handed k g p).engine = s.engine := rfl
@[simp] theorem State.handed_hv (k g : Byte) (p : List Byte) : (s.handed k g p).hv = s.hv := rfl
@[simp] theorem State.handed_queue (k g : Byte) (p : List Byte) : (s.handed k g p).queue = s.queue := rfl
@[simp] theorem State.handed_log (k g : Byte) (p : List Byte) : (s.handed k g p).log = s.log := rfl
@[simp] theorem State.handed_printer (k g : Byte) (p : List Byte) : (s.handed k g p).printer = s.printer := rfl
@[simp] theorem State.handed_host (k g : Byte) (p : List Byte) : (s.handed k g p).host = { s.host with slots := [⟨k, g, p, .carried⟩] } := rfl
@[simp] theorem State.handed_events (k g : Byte) (p : List Byte) : (s.handed k g p).events = s.events := rfl
@[simp] theorem State.handed_pins (k g : Byte) (p : List Byte) : (s.handed k g p).pins = s.pins := rfl
@[simp] theorem State.handed_pending (k g : Byte) (p : List Byte) : (s.handed k g p).pending = s.pending := rfl

/-! ### replying -/

@[simp] theorem State.replying_store (k g : Byte) (p r : List Byte) : (s.replying k g p r).store = s.store := rfl
@[simp] theorem State.replying_link (k g : Byte) (p r : List Byte) : (s.replying k g p r).link = s.link := rfl
@[simp] theorem State.replying_matrix (k g : Byte) (p r : List Byte) : (s.replying k g p r).matrix = s.matrix := rfl
@[simp] theorem State.replying_lmu (k g : Byte) (p r : List Byte) : (s.replying k g p r).lmu = s.lmu := rfl
@[simp] theorem State.replying_limits (k g : Byte) (p r : List Byte) : (s.replying k g p r).limits = s.limits := rfl
@[simp] theorem State.replying_reference (k g : Byte) (p r : List Byte) : (s.replying k g p r).reference = s.reference := rfl
@[simp] theorem State.replying_engine (k g : Byte) (p r : List Byte) : (s.replying k g p r).engine = s.engine := rfl
@[simp] theorem State.replying_hv (k g : Byte) (p r : List Byte) : (s.replying k g p r).hv = s.hv := rfl
@[simp] theorem State.replying_queue (k g : Byte) (p r : List Byte) : (s.replying k g p r).queue = s.queue := rfl
@[simp] theorem State.replying_log (k g : Byte) (p r : List Byte) : (s.replying k g p r).log = s.log := rfl
@[simp] theorem State.replying_printer (k g : Byte) (p r : List Byte) : (s.replying k g p r).printer = s.printer := rfl
@[simp] theorem State.replying_host (k g : Byte) (p r : List Byte) : (s.replying k g p r).host = { s.host with
      slots := [⟨k, g, p, .sending r⟩], tx := some ⟨true, hostFrame (replyKind k) g r⟩ } := rfl
@[simp] theorem State.replying_events (k g : Byte) (p r : List Byte) : (s.replying k g p r).events = s.events := rfl
@[simp] theorem State.replying_pins (k g : Byte) (p r : List Byte) : (s.replying k g p r).pins = s.pins := rfl
@[simp] theorem State.replying_pending (k g : Byte) (p r : List Byte) : (s.replying k g p r).pending = s.pending := rfl

/-! ### setHead -/

@[simp] theorem State.setHead_store (f : Job → Job) : (s.setHead f).store = s.store := by
  unfold State.setHead; split <;> rfl
@[simp] theorem State.setHead_link (f : Job → Job) : (s.setHead f).link = s.link := by
  unfold State.setHead; split <;> rfl
@[simp] theorem State.setHead_matrix (f : Job → Job) : (s.setHead f).matrix = s.matrix := by
  unfold State.setHead; split <;> rfl
@[simp] theorem State.setHead_lmu (f : Job → Job) : (s.setHead f).lmu = s.lmu := by
  unfold State.setHead; split <;> rfl
@[simp] theorem State.setHead_limits (f : Job → Job) : (s.setHead f).limits = s.limits := by
  unfold State.setHead; split <;> rfl
@[simp] theorem State.setHead_reference (f : Job → Job) : (s.setHead f).reference = s.reference := by
  unfold State.setHead; split <;> rfl
@[simp] theorem State.setHead_engine (f : Job → Job) : (s.setHead f).engine = s.engine := by
  unfold State.setHead; split <;> rfl
@[simp] theorem State.setHead_hv (f : Job → Job) : (s.setHead f).hv = s.hv := by
  unfold State.setHead; split <;> rfl
@[simp] theorem State.setHead_log (f : Job → Job) : (s.setHead f).log = s.log := by
  unfold State.setHead; split <;> rfl
@[simp] theorem State.setHead_printer (f : Job → Job) : (s.setHead f).printer = s.printer := by
  unfold State.setHead; split <;> rfl
@[simp] theorem State.setHead_host (f : Job → Job) : (s.setHead f).host = s.host := by
  unfold State.setHead; split <;> rfl
@[simp] theorem State.setHead_events (f : Job → Job) : (s.setHead f).events = s.events := by
  unfold State.setHead; split <;> rfl
@[simp] theorem State.setHead_pins (f : Job → Job) : (s.setHead f).pins = s.pins := by
  unfold State.setHead; split <;> rfl
@[simp] theorem State.setHead_pending (f : Job → Job) : (s.setHead f).pending = s.pending := by
  unfold State.setHead; split <;> rfl
@[simp] theorem State.setHead_hold (f : Job → Job) : (s.setHead f).queue.hold = s.queue.hold := by
  unfold State.setHead; split <;> rfl
@[simp] theorem State.setHead_stallWait (f : Job → Job) : (s.setHead f).queue.stallWait = s.queue.stallWait := by
  unfold State.setHead; split <;> rfl
@[simp] theorem State.setHead_head (f : Job → Job) : (s.setHead f).head = s.head.map f := by
  unfold State.setHead State.head
  cases h : s.queue.jobs <;> simp [h]
theorem State.setHead_jobs (f : Job → Job) (j : Job) (r : List Job) (h : s.queue.jobs = j :: r) :
    (s.setHead f).queue.jobs = f j :: r := by
  simp [State.setHead, h]

/-! ### The rail the source needs -/

theorem State.sourceAllowed_iff : s.sourceAllowed = true ↔ s.matrix.slot.sourceOk = true ∧ s.hv.rail = .safe := by
  simp [State.sourceAllowed]

end Sys2Proof.Machine
end

