-- ==== Sys2Proof/Laws/Frame.lean ====
section
/-! SUPPORT. What raising an event, appending a record and the formatter's work never touch. -/

namespace Sys2Proof.Machine

open Sys2Proof

/-- From `s` to `t` only the log, the formatter, the wire list's corruption marks, pending events and the transmit path
have changed. -/
structure Quiet (s t : State) : Prop where
  link : t.link = s.link
  matrix : t.matrix = s.matrix
  lmu : t.lmu = s.lmu
  limits : t.limits = s.limits
  reference : t.reference = s.reference
  engine : t.engine = s.engine
  hv : t.hv = s.hv
  queue : t.queue = s.queue
  pins : t.pins = s.pins
  pending : t.pending = s.pending
  card : t.events.card = s.events.card
  mask : t.events.mask = s.events.mask
  carried : t.host.carried = s.host.carried
  baud : t.host.baud = s.host.baud
  assembly : t.host.assembly = s.host.assembly
  slots : takeReply s.host.slots = none → t.host.slots = s.host.slots
  notWaiting : (∀ r ∈ s.host.slots, r.phase ≠ .waiting) → ∀ r ∈ t.host.slots, r.phase ≠ .waiting
  raised : ∀ n, s.events.pending.getLsbD n = true → t.events.pending.getLsbD n = true

theorem Quiet.refl (s : State) : Quiet s s :=
  ⟨rfl, rfl, rfl, rfl, rfl, rfl, rfl, rfl, rfl, rfl, rfl, rfl, rfl, rfl, rfl, fun _ => rfl, fun h => h, fun _ h => h⟩

theorem Quiet.trans {s t u : State} (a : Quiet s t) (b : Quiet t u) : Quiet s u where
  link := b.link.trans a.link
  matrix := b.matrix.trans a.matrix
  lmu := b.lmu.trans a.lmu
  limits := b.limits.trans a.limits
  reference := b.reference.trans a.reference
  engine := b.engine.trans a.engine
  hv := b.hv.trans a.hv
  queue := b.queue.trans a.queue
  pins := b.pins.trans a.pins
  pending := b.pending.trans a.pending
  card := b.card.trans a.card
  mask := b.mask.trans a.mask
  carried := b.carried.trans a.carried
  baud := b.baud.trans a.baud
  assembly := b.assembly.trans a.assembly
  slots := fun h => by
    have h1 := a.slots h
    rw [b.slots (by rw [h1]; exact h), h1]
  notWaiting := fun h => b.notWaiting (a.notWaiting h)
  raised := fun n h => b.raised n (a.raised n h)

/-- A change of the log, the formatter or the wire list alone. -/
theorem Quiet.ofLog (s : State) (l : Log) : Quiet s { s with log := l } :=
  ⟨rfl, rfl, rfl, rfl, rfl, rfl, rfl, rfl, rfl, rfl, rfl, rfl, rfl, rfl, rfl, fun _ => rfl, fun h => h, fun _ h => h⟩
theorem Quiet.ofPrinter (s : State) (p : Printer) : Quiet s { s with printer := p } :=
  ⟨rfl, rfl, rfl, rfl, rfl, rfl, rfl, rfl, rfl, rfl, rfl, rfl, rfl, rfl, rfl, fun _ => rfl, fun h => h, fun _ h => h⟩
theorem Quiet.ofStore (s : State) (st : Store) : Quiet s { s with store := st } :=
  ⟨rfl, rfl, rfl, rfl, rfl, rfl, rfl, rfl, rfl, rfl, rfl, rfl, rfl, rfl, rfl, fun _ => rfl, fun h => h, fun _ h => h⟩

/-- What taking a ready reply leaves of the slots. -/
theorem takeReply_notWaiting : ∀ {l : List RxSlot} {x : List RxSlot × TxFrame}, takeReply l = some x →
    (∀ r ∈ l, r.phase ≠ .waiting) → ∀ r ∈ x.1, r.phase ≠ .waiting
  | [], _, h, _ => by simp [takeReply] at h
  | r :: rest, x, h, hl => by
    have hrest : ∀ q ∈ rest, q.phase ≠ .waiting := fun q hq => hl q (List.mem_cons_of_mem _ hq)
    have hr : r.phase ≠ .waiting := hl r (List.mem_cons_self ..)
    unfold takeReply at h
    split at h
    · simp only [Option.some.injEq] at h; subst h
      intro q hq
      rcases List.mem_cons.1 hq with rfl | hq
      · simp
      · exact hrest q hq
    all_goals
      rw [Option.map_eq_some_iff] at h
      obtain ⟨y, hy, rfl⟩ := h
      have ih := takeReply_notWaiting hy hrest
      intro q hq
      rcases List.mem_cons.1 hq with rfl | hq
      · exact hr
      · exact ih q hq

theorem Quiet.txKick (s : State) : Quiet s s.txKick := by
  unfold State.txKick
  split
  · exact Quiet.refl s
  · split
    · rename_i slots f hf
      refine ⟨rfl, rfl, rfl, rfl, rfl, rfl, rfl, rfl, rfl, rfl, rfl, rfl, rfl, rfl, rfl, ?_, ?_, fun _ h => h⟩
      · intro h; rw [h] at hf; simp at hf
      · intro h; exact takeReply_notWaiting hf h
    · split
      · exact ⟨rfl, rfl, rfl, rfl, rfl, rfl, rfl, rfl, rfl, rfl, rfl, rfl, rfl, rfl, rfl, fun _ => rfl, fun h => h,
          fun _ h => h⟩
      · exact Quiet.refl s

/-- Raising an event: the rest of the part stays, and the event is pending after it. -/
theorem Quiet.raise (s : State) (e : Event) : Quiet s (s.raise e) := by
  have hp : ∀ n, s.events.pending.getLsbD n = true → (s.events.pending ||| e.bit).getLsbD n = true := by
    intro n h; simp [h]
  have h1 : Quiet s { s with events := { s.events with pending := s.events.pending ||| e.bit } } :=
    ⟨rfl, rfl, rfl, rfl, rfl, rfl, rfl, rfl, rfl, rfl, rfl, rfl, rfl, rfl, rfl, fun _ => rfl, fun h => h, hp⟩
  unfold State.raise
  dsimp only
  split
  · exact h1
  · refine h1.trans (Quiet.trans ?_ (Quiet.txKick _))
    exact ⟨rfl, rfl, rfl, rfl, rfl, rfl, rfl, rfl, rfl, rfl, rfl, rfl, rfl, rfl, rfl, fun _ => rfl, fun h => h,
      fun _ h => h⟩

theorem State.txKick_events (s : State) : s.txKick.events.pending = s.events.pending := by
  unfold State.txKick
  split
  · rfl
  · split
    · rfl
    · split <;> rfl

theorem State.raise_pending (s : State) (e : Event) : (s.raise e).events.pending = s.events.pending ||| e.bit := by
  unfold State.raise
  dsimp only
  split
  · rfl
  · unfold State.wantNotice; rw [State.txKick_events]

theorem State.txKick_log (s : State) : s.txKick.log = s.log := by
  unfold State.txKick
  split
  · rfl
  · split
    · rfl
    · split <;> rfl

theorem State.txKick_store (s : State) : s.txKick.store = s.store := by
  unfold State.txKick
  split
  · rfl
  · split
    · rfl
    · split <;> rfl

theorem State.txKick_printer (s : State) : s.txKick.printer = s.printer := by
  unfold State.txKick
  split
  · rfl
  · split
    · rfl
    · split <;> rfl

@[simp] theorem State.raise_log (s : State) (e : Event) : (s.raise e).log = s.log := by
  unfold State.raise
  dsimp only
  split
  · rfl
  · unfold State.wantNotice; rw [State.txKick_log]

@[simp] theorem State.raise_store (s : State) (e : Event) : (s.raise e).store = s.store := by
  unfold State.raise
  dsimp only
  split
  · rfl
  · unfold State.wantNotice; rw [State.txKick_store]

@[simp] theorem State.raise_printer (s : State) (e : Event) : (s.raise e).printer = s.printer := by
  unfold State.raise
  dsimp only
  split
  · rfl
  · unfold State.wantNotice; rw [State.txKick_printer]

theorem State.raise_isPending (s : State) (e : Event) : (s.raise e).events.pending.getLsbD e.num = true := by
  rw [State.raise_pending]
  cases e <;> simp [Event.bit, Event.num]

theorem Quiet.raisePrinter (s : State) (c : PrinterCause) : Quiet s (s.raisePrinter c) := by
  unfold State.raisePrinter
  refine Quiet.trans ?_ (Quiet.raise _ _)
  exact ⟨rfl, rfl, rfl, rfl, rfl, rfl, rfl, rfl, rfl, rfl, rfl, rfl, rfl, rfl, rfl, fun _ => rfl, fun h => h,
    fun _ h => h⟩

theorem Quiet.notifyTaken (s : State) : Quiet s s.notifyTaken := by
  unfold State.notifyTaken
  split
  · exact (Quiet.ofLog s _).trans (Quiet.raise _ _)
  · split
    · exact Quiet.refl s
    · exact Quiet.ofLog s _

theorem Quiet.notifyFresh (s : State) : Quiet s s.notifyFresh := by
  unfold State.notifyFresh
  split
  · exact (Quiet.ofLog s _).trans (Quiet.raise _ _)
  · split
    · exact Quiet.ofLog s _
    · exact Quiet.refl s

theorem Quiet.take (s : State) (d : RecData) : Quiet s (s.take d) := by
  unfold State.take
  dsimp only
  split
  · exact (Quiet.ofLog s _).trans (Quiet.notifyTaken _)
  · exact Quiet.ofLog s _

theorem Quiet.offerSystem (s : State) (d : RecData) : Quiet s (s.offerSystem d).1 := by
  unfold State.offerSystem
  split
  · exact (Quiet.ofLog s _).trans (Quiet.raise _ _)
  · exact Quiet.take s d

theorem Quiet.offerTest (s : State) (b : Bool) (d : RecData) : Quiet s (s.offerTest b d).1 := by
  unfold State.offerTest
  split
  · dsimp only
    split
    · exact Quiet.raise _ _
    · exact Quiet.refl s
  · exact Quiet.take s d

theorem Quiet.readNetWith (k : State → State) (hk : ∀ t, Quiet t (k t)) (s : State) (c : ReadCause) (n : Nat) :
    Quiet s (s.readNetWith k c n).1 := by
  unfold State.readNetWith
  split
  · exact Quiet.refl s
  · split
    · exact Quiet.refl s
    · split
      · exact Quiet.refl s
      · exact (Quiet.ofStore s _).trans ((Quiet.offerSystem _ _).trans ((hk _).trans (Quiet.raise _ _)))

theorem Quiet.charDue (s : State) : Quiet s s.charDue := by
  unfold State.charDue
  split <;> exact Quiet.ofPrinter s _

theorem Quiet.startLine (s : State) : Quiet s s.startLine := by
  unfold State.startLine
  split
  · exact (Quiet.ofPrinter s _).trans (Quiet.charDue _)
  · exact (Quiet.ofPrinter s _).trans (Quiet.raisePrinter _ _)

theorem Quiet.lookupLabels (l : List Nat) : ∀ s : State, Quiet s (lookupLabels l s).1 := by
  induction l with
  | nil => exact fun s => Quiet.refl s
  | cons n l ih => exact fun s => (Quiet.readNetWith id Quiet.refl s _ n).trans (ih _)

theorem Quiet.takeRecord (s : State) (e : Entry) : Quiet s (s.takeRecord e) := by
  unfold State.takeRecord
  exact (Quiet.ofPrinter s _).trans ((Quiet.lookupLabels _ _).trans
    ((Quiet.ofPrinter _ _).trans (Quiet.startLine _)))

theorem Quiet.takeOldest (s : State) : Quiet s s.takeOldest := by
  unfold State.takeOldest
  split
  · exact Quiet.takeRecord s _
  · exact Quiet.ofPrinter s _

theorem Quiet.printIdle (s : State) : Quiet s s.printIdle := by
  unfold State.printIdle
  split
  · exact Quiet.takeOldest s
  · exact Quiet.refl s

theorem Quiet.appendSystem (s : State) (d : RecData) : Quiet s (s.appendSystem d).1 :=
  (Quiet.offerSystem s d).trans (Quiet.printIdle _)

theorem Quiet.appendTest (s : State) (b : Bool) (d : RecData) : Quiet s (s.appendTest b d).1 :=
  (Quiet.offerTest s b d).trans (Quiet.printIdle _)

theorem Quiet.readNetFor (s : State) (c : ReadCause) (n : Nat) : Quiet s (s.readNetFor c n).1 :=
  Quiet.readNetWith State.printIdle Quiet.printIdle s c n

/-- The CARD event: the register takes the position of the first raising, all else is quiet. -/
theorem Quiet.raiseCard (s : State) (c : CardCause) (p : Nat) :
    Quiet { s with events := { s.events with card := s.events.card.enter c p } } (s.raiseCard c p) := Quiet.raise _ _

theorem State.raiseCard_isPending (s : State) (c : CardCause) (p : Nat) :
    (s.raiseCard c p).events.pending.getLsbD 2 = true := State.raise_isPending _ .card

/-- The examination of the head: only the wait for log space alone changes besides. -/
theorem Quiet.examineHead (s : State) :
    ∃ w, Quiet { s with queue := { s.queue with stallWait := w } } s.examineHead := by
  unfold State.examineHead
  split
  · split
    · exact ⟨s.queue.stallWait, Quiet.refl s⟩
    · exact ⟨true, Quiet.raise _ _⟩
  · exact ⟨false, Quiet.refl _⟩

/-- A record that has room and carries a mark is the newest entry. -/
theorem State.take_entries (s : State) (d : RecData) :
    (s.take d).log.entries = (s.log.take s.printMarks d).entries := by
  unfold State.take
  dsimp only
  split
  · unfold State.notifyTaken State.defectReady
    split
    · rw [State.raise_log]; rfl
    · split <;> rfl
  · rfl

theorem State.take_printer (s : State) (d : RecData) : (s.take d).printer = s.printer := by
  unfold State.take
  dsimp only
  split
  · unfold State.notifyTaken State.defectReady
    split
    · rw [State.raise_printer]; rfl
    · split <;> rfl
  · rfl

theorem State.take_store (s : State) (d : RecData) : (s.take d).store = s.store := by
  unfold State.take
  dsimp only
  split
  · unfold State.notifyTaken State.defectReady
    split
    · rw [State.raise_store]; rfl
    · split <;> rfl
  · rfl

end Sys2Proof.Machine
end

