-- ==== Sys2Proof/Laws/Host.lean ====
section
/-! SUPPORT. A request at a host link that is ready: it is handed over and answered in the event of its arrival. -/

namespace Sys2Proof.Machine

open Sys2Proof

theorem requestOf_code (r : Request) : requestOf r.code = some r := by cases r <;> decide

/-- Every request row is the arrival of its frame. -/
theorem exec_request (r : Request) (tag : Byte) (p : List Byte) (s : State) :
    exec (requestInstr r tag p) s = .next (s.frame r.code tag p) := by cases r <;> rfl

/-- What a hand-over at a ready host link comes to. -/
theorem State.frame_ready (s : State) (hs : s.ready) (kind tag : Byte) (p : List Byte) (hp : p.length ≤ 1024) :
    s.frame kind tag p =
      State.handOver 2 (match carryOut kind p (s.handed kind tag p) with
        | (t, some r) => t.compose r
        | (t, none) => t) := by
  obtain ⟨hslots, hasm, htx, hcar, henum, hst⟩ := hs
  have hh : s.hunt = s := by
    cases s with
    | mk a b c d e f g h i j k host m n o =>
      cases host
      simp_all [State.hunt]
  unfold State.frame
  rw [if_neg (by omega), hh]
  unfold State.received
  rw [if_neg (by simp [hslots])]
  unfold State.dispatch State.handOver
  have hb : State.handOverBlocked { s with host := { s.host with slots := s.host.slots ++ [⟨kind, tag, p, .waiting⟩] } }
      = false := by
    have h1 : ∀ x, State.enumerating { s with host := x } = s.enumerating := fun _ => rfl
    simp only [State.handOverBlocked, h1, henum, hslots, hst]
    rfl
  rw [if_neg (by simp [hb])]
  simp only [hslots, List.nil_append, markCarried, State.handOne, State.handed]
  rfl

/-- Nothing is left to hand over once the one slot's reply is on its way. -/
theorem State.handOver_sending (s : State) (n : Nat) (k t : Byte) (p r : List Byte)
    (h : s.host.slots = [⟨k, t, p, .sending r⟩]) : State.handOver n s = s := by
  cases n with
  | zero => rfl
  | succ n =>
    unfold State.handOver
    split
    · rfl
    · simp [h, markCarried]

/-- Nothing is handed over while a request is being carried out. -/
theorem State.handOver_carried (s : State) (n : Nat) (h : s.host.slots.any (fun r => r.phase == .carried) = true) :
    State.handOver n s = s := by
  cases n with
  | zero => rfl
  | succ n =>
    unfold State.handOver
    rw [if_pos (by simp [State.handOverBlocked, h])]

/-- Nothing is handed over when no slot waits. -/
theorem State.dispatch_idle (s : State) (h : ∀ r ∈ s.host.slots, r.phase ≠ .waiting) : s.dispatch = s := by
  have hm : ∀ l : List RxSlot, (∀ r ∈ l, r.phase ≠ .waiting) → markCarried l = none := by
    intro l
    induction l with
    | nil => exact fun _ => rfl
    | cons r l ih =>
      intro h
      have hr := h r (List.mem_cons_self ..)
      have := ih (fun x hx => h x (List.mem_cons_of_mem _ hx))
      unfold markCarried
      split
      · contradiction
      all_goals simp [this]
  unfold State.dispatch State.handOver
  split
  · rfl
  · rw [hm _ h]

/-- The reply of the one slot being carried out goes out at once on a free path. -/
theorem State.compose_carried (s : State) (k t : Byte) (p r : List Byte)
    (hs : s.host.slots = [⟨k, t, p, .carried⟩]) (ht : s.host.tx = none) :
    s.compose r = { s with host := { s.host with
      slots := [⟨k, t, p, .sending r⟩], tx := some ⟨true, hostFrame (replyKind k) t r⟩, carried := none } } := by
  simp [State.compose, State.txKick, hs, ht, RxSlot.answer, takeReply]

/-- A request that its block answers in the event of its hand-over, the block leaving the host link alone. -/
theorem exec_answered (r : Request) (tag : Byte) (p : List Byte) (s u : State) (rep : List Byte) (hs : s.ready)
    (hp : p.length ≤ 1024) (hu : carry r p (s.handed r.code tag p) = (u, some rep))
    (hh : u.host = (s.handed r.code tag p).host) :
    exec (requestInstr r tag p) s = .next (u.replying r.code tag p rep) := by
  rw [exec_request, State.frame_ready s hs _ _ _ hp]
  simp only [carryOut, requestOf_code, hu]
  obtain ⟨hslots, hasm, htx, hcar, henum, hst⟩ := hs
  rw [State.compose_carried u r.code tag p rep (by rw [hh]; rfl) (by rw [hh]; exact htx)]
  rw [State.handOver_sending _ _ r.code tag p rep rfl]
  congr 1
  unfold State.replying
  congr 1
  have : u.host.carried = none := by rw [hh]; exact hcar
  rw [this.symm]

/-- A request that takes time: it is being carried out when the event ends. -/
theorem exec_taken (r : Request) (tag : Byte) (p : List Byte) (s u : State) (hs : s.ready)
    (hp : p.length ≤ 1024) (hu : carry r p (s.handed r.code tag p) = (u, none))
    (hc : u.host.slots.any (fun r => r.phase == .carried) = true) :
    exec (requestInstr r tag p) s = .next u := by
  rw [exec_request, State.frame_ready s hs _ _ _ hp]
  simp only [carryOut, requestOf_code, hu]
  rw [State.handOver_carried u 2 hc]

end Sys2Proof.Machine
end

