-- ==== Sys2Proof/Laws/Tables.lean ====
section
/-! SUPPORT. The sparse tables and the relay image: every operation keeps the canonical form, and what a read gives
after a write. -/

namespace Sys2Proof.Machine

open Sys2Proof

theorem tableWf_cons {α : Type} (a : Nat × α) (t : List (Nat × α)) :
    tableWf (a :: t) = true ↔ (∀ e ∈ t.head?, a.1 < e.1) ∧ tableWf t = true := by
  cases t with
  | nil => simp [tableWf]
  | cons b r => simp [tableWf]

/-- Insertion keeps keys rising. -/
theorem tset_head {α : Type} (k : Nat) (v : α) : ∀ (t : List (Nat × α)) (b : Nat), b < k →
    (∀ e ∈ t.head?, b < e.1) → ∀ e ∈ (tset t k v).head?, b < e.1
  | [], b, hk, _, e, he => by simp [tset] at he; subst he; exact hk
  | (k', v') :: r, b, hk, ht, e, he => by
    unfold tset at he
    split at he
    · simp at he; subst he; exact hk
    · split at he
      · simp at he; subst he; exact hk
      · simp at he; subst he; exact ht _ rfl

theorem tset_wf {α : Type} (k : Nat) (v : α) : ∀ t : List (Nat × α), tableWf t = true → tableWf (tset t k v) = true
  | [], _ => rfl
  | (k', v') :: r, h => by
    have hc := (tableWf_cons _ _).1 h
    unfold tset
    split
    · next hlt => exact (tableWf_cons _ _).2 ⟨by simpa using hlt, h⟩
    · split
      · next heq => subst heq; exact (tableWf_cons _ _).2 ⟨hc.1, hc.2⟩
      · exact (tableWf_cons _ _).2 ⟨tset_head k v r k' (by omega) hc.1, tset_wf k v r hc.2⟩

/-- Marks of corruption change no key. -/
theorem Store.markCorrupt_wf (st : Store) (n : Nat) : (st.markCorrupt n).wf = st.wf := by
  have : ((st.markCorrupt n).nets.map (fun r => (r.body.num, ()))) = st.nets.map (fun r => (r.body.num, ())) := by
    simp only [Store.markCorrupt, List.map_map]
    apply List.map_congr_left
    intro r _
    simp only [Function.comp]
    split <;> rfl
  unfold Store.wf
  rw [this]
  rfl

/-- An upset changes no key. -/
theorem Store.upset_wf (st : Store) (n : Nat) (f : Word16) : (st.upset n f).wf = st.wf := by
  have : ((st.upset n f).nets.map (fun r => (r.body.num, ()))) = st.nets.map (fun r => (r.body.num, ())) := by
    simp only [Store.upset, List.map_map]
    apply List.map_congr_left
    intro r _
    simp only [Function.comp]
    split <;> rfl
  unfold Store.wf
  rw [this]
  rfl

theorem writeImage_wf (p : Nat) (items : List (Nat × Rail)) : ∀ im : List (Nat × Rail),
    tableWf im = true → tableWf (writeImage im p items) = true := by
  unfold writeImage
  induction items with
  | nil => exact fun _ h => h
  | cons i l ih => exact fun im h => ih _ (tset_wf _ _ im h)

theorem Store.clearNets_wf (st : Store) (h : st.wf = true) : st.clearNets.wf = true := by
  simp only [Store.wf, Bool.and_eq_true] at h
  simp [Store.wf, Store.clearNets, h.1.1.1.1, h.1.1.1.2, h.1.1.2, tableWf]

/-- Keys above a bound at the head of a strictly rising table are above it all along. -/
theorem tableWf_head_lt {α : Type} : ∀ (t : List (Nat × α)) (b : Nat), tableWf t = true →
    (∀ e ∈ t.head?, b < e.1) → ∀ e ∈ t, b < e.1
  | [], _, _, _, e, he => absurd he (by simp)
  | a :: t, b, hw, hb, e, he => by
    have hc := (tableWf_cons a t).1 hw
    have ha : b < a.1 := hb a rfl
    rcases List.mem_cons.1 he with rfl | he
    · exact ha
    · exact Nat.lt_trans ha (tableWf_head_lt t a.1 hc.2 hc.1 e he)

/-- The entries a rule keeps are still strictly rising. -/
theorem tableWf_filter {α : Type} (p : Nat × α → Bool) : ∀ t : List (Nat × α), tableWf t = true →
    tableWf (t.filter p) = true
  | [], _ => rfl
  | a :: t, h => by
    have hc := (tableWf_cons a t).1 h
    have ih := tableWf_filter p t hc.2
    rw [List.filter_cons]
    split
    · refine (tableWf_cons _ _).2 ⟨?_, ih⟩
      intro e he
      have : e ∈ t.filter p := List.mem_of_mem_head? he
      exact tableWf_head_lt t a.1 hc.2 hc.1 e (List.mem_filter.1 this).1
    · exact ih

/-- The table of net numbers. -/
def netKeys (l : List NetRec) : List (Nat × Unit) := l.map (fun r => (r.body.num, ()))

theorem netKeys_insNet (r : NetRec) : ∀ l : List NetRec, (∀ q ∈ l, q.body.num ≠ r.body.num) →
    netKeys (insNet r l) = tset (netKeys l) r.body.num ()
  | [], _ => rfl
  | q :: t, h => by
    have hq : q.body.num ≠ r.body.num := h q (List.mem_cons_self ..)
    have ht := netKeys_insNet r t (fun x hx => h x (List.mem_cons_of_mem _ hx))
    unfold insNet
    show _ = tset ((q.body.num, ()) :: netKeys t) r.body.num ()
    unfold tset
    split
    · rfl
    · rw [if_neg (fun hh => hq hh.symm)]
      show (q.body.num, ()) :: netKeys (insNet r t) = _
      rw [ht]

theorem netKeys_filter (n : Nat) : ∀ l : List NetRec,
    netKeys (l.filter (fun r => r.body.num != n)) = (netKeys l).filter (fun e => e.1 != n)
  | [] => rfl
  | q :: t => by
    have ih := netKeys_filter n t
    unfold netKeys at ih ⊢
    simp only [List.filter_cons, List.map_cons]
    split <;> simp [ih]

theorem foldl_tset_wf (n : Nat) (ms : List Nat) : ∀ o : List (Nat × Nat), tableWf o = true →
    tableWf (ms.foldl (fun o p => tset o p n) o) = true := by
  induction ms with
  | nil => exact fun _ h => h
  | cons m ms ih => exact fun o h => ih _ (tset_wf _ _ o h)

/-- Storing a net keeps the canonical form. -/
theorem Store.putNet_wf (st : Store) (b : NetBody) (h : st.wf = true) : (st.putNet b).wf = true := by
  simp only [Store.wf, Bool.and_eq_true] at h ⊢
  obtain ⟨⟨⟨⟨hm, hl⟩, hz⟩, ho⟩, hn⟩ := h
  refine ⟨⟨⟨⟨hm, hl⟩, hz⟩, ?_⟩, ?_⟩
  · exact foldl_tset_wf _ _ _ (tableWf_filter _ _ ho)
  · have := netKeys_insNet ⟨b, b.checkValue, false⟩ (st.nets.filter (fun r => r.body.num != b.num))
      (fun q hq => by simpa using (List.mem_filter.1 hq).2)
    show tableWf (netKeys (insNet _ _)) = true
    rw [this, netKeys_filter]
    exact tset_wf _ _ _ (tableWf_filter _ _ hn)

theorem tdel_wf {α : Type} (k : Nat) : ∀ t : List (Nat × α), tableWf t = true → tableWf (tdel t k) = true
  | [], _ => rfl
  | a :: t, h => by
    have hc := (tableWf_cons a t).1 h
    unfold tdel
    split
    · exact hc.2
    · refine (tableWf_cons _ _).2 ⟨?_, tdel_wf k t hc.2⟩
      intro e he
      exact tableWf_head_lt t a.1 hc.2 hc.1 e (tdel_mem k t e (List.mem_of_mem_head? he))
where
  tdel_mem {α : Type} (k : Nat) : ∀ (t : List (Nat × α)) (e : Nat × α), e ∈ tdel t k → e ∈ t
    | [], e, h => h
    | a :: t, e, h => by
      unfold tdel at h
      split at h
      · exact List.mem_cons_of_mem _ h
      · rcases List.mem_cons.1 h with rfl | h
        · exact List.mem_cons_self ..
        · exact List.mem_cons_of_mem _ (tdel_mem k t e h)

theorem tput_wf {α : Type} (k : Nat) (v : Option α) (t : List (Nat × α)) (h : tableWf t = true) :
    tableWf (tput t k v) = true := by
  cases v with
  | none => exact tdel_wf k t h
  | some v => exact tset_wf k v t h

theorem tset_mem {α : Type} (k : Nat) (v : α) : ∀ (t : List (Nat × α)) (e : Nat × α), e ∈ tset t k v →
    e = (k, v) ∨ e ∈ t
  | [], e, h => .inl (by simpa [tset] using h)
  | a :: t, e, h => by
    unfold tset at h
    split at h
    · exact (List.mem_cons.1 h).imp id id
    · split at h
      · exact (List.mem_cons.1 h).imp id (List.mem_cons_of_mem _)
      · rcases List.mem_cons.1 h with rfl | h
        · exact .inr (List.mem_cons_self ..)
        · exact (tset_mem k v t e h).imp id (List.mem_cons_of_mem _)

/-- Writing a lead keeps the canonical form: an entry of 0 is left unlisted. -/
theorem Store.setLead_wf (st : Store) (p v : Nat) (h : st.wf = true) : (st.setLead p v).wf = true := by
  simp only [Store.wf, Bool.and_eq_true, List.all_eq_true] at h ⊢
  obtain ⟨⟨⟨⟨hm, hl⟩, hz⟩, ho⟩, hn⟩ := h
  refine ⟨⟨⟨⟨hm, tput_wf _ _ _ hl⟩, ?_⟩, ho⟩, hn⟩
  intro e he
  unfold Store.setLead at he
  dsimp only at he
  split at he
  · exact hz e (tdel_wf.tdel_mem p _ e he)
  · rcases tset_mem p v _ e he with rfl | he
    · simpa using ‹¬ v = 0›
    · exact hz e he

/-- Tables in ascending order, one behind the other. -/
theorem tableWf_append {α : Type} (b : Nat) : ∀ (x y : List (Nat × α)), tableWf x = true → tableWf y = true →
    (∀ e ∈ x, e.1 < b) → (∀ e ∈ y, b ≤ e.1) → tableWf (x ++ y) = true
  | [], _, _, hy, _, _ => hy
  | a :: x, y, hx, hy, hxb, hyb => by
    have hc := (tableWf_cons a x).1 hx
    refine (tableWf_cons _ _).2 ⟨?_, tableWf_append b x y hc.2 hy
      (fun e he => hxb e (List.mem_cons_of_mem _ he)) hyb⟩
    intro e he
    cases x with
    | nil =>
      exact Nat.lt_of_lt_of_le (hxb a (List.mem_cons_self ..)) (hyb e (List.mem_of_mem_head? he))
    | cons c x => exact hc.1 e he

/-- A run of keys, some of them left out. -/
theorem tableWf_run {α : Type} (f : Nat → Option α) (n : Nat) : ∀ k : Nat,
    tableWf ((List.range' k n).filterMap (fun i => (f i).map (fun r => (i, r)))) = true ∧
      ∀ e ∈ (List.range' k n).filterMap (fun i => (f i).map (fun r => (i, r))), k ≤ e.1 ∧ e.1 < k + n := by
  induction n with
  | zero => exact fun k => ⟨rfl, fun e he => absurd he (by simp)⟩
  | succ n ih =>
    intro k
    have ⟨hw, hb⟩ := ih (k + 1)
    rw [List.range'_succ, List.filterMap_cons]
    cases hf : f k with
    | none =>
      simp only [Option.map_none]
      exact ⟨hw, fun e he => ⟨by have := (hb e he).1; omega, by have := (hb e he).2; omega⟩⟩
    | some r =>
      simp only [Option.map_some]
      refine ⟨(tableWf_cons _ _).2 ⟨?_, hw⟩, ?_⟩
      · intro e he
        have := (hb e (List.mem_of_mem_head? he)).1
        show k < e.1
        omega
      · intro e he
        rcases List.mem_cons.1 he with rfl | he
        · exact ⟨Nat.le_refl _, by show k < k + (n + 1); omega⟩
        · exact ⟨by have := (hb e he).1; omega, by have := (hb e he).2; omega⟩

theorem range_shift {α : Type} (p : Nat) (n : Nat) (f : Nat → Option α) :
    (List.range n).filterMap (fun k => (f k).map (fun r => (p + k, r)))
      = (List.range' p n).filterMap (fun i => (f (i - p)).map (fun r => (i, r))) := by
  rw [List.range'_eq_map_range, List.filterMap_map]
  apply List.filterMap_congr
  intro k _
  simp

/-- Rewriting a position keeps the image's canonical form. -/
theorem rewritePos_wf (im : List (Nat × Rail)) (p : Nat) (f : Nat → Option Rail → Option Rail)
    (h : tableWf im = true) : tableWf (rewritePos im p f) = true := by
  have hrun := tableWf_run (fun i => f (i - p * 128) (tget im (p * 128 + (i - p * 128)))) 128 (p * 128)
  have hs := range_shift (p * 128) 128 (fun k => f k (tget im (p * 128 + k)))
  unfold rewritePos
  rw [hs, List.append_assoc]
  have hlast : tableWf (im.filter (fun e => decide ((p + 1) * 128 ≤ e.1))) = true := tableWf_filter _ _ h
  refine tableWf_append (p * 128) _ _ (tableWf_filter _ _ h) (tableWf_append ((p + 1) * 128) _ _ hrun.1 hlast ?_ ?_)
    ?_ ?_
  · intro e he; have := (hrun.2 e he).2; omega
  · intro e he; simpa using (List.mem_filter.1 he).2
  · intro e he; simpa using (List.mem_filter.1 he).2
  · intro e he
    rcases List.mem_append.1 he with he | he
    · exact (hrun.2 e he).1
    · have : (p + 1) * 128 ≤ e.1 := by simpa using (List.mem_filter.1 he).2
      omega

theorem CardKind.channels_le (k : CardKind) : k.channels ≤ 128 := by cases k <;> decide

/-- The image at the close of an enumeration is in canonical form. -/
theorem State.enumImage_wf (s : State) (h : tableWf s.matrix.image = true) : tableWf s.enumImage = true := by
  have hpos : ∀ (n k : Nat), 1 ≤ k →
      tableWf ((List.range' k n).flatMap (fun p =>
        if (s.posn p).state = .present then (List.range (s.posn p).kind.channels).map (fun i => (p * 128 + i, Rail.opn))
        else [])) = true ∧
      ∀ e ∈ (List.range' k n).flatMap (fun p =>
        if (s.posn p).state = .present then (List.range (s.posn p).kind.channels).map (fun i => (p * 128 + i, Rail.opn))
        else []), k * 128 ≤ e.1 := by
    intro n
    induction n with
    | zero => exact fun k _ => ⟨rfl, fun e he => absurd he (by simp)⟩
    | succ n ih =>
      intro k hk
      have ⟨hw, hb⟩ := ih (k + 1) (by omega)
      rw [List.range'_succ, List.flatMap_cons]
      split
      · have hr := range_shift (k * 128) (s.posn k).kind.channels (fun _ => some Rail.opn)
        simp only [Option.map_some, List.filterMap_eq_map', ] at hr
        have hrun := tableWf_run (fun _ => some Rail.opn) (s.posn k).kind.channels (k * 128)
        simp only [Option.map_some, List.filterMap_eq_map'] at hrun
        rw [hr]
        have hc := (s.posn k).kind.channels_le
        refine ⟨tableWf_append ((k + 1) * 128) _ _ hrun.1 hw ?_ hb, ?_⟩
        · intro e he; have := (hrun.2 e he).2; omega
        · intro e he
          rcases List.mem_append.1 he with he | he
          · exact (hrun.2 e he).1
          · have := hb e he; omega
      · exact ⟨hw, fun e he => by have := hb e he; omega⟩
  have ⟨hw, hb⟩ := hpos 32 1 (by omega)
  unfold State.enumImage positions
  refine tableWf_append 128 _ _ (tableWf_filter _ _ h) hw ?_ ?_
  · intro e he; simpa using (List.mem_filter.1 he).2
  · intro e he; simpa using hb e he

theorem State.allOpenImage_wf (s : State) (h : tableWf s.matrix.image = true) : tableWf s.allOpenImage = true := by
  unfold State.allOpenImage
  generalize s.matrix.image = im at h
  induction positions generalizing im with
  | nil => exact h
  | cons p l ih =>
    refine ih _ ?_
    dsimp only
    split
    · exact rewritePos_wf _ _ _ h
    · exact h

theorem applyMap_wf (items : List (Nat × Byte × Byte)) : ∀ m : List (Nat × Chan), tableWf m = true →
    tableWf (applyMap m items) = true := by
  unfold applyMap
  induction items with
  | nil => exact fun _ h => h
  | cons i l ih => exact fun m h => ih _ (tput_wf _ _ _ h)

/-- A new map keeps the store's canonical form. -/
theorem Store.withMap_wf (st : Store) (m : List (Nat × Chan)) (hm : tableWf m = true) (h : st.wf = true) :
    Store.wf { st with map := m } = true := by
  simp only [Store.wf, Bool.and_eq_true] at h ⊢
  obtain ⟨⟨⟨⟨_, hl⟩, hz⟩, ho⟩, hn⟩ := h
  exact ⟨⟨⟨⟨hm, hl⟩, hz⟩, ho⟩, hn⟩

theorem Store.wf_map (st : Store) (h : st.wf = true) : tableWf st.map = true := by
  simp only [Store.wf, Bool.and_eq_true] at h
  exact h.1.1.1.1

theorem setLeads_wf (items : List (Nat × Byte × Byte)) : ∀ st : Store, st.wf = true →
    Store.wf (items.foldl (fun st it => st.setLead it.1 (u16 it.2.1 it.2.2)) st) = true := by
  induction items with
  | nil => exact fun _ h => h
  | cons i l ih => exact fun st h => ih _ (Store.setLead_wf _ _ _ h)

/-! ### What a read gives after a write -/

theorem tget_tset {α : Type} (k : Nat) (v : α) (q : Nat) : ∀ t : List (Nat × α),
    tget (tset t k v) q = if q = k then some v else tget t q
  | [] => by simp [tset, tget]
  | (k', v') :: r => by
    have ih := tget_tset k v q r
    unfold tset
    split
    · simp [tget]
    · split
      · next h =>
        subst h
        simp only [tget]
        split <;> simp_all
      · next h =>
        simp only [tget, ih]
        by_cases hq : q = k'
        · subst hq; simp [Ne.symm h]
        · simp [hq]

/-- A key below every key of a table reads as nothing. -/
theorem tget_none_of_lt {α : Type} (q : Nat) : ∀ t : List (Nat × α), (∀ e ∈ t, q < e.1) → tget t q = none
  | [], _ => rfl
  | (k', v') :: r, h => by
    have hk : q < k' := h _ (List.mem_cons_self ..)
    unfold tget
    rw [if_neg (by omega)]
    exact tget_none_of_lt q r (fun e he => h e (List.mem_cons_of_mem _ he))

theorem tget_tdel {α : Type} (k q : Nat) : ∀ t : List (Nat × α), tableWf t = true →
    tget (tdel t k) q = if q = k then none else tget t q
  | [], _ => by simp [tdel, tget]
  | (k', v') :: r, h => by
    have hc := (tableWf_cons _ _).1 h
    have ih := tget_tdel k q r hc.2
    unfold tdel
    split
    · next hk =>
      subst hk
      by_cases hq : q = k
      · subst hq
        rw [if_pos rfl]
        exact tget_none_of_lt q r (tableWf_head_lt r q hc.2 hc.1)
      · simp [tget, hq]
    · next hk =>
      simp only [tget, ih]
      by_cases hq : q = k'
      · subst hq; simp [Ne.symm hk]
      · simp [hq]

theorem tget_tput {α : Type} (k q : Nat) (v : Option α) (t : List (Nat × α)) (h : tableWf t = true) :
    tget (tput t k v) q = if q = k then v else tget t q := by
  cases v with
  | none => exact tget_tdel k q t h
  | some v => exact tget_tset k v q t

/-- What a rule on entries leaves of a table. -/
theorem tget_filter {α : Type} (p : Nat × α → Bool) (q : Nat) : ∀ t : List (Nat × α), tableWf t = true →
    tget (t.filter p) q = (tget t q).filter (fun v => p (q, v))
  | [], _ => rfl
  | (k', v') :: r, h => by
    have hc := (tableWf_cons _ _).1 h
    have ih := tget_filter p q r hc.2
    have hn : q = k' → tget r q = none :=
      fun hq => tget_none_of_lt q r (tableWf_head_lt r q hc.2 (hq ▸ hc.1))
    rw [List.filter_cons]
    by_cases hq : q = k'
    · have hr := hn hq
      subst hq
      cases hp : p (q, v') <;> simp [tget, hp, ih, hr, Option.filter]
    · cases hp : p (k', v') <;> simp [tget, hq, ih]

/-- A key that some entry carries reads as that entry's value. -/
theorem tget_of_mem {α : Type} (e : Nat × α) : ∀ t : List (Nat × α), tableWf t = true → e ∈ t →
    tget t e.1 = some e.2
  | [], _, h => absurd h (by simp)
  | (k', v') :: r, h, hm => by
    have hc := (tableWf_cons _ _).1 h
    unfold tget
    rcases List.mem_cons.1 hm with rfl | hm
    · simp
    · rw [if_neg]
      · exact tget_of_mem e r hc.2 hm
      · have := tableWf_head_lt r k' hc.2 hc.1 e hm
        omega

theorem mem_of_tget {α : Type} (q : Nat) (v : α) : ∀ t : List (Nat × α), tget t q = some v → (q, v) ∈ t
  | [], h => by simp [tget] at h
  | (k', v') :: r, h => by
    unfold tget at h
    split at h
    · next hq => subst hq; cases h; exact List.mem_cons_self ..
    · exact List.mem_cons_of_mem _ (mem_of_tget q v r h)

/-- No entry stands twice in a table. -/
theorem tableWf_nodup {α : Type} : ∀ t : List (Nat × α), tableWf t = true → t.Nodup
  | [], _ => List.nodup_nil
  | a :: t, h => by
    have hc := (tableWf_cons a t).1 h
    refine List.nodup_cons.2 ⟨fun hm => ?_, tableWf_nodup t hc.2⟩
    exact absurd (tableWf_head_lt t a.1 hc.2 hc.1 a hm) (Nat.lt_irrefl _)

/-- A put net is found under its number; another number finds what it found before. -/
theorem find_insNet (r : NetRec) (k : Nat) : ∀ l : List NetRec, (∀ q ∈ l, q.body.num ≠ r.body.num) →
    (insNet r l).find? (fun q => q.body.num == k) =
      if k = r.body.num then some r else l.find? (fun q => q.body.num == k)
  | [], _ => by
    by_cases hk : r.body.num = k
    · simp [insNet, hk]
    · simp [insNet, hk, Ne.symm hk]
  | q :: t, h => by
    have hq : q.body.num ≠ r.body.num := h q (List.mem_cons_self ..)
    have ih := find_insNet r k t (fun x hx => h x (List.mem_cons_of_mem _ hx))
    unfold insNet
    split
    · by_cases hk : r.body.num = k
      · subst hk; simp
      · simp [List.find?_cons, hk, Ne.symm hk]
    · rw [List.find?_cons, ih, List.find?_cons]
      by_cases hk : q.body.num = k
      · subst hk; simp [hq]
      · have hb : (q.body.num == k) = false := by simpa using hk
        rw [hb]

/-- The points of a list, sorted, are the points of the list. -/
theorem mem_insPoint (p q : Nat) : ∀ l : List Nat, q ∈ insPoint p l ↔ q = p ∨ q ∈ l
  | [] => by simp [insPoint]
  | x :: r => by
    have ih := mem_insPoint p q r
    unfold insPoint
    split
    · simp
    · split
      · next h => subst h; simp
      · simp only [List.mem_cons, ih]; tauto

theorem mem_sortPoints (q : Nat) : ∀ l : List Nat, q ∈ sortPoints l ↔ q ∈ l
  | [] => by simp [sortPoints]
  | x :: r => by
    have ih := mem_sortPoints q r
    unfold sortPoints at ih ⊢
    simp only [List.foldr_cons, mem_insPoint, ih, List.mem_cons]

end Sys2Proof.Machine
end

