-- ==== Sys2Proof/Laws/Image.lean ====
section
/-! SUPPORT. What a read of the relay image gives after each of its writes. -/

namespace Sys2Proof.Machine

open Sys2Proof

theorem tget_iff {α : Type} (k : Nat) (v : α) (t : List (Nat × α)) (h : tableWf t = true) :
    tget t k = some v ↔ (k, v) ∈ t := ⟨mem_of_tget k v t, tget_of_mem (k, v) t h⟩

theorem tget_none_iff {α : Type} (k : Nat) (t : List (Nat × α)) (h : tableWf t = true) :
    tget t k = none ↔ ∀ v, (k, v) ∉ t := by
  constructor
  · intro hn v hv
    rw [(tget_iff k v t h).2 hv] at hn
    cases hn
  · intro hn
    cases hg : tget t k with
    | none => rfl
    | some v => exact absurd ((tget_iff k v t h).1 hg) (hn v)

/-- A position rewritten: its channels take the rule's value, every other channel keeps its own. -/
theorem rewritePos_read (im : List (Nat × Rail)) (p : Nat) (f : Nat → Option Rail → Option Rail)
    (hw : tableWf im = true)
    (c : Chan) (hc : c.ch ≤ 127) :
    tget (rewritePos im p f) c.key = if c.pos = p then f c.ch (tget im c.key) else tget im c.key := by
  have hwf := rewritePos_wf im p f hw
  obtain ⟨q, k⟩ := c
  simp only at hc ⊢
  unfold Chan.key
  simp only
  have hmem : ∀ v, (q * 128 + k, v) ∈ rewritePos im p f ↔
      if q = p then f k (tget im (p * 128 + k)) = some v else (q * 128 + k, v) ∈ im := by
    intro v
    unfold rewritePos
    simp only [List.mem_append, List.mem_filter, List.mem_filterMap, List.mem_range]
    split
    · rename_i hq; subst hq
      constructor
      · rintro ((⟨_, h⟩ | ⟨j, hj, h⟩) | ⟨_, h⟩)
        · simp at h
        · rw [Option.map_eq_some_iff] at h
          obtain ⟨r, hr, he⟩ := h
          simp only [Prod.mk.injEq] at he
          have : j = k := by omega
          subst this
          rw [← he.2]; exact hr
        · simp at h; omega
      · intro h
        refine .inl (.inr ⟨k, by omega, ?_⟩)
        rw [h]; rfl
    · rename_i hq
      constructor
      · rintro ((⟨h, _⟩ | ⟨j, hj, h⟩) | ⟨h, _⟩)
        · exact h
        · rw [Option.map_eq_some_iff] at h
          obtain ⟨r, hr, he⟩ := h
          simp only [Prod.mk.injEq] at he
          omega
        · exact h
      · intro h
        by_cases hlt : q * 128 + k < p * 128
        · exact .inl (.inl ⟨h, by simpa using hlt⟩)
        · exact .inr ⟨h, by simp; omega⟩
  split
  · rename_i hq; subst hq
    cases hf : f k (tget im (q * 128 + k)) with
    | none =>
      rw [tget_none_iff _ _ hwf]; intro v hv
      have := (hmem v).1 hv
      simp [hf] at this
    | some v => rw [tget_iff _ _ _ hwf, hmem]; simpa using hf
  · rename_i hq
    cases hg : tget im (q * 128 + k) with
    | none =>
      rw [tget_none_iff _ _ hwf]; intro v hv
      have := (hmem v).1 hv
      rw [if_neg hq] at this
      exact (tget_none_iff _ _ hw).1 hg v this
    | some v => rw [tget_iff _ _ _ hwf, hmem, if_neg hq]; exact (tget_iff _ _ _ hw).1 hg

/-- Items written at a position change no key outside it, and give a key of it one of their rails. -/
theorem tget_writeImage (p : Nat) (items : List (Nat × Rail)) (k : Nat) : ∀ im : List (Nat × Rail),
    tget (writeImage im p items) k = tget im k ∨
      ∃ it ∈ items, p * 128 + it.1 = k ∧ tget (writeImage im p items) k = some it.2 := by
  induction items with
  | nil => exact fun im => .inl rfl
  | cons i l ih =>
    intro im
    rcases ih (tset im (p * 128 + i.1) i.2) with h | ⟨it, hit, h1, h2⟩
    · have hs : tget (writeImage im p (i :: l)) k = tget (tset im (p * 128 + i.1) i.2) k := h
      rw [hs, tget_tset]
      split
      · next hk => exact .inr ⟨i, List.mem_cons_self .., hk.symm, rfl⟩
      · exact .inl rfl
    · exact .inr ⟨it, List.mem_cons_of_mem _ hit, h1, h2⟩

/-- A key that the image at the close of an enumeration has beyond position 0 is OPEN. -/
theorem State.enumImage_opn (s : State) (k : Nat) (hk : 128 ≤ k) : tget s.enumImage k ≠ some .hv := by
  intro h
  have hm := mem_of_tget _ _ _ h
  unfold State.enumImage at hm
  rcases List.mem_append.1 hm with hm | hm
  · have := (List.mem_filter.1 hm).2
    simp only [decide_eq_true_eq] at this
    omega
  · obtain ⟨p, _, hp⟩ := List.mem_flatMap.1 hm
    split at hp
    · obtain ⟨c, _, hc⟩ := List.mem_map.1 hp
      cases hc
    · exact absurd hp (by simp)

/-- ALL_OPEN gives a channel OPEN or leaves it. -/
theorem State.allOpenImage_read (s : State) (hw : tableWf s.matrix.image = true) (c : Chan) (hc : c.ch ≤ 127) :
    tget s.allOpenImage c.key = some .opn ∨ tget s.allOpenImage c.key = tget s.matrix.image c.key := by
  unfold State.allOpenImage
  generalize positions = l
  generalize hg : (fun (im : List (Nat × Rail)) p => _) = g
  suffices h : ∀ im : List (Nat × Rail), tableWf im = true →
      (tget im c.key = some .opn ∨ tget im c.key = tget s.matrix.image c.key) →
      (tget (l.foldl g im) c.key = some .opn ∨ tget (l.foldl g im) c.key = tget s.matrix.image c.key) from
    h _ hw (.inr rfl)
  induction l with
  | nil => exact fun im _ h => h
  | cons p l ih =>
    intro im hi h
    rw [List.foldl_cons]
    refine ih _ ?_ ?_ <;> rw [← hg] <;> dsimp only <;> split
    · exact rewritePos_wf _ _ _ hi
    · exact hi
    · rw [rewritePos_read _ _ _ hi c hc]
      split
      · split
        · exact .inl rfl
        · exact h
      · exact h
    · exact h

/-- A change of a position's entry that keeps its kind keeps every kind. -/
theorem Matrix.setPosn_kind (s : State) (p : Nat) (e : RosterEntry) (he : e.kind = (s.posn p).kind) (q : Nat) :
    ((s.matrix.setPosn p e).roster.getD (q - 1) RosterEntry.empty).kind = (s.posn q).kind := by
  unfold Matrix.setPosn State.posn at *
  simp only [List.getD_eq_getElem?_getD, List.getElem?_set] at *
  by_cases h : p - 1 = q - 1
  · by_cases hl : p - 1 < s.matrix.roster.length
    · rw [if_pos h, if_pos hl, ← h]
      exact he
    · rw [if_pos h, if_neg hl, ← h, List.getElem?_eq_none (by omega)]
  · rw [if_neg h]

/-- The HV items of a change list are for channels of an HV-64 position (R45). -/
theorem State.changeList_hv (s : State) (t : Taken) (p : Nat) :
    ∀ it ∈ s.changeList t p, it.2 = .hv → it.1 < 64 ∧ (1 ≤ p → (s.posn p).kind = .hv64) := by
  intro it hit hv
  unfold State.changeList at hit
  obtain ⟨k, hk, h⟩ := List.mem_filterMap.1 hit
  split at h
  · split at h
    · cases h
    · next r _ hn =>
      cases h
      simp only at hv ⊢
      subst hv
      simp only [Bool.or_eq_true, decide_eq_true_eq, Bool.not_eq_true', not_or, Bool.not_eq_false,
        State.railAllowed] at hn
      by_cases hp : p = 0
      · rw [if_pos hp] at hn
        have : k = 2 := by simpa using hn.2
        exact ⟨by omega, fun h => absurd hp (by omega)⟩
      · rw [if_neg hp] at hn
        have hkind : (s.posn p).kind = .hv64 := by simpa using hn.2
        rw [hkind] at hk
        exact ⟨List.mem_range.1 hk, fun _ => hkind⟩
  · split at h
    · cases h; cases hv
    · cases h

end Sys2Proof.Machine
end

