-- ==== Sys2Proof/Laws/Keeps.lean ====
section
/-! SUPPORT. What a command can do to the state, said once: a predicate that is kept by each primitive change is
kept by every operation of the machine, so by every command. -/

namespace Sys2Proof.Machine

open Sys2Proof

/-! ### The conditions the machine meets where it makes a change -/

/-- Every LEARN in progress stands on its table. -/
def State.learnOk (s : State) : Prop := ∀ w, s.engine.work = .learn w → w.sound s.store

/-- What an engine may turn to: an engine that works goes on, or its job is active; a LEARN that stood on its table still
does. -/
structure State.WorkMay (s : State) (w : Work) : Prop where
  live : w ≠ .none → s.engine.work ≠ .none ∨ s.jobActive = true
  sound : s.store.wf = true → s.learnOk → ∀ l, w = .learn l → l.sound s.store

/-- What the store may become beside an engine that goes on as it was. -/
structure State.StoreMay (s : State) (st : Store) : Prop where
  wf : s.store.wf = true → st.wf = true
  map : s.store.wf = true → s.store.mapSound → st.mapSound
  owned : s.store.wf = true → s.store.owned → st.owned
  sound : (∀ w : LearnWork, w.sound s.store → w.sound st) ∨ s.jobActive = false ∨ s.engine.work = .none

/-- The image has HV for channels of HV-64 positions alone. -/
def State.ImageHv (s : State) (im : List (Nat × Rail)) : Prop :=
  ∀ c : Chan, 1 ≤ c.pos → c.pos ≤ 32 → c.ch ≤ 127 → tget im c.key = some .hv →
    (s.posn c.pos).kind = .hv64 ∧ c.ch < 64

/-- What the image may become. -/
structure State.ImageMay (s : State) (im : List (Nat × Rail)) : Prop where
  wf : tableWf s.matrix.image = true → tableWf im = true
  hv : tableWf s.matrix.image = true → s.hvOnHv64 → s.ImageHv im

/-- What the link may become: the exchange in progress is the one it was, or a SET whose HV items are for channels of an
HV-64 position. -/
def State.LinkMay (s : State) (l : Link) : Prop :=
  ∀ e p items, l.exchange = some e → e.sent = .set p items →
    (∃ d, s.link.exchange = some d ∧ d.sent = e.sent) ∨
    ∀ it ∈ items, it.2 = .hv → it.1 < 64 ∧ (1 ≤ p → p ≤ 32 → (s.posn p).kind = .hv64)

/-- The primitive changes, each under the condition that the machine meets where it makes the change. -/
structure Keeps (P : State → Prop) : Prop where
  ofEngine : ∀ s e, s.WorkMay e.work → P s → P { s with engine := e }
  ofReference : ∀ s r, P s → P { s with reference := r }
  ofLimits : ∀ s l, P s → P { s with limits := l }
  ofPins : ∀ s p, P s → P { s with pins := p }
  ofEvents : ∀ s v, P s → P { s with events := v }
  ofPrinter : ∀ s p, P s → P { s with printer := p }
  ofHost : ∀ s x, (s.host.slots.length ≤ 2 → x.slots.length ≤ 2) → P s → P { s with host := x }
  ofLink : ∀ s l, s.LinkMay l → P s → P { s with link := l }
  ofPending : ∀ s l, P s → P { s with pending := l }
  ofStore : ∀ s st, s.StoreMay st → P s → P { s with store := st }
  ofLearned : ∀ s w e, s.engine.work = .learn w → w.found ≠ [] → s.store.nets.length < 1024 →
    e.work = .learn w.stored → P s → P { s with store := s.store.putNet w.net, engine := e }
  ofImage : ∀ s im, s.ImageMay im → P s → P { s with matrix := { s.matrix with image := im } }
  ofBlocked : ∀ s b, P s → P { s with matrix := { s.matrix with blocked := b } }
  ofRoster : ∀ s r f, (s.matrix.roster.length = 32 → r.length = 32) →
    (∀ p, 1 ≤ p → p ≤ 32 → (r.getD (p - 1) RosterEntry.empty).kind = (s.posn p).kind) → P s →
    P { s with matrix := { s.matrix with roster := r, frozen := f } }
  ofEnum : ∀ s r im, r.length = 32 → (tableWf s.matrix.image = true → tableWf im = true) →
    (∀ k, 128 ≤ k → tget im k ≠ some .hv) → (∀ e p items, s.link.exchange = some e → e.sent ≠ .set p items) → P s →
    P { s with matrix := { s.matrix with roster := r, image := im } }
  ofWaiting : ∀ s w, P s → P { s with matrix := { s.matrix with waiting := w } }
  ofSlot : ∀ s x, (x.sourceOk = true ∨ s.matrix.slot.sourceOk = false) → P s →
    P { s with matrix := { s.matrix with slot := x } }
  ofBusy : ∀ s x, s.hv.rail = .safe → s.lmu.phase = .idle → P s →
    P { s with matrix := { s.matrix with slot := x } }
  ofLmu : ∀ s l, (l.phase ≠ .idle → s.lmu.phase ≠ .idle ∨ s.sourceAllowed = true) → P s → P { s with lmu := l }
  ofHv : ∀ s h, (h.rail ≠ .safe → s.hv.rail ≠ .safe ∨ (s.matrix.slot.sourceOk = true ∧ s.lmu.phase = .idle)) →
    (h.rail.driven = true → h.coverClosed = true ∨ (s.hv.rail.driven = true ∧ h.coverClosed = s.hv.coverClosed)) →
    P s → P { s with hv := h }
  ofFlags : ∀ s a b, P s → P { s with queue := { s.queue with hold := a, stallWait := b } }
  ofHead : ∀ s f, (∀ j : Job, (f j).tag = j.tag) →
    (∀ j : Job, (f j).state.active = true ∨ (f j).state = j.state) → P s → P (s.setHead f)
  ofTail : ∀ s, s.engine.work = .none → P s → P { s with queue := { s.queue with jobs := s.queue.jobs.tail } }
  ofFilter : ∀ s p, (∀ j ∈ s.queue.jobs.head?, j.state.active = true → p j = true) → P s →
    P { s with queue := { s.queue with jobs := s.queue.jobs.filter p } }
  ofPush : ∀ s t j, s.queue.jobs.length < 8 → s.queue.jobs.any (fun q => q.tag == t) = false → P s →
    P { s with queue := { s.queue with jobs := s.queue.jobs ++ [Job.fresh t j] } }
  ofTake : ∀ s d, (s.marks = true → 9 ≤ s.log.free ∨ (d.system = true ∧ 1 ≤ s.log.free)) → P s →
    P { s with log := s.log.take s.printMarks d }
  ofMarks : ∀ s f, (∀ e : Entry, (f e).data = e.data) → P s → P { s with log := s.log.clearMarks f }
  ofTimer : ∀ s t, P s → P { s with log := { s.log with notifyTimer := t } }
  ofDropped : ∀ s n, n ≤ 65535 → P s → P { s with log := { s.log with dropped := n } }
  ofSettings : ∀ s r a b, P s → P { s with log := { s.log with reporting := r, threshold := a, timeout := b } }
  ofHardReset : ∀ s, P s → P s.hardReset
  ofRestart : ∀ s, P s → P s.restart

/-! ### The conditions in common use -/

/-- The work stays as it was. -/
theorem State.WorkMay.same (s : State) : s.WorkMay s.engine.work := ⟨.inl, fun _ h l hl => h l hl⟩

/-- No engine works. -/
theorem State.WorkMay.none (s : State) : s.WorkMay .none := ⟨fun h => absurd rfl h, fun _ _ _ h => by cases h⟩

/-- A job other than a LEARN goes on or begins. -/
theorem State.WorkMay.other (s : State) {w : Work} (hl : s.engine.work ≠ .none ∨ s.jobActive = true)
    (hw : ∀ l, w ≠ .learn l) : s.WorkMay w := ⟨fun _ => hl, fun _ _ l h => absurd h (hw l)⟩

/-- A LEARN goes on. -/
theorem State.WorkMay.learn (s : State) {w l : LearnWork} (hw : s.engine.work = .learn w)
    (hs : s.store.wf = true → w.sound s.store → l.sound s.store) : s.WorkMay (.learn l) :=
  ⟨fun _ => .inl (by rw [hw]; exact fun h => by cases h), fun hwf h x hx => by cases hx; exact hs hwf (h w hw)⟩

/-- The exchange in progress stays as it was. -/
theorem State.LinkMay.same (s : State) {l : Link} (h : l.exchange = s.link.exchange) : s.LinkMay l :=
  fun e _ _ he _ => .inl ⟨e, by rw [← h]; exact he, rfl⟩

/-- The exchange has ended. -/
theorem State.LinkMay.none (s : State) {l : Link} (h : l.exchange = none) : s.LinkMay l :=
  fun _ _ _ he _ => by rw [h] at he; cases he

/-- A frame other than a SET is sent. -/
theorem State.LinkMay.send (s : State) (l : Link) {f : Sent} (h : ∀ p items, f ≠ .set p items) :
    s.LinkMay (l.send f) := fun e p items he hs => by
  simp only [Link.send, Option.some.injEq] at he
  subst he
  exact absurd hs (h p items)

end Sys2Proof.Machine
end

