-- ==== Sys2Proof/Laws/Store.lean ====
section
/-! SUPPORT. What the writes of the wire-list store do to the map's soundness, to the agreement of records and owner
index, and to a LEARN that stands on them. -/

namespace Sys2Proof.Machine

open Sys2Proof

/-! ### Marks and check values -/

/-- A change of marks and check values alone leaves records and owner index in agreement. -/
theorem Store.owned_map (st : Store) (f : NetRec → NetRec) (hf : ∀ r, (f r).body = r.body) (h : st.owned) :
    Store.owned { st with nets := st.nets.map f } := by
  refine ⟨fun r hr => ?_, fun p n => ?_⟩
  · obtain ⟨q, hq, rfl⟩ := List.mem_map.1 hr
    rw [hf]
    exact h.1 q hq
  · refine (h.2 p n).trans ⟨fun ⟨r, hr, hn, hp⟩ => ?_, fun ⟨r, hr, hn, hp⟩ => ?_⟩
    · exact ⟨f r, List.mem_map_of_mem hr, by rw [hf]; exact hn, by rw [hf]; exact hp⟩
    · obtain ⟨q, hq, rfl⟩ := List.mem_map.1 hr
      rw [hf] at hn hp
      exact ⟨q, hq, hn, hp⟩

theorem LearnWork.sound_map (w : LearnWork) (st : Store) (f : NetRec → NetRec) (hf : ∀ r, (f r).body = r.body)
    (h : w.sound st) : w.sound { st with nets := st.nets.map f } := by
  obtain ⟨h1, h2, h3⟩ := h
  refine ⟨by simpa using h1, fun r hr => ?_, h3⟩
  obtain ⟨q, hq, rfl⟩ := List.mem_map.1 hr
  rw [hf]
  exact h2 q hq

theorem mark_body (n : Nat) (r : NetRec) : (if r.body.num = n then { r with corrupt := true } else r).body = r.body := by
  split <;> rfl

theorem upset_body (n : Nat) (c : NetRec → Word16) (r : NetRec) :
    (if r.body.num = n then { r with check := c r } else r).body = r.body := by
  split <;> rfl

/-! ### Storing a net -/

theorem mem_insNet (r q : NetRec) : ∀ l : List NetRec, q ∈ insNet r l ↔ q = r ∨ q ∈ l
  | [] => by simp [insNet]
  | x :: t => by
    have ih := mem_insNet r q t
    unfold insNet
    split
    · simp
    · simp only [List.mem_cons, ih]; tauto

theorem insNet_length (r : NetRec) : ∀ l : List NetRec, (insNet r l).length = l.length + 1
  | [] => rfl
  | x :: t => by
    unfold insNet
    split
    · rfl
    · simp [insNet_length r t]

/-- The owner index once points are entered under a number. -/
theorem tget_enter (n : Nat) (ms : List Nat) (q : Nat) : ∀ o : List (Nat × Nat),
    tget (ms.foldl (fun o p => tset o p n) o) q = if q ∈ ms then some n else tget o q := by
  induction ms with
  | nil => intro o; simp
  | cons m ms ih =>
    intro o
    rw [List.foldl_cons, ih, tget_tset]
    by_cases h : q ∈ ms
    · simp [h]
    · by_cases hm : q = m <;> simp [h, hm]

/-- The owner index after a net is stored. -/
theorem Store.putNet_owner (st : Store) (b : NetBody) (hw : st.wf = true) (q : Nat) :
    tget (st.putNet b).owner q =
      if q ∈ b.members then some b.num else (tget st.owner q).filter (fun n => n != b.num) := by
  have ho : tableWf st.owner = true := by
    simp only [Store.wf, Bool.and_eq_true] at hw
    exact hw.1.2
  show tget (b.members.foldl (fun o p => tset o p b.num) _) q = _
  rw [tget_enter, tget_filter _ _ _ ho]

theorem Store.mem_putNet (st : Store) (b : NetBody) (r : NetRec) :
    r ∈ (st.putNet b).nets ↔ r = ⟨b, b.checkValue, false⟩ ∨ (r ∈ st.nets ∧ r.body.num ≠ b.num) := by
  show r ∈ insNet _ _ ↔ _
  rw [mem_insNet, List.mem_filter]
  simp

/-- A net whose members no other net holds leaves records and owner index in agreement. -/
theorem Store.putNet_owned (st : Store) (b : NetBody) (hw : st.wf = true) (h : st.owned) (hn : 1 ≤ b.num ∧ b.num ≤ 1024)
    (hm : ∀ p ∈ b.members, tget st.owner p = none ∨ tget st.owner p = some b.num) : (st.putNet b).owned := by
  refine ⟨fun r hr => ?_, fun p n => ?_⟩
  · rcases (st.mem_putNet b r).1 hr with rfl | ⟨hr, _⟩
    · exact hn
    · exact h.1 r hr
  · rw [st.putNet_owner b hw]
    simp only [st.mem_putNet]
    by_cases hp : p ∈ b.members
    · rw [if_pos hp]
      constructor
      · intro he
        cases he
        exact ⟨_, .inl rfl, rfl, hp⟩
      · rintro ⟨r, rfl | ⟨hr, hne⟩, hrn, hrp⟩
        · rw [← hrn]
        · have := (h.2 p n).2 ⟨r, hr, hrn, hrp⟩
          rcases hm p hp with h0 | h0 <;> rw [h0] at this
          · cases this
          · cases this; exact absurd hrn hne
    · rw [if_neg hp, Option.filter_eq_some_iff]
      constructor
      · rintro ⟨ho, hne⟩
        obtain ⟨r, hr, hrn, hrp⟩ := (h.2 p n).1 ho
        exact ⟨r, .inr ⟨hr, by rw [hrn]; simpa using hne⟩, hrn, hrp⟩
      · rintro ⟨r, rfl | ⟨hr, hne⟩, hrn, hrp⟩
        · exact absurd hrp hp
        · exact ⟨(h.2 p n).2 ⟨r, hr, hrn, hrp⟩, by rw [hrn] at hne; simpa using hne⟩

/-- A cleared table is in agreement with its index. -/
theorem Store.clearNets_owned (st : Store) : st.clearNets.owned :=
  ⟨fun r hr => absurd hr (by simp [Store.clearNets]), fun p n => by simp [Store.clearNets, tget]⟩

/-- A LOAD_NET without a conflict names members that are in no net or in the one it replaces. -/
theorem LoadNet.conflict_none (q : LoadNet) (s : State) (hr : q.inRange = true) (h : q.conflict s = none) :
    ∀ p ∈ q.body.members, tget s.store.owner p = none ∨ tget s.store.owner p = some q.body.num := by
  intro p hp
  have hx := List.findSome?_eq_none_iff.1 h p hp
  have hh : harnessPoint p = true := by
    simp only [LoadNet.inRange, Bool.and_eq_true] at hr
    have := hr.1.1.1.1.1.1.2
    exact List.all_eq_true.1 this p ((mem_sortPoints p q.members).1 hp)
  have h4 : ¬ p < 4 := by
    simp only [harnessPoint, Bool.and_eq_true, decide_eq_true_eq] at hh
    omega
  unfold State.ownerOf at hx
  rw [if_neg h4] at hx
  cases ho : tget s.store.owner p with
  | none => exact .inl rfl
  | some n =>
    rw [ho] at hx
    by_cases hn : n = q.num
    · subst hn; exact .inr rfl
    · simp [hn] at hx

theorem LoadNet.num_range (q : LoadNet) (hr : q.inRange = true) : 1 ≤ q.body.num ∧ q.body.num ≤ 1024 := by
  simp only [LoadNet.inRange, Bool.and_eq_true, decide_eq_true_eq] at hr
  exact hr.1.1.1.1.1.1.1.1.1

/-! ### The point map -/

theorem mem_tput {α : Type} (k : Nat) (v : Option α) (t : List (Nat × α)) (hw : tableWf t = true) (e : Nat × α)
    (h : e ∈ tput t k v) : (e.1 = k ∧ v = some e.2) ∨ (e.1 ≠ k ∧ e ∈ t) := by
  have hw' := tput_wf k v t hw
  have hg := tget_of_mem e _ hw' h
  rw [tget_tput _ _ _ _ hw] at hg
  split at hg
  · next hk => exact .inl ⟨hk, hg⟩
  · next hk => exact .inr ⟨hk, mem_of_tget _ _ _ hg⟩

/-- An entry of the map after MAP_POINTS is an item's, or an old one of a point that no item names. -/
theorem mem_applyMap (items : List (Nat × Byte × Byte)) : ∀ m : List (Nat × Chan), tableWf m = true →
    ∀ e ∈ applyMap m items, (∃ it ∈ items, it.1 = e.1 ∧ (itemChan it.2.1 it.2.2).getD none = some e.2) ∨
      (e ∈ m ∧ ∀ it ∈ items, it.1 ≠ e.1) := by
  induction items with
  | nil => intro m _ e he; exact .inr ⟨he, fun _ h => absurd h (by simp)⟩
  | cons i l ih =>
    intro m hw e he
    rcases ih _ (tput_wf _ _ _ hw) e he with ⟨it, hit, h1, h2⟩ | ⟨hm, hn⟩
    · exact .inl ⟨it, List.mem_cons_of_mem _ hit, h1, h2⟩
    · rcases mem_tput _ _ _ hw e hm with ⟨hk, hv⟩ | ⟨hk, hm⟩
      · exact .inl ⟨i, List.mem_cons_self .., hk.symm, hv⟩
      · exact .inr ⟨hm, fun it hit => by
          rcases List.mem_cons.1 hit with rfl | hit
          · exact fun h => hk h.symm
          · exact hn it hit⟩

theorem itemChan_range {c d : Byte} {x : Chan} (h : (itemChan c d).getD none = some x) :
    1 ≤ x.pos ∧ x.pos ≤ 32 ∧ x.ch ≤ 127 := by
  unfold itemChan at h
  split at h
  · simp at h
  · split at h
    · next hc =>
      simp only [Bool.and_eq_true, decide_eq_true_eq] at hc
      simp only [Option.getD_some, Option.some.injEq] at h
      subst h
      exact ⟨hc.1.1, hc.1.2, hc.2⟩
    · simp at h

/-- An accepted MAP_POINTS keeps the map sound. -/
theorem applyMap_sound (st : Store) (items : List (Nat × Byte × Byte)) (hw : tableWf st.map = true) (h : st.mapSound)
    (hb : items.any (mapItemBad items) = false)
    (hc : items.any (mapItemConflict (applyMap st.map items)) = false) :
    Store.mapSound { st with map := applyMap st.map items } := by
  have hmem := mem_applyMap items st.map hw
  have hw' := applyMap_wf items st.map hw
  have hbad : ∀ it ∈ items, harnessPoint it.1 = true := by
    intro it hit
    have := List.any_eq_false.1 hb it hit
    simp only [mapItemBad, Bool.or_eq_true, Bool.not_eq_true', not_or, Bool.not_eq_false] at this
    exact this.1.1
  refine ⟨fun e he => ?_, ?_⟩
  · rcases hmem e he with ⟨it, hit, h1, h2⟩ | ⟨hm, _⟩
    · exact ⟨h1 ▸ hbad it hit, itemChan_range h2⟩
    · exact h.1 e hm
  · show ((applyMap st.map items).map (·.2)).Nodup
    rw [List.nodup_map_iff_inj_on]
    · intro a ha b hb' hab
      have hkey : a.1 = b.1 → a = b := by
        intro hk
        exact Prod.ext hk hab
      by_contra hne
      have hk : a.1 ≠ b.1 := fun hk => hne (hkey hk)
      have clash : ∀ x ∈ applyMap st.map items, ∀ y ∈ applyMap st.map items, x.2 = y.2 → x.1 ≠ y.1 →
          ¬ ∃ it ∈ items, it.1 = x.1 ∧ (itemChan it.2.1 it.2.2).getD none = some x.2 := by
        rintro x hx y hy hxy hxk ⟨it, hit, h1, h2⟩
        have := List.any_eq_false.1 hc it hit
        unfold mapItemConflict at this
        rw [h2] at this
        simp only [List.any_eq_true, not_exists, not_and, Bool.and_eq_true] at this
        exact this y hy (by simp [hxy]) (by simpa [h1] using hxk.symm)
      rcases hmem a ha with hi | ⟨hma, _⟩
      · exact clash a ha b hb' hab hk hi
      · rcases hmem b hb' with hi | ⟨hmb, _⟩
        · exact clash b hb' a ha hab.symm hk.symm hi
        · have hn := h.2
          rw [List.nodup_map_iff_inj_on] at hn
          · exact hne (hn a hma b hmb hab)
          · exact tableWf_nodup _ hw
    · exact tableWf_nodup _ hw'

/-! ### LEARN -/

/-- The members of a run of a list are members of the list. -/
theorem mem_slice {α : Type} (r : Run) (l : List α) {x : α} (h : x ∈ r.slice l) : x ∈ l :=
  List.mem_of_mem_drop (List.mem_of_mem_take h)

theorem LearnWork.mem_group (w : LearnWork) (r : Run) {p : Nat} (h : p ∈ w.group r) : p ∈ w.list := mem_slice r _ h

/-- A group of one point resolves to a point of the search list. -/
theorem LearnWork.resolved_mem (w : LearnWork) (h : w.count w.search.g = 1) : w.resolved ∈ w.list := by
  refine w.mem_group w.search.g ?_
  unfold LearnWork.resolved
  unfold LearnWork.count at h
  cases hg : w.group w.search.g with
  | nil => rw [hg] at h; simp at h
  | cons a l => simp

end Sys2Proof.Machine
end

