-- ==== Sys2Proof/Laws/KeepsOps.lean ====
section
/-! SUPPORT. The shared operations keep what the primitive changes keep: events, the log, the formatter, the
matrix, the LMU. -/

namespace Sys2Proof.Machine

open Sys2Proof

variable {P : State → Prop}

/-! ### Events and the transmit path -/

theorem Keeps.takeNotice (K : Keeps P) {s : State} (h : P s) : P s.takeNotice := by
  unfold State.takeNotice
  exact K.ofHost { s with events := { s.events with noticeWanted := false } } _ id (K.ofEvents s _ h)

/-- Taking a reply changes no slot but for its standing. -/
theorem takeReply_length : ∀ {l : List RxSlot} {x : List RxSlot × TxFrame}, takeReply l = some x →
    x.1.length = l.length
  | [], _, h => by simp [takeReply] at h
  | r :: rest, x, h => by
    unfold takeReply at h
    split at h
    · simp at h; subst h; simp
    all_goals
      simp only [Option.map_eq_some_iff] at h
      obtain ⟨y, hy, rfl⟩ := h
      simp [takeReply_length hy]

theorem Keeps.txKick (K : Keeps P) {s : State} (h : P s) : P s.txKick := by
  unfold State.txKick
  split
  · exact h
  · split
    · next heq => exact K.ofHost _ _ (fun hl => by rw [takeReply_length heq]; exact hl) h
    · split
      · exact K.takeNotice h
      · exact h

theorem Keeps.wantNotice (K : Keeps P) {s : State} (h : P s) : P s.wantNotice :=
  K.txKick (K.ofEvents s _ h)

theorem Keeps.raise (K : Keeps P) {s : State} (h : P s) (e : Event) : P (s.raise e) := by
  unfold State.raise
  dsimp only
  split
  · exact K.ofEvents s _ h
  · exact K.wantNotice (K.ofEvents s _ h)

theorem Keeps.raiseCard (K : Keeps P) {s : State} (h : P s) (c : CardCause) (p : Nat) : P (s.raiseCard c p) :=
  K.raise (K.ofEvents s _ h) _

theorem Keeps.raisePrinter (K : Keeps P) {s : State} (h : P s) (c : PrinterCause) : P (s.raisePrinter c) :=
  K.raise (K.ofEvents s _ h) _

theorem Keeps.raiseLink (K : Keeps P) {s : State} (h : P s) (c : LinkCause) : P (s.raiseLink c) :=
  K.raise (K.ofEvents s _ h) _

/-! ### The log -/

theorem Keeps.stopNotify (K : Keeps P) {s : State} (h : P s) : P s.stopNotify := K.ofTimer s _ h

theorem Keeps.startNotify (K : Keeps P) {s : State} (h : P s) : P s.startNotify := K.ofTimer s _ h

theorem Keeps.defectReady (K : Keeps P) {s : State} (h : P s) : P s.defectReady := K.raise (K.stopNotify h) _

theorem Keeps.notifyTaken (K : Keeps P) {s : State} (h : P s) : P s.notifyTaken := by
  unfold State.notifyTaken
  split
  · exact K.defectReady h
  · split
    · exact h
    · exact K.startNotify h

theorem Keeps.notifyFresh (K : Keeps P) {s : State} (h : P s) : P s.notifyFresh := by
  unfold State.notifyFresh
  split
  · exact K.defectReady h
  · split
    · exact K.startNotify h
    · exact h

theorem Keeps.notifyEmptied (K : Keeps P) {s : State} (h : P s) : P s.notifyEmptied := by
  unfold State.notifyEmptied
  split
  · exact K.stopNotify h
  · exact h

theorem Keeps.take (K : Keeps P) {s : State} (h : P s) (d : RecData)
    (hc : s.marks = true → 9 ≤ s.log.free ∨ (d.system = true ∧ 1 ≤ s.log.free)) : P (s.take d) := by
  unfold State.take
  dsimp only
  split
  · exact K.notifyTaken (K.ofTake s d hc h)
  · exact K.ofTake s d hc h

theorem Keeps.offerSystem (K : Keeps P) {s : State} (h : P s) (d : RecData) (hd : d.system = true) :
    P (s.offerSystem d).1 := by
  unfold State.offerSystem
  split
  · exact K.raise (K.ofDropped s _ (Nat.min_le_left ..) h) _
  · next hn =>
    refine K.take h d (fun hm => .inr ⟨hd, ?_⟩)
    rw [hm] at hn
    simp at hn
    omega

theorem Keeps.offerTest (K : Keeps P) {s : State} (h : P s) (b : Bool) (d : RecData) :
    P (s.offerTest b d).1 := by
  unfold State.offerTest
  split
  · cases b
    · exact h
    · exact K.raise h _
  · next hn =>
    refine K.take h d (fun hm => .inl ?_)
    rw [hm] at hn
    simp at hn
    omega

/-! ### The wire-list store -/

/-- A change of marks and check values alone. -/
theorem State.StoreMay.ofNets (s : State) (f : NetRec → NetRec) (hf : ∀ r, (f r).body = r.body)
    (hw : s.store.wf = true → Store.wf { s.store with nets := s.store.nets.map f } = true) :
    s.StoreMay { s.store with nets := s.store.nets.map f } where
  wf := hw
  map := fun _ h => h
  owned := fun _ h => s.store.owned_map f hf h
  sound := .inl fun w h => w.sound_map s.store f hf h

/-- A change of the leads alone. -/
theorem State.StoreMay.ofLeads (s : State) (st : Store) (hw : s.store.wf = true → st.wf = true)
    (hm : st.map = s.store.map) (ho : st.owner = s.store.owner) (hn : st.nets = s.store.nets) : s.StoreMay st where
  wf := hw
  map := fun _ h => by unfold Store.mapSound; rw [hm]; exact h
  owned := fun _ h => by unfold Store.owned; rw [ho, hn]; exact h
  sound := .inl fun w h => by unfold LearnWork.sound; rw [ho, hn]; exact h

theorem Keeps.markCorrupt (K : Keeps P) {s : State} (h : P s) (n : Nat) :
    P { s with store := s.store.markCorrupt n } :=
  K.ofStore s _ (.ofNets s _ (mark_body n) (fun hw => by rw [← Store.markCorrupt_wf _ n] at hw; exact hw)) h

theorem Keeps.upset (K : Keeps P) {s : State} (h : P s) (n : Nat) (f : Word16) :
    P { s with store := s.store.upset n f } :=
  K.ofStore s _ (.ofNets s _ (upset_body n _) (fun hw => by rw [← Store.upset_wf _ n f] at hw; exact hw)) h

theorem Keeps.readNetWith (K : Keeps P) {s : State} (h : P s) (k : State → State) (hk : ∀ t, P t → P (k t))
    (c : ReadCause) (n : Nat) : P (s.readNetWith k c n).1 := by
  unfold State.readNetWith
  split
  · exact h
  · split
    · exact h
    · split
      · exact h
      · exact K.raise (hk _ (K.offerSystem (K.markCorrupt h n) _ rfl)) _

theorem Keeps.readNet (K : Keeps P) {s : State} (h : P s) (c : ReadCause) (n : Nat) : P (s.readNet c n).1 :=
  K.readNetWith h id (fun _ h => h) c n

/-! ### The formatter -/

theorem Keeps.charDue (K : Keeps P) {s : State} (h : P s) : P s.charDue := by
  unfold State.charDue
  split <;> exact K.ofPrinter s _ h

theorem Keeps.beginLine (K : Keeps P) {s : State} (h : P s) : P s.beginLine := K.charDue (K.ofPrinter s _ h)

theorem Keeps.startLine (K : Keeps P) {s : State} (h : P s) : P s.startLine := by
  unfold State.startLine
  split
  · exact K.beginLine h
  · exact K.raisePrinter (K.ofPrinter s _ h) _

theorem Keeps.lookupLabels (K : Keeps P) (l : List Nat) : ∀ {s : State}, P s → P (lookupLabels l s).1 := by
  induction l with
  | nil => exact fun h => h
  | cons n l ih => exact fun h => ih (K.readNet h .read n)

theorem Keeps.takeRecord (K : Keeps P) {s : State} (h : P s) (e : Entry) : P (s.takeRecord e) :=
  K.startLine (K.ofPrinter _ _ (K.lookupLabels _ (K.ofPrinter s _ h)))

theorem Keeps.takeOldest (K : Keeps P) {s : State} (h : P s) : P s.takeOldest := by
  unfold State.takeOldest
  split
  · exact K.takeRecord h _
  · exact K.ofPrinter s _ h

theorem Keeps.printIdle (K : Keeps P) {s : State} (h : P s) : P s.printIdle := by
  unfold State.printIdle
  split
  · exact K.takeOldest h
  · exact h

theorem Keeps.appendSystem (K : Keeps P) {s : State} (h : P s) (d : RecData) (hd : d.system = true) :
    P (s.appendSystem d).1 := K.printIdle (K.offerSystem h d hd)

theorem Keeps.appendTest (K : Keeps P) {s : State} (h : P s) (b : Bool) (d : RecData) :
    P (s.appendTest b d).1 := K.printIdle (K.offerTest h b d)

theorem Keeps.readNetFor (K : Keeps P) {s : State} (h : P s) (c : ReadCause) (n : Nat) : P (s.readNetFor c n).1 :=
  K.readNetWith h State.printIdle (fun _ h => K.printIdle h) c n

theorem Keeps.clearCurrentMark (K : Keeps P) {s : State} (h : P s) : P s.clearCurrentMark :=
  K.ofPrinter _ _ (K.ofMarks s _ (fun e => by split <;> rfl) h)

/-- What the end of a character leaves, either way. -/
def LineEnd.state : LineEnd → State
  | .done s => s
  | .recordOver s _ => s

theorem Keeps.charSent (K : Keeps P) {s : State} (h : P s) : P s.charSent.state := by
  unfold State.charSent
  split
  · exact K.charDue (K.ofPrinter s _ h)
  · split
    · dsimp only
      split
      · exact K.ofPrinter _ _ (K.ofPrinter s _ h)
      · exact K.startLine (K.ofPrinter s _ h)
    · dsimp only [LineEnd.state]
      split
      · exact K.ofPrinter _ _ (K.clearCurrentMark h)
      · exact K.clearCurrentMark h

theorem Keeps.afterRecord (K : Keeps P) {s : State} (h : P s) : P s.afterRecord := by
  unfold State.afterRecord
  split
  · exact K.takeOldest h
  · exact h

theorem Keeps.readySent (K : Keeps P) {s : State} (h : P s) : P s.readySent := K.ofPrinter s _ h

/-! ### The LMU -/

theorem Keeps.lmuIdle (K : Keeps P) {s : State} (h : P s) (l : Lmu) (hl : l.phase = .idle) :
    P { s with lmu := l } := K.ofLmu s l (fun hn => absurd hl hn) h

theorem Lmu.discard_idle (l : Lmu) : l.discard.phase = .idle := rfl

theorem Lmu.sourceOff_idle (l : Lmu) : l.sourceOff.phase = .idle := by
  unfold Lmu.sourceOff
  split
  · assumption
  · rfl
  · rfl

theorem Keeps.requestMeasure (K : Keeps P) {s : State} (h : P s) (m : MeasReq) (w : LmuIssuer) :
    P (s.requestMeasure m w) := by
  unfold State.requestMeasure
  split
  · next ha => exact K.ofLmu s _ (fun _ => .inr ha) h
  · exact K.ofLmu s _ (fun hn => .inl hn) h

/-! ### The matrix -/

/-- A frame other than a SET goes out. -/
theorem Keeps.sendCard (K : Keeps P) {s : State} (h : P s) {f : Sent} (hf : ∀ p items, f ≠ .set p items) :
    P (s.sendCard f) := K.ofLink s _ (.send s _ hf) h

/-- The link changes but for the exchange in progress. -/
theorem Keeps.linkSame (K : Keeps P) {s : State} (h : P s) {l : Link} (hl : l.exchange = s.link.exchange) :
    P { s with link := l } := K.ofLink s l (.same s hl) h

/-- No exchange is in progress any more. -/
theorem Keeps.linkIdle (K : Keeps P) {s : State} (h : P s) {l : Link} (hl : l.exchange = none) :
    P { s with link := l } := K.ofLink s l (.none s hl) h

/-- A change list goes out. -/
theorem Keeps.sendChanges (K : Keeps P) {s : State} (h : P s) (t : Taken) (p : Nat) :
    P (s.sendCard (.set p (s.changeList t p))) := K.ofLink s _ (fun e q items he hs => by
  simp only [Link.send, Option.some.injEq] at he
  subst he
  cases hs
  exact .inr fun it hit hv => ⟨(s.changeList_hv t p it hit hv).1, fun h1 _ => (s.changeList_hv t p it hit hv).2 h1⟩) h

theorem Keeps.slotFree (K : Keeps P) {s : State} (h : P s) (x : Slot) (hx : x.sourceOk = true) :
    P (s.setSlot x) := K.ofSlot s x (.inl hx) h

theorem Keeps.slotGo (K : Keeps P) {s : State} (h : P s) (x : Slot) (hb : s.matrix.slot.sourceOk = false) :
    P (s.setSlot x) := K.ofSlot s x (.inr hb) h

theorem Keeps.dealt (K : Keeps P) {s : State} (h : P s) (hb : s.matrix.slot.sourceOk = false) (t : Taken)
    (l : List Nat) : P (s.dealt t l).1 := by
  unfold State.dealt
  split
  · exact K.slotFree h _ rfl
  · exact K.slotGo h _ hb

theorem Keeps.dealFrom (K : Keeps P) (n : Nat) (t : Taken) : ∀ (p : Nat) (l : List Nat) {s : State}, P s →
    s.matrix.slot.sourceOk = false → P (State.dealFrom n t p l s).1 := by
  induction n with
  | zero => exact fun p l s h hb => K.dealt h hb t l
  | succ n ih =>
    intro p l s h hb
    unfold State.dealFrom
    dsimp only
    split
    · exact ih _ _ h hb
    · split
      · split
        · exact K.slotGo h _ hb
        · exact K.sendChanges (s := s.setSlot _) (K.slotGo h _ hb) t p
      · split
        · exact ih _ _ h hb
        · exact K.slotFree h _ rfl

theorem Keeps.dealRest (K : Keeps P) {s : State} (h : P s) (hb : s.matrix.slot.sourceOk = false) (t : Taken)
    (p : Nat) (l : List Nat) : P (s.dealRest t p l).1 := K.dealFrom _ t p l h hb

theorem Keeps.sendAllOpen (K : Keeps P) {s : State} (h : P s) : P s.sendAllOpen := by
  unfold State.sendAllOpen
  split
  · exact h
  · exact K.sendCard h (fun _ _ => by simp)

theorem State.refChanges_lt (s : State) (t : Taken) : ∀ it ∈ s.refChanges t, it.1 < 4 := by
  intro it h
  unfold State.refChanges at h
  obtain ⟨k, hk, h⟩ := List.mem_filterMap.1 h
  split at h
  · split at h
    · cases h
    · cases h; exact List.mem_range.1 hk
  · cases h

/-- The reference channels switched leave the image of the cards. -/
theorem Keeps.setRefs (K : Keeps P) {s : State} (h : P s) (t : Taken) :
    P (s.setImage (writeImage s.matrix.image 0 (s.refChanges t))) := by
  refine K.ofImage s _ ⟨writeImage_wf 0 _ _, fun _ hv c h1 h2 h3 hc => ?_⟩ h
  rcases tget_writeImage 0 (s.refChanges t) c.key s.matrix.image with he | ⟨it, hit, hk, _⟩
  · exact hv.1 c h1 h2 h3 (he.symm.trans hc)
  · have := s.refChanges_lt t it hit
    unfold Chan.key at hk
    omega

theorem Keeps.enterSending (K : Keeps P) {s : State} (h : P s) (t : Taken) (hr : s.hv.rail = .safe) :
    P (s.enterSending t).1 := by
  unfold State.enterSending
  dsimp only
  have h0 : P { s with lmu := s.lmu.sourceOff } := K.lmuIdle h _ (Lmu.sourceOff_idle _)
  have h1 := K.setRefs h0 t
  have h2 : ∀ x, P (State.setSlot (State.setImage { s with lmu := s.lmu.sourceOff }
      (writeImage s.matrix.image 0 (State.refChanges { s with lmu := s.lmu.sourceOff } t))) x) :=
    fun x => K.ofBusy _ x hr (Lmu.sourceOff_idle s.lmu) h1
  split
  · exact K.sendAllOpen (h2 _)
  · exact K.dealRest (h2 _) rfl t 1 _

theorem Keeps.enterSlot (K : Keeps P) {s : State} (h : P s) (t : Taken) : P (s.enterSlot t).1 := by
  unfold State.enterSlot
  split
  · next hr => exact K.enterSending h t hr
  · exact K.slotFree h _ rfl

theorem Keeps.takePlan (K : Keeps P) {s : State} (h : P s) (p : Plan) : P (s.takePlan p).1 := by
  unfold State.takePlan
  split
  · split
    · exact h
    · exact K.enterSlot h _
  · exact K.enterSlot h _
  · exact K.enterSlot h _

theorem Keeps.takeWaiting (K : Keeps P) (ps : List Plan) : ∀ {s : State}, P s → P (State.takeWaiting ps s).1 := by
  induction ps with
  | nil => exact fun h => K.ofWaiting _ _ h
  | cons p ps ih =>
    intro s h
    have h1 := K.takePlan (K.ofWaiting s ps h) p
    unfold State.takeWaiting
    split
    · next heq => rw [heq] at h1; exact h1
    · next heq => rw [heq] at h1; exact ih h1

theorem Keeps.reports (K : Keeps P) (who : Issuer) (x : State × Option PlanOutcome) (h : P x.1) :
    P (reports who x).1 := by
  unfold Machine.reports
  split
  · exact h
  · exact K.takeWaiting _ h

theorem Keeps.offerPlan (K : Keeps P) {s : State} (h : P s) (p : Plan) : P (s.offerPlan p).1 := by
  unfold State.offerPlan
  split
  · exact K.reports _ _ (K.takePlan h p)
  · exact K.ofWaiting s _ h

theorem Keeps.startBreak (K : Keeps P) {s : State} (h : P s) : P s.startBreak := K.linkSame h rfl

theorem Keeps.linkFree (K : Keeps P) {s : State} (h : P s) : P s.linkFree.1 := by
  unfold State.linkFree
  split
  · exact K.startBreak h
  · split
    · next hs =>
      split
      · exact K.sendAllOpen h
      · exact K.reports _ _ (K.dealRest h (by rw [hs]; rfl) _ _ _)
    · exact h
    · exact h
    · exact h

end Sys2Proof.Machine
end

