-- ==== Sys2Proof/Laws/KeepsEngine.lean ====
section
/-! SUPPORT. The engines and the end of a job keep what the primitive changes keep. -/

namespace Sys2Proof.Machine

open Sys2Proof

variable {P : State → Prop}

/-! ### Changes of the HV unit -/

theorem Keeps.hvDown (K : Keeps P) {s : State} (h : P s) (x : Hv) (hr : x.rail ≠ .safe → s.hv.rail ≠ .safe)
    (hd : x.rail.driven = true → s.hv.rail.driven = true ∧ x.coverClosed = s.hv.coverClosed) :
    P { s with hv := x } :=
  K.ofHv s x (fun hx => .inl (hr hx)) (fun hx => .inr (hd hx)) h

theorem Keeps.hvSame (K : Keeps P) {s : State} (h : P s) (x : Hv) (hr : x.rail = s.hv.rail)
    (hc : x.coverClosed = s.hv.coverClosed) : P { s with hv := x } :=
  K.hvDown h x (fun hx => hr ▸ hx) (fun hx => ⟨hr ▸ hx, hc⟩)

theorem Keeps.hvOff (K : Keeps P) {s : State} (h : P s) (x : Hv) (hr : x.rail ≠ .safe → s.hv.rail ≠ .safe)
    (hd : x.rail.driven = false) : P { s with hv := x } :=
  K.hvDown h x hr (fun hx => absurd hx (by simp [hd]))

theorem Hv.stopOrder_rail (h : Hv) :
    (h.stopOrder.rail ≠ .safe → h.rail ≠ .safe) ∧ h.stopOrder.rail.driven = false := by
  cases hr : h.rail <;> simp [Hv.stopOrder, hr, Hv.dropStep, Hv.enterDischarge, RailState.driven]

/-! ### The head of the queue -/

theorem Keeps.endWait (K : Keeps P) {s : State} (h : P s) : P s.endWait := K.ofFlags s _ _ h

theorem Keeps.examineHead (K : Keeps P) {s : State} (h : P s) : P s.examineHead := by
  unfold State.examineHead
  split
  · split
    · exact h
    · exact K.raise (K.ofFlags s _ _ h) _
  · exact K.endWait h

theorem Keeps.setJobState (K : Keeps P) {s : State} (h : P s) {st : JobState} (ha : st.active = true) :
    P (s.setJobState st) := K.ofHead s _ (fun _ => rfl) (fun _ => .inl ha) h

theorem Keeps.countTest (K : Keeps P) {s : State} (h : P s) : P s.countTest :=
  K.ofHead s _ (fun _ => rfl) (fun _ => .inr rfl) h

theorem Keeps.countSystem (K : Keeps P) {s : State} (h : P s) (b : Bool) : P (s.countSystem b) := by
  unfold State.countSystem
  split
  · exact K.ofHead s _ (fun _ => rfl) (fun _ => .inr rfl) h
  · exact h

theorem Slot.orphan_sourceOk (x : Slot) : x.orphan.sourceOk = x.sourceOk := by cases x <;> rfl

theorem Keeps.dropHead (K : Keeps P) {s : State} (h : P s) : P s.dropHead := by
  have h1 := K.ofFlags _ s.queue.hold false (K.ofTail _ rfl (K.ofEngine s Engine.reset (.none s) h))
  have h2 := K.ofWaiting _ (s.matrix.waiting.map Plan.orphanIf) h1
  refine K.ofSlot _ (if s.matrix.slot.issuer = some .jobEnd then s.matrix.slot.orphan else s.matrix.slot) ?_ h2
  show _ ∨ s.matrix.slot.sourceOk = false
  split
  · rw [Slot.orphan_sourceOk]; cases s.matrix.slot.sourceOk <;> simp
  · cases s.matrix.slot.sourceOk <;> simp

theorem Keeps.finishJob (K : Keeps P) {s : State} (h : P s) : P s.finishJob := by
  unfold State.finishJob
  split
  · exact h
  · exact K.examineHead (K.dropHead (K.raise (K.appendSystem h _ rfl) _))

theorem Keeps.endJob (K : Keeps P) {s : State} (h : P s) (c : EndCause) : P (s.endJob c) := by
  have h1 := K.offerPlan (K.ofEngine _ Engine.reset (.none _) (K.ofHead s (fun j => { j with
    state := .ending, ended := some c, steps := s.engine.steps, nets := s.engine.nets, extra := s.engine.extra })
    (fun _ => rfl) (fun _ => .inl rfl) h)) ⟨.allOpen, .jobEnd⟩
  unfold State.endJob
  dsimp only
  split
  · exact K.finishJob h1
  · exact h1

/-! ### Steps -/

/-- The engine changes but for its work. -/
theorem Keeps.engineSame (K : Keeps P) {s : State} (h : P s) {e : Engine} (he : e.work = s.engine.work) :
    P { s with engine := e } := K.ofEngine s e (he ▸ .same s) h

theorem Keeps.setWork (K : Keeps P) {s : State} (h : P s) {w : Work} (hw : s.WorkMay w) : P (s.setWork w) :=
  K.ofEngine s _ hw h

theorem Keeps.todo (K : Keeps P) {s : State} (h : P s) {w : Work} (hw : s.WorkMay w) (r : List RecData) (c : Ctl) :
    P (s.todo w r c) := K.ofEngine s _ hw h

theorem Keeps.countStep (K : Keeps P) {s : State} (h : P s) : P s.countStep := K.engineSame h (by rfl)

theorem Keeps.onPlan (K : Keeps P) {s : State} (h : P s) (o : PlanOutcome) : P (s.onPlan o) := by
  unfold State.onPlan
  split
  · exact K.endJob h _
  · exact K.endJob h _
  · split
    · exact K.endJob h _
    · split
      · exact h
      · split
        · exact K.requestMeasure (K.engineSame h (by rfl)) _ _
        · exact K.hvSame (K.engineSame (s := s) h (e := { s.engine with phase := .hvStep }) rfl) _ rfl rfl

theorem Keeps.engineReports (K : Keeps P) (rs : List Report) : ∀ {s : State}, P s → P (s.engineReports rs) := by
  unfold State.engineReports
  induction rs with
  | nil => exact fun h => h
  | cons r rs ih =>
    intro s h
    refine ih ?_
    dsimp only
    split
    · exact K.onPlan h _
    · exact h

theorem Keeps.offerInHand (K : Keeps P) {s : State} (h : P s) (x : StepInHand) (b : Bool) :
    P (s.offerInHand x b) := K.engineReports _ (K.offerPlan (K.engineSame h (by rfl)) _)

theorem Keeps.lvStep (K : Keeps P) {s : State} (h : P s) (ts : List (Nat × Rail)) (m : MeasReq) :
    P (s.lvStep ts m) := K.offerInHand h _ _

theorem Keeps.hvStep (K : Keeps P) {s : State} (h : P s) (ts : List (Nat × Rail)) (v : StepValues) :
    P (s.hvStep ts v) := K.offerInHand h _ _

theorem Keeps.jobRead (K : Keeps P) {s : State} (h : P s) (n : Nat) : P (s.jobRead n).1 := by
  have h1 := K.readNetFor h .run n
  unfold State.jobRead
  split <;> rename_i heq <;> rw [heq] at h1
  · exact h1
  · exact h1
  · exact h1
  · exact K.countSystem h1 _

theorem Keeps.drain (K : Keeps P) (rs : List RecData) : ∀ {s : State}, P s → P (State.drain rs s).1 := by
  induction rs with
  | nil => exact fun h => K.engineSame h (by rfl)
  | cons r rs ih =>
    intro s h
    have h1 := K.appendTest h true r
    unfold State.drain
    split <;> rename_i heq <;> rw [heq] at h1
    · exact ih (K.countTest h1)
    · exact K.setJobState (K.engineSame h1 (by rfl)) (by rfl)

/-- A read of a net leaves the engine as it is. -/
theorem State.jobRead_engine (s : State) (n : Nat) : (s.jobRead n).1.engine = s.engine := by
  have h1 := (Quiet.readNetFor s .run n).engine
  unfold State.jobRead
  split <;> rename_i heq <;> rw [heq] at h1
  · exact h1
  · exact h1
  · exact h1
  · unfold State.countSystem
    split
    · rw [State.setHead_engine]; exact h1
    · exact h1

/-! ### CHECK -/

/-- A job other than a LEARN goes on. -/
theorem State.WorkMay.on (s : State) {w : Work} (hw : s.engine.work ≠ .none) (hn : ∀ l, w ≠ .learn l) : s.WorkMay w :=
  .other s (.inl hw) hn

theorem Keeps.checkWalk (K : Keeps P) {s : State} (h : P s) (hw : s.engine.work ≠ .none) (w : CheckWork) :
    P (s.checkWalk w) := by
  unfold State.checkWalk
  split
  · exact K.todo h (.on s hw (by nofun)) _ _
  · rename_i r _
    have h1 := K.jobRead h r.body.num
    have he := s.jobRead_engine r.body.num
    split <;> rename_i heq <;> rw [heq] at h1 he
    · exact K.endJob h1 _
    · exact K.todo h1 (.on _ (by rw [he]; exact hw) (by nofun)) _ _

theorem Keeps.checkSweep (K : Keeps P) {s : State} (h : P s) (hw : s.engine.work ≠ .none) (w : CheckWork) :
    P (s.checkSweep w) := by
  unfold State.checkSweep
  split
  · exact K.lvStep (K.setWork h (.on s hw (by nofun))) _ _
  · split <;> exact K.todo h (.on s hw (by nofun)) _ _

theorem Keeps.checkReroot (K : Keeps P) {s : State} (h : P s) (hw : s.engine.work ≠ .none) (w : CheckWork) :
    P (s.checkReroot w) := K.todo h (.on s hw (by nofun)) _ _

theorem Keeps.checkContEnd (K : Keeps P) {s : State} (h : P s) (hw : s.engine.work ≠ .none) (w : CheckWork) :
    P (s.checkContEnd w) := by
  unfold State.checkContEnd
  split
  · dsimp only
    split
    · exact K.todo h (.on s hw (by nofun)) _ _
    · exact K.lvStep (K.setWork h (.on s hw (by nofun))) _ _
  · exact K.todo h (.on s hw (by nofun)) _ _

theorem Keeps.checkSearch (K : Keeps P) {s : State} (h : P s) (hw : s.engine.work ≠ .none) (w : CheckWork)
    (o : SearchOut) : P (s.checkSearch w o) := by
  cases o with
  | test q => exact K.lvStep (K.setWork h (.on s hw (by nofun))) _ _
  | resolve q => exact K.lvStep (K.setWork h (.on s hw (by nofun))) _ _
  | aggregate q => exact K.todo h (.on s hw (by nofun)) _ _
  | _ => exact K.todo h (.on s hw (by nofun)) _ _

theorem Keeps.checkConfirm (K : Keeps P) {s : State} (h : P s) (hw : s.engine.work ≠ .none) (w : CheckWork)
    (v : Option Nat) (r : CRange) : P (s.checkConfirm w v r) := by
  unfold State.checkConfirm
  dsimp only
  split
  · exact K.todo h (.on s hw (by nofun)) _ _
  · rename_i n _
    have h1 := K.jobRead h n
    have he := s.jobRead_engine n
    split <;> rename_i heq <;> rw [heq] at h1 he
    · exact K.endJob h1 _
    · exact K.todo h1 (.on _ (by rw [he]; exact hw) (by nofun)) _ _

theorem Keeps.checkPair (K : Keeps P) {s : State} (h : P s) (hw : s.engine.work ≠ .none) (w : CheckWork)
    (v : Option Nat) (r : CRange) : P (s.checkPair w v r) := by
  unfold State.checkPair
  dsimp only
  split <;> exact K.todo h (.on s hw (by nofun)) _ _

theorem Keeps.checkIso (K : Keeps P) {s : State} (h : P s) (hw : s.engine.work ≠ .none) (w : CheckWork)
    (v : Option Nat) : P (s.checkIso w v) := by
  unfold State.checkIso
  dsimp only
  split
  · split
    · exact K.checkSearch h hw _ _
    · exact K.todo h (.on s hw (by nofun)) _ _
  · exact K.checkSearch h hw _ _
  · exact h
  · exact h

theorem Keeps.checkJudge (K : Keeps P) {s : State} (h : P s) (hw : s.engine.work ≠ .none) (w : CheckWork)
    (r : LmuResult) : P (s.checkJudge w r) := by
  unfold State.checkJudge
  split
  · exact K.checkPair h hw _ _ _
  · exact K.checkConfirm h hw _ _ _
  · exact K.checkIso h hw _ _
  · exact K.checkIso h hw _ _
  · exact h

theorem Keeps.checkNetDone (K : Keeps P) {s : State} (h : P s) (hw : s.engine.work ≠ .none) (w : CheckWork) :
    P (s.checkNetDone w) :=
  K.todo (s := { s with engine := { s.engine with nets := s.engine.nets + 1 } }) (K.engineSame h (by rfl))
    (.on _ hw (by nofun)) _ _

theorem Keeps.checkNext (K : Keeps P) {s : State} (h : P s) (hw : s.engine.work ≠ .none) (w : CheckWork) (c : Ctl) :
    P (s.checkNext w c) := by
  cases c with
  | walk => exact K.checkWalk h hw w
  | sweep => exact K.checkSweep h hw w
  | reroot => exact K.checkReroot h hw w
  | contEnd => exact K.checkContEnd h hw w
  | netDone => exact K.checkNetDone h hw w
  | pop => exact K.checkSearch h hw w _
  | complete => exact K.endJob h _
  | wait => exact h
  | draw => exact h
  | leads => exact h
  | toRefHv => exact h

theorem Keeps.checkStart (K : Keeps P) {s : State} (h : P s) (ha : s.jobActive = true) (f l : Nat) (ph : CheckPhases) :
    P (s.checkStart f l ph) := K.todo h (.other s (.inr ha) (by nofun)) _ _

/-! ### LEARN -/

theorem popNext_out (m : Run → Nat) (g : Run) : ∀ l : List Run,
    popNext m g l = .over ∨ ∃ q, popNext m g l = .test q
  | [] => .inl rfl
  | r :: l => by
    unfold popNext
    split
    · exact popNext_out m g l
    · exact .inr ⟨_, rfl⟩

/-- A search resolves a group of one member alone. -/
theorem examine_resolve {m : Run → Nat} {g : Run} {l : List Run} {q : Search} (h : examine m g l = .resolve q) :
    m q.g = 1 := by
  unfold examine at h
  split at h
  · rcases popNext_out m g l with hp | ⟨x, hp⟩ <;> rw [hp] at h <;> cases h
  · split at h
    · next h1 => cases h; exact h1
    · split at h
      · unfold lowerPassed at h
        split at h <;> cases h
      · cases h

theorem result_resolve {m : Run → Nat} {s q : Search} {b : Bool} (h : s.result m b = .resolve q) : m q.g = 1 := by
  unfold Search.result at h
  split at h
  · exact examine_resolve h
  · split at h
    · unfold lowerPassed at h
      split at h <;> cases h
    · cases h
    · rcases popNext_out m s.g s.stack with hp | ⟨x, hp⟩ <;> rw [hp] at h <;> cases h

/-- A LEARN goes on from where it stands. -/
theorem State.WorkMay.next {s : State} {w l : LearnWork} (hm : s.WorkMay (.learn w))
    (hs : w.sound s.store → l.sound s.store) : s.WorkMay (.learn l) :=
  ⟨fun _ => hm.live nofun, fun hw ho x hx => by cases hx; exact hs (hm.sound hw ho w rfl)⟩

/-- No step in hand confirms a point. -/
theorem LearnWork.sound_doing {w : LearnWork} {st : Store} (q : Search) {d : LvStep} (hd : d ≠ .confirm)
    (h : w.sound st) : LearnWork.sound { w with search := q, doing := d } st := by
  obtain ⟨h1, h2, h3, h4, h5, h6, h7, h8, _⟩ := h
  exact ⟨h1, h2, h3, h4, h5, h6, h7, h8, fun hc => absurd hc hd⟩

theorem LearnWork.sound_resolve {w : LearnWork} {st : Store} (q : Search) (hq : w.count q.g = 1) (h : w.sound st) :
    LearnWork.sound { w with search := q, doing := .confirm } st := by
  obtain ⟨h1, h2, h3, h4, h5, h6, h7, h8, _⟩ := h
  exact ⟨h1, h2, h3, h4, h5, h6, h7, h8, fun _ => LearnWork.resolved_mem { w with search := q, doing := .confirm } hq⟩

theorem LearnWork.sound_letGo {w : LearnWork} {st : Store} (h : w.sound st) : w.letGo.sound st := by
  obtain ⟨h1, h2, h3, h4, _⟩ := h
  exact ⟨h1, h2, h3, h4, fun _ => nofun, fun _ => rfl, fun _ => nofun, fun _ => nofun, nofun⟩

theorem LearnWork.sound_draw {w : LearnWork} {st : Store} {p : Nat} {l : List Nat} (hp : w.pool = p :: l)
    (h : w.sound st) : LearnWork.sound { w with
      pool := l, root := some p, list := l, found := [], search := Search.empty, doing := .whole } st := by
  obtain ⟨h1, h2, h3, h4, _⟩ := h
  rw [hp] at h3 h4
  have hn := List.nodup_cons.1 h3
  refine ⟨h1, h2, hn.2, fun q hq => h4 q (List.mem_cons_of_mem _ hq), ?_, nofun, fun _ hq => hq, fun _ => nofun, nofun⟩
  intro q hq
  cases hq
  exact ⟨h4 p (List.mem_cons_self ..), hn.1⟩

theorem LearnWork.sound_join {w : LearnWork} {st : Store} (hd : w.doing = .confirm) (h : w.sound st) :
    LearnWork.sound { w with found := w.found ++ [w.resolved] } st := by
  obtain ⟨h1, h2, h3, h4, h5, h6, h7, h8, h9⟩ := h
  refine ⟨h1, h2, h3, h4, h5, h6, h7, fun p hp => ?_, h9⟩
  rcases List.mem_append.1 hp with hp | hp
  · exact h8 p hp
  · rw [List.mem_singleton.1 hp]; exact h9 hd

/-- A LEARN that begins on a cleared table. -/
theorem LearnWork.sound_start (s : State) (hv : Bool) (hw : tableWf s.store.map = true) :
    LearnWork.sound ⟨hv, s.pool, none, [], [], 0, Search.empty, 1, .whole⟩ s.store.clearNets := by
  refine ⟨rfl, fun _ => nofun, ?_, fun p _ => rfl, fun _ => nofun, fun _ => rfl, fun _ => nofun, fun _ => nofun, nofun⟩
  have hm := tableWf_filter (fun e => !(s.isBlocked e.2)) _ hw
  refine (List.nodup_map_iff_inj_on (tableWf_nodup _ hm)).2 (fun a ha b hb hab => ?_)
  have h1 := tget_of_mem a _ hm ha
  have h2 := tget_of_mem b _ hm hb
  rw [hab, h2] at h1
  exact Prod.ext hab (Option.some.inj h1.symm)

theorem State.StoreMay.clear (s : State) (hi : s.jobActive = false ∨ s.engine.work = .none) :
    s.StoreMay s.store.clearNets where
  wf := Store.clearNets_wf _
  map := fun _ h => h
  owned := fun _ _ => s.store.clearNets_owned
  sound := .inr hi

theorem Keeps.learnStart (K : Keeps P) {s : State} (h : P s) (ha : s.jobActive = true) (b : Bool) :
    P (s.learnStart b) := by
  have h1 := K.ofEngine s { s.engine with work := .none } (.none s) h
  have h2 : P { s with engine := { s.engine with work := .none }, store := s.store.clearNets } :=
    K.ofStore _ _ (.clear { s with engine := { s.engine with work := .none } } (.inr rfl)) h1
  unfold State.learnStart
  refine K.ofEngine { s with engine := { s.engine with work := .none }, store := s.store.clearNets } _
    ⟨fun _ => .inr ha, fun hw _ l hl => ?_⟩ h2
  cases hl
  exact LearnWork.sound_start s b (Store.wf_map s.store.clearNets hw)

theorem Keeps.learnDraw (K : Keeps P) {s : State} (h : P s) (w : LearnWork) (hm : s.WorkMay (.learn w)) :
    P (s.learnDraw w) := by
  unfold State.learnDraw
  split
  · exact K.todo h hm _ _
  · next p l hp =>
    have hn : State.WorkMay { s with engine := { s.engine with nets := s.engine.nets + 1 } } (.learn w) :=
      ⟨hm.live, hm.sound⟩
    have h1 := K.engineSame (s := s) h (e := { s.engine with nets := s.engine.nets + 1 }) rfl
    dsimp only
    split
    · exact K.todo h1 (hn.next fun x => LearnWork.sound_letGo (LearnWork.sound_draw hp x)) _ _
    · exact K.lvStep (K.setWork h1 (hn.next fun x => LearnWork.sound_draw hp x)) _ _

theorem Keeps.learnSearch (K : Keeps P) {s : State} (h : P s) (w : LearnWork) (hm : s.WorkMay (.learn w))
    (o : SearchOut) (hr : ∀ q, o = .resolve q → w.count q.g = 1) (ha : ∀ q, o = .aggregate q → w.doing ≠ .confirm) :
    P (s.learnSearch w o) := by
  cases o with
  | test q => exact K.lvStep (K.setWork h (hm.next fun x => LearnWork.sound_doing q (by decide) x)) _ _
  | resolve q => exact K.lvStep (K.setWork h (hm.next fun x => LearnWork.sound_resolve q (hr q rfl) x)) _ _
  | aggregate q => exact K.todo h (hm.next fun x => LearnWork.sound_doing q (ha q rfl) x) _ _
  | _ => exact K.todo h hm _ _

theorem Keeps.learnIso (K : Keeps P) {s : State} (h : P s) (w : LearnWork) (hm : s.WorkMay (.learn w))
    (v : Option Nat) : P (s.learnIso w v) := by
  have hg : ∀ b : Bool, s.WorkMay (.learn (if b then { w with gRes := v.getD 0 } else w)) := by
    intro b
    cases b
    · exact hm
    · exact hm.next fun x => x
  have hd : ∀ b : Bool, (if b then { w with gRes := v.getD 0 } else w : LearnWork).doing = w.doing := by
    intro b; cases b <;> rfl
  unfold State.learnIso
  dsimp only
  split
  · next hw =>
    split
    · exact K.learnSearch h _ (hg true) _ (fun q hq => examine_resolve hq) (fun _ _ => hw ▸ by decide)
    · exact K.todo h (hm.next fun x => LearnWork.sound_letGo x) _ _
  · next hw =>
    exact K.learnSearch h _ (hg _) _ (fun q hq => result_resolve hq) (fun _ _ => by rw [hd, hw]; decide)
  · exact h
  · exact h

theorem Keeps.learnJoin (K : Keeps P) {s : State} (h : P s) (w : LearnWork) (hm : s.WorkMay (.learn w))
    (hd : w.doing = .confirm) (r : List RecData) : P (s.learnJoin w r) := by
  unfold State.learnJoin
  split
  · exact K.endJob h _
  · exact K.todo h (hm.next fun x => LearnWork.sound_join hd x) _ _

theorem Keeps.learnConfirm (K : Keeps P) {s : State} (h : P s) (w : LearnWork) (hm : s.WorkMay (.learn w))
    (hd : w.doing = .confirm) (v : Option Nat) (r : CRange) : P (s.learnConfirm w v r) := by
  unfold State.learnConfirm
  dsimp only
  split
  · exact K.learnJoin h w hm hd _
  · exact K.learnJoin h w hm hd _
  · exact K.todo h hm _ _

theorem Keeps.learnJudge (K : Keeps P) {s : State} (h : P s) (w : LearnWork) (hm : s.WorkMay (.learn w))
    (r : LmuResult) : P (s.learnJudge w r) := by
  unfold State.learnJudge
  split
  · next _ hd _ => exact K.learnConfirm h w hm hd _ _
  · exact K.learnIso h w hm _
  · exact K.learnIso h w hm _
  · exact h

theorem Keeps.learnStore (K : Keeps P) {s : State} (h : P s) (w : LearnWork) (hw : s.engine.work = .learn w) :
    P (s.learnStore w) := by
  unfold State.learnStore
  split
  · exact K.todo h ((hw ▸ State.WorkMay.same s : s.WorkMay (.learn w)).next fun x => LearnWork.sound_letGo x) _ _
  · next hf =>
    split
    · exact K.endJob h _
    · next hn =>
      exact K.ofLearned s w _ hw (fun h0 => hf (by rw [h0]; rfl)) (by omega) rfl h

theorem Keeps.learnNext (K : Keeps P) {s : State} (h : P s) (w : LearnWork) (hw : s.engine.work = .learn w) (c : Ctl) :
    P (s.learnNext w c) := by
  have hm : s.WorkMay (.learn w) := hw ▸ .same s
  cases c with
  | draw => exact K.learnDraw h w hm
  | pop =>
    refine K.learnSearch h w hm _ (fun q hq => ?_) (fun q hq => ?_) <;>
      rcases popNext_out w.count w.search.g w.search.stack with hp | ⟨x, hp⟩ <;>
      rw [show w.search.goOn w.count = _ from hp] at hq <;> cases hq
  | netDone => exact K.learnStore h w hw
  | complete => exact K.endJob h _
  | wait => exact h
  | sweep => exact h
  | reroot => exact h
  | contEnd => exact h
  | walk => exact h
  | leads => exact h
  | toRefHv => exact h

/-! ### LEARN_LEADS and the low-voltage step of REFCHECK -/

theorem Keeps.leadsStart (K : Keeps P) {s : State} (h : P s) (ha : s.jobActive = true) (c : Nat) :
    P (s.leadsStart c) := K.lvStep (K.setWork h (.other s (.inr ha) (by nofun))) _ _

theorem Keeps.leadsNext (K : Keeps P) {s : State} (h : P s) (hw : s.engine.work ≠ .none) (w : LeadsWork) (c : Ctl) :
    P (s.leadsNext w c) := by
  cases c with
  | leads =>
    unfold State.leadsNext
    dsimp only
    split
    · exact K.todo h (.on s hw (by nofun)) _ _
    · split
      · exact K.todo h (.on s hw (by nofun)) _ _
      · exact K.lvStep (K.setWork h (.on s hw (by nofun))) _ _
  | complete => exact K.endJob h _
  | wait => exact h
  | sweep => exact h
  | reroot => exact h
  | contEnd => exact h
  | walk => exact h
  | netDone => exact h
  | pop => exact h
  | draw => exact h
  | toRefHv => exact h

theorem Keeps.setLead (K : Keeps P) {s : State} (h : P s) (p v : Nat) : P { s with store := s.store.setLead p v } :=
  K.ofStore s _ (.ofLeads s _ (Store.setLead_wf _ _ _) rfl rfl rfl) h

theorem Keeps.writeLead (K : Keeps P) {s : State} (h : P s) (p v : Nat) : P (s.writeLead p v) :=
  K.engineSame (s := { s with store := s.store.setLead p v }) (K.setLead h p v) rfl

theorem Keeps.leadsJudge (K : Keeps P) {s : State} (h : P s) (hw : s.engine.work ≠ .none) (w : LeadsWork)
    (r : LmuResult) : P (s.leadsJudge w r) := by
  unfold State.leadsJudge
  split
  · exact h
  · split <;> exact K.todo (K.writeLead h _ _) (.on _ hw (by nofun)) _ _

theorem Keeps.refStart (K : Keeps P) {s : State} (h : P s) (ha : s.jobActive = true) : P s.refStart :=
  K.lvStep (K.setWork h (.other s (.inr ha) (by nofun))) _ _

theorem Keeps.refLvJudge (K : Keeps P) {s : State} (h : P s) (hw : s.engine.work ≠ .none) (r : LmuResult) :
    P (s.refLvJudge r) := by
  unfold State.refLvJudge
  split
  · exact h
  · split
    · exact K.todo h (.on s hw (by nofun)) _ _
    · exact K.todo (s := { s with reference := .failed }) (K.ofReference s _ h) (.on _ hw (by nofun)) _ _

/-! ### INSULATE and the high-voltage step of REFCHECK -/

theorem Keeps.insulateStart (K : Keeps P) {s : State} (h : P s) (ha : s.jobActive = true) (f l : Nat) (a b : Bool) :
    P (s.insulateStart f l a b) := K.hvStep (K.setWork h (.other s (.inr ha) (by nofun))) _ _

theorem Keeps.insStep (K : Keeps P) {s : State} (h : P s) (hw : s.engine.work ≠ .none) (w : InsWork) (c : List Nat) :
    P (s.insStep w c) := K.hvStep (K.setWork h (.on s hw (by nofun))) _ _

theorem Keeps.insWalk (K : Keeps P) {s : State} (h : P s) (hw : s.engine.work ≠ .none) (w : InsWork) :
    P (s.insWalk w) := by
  unfold State.insWalk
  split
  · exact K.todo h (.on s hw (by nofun)) _ _
  · rename_i r _
    have h1 := K.jobRead h r.body.num
    have he := s.jobRead_engine r.body.num
    split <;> rename_i heq <;> rw [heq] at h1 he
    · exact K.endJob h1 _
    · have hw1 := hw
      rw [← he] at hw1
      split
      · exact K.insStep h1 hw1 _ _
      · exact K.todo h1 (.on _ hw1 (by nofun)) _ _

theorem Keeps.netUnits (K : Keeps P) (l : List Nat) : ∀ {s : State}, P s →
    P (State.netUnits l s).1 ∧ (State.netUnits l s).1.engine = s.engine := by
  induction l with
  | nil => exact fun h => ⟨h, rfl⟩
  | cons n l ih =>
    intro s h
    have h1 := K.jobRead h n
    have he := s.jobRead_engine n
    unfold State.netUnits
    split <;> rename_i heq <;> rw [heq] at h1 he
    · exact ⟨h1, he⟩
    · have h2 := ih h1
      dsimp only
      split <;> rename_i heq2 <;> rw [heq2] at h2 <;> exact ⟨h2.1, h2.2.trans he⟩

theorem Keeps.insDone (K : Keeps P) {s : State} (h : P s) (hw : s.engine.work ≠ .none) (w : InsWork)
    (r : List RecData) : P (s.insDone w r) := K.todo h (.on s hw (by nofun)) _ _

theorem Keeps.cutOff (K : Keeps P) {s : State} (h : P s) (hw : s.engine.work ≠ .none) (w : InsWork) (q : Search) :
    P (s.cutOff w q) := by
  unfold State.cutOff
  split <;> exact K.insDone h hw _ _

theorem Keeps.insSearch (K : Keeps P) {s : State} (h : P s) (hw : s.engine.work ≠ .none) (w : InsWork)
    (o : SearchOut) : P (s.insSearch w o) := by
  cases o with
  | test q =>
    unfold State.insSearch
    dsimp only
    split
    · exact K.cutOff h hw _ _
    · exact K.insStep h hw _ _
  | resolve q => exact K.todo h (.on s hw (by nofun)) _ _
  | aggregate q => exact K.todo h (.on s hw (by nofun)) _ _
  | _ => exact K.insDone h hw _ _

theorem Keeps.locateStart (K : Keeps P) {s : State} (h : P s) (hw : s.engine.work ≠ .none) (w : InsWork)
    (r : HeldResult) : P (s.locateStart w r) := by
  have h1 := K.netUnits ((s.store.nets.map (·.body.num)).filter (fun n => n != w.num)) h
  unfold State.locateStart
  dsimp only
  split <;> rename_i heq <;> rw [heq] at h1
  · exact K.endJob h1.1 _
  · have hw1 := hw
    rw [← h1.2] at hw1
    split
    · exact K.insDone h1.1 hw1 _ _
    · exact K.insSearch h1.1 hw1 _ _

theorem Keeps.offsetJudge (K : Keeps P) {s : State} (h : P s) (hw : s.engine.work ≠ .none) (w : InsWork)
    (r : HeldResult) : P (s.offsetJudge w r) := by
  unfold State.offsetJudge
  split
  · exact K.endJob h _
  · split
    · exact K.endJob h _
    · exact K.todo h (.on s hw (by nofun)) _ _

theorem Keeps.insJudge (K : Keeps P) {s : State} (h : P s) (hw : s.engine.work ≠ .none) (w : InsWork)
    (r : HeldResult) : P (s.insJudge w r) := by
  unfold State.insJudge
  split
  · exact K.offsetJudge h hw _ _
  · split
    · exact K.insDone h hw _ _
    · split
      · exact K.locateStart h hw _ _
      · exact K.insDone h hw _ _
  · exact K.insSearch h hw _ _

theorem Keeps.insNetDone (K : Keeps P) {s : State} (h : P s) (hw : s.engine.work ≠ .none) (w : InsWork) :
    P (s.insNetDone w) :=
  K.todo (s := { s with engine := { s.engine with nets := s.engine.nets + 1 } }) (K.engineSame h (by rfl))
    (.on _ hw (by nofun)) _ _

theorem Keeps.insNext (K : Keeps P) {s : State} (h : P s) (hw : s.engine.work ≠ .none) (w : InsWork) (c : Ctl) :
    P (s.insNext w c) := by
  cases c with
  | walk => exact K.insWalk h hw w
  | netDone => exact K.insNetDone h hw w
  | pop => exact K.insSearch h hw w _
  | complete => exact K.endJob h _
  | wait => exact h
  | sweep => exact h
  | reroot => exact h
  | contEnd => exact h
  | draw => exact h
  | leads => exact h
  | toRefHv => exact h

theorem Keeps.refHvStart (K : Keeps P) {s : State} (h : P s) : P s.refHvStart := K.hvStep h _ _

theorem Keeps.refHvJudge (K : Keeps P) {s : State} (h : P s) (hw : s.engine.work ≠ .none) (b : Bool)
    (r : HeldResult) : P (s.refHvJudge b r) := by
  have go : ∀ (x : RefState) (l : List RecData),
      P (State.todo { s with reference := x } (.refHv b) l .complete) := fun x l =>
    K.todo (s := { s with reference := x }) (K.ofReference s x h) (.on _ hw (by nofun)) _ _
  unfold State.refHvJudge
  split
  · exact go _ _
  · split <;> exact go _ _

theorem Keeps.refNext (K : Keeps P) {s : State} (h : P s) (c : Ctl) : P (s.refNext c) := by
  cases c with
  | toRefHv => exact K.refHvStart h
  | complete => exact K.endJob h _
  | wait => exact h
  | sweep => exact h
  | reroot => exact h
  | contEnd => exact h
  | walk => exact h
  | netDone => exact h
  | pop => exact h
  | draw => exact h
  | leads => exact h

theorem Keeps.resumeJob (K : Keeps P) {s : State} (h : P s) : P s.resumeJob := by
  unfold State.resumeJob
  split
  · exact h
  · exact K.offerInHand (K.setJobState h (by rfl)) _ _

theorem Keeps.autoResume (K : Keeps P) {s : State} (h : P s) : P s.autoResume := by
  unfold State.autoResume
  split
  · exact K.resumeJob h
  · exact h

theorem Keeps.suspend (K : Keeps P) {s : State} (h : P s) (c : RecCause) : P (s.suspend c) :=
  K.autoResume (K.engineSame (K.setJobState (K.raise (K.countSystem (K.appendSystem h _ rfl) _) _) (by rfl)) (by rfl))

/-! ### Sequencing -/

theorem Keeps.workNext (K : Keeps P) {s : State} (h : P s) : P s.workNext := by
  unfold State.workNext
  split
  · exact h
  · next hw => exact K.checkNext h (by rw [hw]; nofun) _ _
  · next hw => exact K.learnNext h _ hw _
  · next hw => exact K.leadsNext h (by rw [hw]; nofun) _ _
  · exact K.refNext h _
  · next hw => exact K.insNext h (by rw [hw]; nofun) _ _
  · exact K.refNext h _

theorem Keeps.engineLoop (K : Keeps P) (n : Nat) : ∀ {s : State}, P s → P (State.engineLoop n s) := by
  induction n with
  | zero => exact fun h => h
  | succ n ih =>
    intro s h
    have h1 := K.drain s.engine.toAppend h
    unfold State.engineLoop
    split <;> rename_i heq <;> rw [heq] at h1
    · exact h1
    · split
      · exact h1
      · exact ih (K.workNext h1)

theorem Keeps.runEngine (K : Keeps P) {s : State} (h : P s) : P s.runEngine := K.engineLoop _ h

theorem Keeps.engineMeasured (K : Keeps P) {s : State} (h : P s) (r : LmuResult) : P (s.engineMeasured r) := by
  have h1 := K.countStep h
  unfold State.engineMeasured
  split
  · refine K.runEngine ?_
    split
    · next hw => exact K.checkJudge h1 (by rw [hw]; nofun) _ _
    · next hw => exact K.learnJudge h1 _ (hw ▸ .same _) _
    · next hw => exact K.leadsJudge h1 (by rw [hw]; nofun) _ _
    · next hw => exact K.refLvJudge h1 (by rw [hw]; nofun) _
    · exact h1
    · exact h1
    · exact h1
  · exact h

theorem Keeps.stepComplete (K : Keeps P) {s : State} (h : P s) (r : HeldResult) : P (s.stepComplete r) := by
  have h1 := K.countStep h
  unfold State.stepComplete
  split
  · split
    · exact K.suspend h _
    · refine K.runEngine ?_
      split
      · next hw => exact K.insJudge h1 (by rw [hw]; nofun) _ _
      · next hw => exact K.refHvJudge h1 (by rw [hw]; nofun) _ _
      · exact h1
      · exact h1
      · exact h1
      · exact h1
      · exact h1
  · exact h

theorem Keeps.engineStart (K : Keeps P) {s : State} (h : P s) (ha : s.jobActive = true) (j : JobSpec) :
    P (s.engineStart j) := by
  unfold State.engineStart
  refine K.runEngine ?_
  split
  · exact K.checkStart h ha _ _ _
  · exact K.insulateStart h ha _ _ _ _
  · exact K.learnStart h ha _
  · exact K.leadsStart h ha _
  · exact K.refStart h ha

theorem Keeps.abortRunning (K : Keeps P) {s : State} (h : P s) (c : EndCause) : P (s.abortRunning c) := by
  unfold State.abortRunning
  split
  · exact K.endJob h _
  · split
    · exact K.endJob (K.ofWaiting s _ h) _
    · exact K.engineSame h (by rfl)
  · exact K.endJob (K.lmuIdle h _ (Lmu.discard_idle _)) _
  · exact K.endJob (K.hvOff h _ s.hv.stopOrder_rail.1 s.hv.stopOrder_rail.2) _

theorem Keeps.abortActive (K : Keeps P) {s : State} (h : P s) (c : EndCause) : P (s.abortActive c) := by
  unfold State.abortActive
  split
  · exact h
  · split
    · exact h
    · exact h
    · exact K.endJob h _
    · exact K.endJob h _
    · split
      · exact h
      · exact K.abortRunning h _

theorem Keeps.retryPending (K : Keeps P) {s : State} (h : P s) : P s.retryPending := by
  unfold State.retryPending
  split
  · exact h
  · rename_i r _
    have h1 := K.appendTest h false r
    split <;> rename_i heq <;> rw [heq] at h1
    · exact h1
    · exact K.runEngine (K.countTest (K.setJobState (K.engineSame h1 (by rfl)) (by rfl)))

theorem Keeps.entryFreed (K : Keeps P) {s : State} (h : P s) : P s.entryFreed := by
  unfold State.entryFreed
  split
  · split
    · exact K.retryPending h
    · exact h
  · exact K.examineHead h

theorem Keeps.releaseFrom (K : Keeps P) {s : State} (h : P s) (n : Nat) : P (s.releaseFrom n) := by
  unfold State.releaseFrom
  split
  · exact K.entryFreed h
  · exact h

end Sys2Proof.Machine
end

