-- ==== Sys2Proof/Laws/KeepsLink.lean ====
section
/-! SUPPORT. The card link, the matrix, the LMU and the HV unit keep what the primitive changes keep. -/

namespace Sys2Proof.Machine

open Sys2Proof

variable {P : State → Prop}

/-! ### Reports -/

theorem Keeps.compose (K : Keeps P) {s : State} (h : P s) (p : List Byte) : P (s.compose p) :=
  K.txKick (K.ofHost s _ (fun hl => by simpa using hl) h)

theorem Keeps.composeTimed (K : Keeps P) {s : State} (h : P s) (p : List Byte) : P (s.composeTimed p) :=
  K.examineHead (K.compose h p)

theorem Keeps.deliver (K : Keeps P) {s : State} (h : P s) (r : Report) : P (s.deliver r) := by
  unfold State.deliver
  split
  · exact K.onPlan h _
  · exact K.finishJob h
  · exact K.composeTimed h _
  · exact K.composeTimed h _
  · exact h

theorem Keeps.deliverAll (K : Keeps P) (rs : List Report) : ∀ {s : State}, P s → P (rs.foldl State.deliver s) := by
  induction rs with
  | nil => exact fun h => h
  | cons r rs ih => exact fun h => ih (K.deliver h r)

theorem Keeps.delivered (K : Keeps P) {x : State × List Report} (h : P x.1) : P (State.delivered x) :=
  K.deliverAll _ h

theorem Keeps.told (K : Keeps P) (who : Issuer) {x : State × Option PlanOutcome} (h : P x.1) :
    P (State.delivered (Machine.reports who x)) := K.delivered (K.reports who x h)

/-! ### Enumeration -/

theorem Keeps.startEnum (K : Keeps P) {s : State} (h : P s) (b : Bool) : P (s.startEnum b) := by
  unfold State.startEnum
  dsimp only
  split
  · exact K.linkSame (s := { s with link := { s.link with startup := false, enumHost := b } }) (K.linkSame h rfl) rfl
  · exact K.startBreak (K.linkSame h rfl)

theorem Keeps.mismatch (K : Keeps P) {s : State} (h : P s) (p : Nat) : P (s.mismatch p) :=
  K.raise (K.appendSystem h _ rfl) _

theorem Keeps.mismatches (K : Keeps P) (l : List (Nat × RosterEntry × Bool)) : ∀ {s : State}, P s →
    P (l.foldl (fun s x => s.mismatch x.1) s) := by
  induction l with
  | nil => exact fun h => h
  | cons x l ih => exact fun h => ih (K.mismatch h _)

theorem Keeps.compareRoster (K : Keeps P) {s : State} (h : P s)
    (hx : ∀ e p items, s.link.exchange = some e → e.sent ≠ .set p items) : P s.compareRoster :=
  K.mismatches _ (K.ofEnum s _ _ (by simp [positions]) (fun hw => State.enumImage_wf _ hw)
    (fun k hk => State.enumImage_opn _ k hk) hx h)

theorem Keeps.closeEnum (K : Keeps P) {s : State} (h : P s)
    (hx : ∀ e p items, s.link.exchange = some e → e.sent ≠ .set p items) : P s.closeEnum := by
  have h1 := K.linkIdle (K.compareRoster h hx) (l := { s.compareRoster.link with
    exchange := none, replyTimer := none, enumPhase := .idle, enumHost := false, discovered := []
    seqBits := List.replicate 32 false }) rfl
  unfold State.closeEnum
  dsimp only
  split
  · exact K.examineHead (K.compose h1 _)
  · exact K.examineHead h1

theorem Keeps.breakEnd (K : Keeps P) {s : State} (h : P s) : P s.breakEnd := K.sendCard (K.linkSame h (by rfl)) (by nofun)

theorem Keeps.identTaken (K : Keeps P) {s : State} (h : P s) (a : Nat) (p : List Byte) : P (s.identTaken a p) := by
  unfold State.identTaken
  split
  · exact h
  · dsimp only
    split
    · exact K.closeEnum (K.linkIdle h (by rfl)) (by nofun)
    · exact K.sendCard (K.linkIdle h (by rfl)) (by nofun)

/-! ### Loss and attention -/

/-- A position's entry changes, its kind apart, and its channels in the image become OPEN or unknown or stay. -/
theorem Keeps.rewrite (K : Keeps P) {s : State} (h : P s) (p : Nat) (e : RosterEntry)
    (f : Nat → Option Rail → Option Rail) (he : e.kind = (s.posn p).kind) (hf : ∀ c r, f c r ≠ some .hv) :
    P { s with matrix := { s.matrix.setPosn p e with image := rewritePos s.matrix.image p f } } := by
  have hi : s.ImageMay (rewritePos s.matrix.image p f) := by
    refine ⟨rewritePos_wf _ _ _, fun hw hv c h1 h2 h3 hc => ?_⟩
    rw [rewritePos_read _ _ _ hw c h3] at hc
    split at hc
    · exact absurd hc (hf _ _)
    · exact hv.1 c h1 h2 h3 hc
  exact K.ofRoster { s with matrix := { s.matrix with image := rewritePos s.matrix.image p f } }
    (s.matrix.setPosn p e).roster s.matrix.frozen (fun hl => by simpa [Matrix.setPosn] using hl) (fun q _ _ => Matrix.setPosn_kind s p e he q)
    (K.ofImage s _ hi h)

theorem Keeps.markLost (K : Keeps P) {s : State} (h : P s) (p c : Nat) : P (s.markLost p c) := by
  have h1 := K.rewrite h p { s.posn p with state := .lost } (fun _ _ => none) rfl (by nofun)
  exact K.raiseCard (K.appendSystem h1 _ rfl) _ _

theorem Keeps.attentionOver (K : Keeps P) {s : State} (h : P s) : P s.attentionOver :=
  K.delivered (K.linkFree (K.linkIdle h rfl))

theorem Keeps.setLost (K : Keeps P) {s : State} (h : P s) (p : Nat) : P (s.setLost p) := by
  have h1 := K.linkIdle (K.abortActive (K.markLost h p 2) (lostCause p))
    (l := ((s.markLost p 2).abortActive (lostCause p)).link.endExchange) rfl
  unfold State.setLost
  dsimp only
  split
  · exact h1
  · exact K.told _ (K.slotFree h1 _ rfl)

theorem Keeps.clearLost (K : Keeps P) {s : State} (h : P s) (p : Nat) : P (s.clearLost p) :=
  K.attentionOver (K.abortActive (K.markLost h p 5) _)

theorem Keeps.sweepFrom (K : Keeps P) {s : State} (h : P s) (n : Nat) : P (s.sweepFrom n) := by
  unfold State.sweepFrom
  split
  · exact K.sendCard h (by nofun)
  · exact K.attentionOver (K.linkSame h rfl)

theorem Keeps.statusLost (K : Keeps P) {s : State} (h : P s) (p : Nat) : P (s.statusLost p) :=
  K.sweepFrom (K.abortActive (K.markLost h p 6) _) _

theorem Keeps.driverFault (K : Keeps P) {s : State} (h : P s) (p : Nat) : P (s.driverFault p) := by
  have h1 := K.rewrite h p { s.posn p with state := .faulted } (fun _ _ => some .opn) rfl (by nofun)
  exact K.abortActive (K.raiseCard (K.appendSystem h1 _ rfl) _ _) _

theorem Keeps.stuckRelay (K : Keeps P) {s : State} (h : P s) (p ch : Nat) : P (s.stuckRelay p ch) := by
  refine K.abortActive (K.raiseCard (K.appendSystem ?_ _ rfl) _ _) _
  split
  · refine K.ofImage { s with matrix := { s.matrix with blocked := insChan ⟨p, ch⟩ s.matrix.blocked } } _
      ⟨tdel_wf _ _, fun hw hv c h1 h2 h3 hc => ?_⟩ (K.ofBlocked s _ h)
    rw [tget_tdel _ _ _ hw] at hc
    split at hc
    · cases hc
    · exact hv.1 c h1 h2 h3 hc
  · exact h

theorem Keeps.overtemp (K : Keeps P) {s : State} (h : P s) (p : Nat) : P (s.overtemp p) :=
  K.raiseCard (K.appendSystem h _ rfl) _ _

theorem Keeps.attnCause (K : Keeps P) {s : State} (h : P s) (p c ch : Nat) : P (s.attnCause p c ch) := by
  unfold State.attnCause
  split
  · exact K.stuckRelay h _ _
  · split
    · exact K.overtemp h _
    · exact K.driverFault h _

theorem Keeps.serveHolder (K : Keeps P) {s : State} (h : P s) (p c ch : Nat) : P (s.serveHolder p c ch) :=
  K.sendCard (K.attnCause h _ _ _) (by nofun)

theorem Keeps.attnReply (K : Keeps P) {s : State} (h : P s) (p : Nat) (l : List Byte) : P (s.attnReply p l) := by
  unfold State.attnReply
  split
  · split
    · exact K.serveHolder h _ _ _
    · exact K.attentionOver (K.linkSame h rfl)
  · exact h

theorem Keeps.statusReply (K : Keeps P) {s : State} (h : P s) (p : Nat) (l : List Byte) :
    P (s.statusReply p l) := by
  unfold State.statusReply
  split
  · split
    · exact K.sweepFrom h _
    · exact K.serveHolder h _ _ _
  · exact h

/-! ### Plans on the link -/

/-- The items of the SET on the link pass into the image. -/
theorem State.ImageMay.acked {s : State} {e : Exchange} {p : Nat} {items : List (Nat × Rail)}
    (he : s.link.exchange = some e) (hs : e.sent = .set p items) :
    s.ImageMay (writeImage s.matrix.image p items) := by
  refine ⟨writeImage_wf p items _, fun _ hv c h1 h2 h3 hc => ?_⟩
  rcases tget_writeImage p items c.key s.matrix.image with h | ⟨it, hit, hk, h⟩
  · exact hv.1 c h1 h2 h3 (h.symm.trans hc)
  · have hhv : it.2 = .hv := Option.some.inj (h.symm.trans hc)
    obtain ⟨hl, hkind⟩ := hv.2 e p items he hs it hit hhv
    unfold Chan.key at hk
    obtain rfl : p = c.pos := by omega
    exact ⟨hkind h1 h2, by omega⟩

theorem Keeps.setAcked (K : Keeps P) {s : State} (h : P s) {e : Exchange} {p : Nat} {items : List (Nat × Rail)}
    (he : s.link.exchange = some e) (hs : e.sent = .set p items) : P (s.setAcked p items) := by
  have h1 := K.linkIdle (K.ofImage s _ (.acked he hs) h) (l := s.link.endExchange) rfl
  unfold State.setAcked
  dsimp only at h1 ⊢
  split
  · next heq => exact K.told _ (K.dealRest h1 (by show s.matrix.slot.sourceOk = false; rw [heq]; rfl) _ _ _)
  · exact h1
  · exact h1
  · exact h1

theorem Keeps.allOpenDone (K : Keeps P) {s : State} (h : P s) : P s.allOpenDone := by
  have hi : s.ImageMay s.allOpenImage := by
    refine ⟨State.allOpenImage_wf s, fun hw hv c h1 h2 h3 hc => ?_⟩
    rcases s.allOpenImage_read hw c h3 with ho | ho
    · rw [ho] at hc; cases hc
    · exact hv.1 c h1 h2 h3 (ho.symm.trans hc)
  have h1 := K.linkIdle (K.ofImage s _ hi h) (l := s.link.endExchange) rfl
  unfold State.allOpenDone
  dsimp only at h1 ⊢
  split
  · next heq => exact K.told _ (K.dealt h1 (by show s.matrix.slot.sourceOk = false; rw [heq]; rfl) _ _)
  · exact h1
  · exact h1
  · exact h1

theorem Keeps.settleDone (K : Keeps P) {s : State} (h : P s) : P s.settleDone := by
  unfold State.settleDone
  split
  · exact K.told _ (K.slotFree h _ rfl)
  · exact h
  · exact h
  · exact h

theorem Keeps.heldGoes (K : Keeps P) {s : State} (h : P s) : P s.heldGoes := by
  unfold State.heldGoes
  split
  · split
    · next hr => exact K.told _ (K.enterSending h _ hr)
    · exact h
  · exact h
  · exact h
  · exact h

/-- A frame goes out again: the exchange in progress carries what it carried. -/
theorem Keeps.resend (K : Keeps P) {s : State} (h : P s) {e : Exchange} (he : s.link.exchange = some e) :
    P { s with link := s.link.resend e } := K.ofLink s _ (fun d p items hd hs => by
  simp only [Link.resend, Option.some.injEq] at hd
  subst hd
  exact .inl ⟨e, he, rfl⟩) h

theorem Keeps.replyTimeout (K : Keeps P) {s : State} (h : P s) {e : Exchange} (he : s.link.exchange = some e) :
    P (s.replyTimeout e) := by
  unfold State.replyTimeout
  split
  · next heq =>
    refine K.closeEnum h (fun d p items hd => ?_)
    obtain rfl : e = d := Option.some.inj (he.symm.trans hd)
    rw [heq]; nofun
  · exact h
  · split
    · exact K.sweepFrom h _
    · exact K.resend h he
  · split
    · exact K.setLost h _
    · exact K.resend h he
  · split
    · exact K.clearLost h _
    · exact K.resend h he
  · split
    · exact K.statusLost h _
    · exact K.resend h he

/-! ### The LMU -/

theorem Keeps.measured (K : Keeps P) {s : State} (h : P s) (r : LmuResult) : P (s.measured r) := by
  unfold State.measured
  split
  · exact K.engineMeasured h _
  · split
    · exact K.composeTimed h _
    · exact h
    · exact h
    · exact h
    · exact h

theorem Keeps.lmuAfter (K : Keeps P) {s : State} (h : P s) (x : Lmu × Option LmuResult)
    (hx : x.1.phase ≠ .idle → s.lmu.phase ≠ .idle) : P (s.lmuAfter x) := by
  have h1 := K.ofLmu s x.1 (fun hn => .inl (hx hn)) h
  obtain ⟨l, r⟩ := x
  cases r with
  | none => exact h1
  | some r => exact K.measured h1 r

/-! ### The HV unit -/

theorem Keeps.examineStep (K : Keeps P) {s : State} (h : P s) (v : StepValues) (hm : s.mayStep = true) :
    P (s.examineStep v) := by
  simp only [State.mayStep, State.sourceAllowed, Bool.and_eq_true, decide_eq_true_eq] at hm
  unfold State.examineStep
  split
  · next hc => exact K.ofHv s (s.hv.startStep v) (fun _ => .inr ⟨hm.1.1, hm.2⟩) (fun _ => .inl hc) h
  · exact K.suspend (K.hvSame h { s.hv with request := none } rfl rfl) _

theorem Keeps.holdDone (K : Keeps P) {s : State} (h : P s) : P s.holdDone := by
  unfold State.holdDone
  dsimp only
  split
  · exact K.hvOff h _ (fun hn => absurd rfl hn) rfl
  · exact K.stepComplete (K.hvOff h _ (fun hn => absurd rfl hn) rfl) _

theorem Keeps.dropStep (K : Keeps P) {s : State} (h : P s) : P { s with hv := s.hv.dropStep } :=
  K.hvSame h s.hv.dropStep rfl rfl

theorem Keeps.railFault (K : Keeps P) {s : State} (h : P s) (hr : s.hv.rail ≠ .safe) : P s.railFault := by
  have h1 := K.hvOff h { s.hv with rail := .fault, holdTimer := none, limitTimer := none } (fun _ => hr) rfl
  unfold State.railFault
  dsimp only
  refine K.dropStep (K.raise ?_ _)
  split
  · exact K.countSystem (K.appendSystem h1 _ rfl) _
  · exact K.appendSystem h1 _ rfl

theorem Keeps.limitDone (K : Keeps P) {s : State} (h : P s) (hr : s.hv.rail ≠ .safe) : P s.limitDone := by
  have h1 := K.railFault h hr
  unfold State.limitDone
  dsimp only
  split
  · exact K.finishJob h1
  · exact K.examineHead (K.abortActive h1 _)

theorem Keeps.coverEdge (K : Keeps P) {s : State} (h : P s) (b : Bool) : P (s.coverEdge b) := by
  unfold State.coverEdge
  split
  · exact h
  · exact K.hvSame (K.ofPins s { s.pins with coverClosed := b } h) { s.hv with debounce := some 10 } rfl rfl

theorem Keeps.coverSettled (K : Keeps P) {s : State} (h : P s) : P s.coverSettled := by
  unfold State.coverSettled
  dsimp only
  split
  · next hc => exact K.hvSame h _ rfl hc
  · split
    · next hp => exact K.autoResume (K.ofHv s _ (fun hn => .inl hn) (fun _ => .inl hp) h)
    · split <;> rename_i hr
      · exact K.hvOff h _ (fun _ => by simp [hr]) rfl
      · exact K.hvOff h _ (fun _ => by simp [hr]) rfl
      · exact K.hvOff h _ (fun hn => hn) (by show s.hv.rail.driven = false; rw [hr]; rfl)
      · exact K.hvOff h _ (fun hn => hn) (by show s.hv.rail.driven = false; rw [hr]; rfl)
      · exact K.hvOff h _ (fun hn => hn) (by show s.hv.rail.driven = false; rw [hr]; rfl)

end Sys2Proof.Machine
end

