-- ==== Sys2Proof/Laws/KeepsHost.lean ====
section
/-! SUPPORT. The requests and the host link keep what the primitive changes keep, and so does every command. -/

namespace Sys2Proof.Machine

open Sys2Proof

variable {P : State → Prop}

/-! ### The start of a job -/

theorem Keeps.readRange (K : Keeps P) (l : List Nat) : ∀ {s : State}, P s → P (State.readRange l s).1 := by
  induction l with
  | nil => exact fun h => h
  | cons n l ih =>
    intro s h
    have h1 := K.readNetFor h .start n
    unfold State.readRange
    split <;> rename_i heq <;> rw [heq] at h1 <;> exact ih h1

theorem Keeps.validateTables (K : Keeps P) {s : State} (h : P s) (j : JobSpec) : P (s.validateTables j).1 := by
  unfold State.validateTables
  split
  · exact h
  · rename_i f l _
    have h1 := K.readRange (s.numsIn f l) h
    split <;> rename_i heq <;> rw [heq] at h1
    · exact h1
    · split <;> exact h1

theorem Keeps.validate (K : Keeps P) {s : State} (h : P s) (j : JobSpec) : P (s.validate j).1 := by
  unfold State.validate
  split
  · exact h
  · split
    · exact h
    · exact K.validateTables h j

theorem Keeps.refuseJob (K : Keeps P) {s : State} (h : P s) (j : Job) (c : EndCause) : P (s.refuseJob j c) :=
  K.examineHead (K.dropHead (K.raise (K.appendSystem h _ rfl) _))

theorem Keeps.openJob (K : Keeps P) {s : State} (h : P s) (j : Job) : P (s.openJob j) :=
  K.appendTest (K.ofEngine _ Engine.reset (.none _) (K.ofHead s (fun h => { h with
    snapshot := some ⟨s.limits, s.hv.hvSet⟩, flagU := decide (s.reference = .unverified), state := .running })
    (fun _ => rfl) (fun _ => .inl rfl) h)) true _

/-- The head that starts is the active job. -/
theorem State.openJob_active {s : State} {j : Job} (hj : s.head = some j) : (s.openJob j).jobActive = true := by
  have hq := (Quiet.appendTest { s.setHead (fun h => { h with
    snapshot := some ⟨s.limits, s.hv.hvSet⟩, flagU := decide (s.reference = .unverified), state := .running })
    with engine := Engine.reset } true (jobStartRec j false (decide (s.reference = .unverified)))).queue
  have hs : (s.openJob j).queue = _ := hq
  unfold State.head at hj
  unfold State.jobActive State.activeJob State.head
  rw [hs]
  unfold State.setHead
  split
  · next heq => rw [heq] at hj; cases hj
  · rfl

theorem Quiet.readRange (l : List Nat) : ∀ s : State, Quiet s (State.readRange l s).1 := by
  induction l with
  | nil => exact fun s => .refl s
  | cons n l ih =>
    intro s
    have h1 := Quiet.readNetFor s .start n
    unfold State.readRange
    split <;> rename_i heq <;> rw [heq] at h1 <;> exact h1.trans (ih _)

theorem Quiet.validate (s : State) (j : JobSpec) : Quiet s (s.validate j).1 := by
  unfold State.validate
  split
  · exact .refl s
  · split
    · exact .refl s
    · unfold State.validateTables
      split
      · exact .refl s
      · rename_i f l _
        have h1 := Quiet.readRange (s.numsIn f l) s
        split <;> rename_i heq <;> rw [heq] at h1
        · exact h1
        · split <;> exact h1

/-- A quiet change leaves the active job. -/
theorem Quiet.jobActive {s t : State} (h : Quiet s t) : t.jobActive = s.jobActive := by
  unfold State.jobActive State.activeJob State.head
  rw [h.queue]

theorem Keeps.startHead (K : Keeps P) {s : State} (h : P s) {j : Job} (hj : s.head = some j) : P (s.startHead j) := by
  have h1 := K.validate (K.openJob h j) j.spec
  have ha := (Quiet.validate (s.openJob j) j.spec).jobActive.trans (State.openJob_active hj)
  unfold State.startHead
  split <;> rename_i heq <;> rw [heq] at h1 ha
  · exact K.refuseJob h1 _ _
  · exact K.engineStart h1 ha _

/-! ### Requests of the wire-list store -/

/-- What a request leaves keeps what the state had. -/
def Keeping (P : State → Prop) (f : List Byte → State → State × List Byte) : Prop :=
  ∀ (p : List Byte) {s : State}, P s → P (f p s).1

/-- An accepted MAP_POINTS. -/
theorem State.StoreMay.ofMap (s : State) (items : List (Nat × Byte × Byte))
    (hb : items.any (mapItemBad items) = false)
    (hc : items.any (mapItemConflict (applyMap s.store.map items)) = false) :
    s.StoreMay { s.store with map := applyMap s.store.map items } where
  wf hw := Store.withMap_wf _ _ (applyMap_wf _ _ (Store.wf_map _ hw)) hw
  map hw h := applyMap_sound s.store items (Store.wf_map _ hw) h hb hc
  owned _ h := h
  sound := .inl fun _ h => h

/-- An accepted LOAD_NET. -/
theorem State.StoreMay.ofPut (s : State) (q : LoadNet) (ha : s.jobActive = false) (hr : q.inRange = true)
    (hc : q.conflict s = none) : s.StoreMay (s.store.putNet q.body) where
  wf := Store.putNet_wf _ _
  map _ h := h
  owned hw h := s.store.putNet_owned q.body hw h (q.num_range hr) (q.conflict_none s hr hc)
  sound := .inr (.inl ha)

theorem Keeps.doMapPoints (K : Keeps P) : Keeping P doMapPoints := by
  intro p s h
  unfold Machine.doMapPoints
  split
  · exact h
  · split
    · exact h
    · split
      · exact h
      · dsimp only
        split
        · exact h
        · next hb hc =>
          simp only [Bool.or_eq_true, not_or, Bool.not_eq_true] at hb hc
          exact K.ofStore s _ (.ofMap s _ hb.2 hc) h

theorem Keeps.doReadMap (_ : Keeps P) : Keeping P doReadMap := by
  intro p s h
  unfold Machine.doReadMap
  split
  · split <;> exact h
  · exact h

/-- SET_LEADS writes leads alone. -/
theorem setLeads_rest (items : List (Nat × Byte × Byte)) : ∀ st : Store,
    (items.foldl (fun st it => st.setLead it.1 (u16 it.2.1 it.2.2)) st).map = st.map ∧
    (items.foldl (fun st it => st.setLead it.1 (u16 it.2.1 it.2.2)) st).owner = st.owner ∧
    (items.foldl (fun st it => st.setLead it.1 (u16 it.2.1 it.2.2)) st).nets = st.nets := by
  induction items with
  | nil => exact fun _ => ⟨rfl, rfl, rfl⟩
  | cons i l ih => exact fun st => ih (st.setLead i.1 (u16 i.2.1 i.2.2))

theorem Keeps.doSetLeads (K : Keeps P) : Keeping P doSetLeads := by
  intro p s h
  unfold Machine.doSetLeads
  split
  · exact h
  · split
    · exact h
    · split
      · exact h
      · exact K.ofStore s _ (.ofLeads s _ (setLeads_wf _ _) (setLeads_rest _ _).1 (setLeads_rest _ _).2.1
          (setLeads_rest _ _).2.2) h

theorem Keeps.doReadLeads (_ : Keeps P) : Keeping P doReadLeads := by
  intro p s h
  unfold Machine.doReadLeads
  split
  · split <;> exact h
  · exact h

theorem Keeps.doLoadNet (K : Keeps P) : Keeping P doLoadNet := by
  intro p s h
  unfold Machine.doLoadNet
  split
  · exact h
  · split
    · exact h
    · split
      · exact h
      · split
        · exact h
        · next ha hr _ hc => exact K.ofStore s _ (.ofPut s _ (by simpa using ha) (by simpa using hr) hc) h

theorem Keeps.doClearNets (K : Keeps P) : Keeping P doClearNets := by
  intro p s h
  unfold Machine.doClearNets
  split
  · split
    · exact h
    · next ha => exact K.ofStore s _ (.clear s (.inl (by simpa using ha))) h
  · exact h

theorem Keeps.doReadNet (K : Keeps P) : Keeping P doReadNet := by
  intro p s h
  unfold Machine.doReadNet
  split
  · split
    · exact h
    · exact h
    · have h1 := K.readNetFor h .read
      dsimp only
      split <;> exact h1 _
  · exact h

/-! ### Requests of the card link and the matrix -/

theorem Keeps.doSetCardLink (K : Keeps P) : Keeping P doSetCardLink := by
  intro p s h
  unfold Machine.doSetCardLink
  split
  · dsimp only
    split
    · exact h
    · split
      · exact K.linkSame h rfl
      · exact h
  · exact h

/-- New expected kinds leave the kinds of the cards. -/
theorem State.setExpected_kind (s : State) (ks : List CardKind)
    (hk : ks.length = 32 ∨ ks.length = s.matrix.roster.length) (p : Nat) (h1 : 1 ≤ p) (h2 : p ≤ 32) :
    (((s.matrix.roster.zip ks).map (fun x => ({ x.1 with expected := x.2 } : RosterEntry))).getD (p - 1)
      RosterEntry.empty).kind = (s.posn p).kind := by
  unfold State.posn
  simp only [List.getD_eq_getElem?_getD, List.getElem?_map]
  by_cases hl : p - 1 < s.matrix.roster.length
  · have hl2 : p - 1 < (s.matrix.roster.zip ks).length := by simp; omega
    rw [List.getElem?_eq_getElem hl, List.getElem?_eq_getElem hl2]
    simp
  · rw [List.getElem?_eq_none (by simp; omega), List.getElem?_eq_none (by omega)]
    rfl

theorem Keeps.setExpected (K : Keeps P) {s : State} (h : P s) (ks : List CardKind) (b : Bool)
    (hk : ks.length = 32 ∨ ks.length = s.matrix.roster.length) : P { s with matrix := s.matrix.setExpected ks b } :=
  K.ofRoster s _ b (fun hl => by simp; omega) (s.setExpected_kind ks hk) h

theorem Keeps.doSetRoster (K : Keeps P) : Keeping P doSetRoster := by
  intro p s h
  unfold Machine.doSetRoster
  split
  · exact h
  · split
    · split
      · exact h
      · split
        · exact h
        · split
          · next hk _ _ => exact K.setExpected h _ _ (.inl (by simpa using hk))
          · exact h
    · split
      · exact h
      · split
        · exact h
        · split
          · exact K.setExpected h _ _ (.inr (by simp))
          · split
            · exact K.setExpected h _ _ (.inr (by simp))
            · exact h

theorem Keeps.setCarried (K : Keeps P) {s : State} (h : P s) (c : Option Carried) :
    P { s with host := { s.host with carried := c } } := K.ofHost s { s.host with carried := c } id h

theorem Keeps.doEnumerate (K : Keeps P) (p : List Byte) {s : State} (h : P s) : P (doEnumerate p s).1 := by
  unfold Machine.doEnumerate
  split
  · exact h
  · split
    · exact h
    · split
      · exact h
      · exact K.endWait (K.startEnum (K.setCarried h _) true)

theorem Keeps.doReadRoster (_ : Keeps P) : Keeping P doReadRoster := by
  intro p s h
  unfold Machine.doReadRoster
  split <;> exact h

theorem Keeps.offerCarried (K : Keeps P) {s : State} (h : P s) (c : Carried) (p : Plan) :
    P (s.offerCarried c p) := K.delivered (K.offerPlan (K.endWait (K.setCarried h _)) p)

theorem Keeps.doManualSwitch (K : Keeps P) (p : List Byte) {s : State} (h : P s) :
    P (doManualSwitch p s).1 := by
  unfold Machine.doManualSwitch
  split
  · exact h
  · split
    · exact h
    · split
      · exact h
      · split
        · exact h
        · split
          · exact h
          · split
            · exact h
            · exact K.offerCarried h _ _

theorem Keeps.doReadRelays (_ : Keeps P) : Keeping P doReadRelays := by
  intro p s h
  unfold Machine.doReadRelays
  split
  · exact h
  · split
    · split
      · split <;> exact h
      · exact h
    · split
      · split
        · split <;> exact h
        · exact h
      · exact h

theorem Keeps.unblock (K : Keeps P) {s : State} (h : P s) (cs : List Chan) : P (s.unblock cs) :=
  K.offerCarried (K.ofBlocked s _ h) _ _

theorem Keeps.doUnblock (K : Keeps P) (p : List Byte) {s : State} (h : P s) : P (doUnblock p s).1 := by
  unfold Machine.doUnblock
  split
  · split
    · exact h
    · split
      · exact h
      · exact K.unblock h _
  · split
    · exact h
    · split
      · exact h
      · split
        · exact h
        · split
          · exact h
          · exact K.unblock h _
  · exact h

/-! ### Requests of the LMU and the HV unit -/

theorem Keeps.doSetLimits (K : Keeps P) : Keeping P doSetLimits := by
  intro p s h
  unfold Machine.doSetLimits
  split
  · dsimp only
    split
    · exact K.ofLimits s _ h
    · exact h
  · exact h

theorem Keeps.doMeasure (K : Keeps P) (p : List Byte) {s : State} (h : P s) : P (doMeasure p s).1 := by
  unfold Machine.doMeasure
  split
  · split
    · exact h
    · split
      · exact h
      · split
        · exact h
        · exact K.requestMeasure (K.endWait (K.setCarried h _)) _ _
  · exact h

theorem Keeps.doSetHv (K : Keeps P) : Keeping P doSetHv := by
  intro p s h
  unfold Machine.doSetHv
  split
  · dsimp only
    split
    · exact K.hvSame h { s.hv with hvSet := _ } rfl rfl
    · exact h
  · exact h

theorem Keeps.doClearHvFault (K : Keeps P) : Keeping P doClearHvFault := by
  intro p s h
  unfold Machine.doClearHvFault
  split
  · exact h
  · split
    · exact h
    · split
      · exact h
      · exact K.examineHead (K.hvOff h s.hv.enterSafe (fun hn => absurd rfl hn) rfl)

/-! ### Requests of the job queue -/

theorem Keeps.doSubmitJob (K : Keeps P) : Keeping P doSubmitJob := by
  intro p s h
  unfold Machine.doSubmitJob
  split
  · exact h
  · split
    · exact h
    · split
      · exact h
      · split
        · exact h
        · exact h
        · split
          · exact h
          · split
            · exact h
            · split
              · exact h
              · next h1 h2 => exact K.examineHead (K.ofPush s _ _ (by omega) (by simpa using h2) h)

theorem Keeps.removeQueued (K : Keeps P) {s : State} (h : P s) {j : Job} {p : Job → Bool}
    (hp : p = fun q => q.tag == j.tag) (hf : s.queue.jobs.find? p = some j) (hq : j.state = .queued) :
    P (s.removeQueued j) := by
  subst hp
  have h0 := K.raise (K.appendSystem (K.appendSystem h (jobStartRec j true false) rfl)
    (jobEndZero j ⟨.abortedHost, .nothing⟩) rfl) .jobAborted
  have hqueue : (State.raise (State.appendSystem (State.appendSystem s (jobStartRec j true false)).1
      (jobEndZero j ⟨.abortedHost, .nothing⟩)).1 .jobAborted).queue = s.queue :=
    (((Quiet.appendSystem s _).trans (Quiet.appendSystem _ _)).trans (Quiet.raise _ _)).queue
  have h1 := K.ofFilter _ (fun q => q.tag != j.tag) (fun x hx ha => by
    rw [hqueue] at hx
    cases hjobs : s.queue.jobs with
    | nil => rw [hjobs] at hx; cases hx
    | cons y l =>
      rw [hjobs] at hx hf
      obtain rfl : y = x := Option.some.inj hx
      by_contra hn
      have ht : (y.tag == j.tag) = true := by simpa using hn
      rw [List.find?_cons_of_pos (p := fun q : Job => q.tag == j.tag) ht] at hf
      obtain rfl : y = j := Option.some.inj hf
      rw [hq] at ha
      cases ha) h0
  unfold State.removeQueued
  dsimp only
  refine K.examineHead ?_
  split
  · exact K.endWait h1
  · exact h1

theorem Keeps.abortJob (K : Keeps P) {s : State} (h : P s) {j : Job} {p : Job → Bool}
    (hp : p = fun q => q.tag == j.tag) (hf : s.queue.jobs.find? p = some j) : P (s.abortJob j) := by
  unfold State.abortJob
  split
  · next hq => exact K.removeQueued h hp hf hq
  · exact K.abortActive h _
  · exact K.abortActive h _
  · exact K.abortActive h _
  · exact h

theorem Keeps.doAbortJob (K : Keeps P) : Keeping P doAbortJob := by
  intro p s h
  unfold Machine.doAbortJob
  split
  · split
    · exact h
    · split
      · exact h
      · next hf =>
        have ht := List.find?_some hf
        simp only [beq_iff_eq] at ht
        exact K.abortJob h (by rw [ht]) hf
  · exact h

theorem Keeps.doHoldQueue (K : Keeps P) : Keeping P doHoldQueue := by
  intro p s h
  unfold Machine.doHoldQueue
  split
  · exact K.endWait (K.ofFlags s true s.queue.stallWait h)
  · exact h

theorem Keeps.doReleaseQueue (K : Keeps P) : Keeping P doReleaseQueue := by
  intro p s h
  unfold Machine.doReleaseQueue
  split
  · exact K.examineHead (K.ofFlags s false s.queue.stallWait h)
  · exact h

theorem Keeps.doReadQueue (_ : Keeps P) : Keeping P doReadQueue := by
  intro p s h
  unfold Machine.doReadQueue
  split <;> exact h

theorem Keeps.doResume (K : Keeps P) : Keeping P doResume := by
  intro p s h
  unfold Machine.doResume
  split
  · exact h
  · split
    · exact h
    · exact K.resumeJob h

/-! ### Requests of the log and of the event unit -/

theorem Keeps.clearHost (K : Keeps P) {s : State} (h : P s) (es : List Entry) :
    P { s with log := s.log.clearHost es } := K.ofMarks s _ (fun e => by split <;> rfl) h

theorem Keeps.doFetchRecords (K : Keeps P) : Keeping P doFetchRecords := by
  intro p s h
  unfold Machine.doFetchRecords
  split
  · split
    · exact h
    · exact K.releaseFrom (K.notifyEmptied (K.clearHost h _)) _
  · exact h

theorem Keeps.applyReporting (K : Keeps P) {s : State} (h : P s) (on : Bool) (a b : Nat) :
    P (s.applyReporting on a b) := by
  unfold State.applyReporting
  dsimp only
  refine K.releaseFrom ?_ _
  have h1 : P { s with log := { (if s.log.reporting && !on then { s.log.dropHost with notifyTimer := none }
      else s.log) with reporting := on, threshold := a, timeout := b } } := by
    split
    · exact K.ofSettings { s with log := { s.log.dropHost with notifyTimer := none } } on a b
        (K.ofTimer { s with log := s.log.dropHost } none (K.ofMarks s _ (fun _ => rfl) h))
    · exact K.ofSettings s on a b h
  split
  · exact h1
  · exact K.notifyFresh h1

theorem Keeps.doSetReporting (K : Keeps P) : Keeping P doSetReporting := by
  intro p s h
  unfold Machine.doSetReporting
  split
  · dsimp only
    split
    · exact K.applyReporting h _ _ _
    · exact h
  · exact h

theorem Keeps.applyEvents (K : Keeps P) {s : State} (h : P s) (m : BitVec 12) (l : List Nat) (a : Nat) :
    P (s.applyEvents m l a) := by
  unfold State.applyEvents
  dsimp only
  split
  · exact K.ofEvents s _ h
  · exact K.wantNotice (K.ofEvents s _ h)

theorem Keeps.doSetEvents (K : Keeps P) : Keeping P doSetEvents := by
  intro p s h
  unfold Machine.doSetEvents
  split
  · split
    · exact h
    · dsimp only
      split
      · exact K.applyEvents h _ _ _
      · exact h
  · exact h
  · exact h

theorem Keeps.clearEvents (K : Keeps P) {s : State} (h : P s) (m : BitVec 12) : P (s.clearEvents m) := by
  unfold State.clearEvents
  dsimp only
  split
  · exact K.notifyFresh (K.ofEvents s _ h)
  · exact K.ofEvents s _ h

theorem Keeps.doClearEvents (K : Keeps P) : Keeping P doClearEvents := by
  intro p s h
  unfold Machine.doClearEvents
  split
  · split
    · exact h
    · exact K.clearEvents h _
  · exact h

/-! ### Requests of the print formatter -/

theorem Keeps.dropPrints (K : Keeps P) {s : State} (h : P s) : P s.dropPrints :=
  K.ofPrinter { s with log := s.log.clearMarks (fun e => { e with printMark := false }) } _
    (K.ofMarks s _ (fun _ => rfl) h)

theorem Keeps.applyPrinter (K : Keeps P) {s : State} (h : P s) (c : PrinterConfig) : P (s.applyPrinter c) := by
  have h1 := K.ofPrinter s { s.printer with cfg := c } h
  unfold State.applyPrinter
  dsimp only
  split
  · exact K.printIdle (K.ofPrinter s _ h)
  · exact h1
  · exact K.releaseFrom (K.ofPrinter _ _ (K.dropPrints h1)) _
  · exact h1

theorem Keeps.doPrinterConfig (K : Keeps P) : Keeping P doPrinterConfig := by
  intro p s h
  unfold Machine.doPrinterConfig
  split
  · split
    · exact h
    · dsimp only
      split
      · exact K.applyPrinter h _
      · exact h
  · exact h

theorem Keeps.setPrinter (K : Keeps P) {s : State} (h : P s) (x : PrinterState) : P (s.setPrinter x) :=
  K.ofPrinter s _ h

theorem Keeps.doPrintHold (K : Keeps P) : Keeping P doPrintHold := by
  intro p s h
  unfold Machine.doPrintHold
  split
  · exact h
  · split
    · exact h
    · exact K.setPrinter h _

theorem Keeps.release (K : Keeps P) {s : State} (h : P s) : P s.release := by
  unfold State.release
  split
  · exact K.setPrinter h _
  · split
    · exact K.startLine h
    · exact K.takeOldest h
  · exact h
  · exact h
  · exact h
  · exact h
  · exact h

theorem Keeps.doPrintRelease (K : Keeps P) : Keeping P doPrintRelease := by
  intro p s h
  unfold Machine.doPrintRelease
  split
  · exact h
  · split
    · exact h
    · exact K.release h

theorem Keeps.doPrintFlush (K : Keeps P) : Keeping P doPrintFlush := by
  intro p s h
  unfold Machine.doPrintFlush
  split
  · exact h
  · split
    · exact h
    · exact K.releaseFrom (K.dropPrints h) _

theorem Keeps.printerSent (K : Keeps P) {s : State} (h : P s) : P s.printerSent := by
  have h1 := K.charSent h
  unfold State.printerSent
  split <;> rename_i heq <;> rw [heq] at h1
  · exact h1
  · split
    · exact K.afterRecord (K.entryFreed h1)
    · exact K.afterRecord h1

theorem Keeps.printerStall (K : Keeps P) {s : State} (h : P s) : P s.printerStall :=
  K.raisePrinter (K.ofPrinter s _ h) _

/-! ### The host link -/

theorem Keeps.doIdent (_ : Keeps P) : Keeping P doIdent := by
  intro p s h
  unfold Machine.doIdent
  split <;> exact h

theorem Keeps.doSetLink (_ : Keeps P) : Keeping P doSetLink := by
  intro p s h
  unfold Machine.doSetLink
  split
  · split <;> exact h
  · exact h

theorem Keeps.doRestart (_ : Keeps P) : Keeping P doRestart := by
  intro p s h
  unfold Machine.doRestart
  split <;> exact h

theorem Keeps.doReadStatus (_ : Keeps P) : Keeping P doReadStatus := by
  intro p s h
  unfold Machine.doReadStatus
  split <;> exact h

theorem Keeps.carry (K : Keeps P) (r : Request) (p : List Byte) {s : State} (h : P s) : P (carry r p s).1 := by
  cases r with
  | ident => exact K.doIdent p h
  | setLink => exact K.doSetLink p h
  | restart => exact K.doRestart p h
  | readStatus => exact K.doReadStatus p h
  | setEvents => exact K.doSetEvents p h
  | clearEvents => exact K.doClearEvents p h
  | mapPoints => exact K.doMapPoints p h
  | readMap => exact K.doReadMap p h
  | setLeads => exact K.doSetLeads p h
  | readLeads => exact K.doReadLeads p h
  | loadNet => exact K.doLoadNet p h
  | clearNets => exact K.doClearNets p h
  | readNet => exact K.doReadNet p h
  | setCardLink => exact K.doSetCardLink p h
  | setRoster => exact K.doSetRoster p h
  | enumerate => exact K.doEnumerate p h
  | readRoster => exact K.doReadRoster p h
  | manualSwitch => exact K.doManualSwitch p h
  | readRelays => exact K.doReadRelays p h
  | unblock => exact K.doUnblock p h
  | setLimits => exact K.doSetLimits p h
  | measure => exact K.doMeasure p h
  | setHv => exact K.doSetHv p h
  | clearHvFault => exact K.doClearHvFault p h
  | submitJob => exact K.doSubmitJob p h
  | abortJob => exact K.doAbortJob p h
  | holdQueue => exact K.doHoldQueue p h
  | releaseQueue => exact K.doReleaseQueue p h
  | readQueue => exact K.doReadQueue p h
  | resume => exact K.doResume p h
  | setReporting => exact K.doSetReporting p h
  | fetchRecords => exact K.doFetchRecords p h
  | printerConfig => exact K.doPrinterConfig p h
  | printHold => exact K.doPrintHold p h
  | printRelease => exact K.doPrintRelease p h
  | printFlush => exact K.doPrintFlush p h

/-- Marking a slot carried changes no slot but for its standing. -/
theorem markCarried_length : ∀ {l : List RxSlot} {x : List RxSlot × RxSlot}, markCarried l = some x →
    x.1.length = l.length
  | [], _, h => by simp [markCarried] at h
  | r :: rest, x, h => by
    unfold markCarried at h
    split at h
    · simp at h; subst h; simp
    all_goals
      simp only [Option.map_eq_some_iff] at h
      obtain ⟨y, hy, rfl⟩ := h
      simp [markCarried_length hy]

theorem Keeps.handOne (K : Keeps P) {s : State} (h : P s) (l : List RxSlot) (r : RxSlot)
    (hl : l.length = s.host.slots.length) : P (s.handOne l r) := by
  have h1 : P (carryOut r.kind r.payload { s with host := { s.host with slots := l } }).1 := by
    unfold carryOut
    split
    · exact K.carry _ _ (K.ofHost s _ (fun hs => hl ▸ hs) h)
    · exact K.ofHost s _ (fun hs => hl ▸ hs) h
  unfold State.handOne
  split <;> rename_i heq <;> rw [heq] at h1
  · exact K.compose h1 _
  · exact h1

theorem Keeps.handOver (K : Keeps P) (n : Nat) : ∀ {s : State}, P s → P (State.handOver n s) := by
  induction n with
  | zero => exact fun h => h
  | succ n ih =>
    intro s h
    unfold State.handOver
    split
    · exact h
    · split
      · exact h
      · next heq => exact ih (K.handOne h _ _ (markCarried_length heq))

theorem Keeps.dispatch (K : Keeps P) {s : State} (h : P s) : P s.dispatch := K.handOver 3 h

theorem Keeps.hunt (K : Keeps P) {s : State} (h : P s) : P s.hunt := K.ofHost s _ (by exact fun hl => hl) h

theorem Keeps.received (K : Keeps P) {s : State} (h : P s) (k t : Byte) (p : List Byte) : P (s.received k t p) := by
  unfold State.received
  split
  · exact K.raiseLink h _
  · exact K.dispatch (K.ofHost s _ (fun _ => by simp; omega) h)

theorem Keeps.frame (K : Keeps P) {s : State} (h : P s) (k t : Byte) (p : List Byte) : P (s.frame k t p) := by
  unfold State.frame
  split
  · exact K.raiseLink (K.hunt h) _
  · exact K.received (K.hunt h) _ _ _

theorem Keeps.frameEnd (K : Keeps P) {s : State} (h : P s) (a : List Byte) : P (s.frameEnd a) := by
  unfold State.frameEnd
  dsimp only
  split
  · exact K.received (K.hunt h) _ _ _
  · exact K.raiseLink (K.hunt h) _

theorem Keeps.feed (K : Keeps P) {s : State} (h : P s) (b : Byte) : P (s.feed b) := by
  unfold State.feed
  split
  · split
    · exact K.ofHost s _ (by exact fun hl => hl) h
    · exact h
  · dsimp only
    split
    · exact K.raiseLink (K.hunt h) _
    · split
      · exact K.frameEnd h _
      · exact K.ofHost s _ (by exact fun hl => hl) h

theorem Keeps.feedAll (K : Keeps P) (l : List Byte) : ∀ {s : State}, P s → P (s.feedAll l) := by
  unfold State.feedAll
  induction l with
  | nil => exact fun h => h
  | cons b l ih => exact fun h => ih (K.feed h b)

theorem Keeps.byteTimeout (K : Keeps P) {s : State} (h : P s) : P s.byteTimeout := by
  unfold State.byteTimeout
  split
  · exact h
  · exact K.raiseLink (K.hunt h) _

theorem Keeps.changeBaud (K : Keeps P) {s : State} (h : P s) (b : Nat) : P (s.changeBaud b) := by
  unfold State.changeBaud
  split
  · exact h
  · exact K.ofHost s _ (by exact fun hl => hl) h

theorem Keeps.replyGone (K : Keeps P) {s : State} (h : P s) (r : RxSlot) : P (s.replyGone r) := by
  unfold State.replyGone
  split
  · exact K.ofRestart s h
  · split
    · exact K.txKick (K.changeBaud h _)
    · exact K.txKick h

theorem Keeps.replySent (K : Keeps P) {s : State} (h : P s) : P s.replySent := by
  unfold State.replySent
  split
  · exact K.replyGone (K.ofHost s _ (fun hl => Nat.le_trans (List.length_filter_le ..) hl) h) _
  · exact h

theorem Keeps.noticeSent (K : Keeps P) {s : State} (h : P s) : P s.noticeSent := by
  unfold State.noticeSent
  split
  · exact K.txKick (K.ofHost s _ (by exact fun hl => hl) h)
  · exact h
  · exact h

/-! ### The LMU and the HV unit as commands change them -/

theorem Lmu.contCode_phase (l : Lmu) (c : Nat) (h : l.phase ≠ .idle) :
    (l.contCode c).1.phase ≠ .idle → l.phase ≠ .idle := fun _ => h

theorem Hv.tick_rail (h : Hv) (v : StepValues) (hr : h.rail = .ramp) :
    (h.tick v).rail.driven = true ∧ (h.tick v).coverClosed = h.coverClosed := by
  unfold Hv.tick
  dsimp only
  split <;> simp [RailState.driven, hr]

theorem Hv.breakdown_rail (h : Hv) (c : BreakCause) (u i : Nat) : (h.breakdown c u i).rail = .discharge := rfl

/-- A conversion leaves the rail as it was or discharges one that was driven, and leaves the cover. -/
theorem Hv.sample_rail (h : Hv) (u i : Nat) :
    ((h.sample u i).rail = h.rail ∨ (h.rail.driven = true ∧ (h.sample u i).rail = .discharge)) ∧
      (h.sample u i).coverClosed = h.coverClosed := by
  unfold Hv.sample
  dsimp only
  cases hr : h.rail <;> simp only
  · simp
  · split
    · unfold Hv.rampSample
      dsimp only
      split
      · exact ⟨.inr ⟨rfl, rfl⟩, rfl⟩
      · exact ⟨.inl rfl, rfl⟩
    · exact ⟨.inl rfl, rfl⟩
  · split
    · unfold Hv.dwellSample
      dsimp only
      split
      · exact ⟨.inr ⟨rfl, rfl⟩, rfl⟩
      · split
        · exact ⟨.inr ⟨rfl, rfl⟩, rfl⟩
        · exact ⟨.inl rfl, rfl⟩
    · exact ⟨.inl rfl, rfl⟩
  · unfold Hv.dischargeSample
    split
    · split <;> exact ⟨.inl rfl, rfl⟩
    · exact ⟨.inl rfl, rfl⟩
  · simp

theorem Keeps.sample (K : Keeps P) {s : State} (h : P s) (u i : Nat) : P { s with hv := s.hv.sample u i } := by
  obtain ⟨hr, hc⟩ := s.hv.sample_rail u i
  refine K.hvDown h _ (fun hn => ?_) (fun hd => ?_)
  · rcases hr with hr | ⟨hd, _⟩
    · exact hr ▸ hn
    · intro he; rw [he] at hd; exact absurd hd (by decide)
  · rcases hr with hr | ⟨_, hr⟩
    · exact ⟨hr ▸ hd, hc⟩
    · rw [hr] at hd; exact absurd hd (by decide)

theorem Hv.dwellExpire_rail (h : Hv) (v : StepValues) : (h.dwellExpire v).rail = .discharge := rfl

/-! ### Every command -/

/-- A frame is accepted as the reply of the exchange in progress. -/
theorem State.accepted_sent (s : State) {f : CardFrame} {x : Sent} (h : s.accepted f = some x) :
    ∃ e, s.link.exchange = some e ∧ e.sent = x := by
  unfold State.accepted at h
  split at h
  · cases h
  · next e he =>
    split at h
    · exact ⟨e, he, Option.some.inj h⟩
    · cases h

/-- A command leaves what its meaning says, and there is always a next state. -/
theorem Keeps.exec (K : Keeps P) {s : State} (h : P s) (c : Instr) : ∃ t, exec c s = .next t ∧ P t := by
  have fr := fun k t p => K.frame h k t p
  cases c with
  | hardwareReset => exact ⟨_, rfl, K.ofHardReset s h⟩
  | storageUpset n f => exact ⟨_, rfl, K.upset h _ _⟩
  | hostFrameReceived b => exact ⟨_, rfl, K.feedAll b h⟩
  | lenTooLarge l => exact ⟨_, rfl, K.feedAll _ h⟩
  | frameByteTimeout b => exact ⟨_, rfl, K.byteTimeout (K.feedAll b h)⟩
  | unknownKind k t p =>
    refine ⟨_, rfl, ?_⟩
    split
    · exact fr _ _ _
    · exact h
  | replySent => exact ⟨_, rfl, K.replySent h⟩
  | noticeSent => exact ⟨_, rfl, K.noticeSent h⟩
  | ident t p => exact ⟨_, rfl, fr _ _ _⟩
  | setLink t p => exact ⟨_, rfl, fr _ _ _⟩
  | restart t p => exact ⟨_, rfl, fr _ _ _⟩
  | readStatus t p => exact ⟨_, rfl, fr _ _ _⟩
  | setEvents t p => exact ⟨_, rfl, fr _ _ _⟩
  | clearEvents t p => exact ⟨_, rfl, fr _ _ _⟩
  | mapPoints t p => exact ⟨_, rfl, fr _ _ _⟩
  | readMap t p => exact ⟨_, rfl, fr _ _ _⟩
  | setLeads t p => exact ⟨_, rfl, fr _ _ _⟩
  | readLeads t p => exact ⟨_, rfl, fr _ _ _⟩
  | loadNet t p => exact ⟨_, rfl, fr _ _ _⟩
  | clearNets t p => exact ⟨_, rfl, fr _ _ _⟩
  | readNet t p => exact ⟨_, rfl, fr _ _ _⟩
  | setCardLink t p => exact ⟨_, rfl, fr _ _ _⟩
  | setRoster t p => exact ⟨_, rfl, fr _ _ _⟩
  | enumerate t p => exact ⟨_, rfl, fr _ _ _⟩
  | readRoster t p => exact ⟨_, rfl, fr _ _ _⟩
  | manualSwitch t p => exact ⟨_, rfl, fr _ _ _⟩
  | readRelays t p => exact ⟨_, rfl, fr _ _ _⟩
  | unblock t p => exact ⟨_, rfl, fr _ _ _⟩
  | setLimits t p => exact ⟨_, rfl, fr _ _ _⟩
  | measure t p => exact ⟨_, rfl, fr _ _ _⟩
  | setHv t p => exact ⟨_, rfl, fr _ _ _⟩
  | clearHvFault t p => exact ⟨_, rfl, fr _ _ _⟩
  | submitJob t p => exact ⟨_, rfl, fr _ _ _⟩
  | abortJob t p => exact ⟨_, rfl, fr _ _ _⟩
  | holdQueue t p => exact ⟨_, rfl, fr _ _ _⟩
  | releaseQueue t p => exact ⟨_, rfl, fr _ _ _⟩
  | readQueue t p => exact ⟨_, rfl, fr _ _ _⟩
  | resume t p => exact ⟨_, rfl, fr _ _ _⟩
  | setReporting t p => exact ⟨_, rfl, fr _ _ _⟩
  | fetchRecords t p => exact ⟨_, rfl, fr _ _ _⟩
  | printerConfig t p => exact ⟨_, rfl, fr _ _ _⟩
  | printHold t p => exact ⟨_, rfl, fr _ _ _⟩
  | printRelease t p => exact ⟨_, rfl, fr _ _ _⟩
  | printFlush t p => exact ⟨_, rfl, fr _ _ _⟩
  | startupEnumeration =>
    refine ⟨_, rfl, ?_⟩
    split
    · exact K.startEnum h _
    · exact h
  | linkBreakEnd =>
    refine ⟨_, rfl, ?_⟩
    split
    · exact K.breakEnd h
    · exact h
  | identReceived f =>
    show ∃ t, execIdentReceived f s = .next t ∧ P t
    unfold execIdentReceived
    split
    · exact ⟨_, rfl, K.dispatch (K.identTaken h _ _)⟩
    · exact ⟨_, rfl, h⟩
  | cardFrameDiscarded f => exact ⟨_, rfl, h⟩
  | setAck f =>
    show ∃ t, execSetAck f s = .next t ∧ P t
    unfold execSetAck
    split
    · next hf =>
      obtain ⟨e, he, hs⟩ := s.accepted_sent hf
      exact ⟨_, rfl, K.dispatch (K.setAcked h he hs)⟩
    · exact ⟨_, rfl, h⟩
  | allOpenSent =>
    refine ⟨_, rfl, ?_⟩
    split
    · exact K.dispatch (K.allOpenDone h)
    · exact h
  | cardReplyTimeout =>
    show ∃ t, execCardReplyTimeout s = .next t ∧ P t
    unfold execCardReplyTimeout
    split
    · next he _ => exact ⟨_, rfl, K.dispatch (K.replyTimeout h he)⟩
    · exact ⟨_, rfl, h⟩
  | attnQueryPoll =>
    refine ⟨_, rfl, ?_⟩
    split
    · exact K.sendCard (K.ofPins s _ h) (by nofun)
    · exact h
  | attnReplyReceived f =>
    show ∃ t, execAttnReplyReceived f s = .next t ∧ P t
    unfold execAttnReplyReceived
    split
    · exact ⟨_, rfl, K.dispatch (K.attnReply h _ _)⟩
    · exact ⟨_, rfl, h⟩
  | attnClearAck f =>
    show ∃ t, execAttnClearAck f s = .next t ∧ P t
    unfold execAttnClearAck
    split
    · exact ⟨_, rfl, K.dispatch (K.attentionOver h)⟩
    · exact ⟨_, rfl, h⟩
  | statusReplyReceived f =>
    show ∃ t, execStatusReplyReceived f s = .next t ∧ P t
    unfold execStatusReplyReceived
    split
    · exact ⟨_, rfl, K.dispatch (K.statusReply h _ _)⟩
    · exact ⟨_, rfl, h⟩
  | cattnInactive =>
    exact ⟨_, rfl, K.linkSame (K.ofPins s { s.pins with cattn := false } h)
      (l := { s.link with pollBlocked := false }) rfl⟩
  | heldPlanSending => exact ⟨_, rfl, K.dispatch (K.heldGoes h)⟩
  | settleExpiry => exact ⟨_, rfl, K.dispatch (K.settleDone h)⟩
  | lmuSourceOn =>
    show ∃ t, execLmuSourceOn s = .next t ∧ P t
    unfold execLmuSourceOn
    split
    · refine ⟨_, rfl, ?_⟩
      split
      · next ha => exact K.ofLmu s _ (fun _ => .inr ha) h
      · exact h
    · exact ⟨_, rfl, h⟩
  | stabiliseEnd =>
    refine ⟨_, rfl, ?_⟩
    split
    · next hp => exact K.ofLmu s s.lmu.sampling (fun _ => .inl (by simp [hp])) h
    · exact h
  | contConversion c =>
    refine ⟨_, rfl, ?_⟩
    split
    · next hp =>
      simp only [Lmu.samples, Bool.and_eq_true, decide_eq_true_eq] at hp
      exact K.dispatch (K.lmuAfter h _ (fun _ => by simp [hp.1]))
    · exact h
  | isoConversion v i =>
    refine ⟨_, rfl, ?_⟩
    split
    · next hp =>
      simp only [Lmu.samples, Bool.and_eq_true, decide_eq_true_eq] at hp
      exact K.dispatch (K.lmuAfter h _ (fun _ => by simp [hp.1]))
    · exact h
  | headJobStart =>
    show ∃ t, execHeadJobStart s = .next t ∧ P t
    unfold execHeadJobStart
    split
    · refine ⟨_, rfl, ?_⟩
      split
      · exact K.startHead h ‹_›
      · exact h
    · exact ⟨_, rfl, h⟩
  | stepRequestExamined =>
    show ∃ t, execStepRequestExamined s = .next t ∧ P t
    unfold execStepRequestExamined
    split
    · refine ⟨_, rfl, ?_⟩
      split
      · next hm => exact K.examineStep h _ hm
      · exact h
    · exact ⟨_, rfl, h⟩
  | rampTick =>
    show ∃ t, execRampTick s = .next t ∧ P t
    unfold execRampTick
    split
    · refine ⟨_, rfl, ?_⟩
      split
      · next v _ _ _ hr =>
        exact K.hvDown h (s.hv.tick v) (fun _ => by simp [hr])
          (fun _ => ⟨by rw [hr]; rfl, (s.hv.tick_rail v hr).2⟩)
      · exact h
    · exact ⟨_, rfl, h⟩
  | hvSample v i => exact ⟨_, rfl, K.sample h v i⟩
  | dwellExpiry =>
    show ∃ t, execDwellExpiry s = .next t ∧ P t
    unfold execDwellExpiry
    split
    · refine ⟨_, rfl, ?_⟩
      split
      · next v _ _ _ hr => exact K.hvOff h (s.hv.dwellExpire v) (fun _ => by simp [hr.1]) rfl
      · exact h
    · exact ⟨_, rfl, h⟩
  | safeHoldExpiry =>
    refine ⟨_, rfl, ?_⟩
    split
    · exact K.holdDone h
    · exact h
  | dischargeLimit =>
    refine ⟨_, rfl, ?_⟩
    split
    · next hr => exact K.limitDone h (by simp [hr.1])
    · exact h
  | coverInputChange b => exact ⟨_, rfl, K.coverEdge h b⟩
  | coverDebounced =>
    refine ⟨_, rfl, ?_⟩
    split
    · exact K.coverSettled h
    · exact h
  | notifyTimerExpiry =>
    refine ⟨_, rfl, ?_⟩
    split
    · exact K.defectReady h
    · exact h
  | printerCharSent a b =>
    refine ⟨_, rfl, ?_⟩
    split
    · exact K.printerSent (K.ofPins s _ h)
    · exact h
  | preadyAsserted =>
    refine ⟨_, rfl, ?_⟩
    split
    · exact K.readySent (K.ofPins s _ h)
    · exact K.ofPins s _ h
  | printerTimeout =>
    refine ⟨_, rfl, ?_⟩
    split
    · exact K.printerStall h
    · exact h
  | paperPresent =>
    refine ⟨_, rfl, ?_⟩
    split
    · exact K.beginLine (K.ofPins s _ h)
    · exact K.ofPins s _ h

/-- What the primitive changes keep, a step keeps. -/
theorem Keeps.step (K : Keeps P) {s : State} (h : P s) : ∃ t, step s = .next t ∧ P t := by
  unfold Machine.step
  split
  · exact ⟨_, rfl, h⟩
  · exact K.exec (K.ofPending s _ h) _

end Sys2Proof.Machine
end

