-- ==== Sys2Proof/WellFormed.lean ====
section
/-! DEFINITION. Which commands are well formed: operands within the ranges their rules state. -/

namespace Sys2Proof

/-- A payload a frame can carry (Table 12-1: 0 to 1024 bytes). -/
def payloadWf (p : List Byte) : Bool := decide (p.length ≤ 1024)

/-- A card-link frame: at most 256 payload bytes (Table 2-2). -/
def CardFrame.wf (f : CardFrame) : Bool := decide (f.payload.length ≤ 256)

/-- Well-formedness of a command. -/
def Instr.wf : Instr → Bool
  | .hardwareReset => true
  | .storageUpset net _ => decide (1 ≤ net) && decide (net ≤ 1024)
  | .hostFrameReceived _ => true
  | .lenTooLarge len => decide (1024 < len.toNat)
  | .frameByteTimeout _ => true
  | .unknownKind kind _ p => (requestOf kind).isNone && payloadWf p
  | .replySent => true
  | .noticeSent => true
  | .ident _ p => payloadWf p
  | .setLink _ p => payloadWf p
  | .restart _ p => payloadWf p
  | .readStatus _ p => payloadWf p
  | .setEvents _ p => payloadWf p
  | .clearEvents _ p => payloadWf p
  | .mapPoints _ p => payloadWf p
  | .readMap _ p => payloadWf p
  | .setLeads _ p => payloadWf p
  | .readLeads _ p => payloadWf p
  | .loadNet _ p => payloadWf p
  | .clearNets _ p => payloadWf p
  | .readNet _ p => payloadWf p
  | .setCardLink _ p => payloadWf p
  | .setRoster _ p => payloadWf p
  | .enumerate _ p => payloadWf p
  | .readRoster _ p => payloadWf p
  | .manualSwitch _ p => payloadWf p
  | .readRelays _ p => payloadWf p
  | .unblock _ p => payloadWf p
  | .setLimits _ p => payloadWf p
  | .measure _ p => payloadWf p
  | .setHv _ p => payloadWf p
  | .clearHvFault _ p => payloadWf p
  | .submitJob _ p => payloadWf p
  | .abortJob _ p => payloadWf p
  | .holdQueue _ p => payloadWf p
  | .releaseQueue _ p => payloadWf p
  | .readQueue _ p => payloadWf p
  | .resume _ p => payloadWf p
  | .setReporting _ p => payloadWf p
  | .fetchRecords _ p => payloadWf p
  | .printerConfig _ p => payloadWf p
  | .printHold _ p => payloadWf p
  | .printRelease _ p => payloadWf p
  | .printFlush _ p => payloadWf p
  | .startupEnumeration => true
  | .linkBreakEnd => true
  | .identReceived f => f.wf
  | .cardFrameDiscarded f => f.wf
  | .setAck f => f.wf
  | .allOpenSent => true
  | .cardReplyTimeout => true
  | .attnQueryPoll => true
  | .attnReplyReceived f => f.wf
  | .attnClearAck f => f.wf
  | .statusReplyReceived f => f.wf
  | .cattnInactive => true
  | .heldPlanSending => true
  | .settleExpiry => true
  | .lmuSourceOn => true
  | .stabiliseEnd => true
  | .contConversion _ => true
  | .isoConversion v i => decide (v ≤ 10000) && decide (i ≤ 10000000)
  | .headJobStart => true
  | .stepRequestExamined => true
  | .rampTick => true
  | .hvSample v i => decide (v ≤ 16000) && decide (i ≤ 5000000)
  | .dwellExpiry => true
  | .safeHoldExpiry => true
  | .dischargeLimit => true
  | .coverInputChange _ => true
  | .coverDebounced => true
  | .notifyTimerExpiry => true
  | .printerCharSent _ _ => true
  | .preadyAsserted => true
  | .printerTimeout => true
  | .paperPresent => true

end Sys2Proof
end

