-- ==== Sys2Proof/Laws/PerInstr.lean ====
section
/-! SUPPORT. Statements made per command: a host request's row is the row of its KIND (Table 12-2), no other row is a
request's, and its operands are well formed exactly when a frame can carry them. -/

namespace Sys2Proof.Laws

open Sys2Proof Sys2Proof.Machine

/-- The request whose row a command is, with its operands. -/
def requestRow : Instr → Option (Request × Byte × List Byte)
  | .hardwareReset => none
  | .storageUpset _ _ => none
  | .hostFrameReceived _ => none
  | .lenTooLarge _ => none
  | .frameByteTimeout _ => none
  | .unknownKind _ _ _ => none
  | .replySent => none
  | .noticeSent => none
  | .ident t p => some (.ident, t, p)
  | .setLink t p => some (.setLink, t, p)
  | .restart t p => some (.restart, t, p)
  | .readStatus t p => some (.readStatus, t, p)
  | .setEvents t p => some (.setEvents, t, p)
  | .clearEvents t p => some (.clearEvents, t, p)
  | .mapPoints t p => some (.mapPoints, t, p)
  | .readMap t p => some (.readMap, t, p)
  | .setLeads t p => some (.setLeads, t, p)
  | .readLeads t p => some (.readLeads, t, p)
  | .loadNet t p => some (.loadNet, t, p)
  | .clearNets t p => some (.clearNets, t, p)
  | .readNet t p => some (.readNet, t, p)
  | .setCardLink t p => some (.setCardLink, t, p)
  | .setRoster t p => some (.setRoster, t, p)
  | .enumerate t p => some (.enumerate, t, p)
  | .readRoster t p => some (.readRoster, t, p)
  | .manualSwitch t p => some (.manualSwitch, t, p)
  | .readRelays t p => some (.readRelays, t, p)
  | .unblock t p => some (.unblock, t, p)
  | .setLimits t p => some (.setLimits, t, p)
  | .measure t p => some (.measure, t, p)
  | .setHv t p => some (.setHv, t, p)
  | .clearHvFault t p => some (.clearHvFault, t, p)
  | .submitJob t p => some (.submitJob, t, p)
  | .abortJob t p => some (.abortJob, t, p)
  | .holdQueue t p => some (.holdQueue, t, p)
  | .releaseQueue t p => some (.releaseQueue, t, p)
  | .readQueue t p => some (.readQueue, t, p)
  | .resume t p => some (.resume, t, p)
  | .setReporting t p => some (.setReporting, t, p)
  | .fetchRecords t p => some (.fetchRecords, t, p)
  | .printerConfig t p => some (.printerConfig, t, p)
  | .printHold t p => some (.printHold, t, p)
  | .printRelease t p => some (.printRelease, t, p)
  | .printFlush t p => some (.printFlush, t, p)
  | .startupEnumeration => none
  | .linkBreakEnd => none
  | .identReceived _ => none
  | .cardFrameDiscarded _ => none
  | .setAck _ => none
  | .allOpenSent => none
  | .cardReplyTimeout => none
  | .attnQueryPoll => none
  | .attnReplyReceived _ => none
  | .attnClearAck _ => none
  | .statusReplyReceived _ => none
  | .cattnInactive => none
  | .heldPlanSending => none
  | .settleExpiry => none
  | .lmuSourceOn => none
  | .stabiliseEnd => none
  | .contConversion _ => none
  | .isoConversion _ _ => none
  | .headJobStart => none
  | .stepRequestExamined => none
  | .rampTick => none
  | .hvSample _ _ => none
  | .dwellExpiry => none
  | .safeHoldExpiry => none
  | .dischargeLimit => none
  | .coverInputChange _ => none
  | .coverDebounced => none
  | .notifyTimerExpiry => none
  | .printerCharSent _ _ => none
  | .preadyAsserted => none
  | .printerTimeout => none
  | .paperPresent => none

/-- A request's row is the one its KIND names and is well formed exactly when its payload fits a frame (R182, Table
12-1); every other row is no request's. -/
def RequestRows.Statement (i : Instr) : Prop :=
  match requestRow i with
  | some (r, t, p) => i = requestInstr r t p ∧ requestOf r.code = some r ∧ (i.wf = true ↔ p.length ≤ 1024)
  | none => ∀ r t p, i ≠ requestInstr r t p

theorem RequestRows.ofRequest (r : Request) (t : Byte) (p : List Byte)
    (h : requestRow (requestInstr r t p) = some (r, t, p))
    (hw : (requestInstr r t p).wf = payloadWf p) : RequestRows.Statement (requestInstr r t p) := by
  unfold RequestRows.Statement
  rw [h]
  refine ⟨rfl, by cases r <;> decide, ?_⟩
  rw [hw]
  simp [payloadWf]

theorem RequestRows.ofOther (i : Instr) (h : requestRow i = none) : RequestRows.Statement i := by
  unfold RequestRows.Statement
  rw [h]
  intro r t p hi
  rw [hi] at h
  cases r <;> cases h

theorem RequestRows.hardwareReset : RequestRows.Statement .hardwareReset := RequestRows.ofOther _ rfl
theorem RequestRows.storageUpset (net : Nat) (flip : Word16) : RequestRows.Statement (.storageUpset net flip) :=
  RequestRows.ofOther _ rfl
theorem RequestRows.hostFrameReceived (bytes : List Byte) : RequestRows.Statement (.hostFrameReceived bytes) :=
  RequestRows.ofOther _ rfl
theorem RequestRows.lenTooLarge (len : Word16) : RequestRows.Statement (.lenTooLarge len) := RequestRows.ofOther _ rfl
theorem RequestRows.frameByteTimeout (bytes : List Byte) : RequestRows.Statement (.frameByteTimeout bytes) :=
  RequestRows.ofOther _ rfl
theorem RequestRows.unknownKind (kind : Byte) (tag : Byte) (payload : List Byte) :
    RequestRows.Statement (.unknownKind kind tag payload) :=
  RequestRows.ofOther _ rfl
theorem RequestRows.replySent : RequestRows.Statement .replySent := RequestRows.ofOther _ rfl
theorem RequestRows.noticeSent : RequestRows.Statement .noticeSent := RequestRows.ofOther _ rfl
theorem RequestRows.ident (tag : Byte) (payload : List Byte) : RequestRows.Statement (.ident tag payload) :=
  RequestRows.ofRequest .ident tag payload rfl rfl
theorem RequestRows.setLink (tag : Byte) (payload : List Byte) : RequestRows.Statement (.setLink tag payload) :=
  RequestRows.ofRequest .setLink tag payload rfl rfl
theorem RequestRows.restart (tag : Byte) (payload : List Byte) : RequestRows.Statement (.restart tag payload) :=
  RequestRows.ofRequest .restart tag payload rfl rfl
theorem RequestRows.readStatus (tag : Byte) (payload : List Byte) : RequestRows.Statement (.readStatus tag payload) :=
  RequestRows.ofRequest .readStatus tag payload rfl rfl
theorem RequestRows.setEvents (tag : Byte) (payload : List Byte) : RequestRows.Statement (.setEvents tag payload) :=
  RequestRows.ofRequest .setEvents tag payload rfl rfl
theorem RequestRows.clearEvents (tag : Byte) (payload : List Byte) :
    RequestRows.Statement (.clearEvents tag payload) :=
  RequestRows.ofRequest .clearEvents tag payload rfl rfl
theorem RequestRows.mapPoints (tag : Byte) (payload : List Byte) : RequestRows.Statement (.mapPoints tag payload) :=
  RequestRows.ofRequest .mapPoints tag payload rfl rfl
theorem RequestRows.readMap (tag : Byte) (payload : List Byte) : RequestRows.Statement (.readMap tag payload) :=
  RequestRows.ofRequest .readMap tag payload rfl rfl
theorem RequestRows.setLeads (tag : Byte) (payload : List Byte) : RequestRows.Statement (.setLeads tag payload) :=
  RequestRows.ofRequest .setLeads tag payload rfl rfl
theorem RequestRows.readLeads (tag : Byte) (payload : List Byte) : RequestRows.Statement (.readLeads tag payload) :=
  RequestRows.ofRequest .readLeads tag payload rfl rfl
theorem RequestRows.loadNet (tag : Byte) (payload : List Byte) : RequestRows.Statement (.loadNet tag payload) :=
  RequestRows.ofRequest .loadNet tag payload rfl rfl
theorem RequestRows.clearNets (tag : Byte) (payload : List Byte) : RequestRows.Statement (.clearNets tag payload) :=
  RequestRows.ofRequest .clearNets tag payload rfl rfl
theorem RequestRows.readNet (tag : Byte) (payload : List Byte) : RequestRows.Statement (.readNet tag payload) :=
  RequestRows.ofRequest .readNet tag payload rfl rfl
theorem RequestRows.setCardLink (tag : Byte) (payload : List Byte) :
    RequestRows.Statement (.setCardLink tag payload) :=
  RequestRows.ofRequest .setCardLink tag payload rfl rfl
theorem RequestRows.setRoster (tag : Byte) (payload : List Byte) : RequestRows.Statement (.setRoster tag payload) :=
  RequestRows.ofRequest .setRoster tag payload rfl rfl
theorem RequestRows.enumerate (tag : Byte) (payload : List Byte) : RequestRows.Statement (.enumerate tag payload) :=
  RequestRows.ofRequest .enumerate tag payload rfl rfl
theorem RequestRows.readRoster (tag : Byte) (payload : List Byte) : RequestRows.Statement (.readRoster tag payload) :=
  RequestRows.ofRequest .readRoster tag payload rfl rfl
theorem RequestRows.manualSwitch (tag : Byte) (payload : List Byte) :
    RequestRows.Statement (.manualSwitch tag payload) :=
  RequestRows.ofRequest .manualSwitch tag payload rfl rfl
theorem RequestRows.readRelays (tag : Byte) (payload : List Byte) : RequestRows.Statement (.readRelays tag payload) :=
  RequestRows.ofRequest .readRelays tag payload rfl rfl
theorem RequestRows.unblock (tag : Byte) (payload : List Byte) : RequestRows.Statement (.unblock tag payload) :=
  RequestRows.ofRequest .unblock tag payload rfl rfl
theorem RequestRows.setLimits (tag : Byte) (payload : List Byte) : RequestRows.Statement (.setLimits tag payload) :=
  RequestRows.ofRequest .setLimits tag payload rfl rfl
theorem RequestRows.measure (tag : Byte) (payload : List Byte) : RequestRows.Statement (.measure tag payload) :=
  RequestRows.ofRequest .measure tag payload rfl rfl
theorem RequestRows.setHv (tag : Byte) (payload : List Byte) : RequestRows.Statement (.setHv tag payload) :=
  RequestRows.ofRequest .setHv tag payload rfl rfl
theorem RequestRows.clearHvFault (tag : Byte) (payload : List Byte) :
    RequestRows.Statement (.clearHvFault tag payload) :=
  RequestRows.ofRequest .clearHvFault tag payload rfl rfl
theorem RequestRows.submitJob (tag : Byte) (payload : List Byte) : RequestRows.Statement (.submitJob tag payload) :=
  RequestRows.ofRequest .submitJob tag payload rfl rfl
theorem RequestRows.abortJob (tag : Byte) (payload : List Byte) : RequestRows.Statement (.abortJob tag payload) :=
  RequestRows.ofRequest .abortJob tag payload rfl rfl
theorem RequestRows.holdQueue (tag : Byte) (payload : List Byte) : RequestRows.Statement (.holdQueue tag payload) :=
  RequestRows.ofRequest .holdQueue tag payload rfl rfl
theorem RequestRows.releaseQueue (tag : Byte) (payload : List Byte) :
    RequestRows.Statement (.releaseQueue tag payload) :=
  RequestRows.ofRequest .releaseQueue tag payload rfl rfl
theorem RequestRows.readQueue (tag : Byte) (payload : List Byte) : RequestRows.Statement (.readQueue tag payload) :=
  RequestRows.ofRequest .readQueue tag payload rfl rfl
theorem RequestRows.resume (tag : Byte) (payload : List Byte) : RequestRows.Statement (.resume tag payload) :=
  RequestRows.ofRequest .resume tag payload rfl rfl
theorem RequestRows.setReporting (tag : Byte) (payload : List Byte) :
    RequestRows.Statement (.setReporting tag payload) :=
  RequestRows.ofRequest .setReporting tag payload rfl rfl
theorem RequestRows.fetchRecords (tag : Byte) (payload : List Byte) :
    RequestRows.Statement (.fetchRecords tag payload) :=
  RequestRows.ofRequest .fetchRecords tag payload rfl rfl
theorem RequestRows.printerConfig (tag : Byte) (payload : List Byte) :
    RequestRows.Statement (.printerConfig tag payload) :=
  RequestRows.ofRequest .printerConfig tag payload rfl rfl
theorem RequestRows.printHold (tag : Byte) (payload : List Byte) : RequestRows.Statement (.printHold tag payload) :=
  RequestRows.ofRequest .printHold tag payload rfl rfl
theorem RequestRows.printRelease (tag : Byte) (payload : List Byte) :
    RequestRows.Statement (.printRelease tag payload) :=
  RequestRows.ofRequest .printRelease tag payload rfl rfl
theorem RequestRows.printFlush (tag : Byte) (payload : List Byte) : RequestRows.Statement (.printFlush tag payload) :=
  RequestRows.ofRequest .printFlush tag payload rfl rfl
theorem RequestRows.startupEnumeration : RequestRows.Statement .startupEnumeration := RequestRows.ofOther _ rfl
theorem RequestRows.linkBreakEnd : RequestRows.Statement .linkBreakEnd := RequestRows.ofOther _ rfl
theorem RequestRows.identReceived (f : CardFrame) : RequestRows.Statement (.identReceived f) :=
  RequestRows.ofOther _ rfl
theorem RequestRows.cardFrameDiscarded (f : CardFrame) : RequestRows.Statement (.cardFrameDiscarded f) :=
  RequestRows.ofOther _ rfl
theorem RequestRows.setAck (f : CardFrame) : RequestRows.Statement (.setAck f) := RequestRows.ofOther _ rfl
theorem RequestRows.allOpenSent : RequestRows.Statement .allOpenSent := RequestRows.ofOther _ rfl
theorem RequestRows.cardReplyTimeout : RequestRows.Statement .cardReplyTimeout := RequestRows.ofOther _ rfl
theorem RequestRows.attnQueryPoll : RequestRows.Statement .attnQueryPoll := RequestRows.ofOther _ rfl
theorem RequestRows.attnReplyReceived (f : CardFrame) : RequestRows.Statement (.attnReplyReceived f) :=
  RequestRows.ofOther _ rfl
theorem RequestRows.attnClearAck (f : CardFrame) : RequestRows.Statement (.attnClearAck f) :=
  RequestRows.ofOther _ rfl
theorem RequestRows.statusReplyReceived (f : CardFrame) : RequestRows.Statement (.statusReplyReceived f) :=
  RequestRows.ofOther _ rfl
theorem RequestRows.cattnInactive : RequestRows.Statement .cattnInactive := RequestRows.ofOther _ rfl
theorem RequestRows.heldPlanSending : RequestRows.Statement .heldPlanSending := RequestRows.ofOther _ rfl
theorem RequestRows.settleExpiry : RequestRows.Statement .settleExpiry := RequestRows.ofOther _ rfl
theorem RequestRows.lmuSourceOn : RequestRows.Statement .lmuSourceOn := RequestRows.ofOther _ rfl
theorem RequestRows.stabiliseEnd : RequestRows.Statement .stabiliseEnd := RequestRows.ofOther _ rfl
theorem RequestRows.contConversion (code : Word16) : RequestRows.Statement (.contConversion code) :=
  RequestRows.ofOther _ rfl
theorem RequestRows.isoConversion (v : Nat) (i : Nat) : RequestRows.Statement (.isoConversion v i) :=
  RequestRows.ofOther _ rfl
theorem RequestRows.headJobStart : RequestRows.Statement .headJobStart := RequestRows.ofOther _ rfl
theorem RequestRows.stepRequestExamined : RequestRows.Statement .stepRequestExamined := RequestRows.ofOther _ rfl
theorem RequestRows.rampTick : RequestRows.Statement .rampTick := RequestRows.ofOther _ rfl
theorem RequestRows.hvSample (v : Nat) (i : Nat) : RequestRows.Statement (.hvSample v i) := RequestRows.ofOther _ rfl
theorem RequestRows.dwellExpiry : RequestRows.Statement .dwellExpiry := RequestRows.ofOther _ rfl
theorem RequestRows.safeHoldExpiry : RequestRows.Statement .safeHoldExpiry := RequestRows.ofOther _ rfl
theorem RequestRows.dischargeLimit : RequestRows.Statement .dischargeLimit := RequestRows.ofOther _ rfl
theorem RequestRows.coverInputChange (closed : Bool) : RequestRows.Statement (.coverInputChange closed) :=
  RequestRows.ofOther _ rfl
theorem RequestRows.coverDebounced : RequestRows.Statement .coverDebounced := RequestRows.ofOther _ rfl
theorem RequestRows.notifyTimerExpiry : RequestRows.Statement .notifyTimerExpiry := RequestRows.ofOther _ rfl
theorem RequestRows.printerCharSent (pready : Bool) (ppaper : Bool) :
    RequestRows.Statement (.printerCharSent pready ppaper) :=
  RequestRows.ofOther _ rfl
theorem RequestRows.preadyAsserted : RequestRows.Statement .preadyAsserted := RequestRows.ofOther _ rfl
theorem RequestRows.printerTimeout : RequestRows.Statement .printerTimeout := RequestRows.ofOther _ rfl
theorem RequestRows.paperPresent : RequestRows.Statement .paperPresent := RequestRows.ofOther _ rfl

end Sys2Proof.Laws
end

