-- ==== Sys2Proof/Machine/PointCard.lean ====
section
/-! DEFINITION. What the part expects of a point card (R22, R24, R29, R35; log 24): a card as a machine of its
own, which no part of State holds. -/

namespace Sys2Proof.Machine

open Sys2Proof

/-- A point card. `addr` is none while it is unaddressed; `request` is its attention request. -/
structure PointCard where
  kindCode : Byte
  serial : List Byte
  revision : Byte
  addr : Option Nat
  lastBit : Bool
  lastReply : Option CardFrame
  relays : List (Nat × Nat)
  request : Option (Byte × Byte)
  chainOut : Bool
  deriving DecidableEq, Repr

/-- A frame from a card, with its CRC (Table 2-2). -/
def cardReply (addr : Nat) (seq : Bool) (kind : Byte) (payload : List Byte) : CardFrame :=
  { addr := BitVec.ofNat 6 addr, seq := seq, toController := true, kind := kind, payload := payload
    crc := crc16 (cardBody true seq (addr % 64) kind payload) }

/-- The link break (R29). -/
def PointCard.linkBreak (c : PointCard) : PointCard :=
  { c with addr := none, lastBit := false, lastReply := none, relays := [], request := none, chainOut := false }

/-- ASSIGN reaches the nearest unaddressed card (R22). -/
def PointCard.assign (c : PointCard) (a : Nat) : PointCard × CardFrame :=
  let r := cardReply a false 0x81#8 (c.kindCode :: c.serial ++ [c.revision])
  ({ c with addr := some a, lastBit := false, lastReply := some r, chainOut := true }, r)

/-- The relays after a SET's items, each channel on one rail; OPEN is unlisted (R22). -/
def applyItems (rel : List (Nat × Nat)) (items : List (Nat × Rail)) : List (Nat × Nat) :=
  items.foldl (fun r it => if it.2 = .opn then tdel r it.1 else tset r it.1 it.2.code) rel

/-- The execution of an addressed frame and its reply (R22, R24, R35). -/
def PointCard.execute (c : PointCard) (a : Nat) (seq : Bool) (f : Sent) : PointCard × Option CardFrame :=
  match f with
  | .set _ items => ({ c with relays := applyItems c.relays items }, some (cardReply a seq 0x82#8 []))
  | .attnClear _ => ({ c with request := none }, some (cardReply a seq 0x82#8 []))
  | .status _ =>
    (c, some (cardReply a seq 0x86#8 (match c.request with | some (x, ch) => [x, ch] | none => [0#8, 0#8])))
  | .assign _ => (c, none)
  | .allOpen => (c, none)
  | .attnQuery => (c, none)

/-- An addressed frame with the card's own address (R24): equal bits repeat the last reply, different bits
execute the frame. -/
def PointCard.addressed (c : PointCard) (a : Nat) (seq : Bool) (f : Sent) : PointCard × Option CardFrame :=
  if seq = c.lastBit then (c, c.lastReply)
  else
    let (c1, r) := c.execute a seq f
    ({ c1 with lastBit := seq, lastReply := r }, r)

/-- A broadcast to address 63 (R22, R24, R35): ALL_OPEN opens every relay without a reply; the holder of the
chain answers ATTN_QUERY. -/
def PointCard.broadcast (c : PointCard) (holds : Bool) (f : Sent) : PointCard × Option CardFrame :=
  match c.addr, f with
  | some _, .allOpen => ({ c with relays := [] }, none)
  | some a, .attnQuery =>
    (c, if holds then c.request.map (fun x => cardReply a false 0x84#8 [x.1, x.2]) else none)
  | _, _ => (c, none)

end Sys2Proof.Machine
end

