-- ==== Sys2Proof/Tests/Slice0.lean ====
section
/-! SUPPORT. Tests: ill-formed commands are refused by the checks; the worked cases of the spec; and for every statement
with hypotheses a witness that meets them. -/

namespace Sys2Proof.Tests

open Sys2Proof Sys2Proof.Machine

set_option Elab.async false

/-! ### Helpers -/

/-- The state a command leaves. -/
def after (c : Instr) (s : State) : State :=
  match exec c s with
  | .next t => t
  | .fault _ => s
  | .refused _ => s

/-- The payload of the reply in the older slot, status first. -/
def replyOf (s : State) : List Byte :=
  match s.host.slots with
  | ⟨_, _, _, .ready r⟩ :: _ => r
  | ⟨_, _, _, .sending r⟩ :: _ => r
  | _ => []

/-- A station at rest: the rail SAFE, an LV-128 at position 1 and an HV-64 at position 2 PRESENT. -/
def rest0 : State :=
  { State.reset with
    link := { Link.reset with startup := false }
    hv := { Hv.reset with rail := .safe, limitTimer := none, debounce := none }
    matrix := { Matrix.reset with
      roster := ⟨.present, .lv128, 7, 2, .none⟩ :: ⟨.present, .hv64, 9, 3, .none⟩ ::
        List.replicate 30 RosterEntry.empty } }

/-- Points 10, 11 and 12 mapped to the first channels of position 1; point 4095 to the last of position 2. -/
def wired : State :=
  { rest0 with store := { Store.reset with map := [(10, ⟨1, 0⟩), (11, ⟨1, 1⟩), (12, ⟨1, 2⟩), (4095, ⟨2, 63⟩)] } }

/-- A job of a kind, in a state, with tag 7. -/
def jobOf (j : JobSpec) (st : JobState) : Job :=
  ⟨7, j, st, some ⟨Limits.reset, HvSet.reset⟩, false, none, 0, 0, 0, 0, 0⟩

def withJobs (l : List Job) (s : State) : State := { s with queue := { s.queue with jobs := l } }

/-- The step values of the HV set's defaults. -/
def values0 : StepValues := ⟨500, 10, 100, 200, 50, 10, 100, .apply⟩

/-- The rail in a state with a step in progress. -/
def railIn (r : RailState) (s : State) : State :=
  { s with hv := { s.hv with
    rail := r, values := some values0, target := 500, coverClosed := true, prevI := some 2310
    tickTimer := some 10, dwellTimer := some 1000 } }

/-- The slots of the host link. -/
def withSlots (l : List RxSlot) (s : State) : State := { s with host := { s.host with slots := l } }

/-- A card's reply to the exchange in progress. -/
def replyFrame (kind : Byte) (addr : Nat) (seq : Bool) (p : List Byte) : CardFrame :=
  ⟨BitVec.ofNat 6 addr, seq, true, kind, p, crc16 (cardBody true seq addr kind p)⟩

/-- An exchange in progress with its reply timer running. -/
def during (f : Sent) (s : State) : State :=
  { s with link := { s.link with exchange := some ⟨f, false, false⟩, replyTimer := some 4 } }

theorem rest0_ready : rest0.ready := ⟨rfl, rfl, rfl, rfl, rfl, rfl⟩
theorem wired_ready : wired.ready := ⟨rfl, rfl, rfl, rfl, rfl, rfl⟩

/-! ### Well-formedness: each check refuses -/

theorem test_wf_upsetNetZero : (Instr.storageUpset 0 1#16).wf = false := by decide
theorem test_wf_upsetNetTop : (Instr.storageUpset 1024 1#16).wf = true ∧ (Instr.storageUpset 1025 1#16).wf = false := by
  decide
theorem test_wf_lenWithinLimit : (Instr.lenTooLarge 1024#16).wf = false := by decide
theorem test_wf_knownKind : (Instr.unknownKind 0x01#8 0#8 []).wf = false := by decide
theorem test_wf_unknownKindLong : (Instr.unknownKind 0x40#8 0#8 (List.replicate 1025 0#8)).wf = false := by
  decide +kernel
theorem test_wf_payload :
    (Instr.ident 0#8 (List.replicate 1025 0#8)).wf = false ∧
    (Instr.ident 0#8 (List.replicate 1024 0#8)).wf = true := by decide +kernel
theorem test_wf_cardPayload : (Instr.setAck ⟨1#6, false, true, 0x82#8, List.replicate 257 0#8, 0#16⟩).wf = false := by
  decide +kernel
theorem test_wf_isoConversion :
    (Instr.isoConversion 10001 0).wf = false ∧ (Instr.isoConversion 0 10000001).wf = false := by decide
theorem test_wf_hvSample : (Instr.hvSample 16001 0).wf = false ∧ (Instr.hvSample 0 5000001).wf = false := by decide

/-! ### The table gives no row any bits -/

theorem test_noWordSpellsACommand : decodeTableWord 8 0 = none ∧ rest0.withFetchWord 8 0 = rest0 := by decide +kernel

/-- Every KIND of Table 12-2 is read back as its request. -/
theorem test_kindsOfTheTable : ∀ r ∈ Request.all, requestOf r.code = some r := by decide

/-! ### The spec's worked cases -/

/-- The check value of "123456789" for the polynomial 0x1021 and the initial value 0xFFFF, which every account of this
CRC gives. -/
theorem test_crc : crc16 (ascii "123456789") = 0x29B1#16 := by decide +kernel

/-- 4.2.1, a good pair: 1,501 mΩ raw, 1,286 mΩ less its leads. -/
theorem test_contPair : meanOf 19206 4 = 4802 ∧ rawResistance 4802 .r100 = 1501 ∧ compensated 1501 120 95 = 1286 := by
  decide

/-- 4.2.1, a range step: an over-range at 100 mA steps to 10 mA, and four codes of 16000 give 50,000 mΩ. -/
theorem test_rangeStep :
    (after (.contConversion 0xFFFF#16) { rest0 with lmu := { Lmu.reset with phase := .sample, n := 4 } }).lmu =
      { Lmu.reset with phase := .stabilise, timer := some 2, range := .r10, rangeSteps := 1, n := 4 } ∧
    rawResistance (meanOf 64000 4) .r10 = 50000 := by decide +kernel

/-- 4.3.1: 9,987 mV over 312 nA are 32,010 kΩ, isolated at the default limit. -/
theorem test_isoResult : isoResistance 9987 312 = some 32010 ∧ isLeak (some 32010) 1000 = false := by decide

/-- The history of 7.8.1: sixteen samples that sum to 80,006 and 37,600. -/
def history781 : List (Nat × Nat) := (5006, 2350) :: List.replicate 15 (5000, 2350)

/-- 7.8.1: the dwell expiry gives 227,273 kΩ and PASS. -/
theorem test_dwellExpiryPasses :
    (after .dwellExpiry { railIn .dwell rest0 with hv := { (railIn .dwell rest0).hv with
        history := history781, offset := 150, arcs := 2 } }).hv.held =
      some ⟨.pass, 5000, 2350, 150, 227273, 2⟩ := by decide +kernel

/-- 7.8.3: with an arc limit of 2 the same step ends with ARC. -/
theorem test_dwellExpiryArc :
    ((after .dwellExpiry { railIn .dwell rest0 with hv := { (railIn .dwell rest0).hv with
        history := history781, offset := 150, arcs := 2
        values := some { values0 with arcLim := 2 } } }).hv.held.map (·.verdict)) = some .arc := by decide +kernel

/-- 7.8.2: 861.2 V at 1000 V set is a collapse with the sample's readings. -/
theorem test_collapse :
    (after (.hvSample 8612 1430000) { railIn .dwell rest0 with hv := { (railIn .dwell rest0).hv with
        values := some { values0 with setV := 1000 }, prevI := some 1430000 } }).hv.held =
      some ⟨.breakdown .collapse, 8612, 1430000, 0, 0, 0⟩ := by decide +kernel

/-- 7.8.3: DWELL 2 counts an arc, DWELL 3, a fall, does not. -/
theorem test_arcCounts :
    (after (.hvSample 5000 61000) (railIn .dwell rest0)).hv.arcs = 1 ∧
    (after (.hvSample 5000 2320) { railIn .dwell rest0 with hv := { (railIn .dwell rest0).hv with
        prevI := some 61000, arcs := 1 } }).hv.arcs = 1 := by decide +kernel

/-- 7.8.4: CLEAR_HV_FAULT is refused at 41.2 V with FAULT and the reading, and accepted at 12.0 V. -/
theorem test_clearHvFault :
    replyOf (after (.clearHvFault 1#8 []) { rest0 with hv := { rest0.hv with rail := .fault, presentV := 412 } }) =
      [0x04#8, 0x04#8, 0x9C#8, 0x01#8] ∧
    (after (.clearHvFault 1#8 []) { rest0 with hv := { rest0.hv with rail := .fault, presentV := 120 } }).hv.rail =
      .safe := by decide +kernel

/-- 1.7, step 1: P11 and P13 on one channel are a CONFLICT that names item 1. -/
theorem test_mapConflict :
    replyOf (after (.mapPoints 1#8 ([4#8] ++ le2 10 ++ [1#8, 0#8] ++ le2 11 ++ [1#8, 1#8] ++ le2 12 ++ [1#8, 2#8]
      ++ le2 13 ++ [1#8, 1#8])) rest0) = [0x08#8, 0x01#8] := by decide +kernel

/-- 1.7, step 4: P12 is held by net 5. -/
theorem test_loadConflict :
    replyOf (after (.loadNet 1#8 (le2 7 ++ le2 2 ++ le2 11 ++ le2 12 ++ [0#8, 0#8] ++ le4 0 ++ [0#8]))
      { wired with store := (wired.store.putNet ⟨5, [10, 12], true, none, ascii "BATT+"⟩) }) =
      [0x08#8] ++ le2 12 ++ le2 5 := by decide +kernel

/-- 1.7, step 3: the members are held in ascending order. -/
theorem test_loadSorts :
    ((after (.loadNet 1#8 (le2 5 ++ le2 2 ++ le2 12 ++ le2 10 ++ [1#8, 0#8] ++ le4 0 ++ [5#8] ++ ascii "BATT+"))
      wired).store.nets.map (·.body)) = [⟨5, [10, 12], true, none, ascii "BATT+"⟩] := by decide +kernel

/-- 11.5: the two lines of record 3. -/
theorem test_renderShort :
    renderLines [] ⟨3, true, false,
      { kind := .short, system := false, flags := { c := true }, tag := some 7, net := some 1, pointA := some 10
        pointB := some 30, otherNet := some 3, value := some ⟨.mOhm, some 290⟩, range := some .r100 }⟩ =
      [ascii "000003 007 SHORT          .C... N0001" ++ [0x0D#8, 0x0A#8],
       ascii "P0010 P0030 N0003 0.290 OHM 100MA" ++ [0x0D#8, 0x0A#8]] := by decide +kernel

/-- 11.5, a release with the paper out: the state is PAPER_OUT, and the reply says so. -/
theorem test_releasePaperOut :
    replyOf (after (.printRelease 1#8 []) { rest0 with printer := { Printer.reset with
      state := .held, current := some 3, lines := [[0x41#8], [0x42#8]], line := 1 } }) = [0x00#8, 0x04#8] := by
  decide +kernel

/-- 12.9: a NOTICE lists ROSTER at level 2 before LINK_ERROR at level 0. -/
theorem test_noticeOrder :
    ({ Events.reset with pending := 0x840#12 } : Events).noticePayload = [2#8, 6#8, 2#8, 11#8, 0#8] := by
  decide +kernel

/-- 12.9: a third request finds both slots occupied. -/
theorem test_overrun :
    (after (.fetchRecords 22#8 [16#8]) (withSlots [⟨0x12#8, 20#8, [], .carried⟩, ⟨0x04#8, 21#8, [], .waiting⟩]
      rest0)).events.link = { LinkReg.empty with overrun := true } := by decide +kernel

/-- 3.5 and R26: the second expiry of a SET loses its position. -/
theorem test_lost :
    ((after .cardReplyTimeout { rest0 with
      link := { rest0.link with exchange := some ⟨.set 2 [(0, .source)], true, true⟩, replyTimer := some 4 } }).posn 2).state
      = .lost := by decide +kernel

/-! ### Witnesses: the machine as a whole -/

theorem witness_EveryStepKeepsTheInterlocks :
    ({ State.reset with pending := [.hvSample 0 0] } : State).interlocked ∧
    step { State.reset with pending := [.hvSample 0 0] } = .next (after (.hvSample 0 0) State.reset) :=
  ⟨by unfold State.interlocked; decide +kernel, rfl⟩

theorem witness_EveryStepKeepsTheCapacities :
    ({ State.reset with pending := [.lenTooLarge 1025#16] } : State).withinCapacity ∧
    step { State.reset with pending := [.lenTooLarge 1025#16] } = .next (after (.lenTooLarge 1025#16) State.reset) :=
  ⟨by unfold State.withinCapacity; decide +kernel, rfl⟩

theorem witness_EveryStepKeepsTheTablesCanonical :
    ({ wired with pending := [.storageUpset 1 1#16] } : State).tablesWf = true ∧
    step { wired with pending := [.storageUpset 1 1#16] } = .next (after (.storageUpset 1 1#16) wired) :=
  ⟨by decide +kernel, rfl⟩

theorem witness_EmptyQueueIdles : State.reset.pending = [] := rfl

/-! ### Witnesses: the host link -/

theorem witness_FrameBytesCarryTheRequest :
    rest0.host.assembly = [] ∧ ([] : List Byte).length ≤ 1024 ∧ (List.replicate 1024 0xA5#8).length ≤ 1024 := by
  decide +kernel

theorem witness_DamagedFramesAreDiscarded :
    rest0.host.assembly = [] ∧
    [0#8, 0#8] ≠ crcBytes (crc16 (le2 0 ++ [0x01#8, 0#8] ++ [])) ∧
    1024 < (1025#16).toNat ∧ 1024 < (0xFFFF#16).toNat ∧
    (1 ≤ 1 ∧ 1 < ([] : List Byte).length + 7) ∧
    (1 ≤ 1030 ∧ 1030 < (List.replicate 1024 0#8).length + 7 ∧ (List.replicate 1024 0#8).length ≤ 1024) := by
  decide +kernel

/-- A frame's first byte and a frame short of its last byte are both cut off by the timeout. -/
theorem test_frameByteTimeout :
    (after (.frameByteTimeout ((hostFrame 0x01#8 5#8 []).take 1)) rest0).events.link.timeout = true ∧
    (after (.frameByteTimeout ((hostFrame 0x01#8 5#8 []).take 6)) rest0).events.link.timeout = true := by
  decide +kernel

theorem witness_TwoSlotsHoldTheRequests :
    (withSlots [⟨0x12#8, 20#8, [], .carried⟩] rest0).host.slots = [⟨0x12#8, 20#8, [], .carried⟩] ∧
    (⟨0x12#8, 20#8, [], .carried⟩ : RxSlot).phase = .carried ∧
    2 ≤ (withSlots [⟨0x12#8, 20#8, [], .carried⟩, ⟨0x04#8, 21#8, [], .waiting⟩] rest0).host.slots.length ∧
    rest0.host.assembly = [] :=
  ⟨rfl, rfl, by decide +kernel, rfl⟩

theorem witness_UndefinedKindIsAnswered :
    rest0.ready ∧ requestOf 0x00#8 = none ∧ requestOf 0x3F#8 = none ∧ requestOf 0x40#8 = none ∧
    requestOf 0xFF#8 = none ∧ ([] : List Byte).length ≤ 1024 := ⟨rest0_ready, by decide⟩

theorem witness_RefusedRequestChangesNothing :
    rest0.ready ∧ [0#8].length ≤ 1024 ∧ Request.ident ≠ .readNet ∧
    (carry .ident [0#8] (rest0.handed Request.ident.code 1#8 [0#8])).2 = some [0x05#8] ∧ 0x05#8 ≠ 0x00#8 :=
  ⟨rest0_ready, by decide +kernel⟩

theorem witness_RaisingAnEvent :
    ({ rest0 with events := { Events.reset with pending := 0x800#12 } } : State).events.isPending .linkError = true ∧
    ({ rest0 with events := { Events.reset with mask := 0x001#12 } } : State).events.isMasked .hvFault = true ∧
    rest0.events.isPending .hvFault = false ∧ rest0.events.isMasked .linkError = false ∧
    rest0.host.tx = none ∧ rest0.host.slots = [] := by decide +kernel

/-- A state with a frame on its way out. -/
def sendingOut (isReply : Bool) (l : List RxSlot) (wanted : Bool) (pend : BitVec 12) : State :=
  { rest0 with
    host := { rest0.host with slots := l, tx := some ⟨isReply, [0xA5#8]⟩ }
    events := { Events.reset with noticeWanted := wanted, pending := pend } }

theorem witness_EndsOfTransmissionFreeThePath :
    ((sendingOut true [⟨0x01#8, 1#8, [], .sending [0x00#8]⟩] false 0).host.slots =
        [⟨0x01#8, 1#8, [], .sending (0x00#8 :: [])⟩] ∧
      (sendingOut true [] false 0).host.tx = some ⟨true, [0xA5#8]⟩ ∧
      (sendingOut true [] false 0).events.noticeWanted = false ∧
      0x01#8 ∉ [0x02#8, 0x03#8] ∧ 0x04#8 ≠ 0x00#8 ∧ ([4#8].headD 0#8).toNat ≠ rest0.host.baud) ∧
    (sendingOut false [] false 0).host.tx = some ⟨false, [0xA5#8]⟩ ∧
    (sendingOut false [] true 1).events.visible ≠ [] ∧ (sendingOut false [] true 0).events.visible = [] ∧
    (sendingOut false [⟨0x04#8, 2#8, [], .ready [0x00#8]⟩, ⟨0x01#8, 3#8, [], .waiting⟩] true 1).host.slots =
      [⟨0x04#8, 2#8, [], .ready [0x00#8]⟩, ⟨0x01#8, 3#8, [], .waiting⟩] ∧
    (sendingOut false [⟨0x12#8, 2#8, [], .carried⟩, ⟨0x01#8, 3#8, [], .ready [0x00#8]⟩] true 1).host.slots =
      [⟨0x12#8, 2#8, [], .carried⟩, ⟨0x01#8, 3#8, [], .ready [0x00#8]⟩] ∧
    (⟨0x12#8, 2#8, [], .carried⟩ : RxSlot).phase = .carried := by decide +kernel

/-- A READ_QUEUE waits while a MEASURE is being carried out (R76, R154, R182), and is handed over once its reply has been
composed, as the READ_STATUS of 12.9 is behind the reply of an ENUMERATE. -/
theorem test_handOver_waitsForTheReply :
    (after (.readQueue 2#8 []) (withSlots [⟨0x19#8, 1#8, [], .carried⟩] rest0)).host.slots.map (·.phase) =
      [.carried, .waiting] ∧
    ∀ k, k = 0x12#8 ∨ k = 0x19#8 →
      (after (.readQueue 2#8 []) (sendingOut true [⟨k, 1#8, [], .sending [0x00#8]⟩] false 0)).host.slots.map (·.phase)
        = [.sending [0x00#8], .ready [0x00#8, 0#8, 0#8]] := by
  refine ⟨by decide +kernel, ?_⟩
  rintro k (rfl | rfl) <;> decide +kernel

/-- The four ends of the baud codes (R185): 0 and 9 are refused, 1 and 8 accepted. -/
theorem witness_SetLinkIsAnsweredAtTheOldBaud :
    rest0.ready ∧ (1 ≤ (1#8).toNat ∧ (8#8).toNat ≤ 8) ∧ ¬ (1 ≤ (0#8).toNat ∧ (0#8).toNat ≤ 8) ∧
    ¬ (1 ≤ (9#8).toNat ∧ (9#8).toNat ≤ 8) ∧ ([] : List Byte).length ≠ 1 ∧ [1#8, 2#8].length ≠ 1 :=
  ⟨rest0_ready, by decide⟩

theorem witness_IdentReportsThePart : rest0.ready ∧ ([] : List Byte).length < 1024 := ⟨rest0_ready, by decide⟩

theorem witness_RestartKeepsWhatTheRulesKeep :
    rest0.ready ∧ ([] : List Byte).length < 1024 ∧
    (sendingOut true [⟨0x03#8, 1#8, [], .sending [0x00#8]⟩] false 0).host.slots.find? RxSlot.isSending =
      some ⟨0x03#8, 1#8, [], .sending (0x00#8 :: [])⟩ ∧
    (sendingOut true [⟨0x03#8, 1#8, [], .sending [0x00#8]⟩] false 0).host.tx = some ⟨true, [0xA5#8]⟩ :=
  ⟨rest0_ready, by decide +kernel⟩

theorem witness_ReadStatusReportsThePart : wired.ready ∧ ([] : List Byte).length < 1024 := ⟨wired_ready, by decide⟩

theorem witness_EventRequestsMaskAndClear :
    rest0.ready ∧ 4095 < 4096 ∧ (List.replicate 12 3).length = 12 ∧ (∀ l ∈ List.replicate 12 3, l ≤ 3) ∧ 3 ≤ 3 ∧
    (rest0.events.pending &&& rest0.events.mask &&& ~~~(BitVec.ofNat 12 4095)) = 0#12 ∧
    ({ rest0 with events := { Events.reset with pending := 1#12, mask := 1#12 } } : State).ready ∧
    (1#12 &&& 1#12 &&& ~~~(BitVec.ofNat 12 0)) ≠ 0#12 ∧
    (3583 < 4096 ∧ (3583).testBit 9 = false) ∧ (0).testBit 9 = false :=
  ⟨rest0_ready, by decide, by decide, by decide, by decide, by decide +kernel, ⟨rfl, rfl, rfl, rfl, rfl, rfl⟩,
    by decide⟩

/-! ### Witnesses: the wire-list store -/

theorem witness_MapPointsWritesTheMap :
    wired.ready ∧ wired.jobActive = false ∧ tableWf wired.store.map = true ∧
    ∃ items : List (Nat × Option Chan), items = [(4, some ⟨32, 127⟩), (4095, none), (10, some ⟨1, 1⟩), (11, some ⟨1, 0⟩)] ∧
      1 ≤ items.length ∧ items.length ≤ 128 ∧ (items.map (·.1)).Nodup ∧ (∀ it ∈ items, 4 ≤ it.1 ∧ it.1 ≤ 4095) ∧
      (∀ it ∈ items, ∀ c ∈ it.2, 1 ≤ c.pos ∧ c.pos ≤ 32 ∧ c.ch ≤ 127) ∧
      ∀ it ∈ items, ∀ c ∈ it.2, (∀ jt ∈ items, jt.1 ≠ it.1 → jt.2 ≠ some c) ∧
        ∀ e ∈ wired.store.map, e.1 ∉ items.map (·.1) → e.2 ≠ c :=
  ⟨wired_ready, by decide +kernel, by decide +kernel, _, rfl, by decide +kernel⟩

theorem witness_ReadMapAndReadLeadsReportTheTables :
    wired.ready ∧ (0 ≤ 4095 ∧ 1 ≤ 1 ∧ 0 + 1 ≤ 4096) ∧ (3968 ≤ 4095 ∧ 128 ≤ 128 ∧ 3968 + 128 ≤ 4096) ∧
    (4096 < 65536 ∧ 4095 < 4096) ∧ 128 < 129 ∧ 129 < 256 ∧ 4096 < 3969 + 128 := ⟨wired_ready, by decide⟩

theorem witness_SetLeadsWritesTheLeads :
    wired.ready ∧ wired.jobActive = false ∧ tableWf wired.store.leads = true ∧
    ∃ items : List (Nat × Nat), items = [(4, 0), (4095, 5000)] ∧ 1 ≤ items.length ∧ items.length ≤ 128 ∧
      (items.map (·.1)).Nodup ∧ ∀ it ∈ items, 4 ≤ it.1 ∧ it.1 ≤ 4095 ∧ it.2 ≤ 5000 :=
  ⟨wired_ready, by decide +kernel, by decide +kernel, _, rfl, by decide +kernel⟩

theorem witness_LoadNetStoresTheNet :
    wired.ready ∧ wired.jobActive = false ∧ wired.store.wf = true ∧ (1 ≤ 1024 ∧ 1024 ≤ 1024) ∧
    ∃ (ms : List Nat) (label : List Byte), ms = [12, 4, 4095] ∧ label = ascii "BATT+ ~A" ∧ 1 ≤ ms.length ∧
      ms.length ≤ 256 ∧ ms.Nodup ∧ (∀ p ∈ ms, 4 ≤ p ∧ p ≤ 4095) ∧ (∀ v ∈ some 1000000, 10 ≤ v ∧ v ≤ 1000000) ∧
      label.length ≤ 8 ∧ (∀ b ∈ label, 0x20 ≤ b.toNat ∧ b.toNat ≤ 0x7E) ∧
      ∀ p ∈ ms, wired.ownerOf p = none ∨ wired.ownerOf p = some 1024 :=
  ⟨wired_ready, by decide +kernel, by decide +kernel, by decide, _, _, rfl, rfl, by decide +kernel⟩

/-- The station with net 5 stored, and with a job running. -/
def netted : State := { wired with store := wired.store.putNet ⟨5, [10, 12], true, none, []⟩ }
theorem netted_ready : netted.ready := ⟨rfl, rfl, rfl, rfl, rfl, rfl⟩
def busy : State := withJobs [jobOf .refcheck .running] netted
theorem busy_ready : busy.ready := ⟨rfl, rfl, rfl, rfl, rfl, rfl⟩

theorem witness_ClearNetsEmptiesTheTable :
    netted.ready ∧ netted.jobActive = false ∧ busy.ready ∧ busy.jobActive = true ∧ ([] : List Byte).length < 1024 :=
  ⟨netted_ready, by decide +kernel, busy_ready, by decide +kernel⟩

theorem witness_ReadNetAnswersTheContents :
    netted.ready ∧ (1 ≤ 5 ∧ 5 ≤ 1024) ∧
    (∃ r : NetRec, netted.findNet 5 = some r ∧ r.corrupt = false ∧ r.check = crc16 r.body.bytes) ∧
    netted.findNet 1 = none ∧ netted.findNet 1024 = none :=
  ⟨netted_ready, by decide, ⟨⟨⟨5, [10, 12], true, none, []⟩, crc16 (NetBody.bytes ⟨5, [10, 12], true, none, []⟩), false⟩,
    by decide +kernel⟩, by decide +kernel⟩

theorem witness_UpsetNetIsMarkedAtItsFirstRead :
    (∃ r : NetRec, netted.findNet r.body.num = some r ∧ r.corrupt = false ∧ r.check = crc16 r.body.bytes) ∧
    ∃ (s : State) (r : NetRec), s = after (.storageUpset 5 1#16) netted ∧ s.findNet r.body.num = some r ∧
      r.corrupt = false ∧ r.check ≠ crc16 r.body.bytes ∧ s.printer.state ≠ .idle ∧
      (s.printer.state ≠ .off ∨ s.log.reporting = true) ∧ s.log.entries.length < 256 ∧
      ∃ (q : State) (x : NetRec), q = (s.readNetFor .read 5).1 ∧ q.findNet x.body.num = some x ∧ x.corrupt = true :=
  ⟨⟨⟨⟨5, [10, 12], true, none, []⟩, crc16 (NetBody.bytes ⟨5, [10, 12], true, none, []⟩), false⟩, by decide +kernel⟩,
   _, ⟨⟨5, [10, 12], true, none, []⟩, crc16 (NetBody.bytes ⟨5, [10, 12], true, none, []⟩) ^^^ 1#16, false⟩, rfl,
   by decide +kernel, by decide +kernel, by decide +kernel, by decide +kernel, by decide +kernel, by decide +kernel,
   _, ⟨⟨5, [10, 12], true, none, []⟩, crc16 (NetBody.bytes ⟨5, [10, 12], true, none, []⟩) ^^^ 1#16, true⟩, rfl,
   by decide +kernel⟩

/-! ### Witnesses: the card link, the roster and the relays -/

theorem witness_SetCardLinkStoresTheTimes :
    netted.ready ∧ netted.jobActive = false ∧ busy.ready ∧ busy.jobActive = true ∧
    (1 ≤ 1 ∧ (1 ≤ 1 ∧ 1 ≤ 50) ∧ 1 ≤ 1 ∧ 1 ≤ 50) ∧ (1 ≤ 255 ∧ (1 ≤ 50 ∧ 50 ≤ 50) ∧ 1 ≤ 50 ∧ 50 ≤ 50) ∧
    ¬ (1 ≤ 0 ∧ (1 ≤ 50 ∧ 50 ≤ 50) ∧ 1 ≤ 50 ∧ 50 ≤ 50) ∧ ¬ (1 ≤ 255 ∧ (1 ≤ 51 ∧ 51 ≤ 50) ∧ 1 ≤ 50 ∧ 50 ≤ 50) ∧
    ¬ (1 ≤ 255 ∧ (1 ≤ 50 ∧ 50 ≤ 50) ∧ 1 ≤ 51 ∧ 51 ≤ 50) :=
  ⟨netted_ready, by decide +kernel, busy_ready, by decide +kernel, by decide⟩

theorem witness_RosterRequestsFreezeAndReport :
    netted.ready ∧ netted.matrix.roster.length = 32 ∧ netted.jobActive = false ∧ busy.ready ∧
    busy.matrix.roster.length = 32 ∧ busy.jobActive = true ∧ (List.replicate 32 CardKind.hv64).length = 32 ∧
    (∀ k ∈ List.replicate 32 CardKind.hv64, k ≠ .other) :=
  ⟨netted_ready, by decide +kernel, by decide +kernel, busy_ready, by decide +kernel⟩

/-- The station with an enumeration that assigns position 2. -/
def assigning (a : Nat) : State :=
  during (.assign a) { rest0 with link := { rest0.link with
    enumPhase := .assigning, discovered := [⟨.lv128, 7, 2⟩] } }

theorem witness_EnumerationBreaksAndAssigns :
    (rest0.ready ∧ rest0.jobActive = false ∧ rest0.matrix.slot = .empty ∧ rest0.hv.rail = .safe ∧
      rest0.link.exchange = none) ∧
    (({ rest0 with link := Link.reset } : State).link.startup = true ∧ rest0.link.enumPhase = .idle) ∧
    ({ rest0 with link := { rest0.link with enumPhase := .linkBreak } } : State).link.enumPhase = .linkBreak ∧
    ((assigning 31).accepted (replyFrame 0x81#8 31 false [2#8, 0#8, 0#8, 0#8, 9#8, 3#8]) = some (.assign 31) ∧
      (assigning 1).accepted (replyFrame 0x81#8 1 false [2#8, 0#8, 0#8, 0#8, 9#8, 3#8]) = some (.assign 1) ∧
      31 < 32 ∧ (assigning 31).link.enumPhase = .assigning) :=
  ⟨⟨rest0_ready, by decide +kernel⟩, by decide +kernel⟩

theorem witness_EnumerationCloses :
    (assigning 2).link.exchange = some ⟨.assign 2, false, false⟩ ∧ (assigning 2).link.replyTimer = some 4 ∧
    tableWf (assigning 2).matrix.image = true ∧ (∀ r ∈ (assigning 2).host.slots, r.phase ≠ .waiting) ∧
    (assigning 2).link.discovered[32 - 1]? = none ∧ (assigning 2).link.discovered[1 - 1]? = some ⟨.lv128, 7, 2⟩ ∧
    ∃ t : State, exec .cardReplyTimeout { assigning 2 with link := { (assigning 2).link with
      discovered := [⟨.other, 7, 2⟩] } } = .next t ∧ (t.posn 1).state = .mismatch :=
  ⟨by decide +kernel, by decide +kernel, by decide +kernel, by decide +kernel, by decide +kernel, by decide +kernel,
   _, rfl, by decide +kernel⟩

/-- A frame with a wrong address, or with the wrong sequence bit, is not the reply due. -/
theorem witness_OnlyTheReplyDueIsAccepted :
    (∀ e ∈ (during (.set 1 []) rest0).link.exchange, e.accepts (replyFrame 0x82#8 2 false []) = false) ∧
    (∀ e ∈ (during (.set 1 []) rest0).link.exchange, e.accepts (replyFrame 0x82#8 1 true []) = false) ∧
    (∀ e ∈ (during (.set 1 []) rest0).link.exchange, e.accepts (replyFrame 0x82#8 1 false []) = true) := by
  decide +kernel

def manualPlan (ts : List (Nat × Rail)) (others : Bool) (cs : List (Chan × Rail)) : Taken :=
  ⟨⟨.targets ts others, .manual⟩, cs⟩

/-- A plan in SENDING whose SET to position 1 waits for its ACK. -/
def sendingSet (p : Nat) (t : Taken) : State :=
  { during (.set p [(0, .source)]) wired with matrix := { wired.matrix with slot := .sending t p [] } }

theorem witness_SetAckAdvancesThePlan :
    ((sendingSet 1 (manualPlan [(10, .source)] false [(⟨1, 0⟩, .source)])).accepted (replyFrame 0x82#8 1 false []) =
        some (.set 1 [(0, .source)]) ∧
      (∀ r ∈ wired.host.slots, r.phase ≠ .waiting) ∧ ([(0, Rail.source)].map (·.1)).Nodup ∧
      (∀ it ∈ [(0, Rail.source)], it.1 ≤ 127) ∧
      (∀ q ∈ List.range' 2 31, (sendingSet 1 (manualPlan [(10, .source)] false [(⟨1, 0⟩, .source)])).changeList
        (manualPlan [(10, .source)] false [(⟨1, 0⟩, .source)]) q = [])) ∧
    ((sendingSet 1 (manualPlan [(10, .source), (4095, .ret)] false [(⟨1, 0⟩, .source), (⟨2, 63⟩, .ret)])).changeList
        (manualPlan [(10, .source), (4095, .ret)] false [(⟨1, 0⟩, .source), (⟨2, 63⟩, .ret)]) 2 = [(63, .ret)] ∧
      (wired.posn 2).state = .present) := by decide +kernel

def allOpen : Taken := ⟨⟨.allOpen, .nobody⟩, []⟩

theorem witness_AllOpenPlanRunsToItsEnd :
    State.reset.hv.rail ≠ .safe ∧ (∀ r ∈ rest0.host.slots, r.phase ≠ .waiting) ∧
    (rest0.hv.rail = .safe ∧ rest0.link.exchange = none ∧
      ({ rest0 with matrix := { rest0.matrix with slot := .held allOpen } } : State).matrix.slot = .held allOpen) ∧
    rest0.matrix.blocked = [] ∧
    ((during .allOpen { rest0 with matrix := { rest0.matrix with slot := .sending allOpen 0 [] } }).link.exchange =
        some ⟨.allOpen, false, false⟩ ∧ tableWf rest0.matrix.image = true) ∧
    rest0.matrix.waiting = [] ∧ allOpen.plan.issuer = .nobody := by decide +kernel

theorem witness_ReplyTimerResendsOnceThenLoses :
    ((during .attnQuery rest0).link.exchange = some ⟨.attnQuery, false, false⟩ ∧
      (during .attnQuery rest0).link.replyTimer = some 4 ∧ Sent.attnQuery ≠ .allOpen) ∧
    ∃ s : State, s = { withSlots [⟨0x14#8, 1#8, [], .carried⟩] (sendingSet 2 (manualPlan [] false [])) with
        link := { rest0.link with exchange := some ⟨.set 2 [(0, .source)], true, true⟩, replyTimer := some 4 } } ∧
      s.matrix.roster.length = 32 ∧ tableWf s.matrix.image = true ∧
      s.link.exchange = some ⟨.set 2 [(0, .source)], true, true⟩ ∧ s.link.replyTimer = some 4 ∧ s.jobActive = false ∧
      s.link.enumPhase = .idle ∧ s.matrix.slot = .sending (manualPlan [] false []) 2 [] ∧ s.matrix.waiting = [] ∧
      s.host.slots = [⟨0x14#8, 1#8, [], .carried⟩] :=
  ⟨by decide +kernel, _, rfl, by decide +kernel⟩

/-- An attention query in progress at the station of `rest0`, whose position 3 has a LOST card. -/
def querying : State :=
  during .attnQuery { rest0 with matrix := { rest0.matrix with
    roster := rest0.matrix.roster.set 2 ⟨.lost, .lv128, 1, 1, .none⟩ } }

theorem witness_AttentionIsServedAndCleared :
    (rest0.link.exchange = none ∧ rest0.link.pollBlocked = false ∧ rest0.link.startup = false ∧
      rest0.link.enumPhase = .idle ∧ rest0.matrix.slot = .empty) ∧
    querying.accepted (replyFrame 0x84#8 1 false [2#8, 127#8]) = some .attnQuery ∧
    querying.accepted (replyFrame 0x84#8 3 false [3#8, 0#8]) = some .attnQuery ∧
    (querying.posn 1).state = .present ∧ (127#8).toNat < (querying.posn 1).kind.channels ∧
    ¬ (64#8).toNat < (querying.posn 2).kind.channels ∧
    ((querying.posn 3).state ≠ .present ∧ (querying.posn 3).state ≠ .faulted) ∧
    querying.matrix.roster.length = 32 ∧ tableWf querying.matrix.image = true ∧ querying.jobActive = false ∧
    (∀ r ∈ querying.host.slots, r.phase ≠ .waiting) ∧ querying.matrix.slot = .empty ∧
    (during (.attnClear 1) rest0).accepted (replyFrame 0x82#8 1 false []) = some (.attnClear 1) := by decide +kernel

theorem witness_StatusSweepGoesOnToTheNext :
    (during (.status 1) rest0).accepted (replyFrame 0x86#8 1 false [0#8, 0#8]) = some (.status 1) ∧
    (during (.status 1) rest0).accepted (replyFrame 0x86#8 1 false [3#8, 0#8]) = some (.status 1) ∧
    rest0.sweepable 2 = true ∧ (during (.status 2) rest0).accepted (replyFrame 0x86#8 2 false [0#8, 0#8]) =
      some (.status 2) ∧
    (∀ r ∈ List.range' 3 30, rest0.sweepable r = false) ∧ rest0.matrix.slot = .empty := by decide +kernel

theorem witness_ManualSwitchSendsItsPlan :
    wired.ready ∧ wired.jobActive = false ∧ wired.matrix.slot = .empty ∧ wired.hv.rail = .safe ∧
    wired.matrix.waiting = [] ∧ wired.link.exchange = none ∧ busy.ready ∧ busy.jobActive = true ∧
    ({ wired with hv := { wired.hv with rail := .fault } } : State).hv.rail ≠ .safe ∧
    ∃ items : List (Nat × Rail), items = [(0, .source), (10, .source), (4095, .ret)] ∧ items.length ≤ 128 ∧
      items ≠ [] ∧ (items.map (·.1)).Nodup ∧ (∀ it ∈ items, it.1 ≤ 4095) ∧
      (∀ it ∈ items, it.2 = .opn ∨ it.2 = .source ∨ it.2 = .ret) ∧
      (∀ it ∈ items, it.1 < 4 → wired.railAllowed ⟨0, it.1⟩ it.2 = true) ∧
      (∀ it ∈ items, 4 ≤ it.1 → (wired.chanOf it.1).any
        (fun c => decide (1 ≤ c.pos) && wired.reachable c && !wired.isBlocked c) = true) ∧
      wired.changeList ⟨⟨.targets items true, .manual⟩, wired.translate items⟩ 1 ≠ [] :=
  ⟨wired_ready, by decide +kernel, by decide +kernel, by decide +kernel, by decide +kernel, by decide +kernel,
   busy_ready, by decide +kernel, by decide +kernel, _, rfl, by decide +kernel⟩

/-- Nothing to change: every channel is OPEN already, or is not mentioned. -/
theorem test_manualSwitchNothingToDo :
    replyOf (after (.manualSwitch 1#8 ([0#8, 1#8] ++ le2 0 ++ [0#8])) rest0) = [0x00#8, 0x00#8, 0x00#8] := by
  decide +kernel

/-- The station with a blocked channel. -/
def blocked0 : State := { wired with matrix := { wired.matrix with blocked := [⟨1, 0⟩, ⟨3, 127⟩] } }

theorem witness_UnblockRemovesAndOpens :
    blocked0.ready ∧ blocked0.jobActive = false ∧ blocked0.matrix.slot = .empty ∧ blocked0.hv.rail = .safe ∧
    blocked0.matrix.waiting = [] ∧ blocked0.link.exchange = none ∧ blocked0.isBlocked ⟨32, 127⟩ = false ∧
    (blocked0.isBlocked ⟨3, 127⟩ = true ∧ (blocked0.posn 3).state ≠ .present) ∧
    (blocked0.isBlocked ⟨1, 0⟩ = true ∧ blocked0.imageOf ⟨1, 0⟩ ≠ some .opn ∧ (blocked0.posn 1).state = .present) ∧
    wired.matrix.blocked = [] :=
  ⟨⟨rfl, rfl, rfl, rfl, rfl, rfl⟩, by decide +kernel⟩

theorem witness_ReadRelaysReportsTheImage :
    wired.ready ∧ (0 ≤ 4095 ∧ 1 ≤ 1 ∧ 0 + 1 ≤ 4096) ∧ 3968 + 128 ≤ 4096 ∧ 4096 < 3969 + 128 ∧ 128 < 129 ∧
    ((0 : Nat) ≤ 32 ∧ 0 + 4 ≤ (if (0 : Nat) = 0 then 4 else 128)) ∧ (if (0 : Nat) = 0 then 4 else 128) < 1 + 4 ∧
    0 + 128 ≤ (if (32 : Nat) = 0 then 4 else 128) ∧ 32 < 33 := ⟨wired_ready, by decide⟩

/-! ### Witnesses: low-voltage measurement -/

theorem witness_SetLimitsAndSetHvReplaceTheirSets :
    rest0.ready ∧ (10 ≤ 10 ∧ 10 < 11 ∧ 11 ≤ 2000000 ∧ 100 ≤ 100 ∧ 1 ∈ [1, 2, 4, 8, 16] ∧ 1 ∈ [1, 2, 3]) ∧
    (10 ≤ 1000000 ∧ 1000000 ≤ 1000000 ∧ 1000000 < 2000000 ∧ 100000 ≤ 100000 ∧ 16 ∈ [1, 2, 4, 8, 16] ∧ 3 ∈ [1, 2, 3]) ∧
    (∀ b ∈ [decide (50 ≤ 1500 ∧ 1500 ≤ 1500 ∧ 1500 % 10 = 0), decide (1 ≤ 50 ∧ 50 ≤ 50), decide (2 ≤ 6000 ∧ 6000 ≤ 6000),
      decide (10 ≤ 500 ∧ 500 ≤ 500), decide (10 ≤ 1000 ∧ 1000 ≤ 1000), true, decide (1 ≤ 2000 ∧ 2000 ≤ 2000),
      decide (1 ≤ 64 ∧ 64 ≤ 64)], b = true) ∧
    ([decide (50 ≤ 49 ∧ 49 ≤ 1500 ∧ 49 % 10 = 0), true] : List Bool)[0]? = some false :=
  ⟨rest0_ready, by decide⟩

/-- A state with a channel on SOURCE and one on RETURN. -/
def paired : State :=
  { wired with matrix := { wired.matrix with image := imageReset ++ [(128, .source), (129, .ret)] } }

theorem witness_MeasurementBeginsAndStabilises :
    (wired.ready ∧ wired.jobActive = false ∧ wired.matrix.slot = .empty ∧ wired.hv.rail = .safe ∧
      wired.onRail .source = []) ∧
    (paired.ready ∧ paired.onRail .source ≠ [] ∧ paired.onRail .ret ≠ []) ∧
    ((1#8).toNat ∈ [1, 2] ∧ (16#8).toNat ∈ [0, 1, 2, 4, 8, 16] ∧ (3#8).toNat ∈ [0, 1, 2, 3]) ∧
    ({ Lmu.reset with waiting := some (⟨.iso, 4, .r100, 5⟩, .engine) } : Lmu).waiting =
      some (⟨.iso, 4, .r100, 5⟩, .engine) ∧
    (railIn .ramp rest0).hv.rail ≠ .safe ∧ ({ Lmu.reset with phase := .stabilise } : Lmu).phase = .stabilise :=
  ⟨⟨wired_ready, by decide +kernel⟩, ⟨⟨rfl, rfl, rfl, rfl, rfl, rfl⟩, by decide +kernel⟩, by decide +kernel⟩

/-- A MEASURE in SAMPLE, with `count` samples taken. -/
def sampling (m : LmuMode) (r : CRange) (count : Nat) : State :=
  { paired with
    lmu := { Lmu.reset with phase := .sample, mode := m, range := r, count := count, codeSum := 14404 }
    host := { paired.host with
      slots := [⟨0x19#8, 1#8, [1#8, 4#8, 0#8], .carried⟩], carried := some (.measure (some (10, 11))) } }

theorem witness_ContConversionSumsStepsOrEnds :
    ((sampling .cont .r100 0).lmu.phase = .sample ∧ (sampling .cont .r100 0).lmu.mode = .cont ∧
      (∀ r ∈ (sampling .cont .r100 0).host.slots, r.phase ≠ .waiting)) ∧
    ((0xFFFE#16).toNat ≠ 65535 ∧ (sampling .cont .r100 2).lmu.count + 1 < (sampling .cont .r100 2).lmu.n) ∧
    ((0xFFFF#16).toNat = 65535 ∧ (sampling .cont .r10 0).lmu.range ≠ .r1 ∧ (sampling .cont .r1 0).lmu.range = .r1) ∧
    (sampling .cont .r100 3).lmu.n = (sampling .cont .r100 3).lmu.count + 1 ∧
    (sampling .cont .r100 3).lmu.issuer = .host ∧
    (sampling .cont .r100 3).host.carried = some (.measure (some (10, 11))) ∧
    (sampling .cont .r100 3).host.tx = none := by decide +kernel

/-- 4.2.1 as a MEASURE: the fourth code, 4802 after a sum of 14,404, answers mean 4,802 and 1,501 mΩ. -/
theorem test_measureReply :
    replyOf (after (.contConversion 4802#16) (sampling .cont .r100 3)) =
      [0x00#8, 0x01#8, 0x00#8, 0x04#8] ++ le4 4802 ++ le4 1501 ++ [0x01#8] ++ le4 1501 ++ [0x00#8] := by
  decide +kernel

theorem witness_IsoConversionSumsOrEnds :
    (sampling .iso .r100 0).lmu.phase = .sample ∧ (sampling .iso .r100 0).lmu.mode = .iso ∧
    (∀ r ∈ (sampling .iso .r100 0).host.slots, r.phase ≠ .waiting) ∧
    (sampling .iso .r100 2).lmu.count + 1 < (sampling .iso .r100 2).lmu.n ∧
    (sampling .iso .r100 3).lmu.n = (sampling .iso .r100 3).lmu.count + 1 ∧
    (sampling .iso .r100 3).host.carried = some (.measure (some (10, 11))) ∧
    (sampling .iso .r100 3).host.tx = none := by decide +kernel

/-! ### Witnesses: the high-voltage rail -/

/-- A step request waiting. -/
def requested (closed : Bool) (s : State) : State :=
  { s with hv := { s.hv with request := some values0, coverClosed := closed } }

theorem witness_HvStepStartsAndRamps :
    ((requested true rest0).hv.request = some values0 ∧ (requested true rest0).hv.rail = .safe ∧
      (requested true rest0).matrix.slot = .empty ∧ (requested true rest0).lmu.phase = .idle ∧
      (requested true rest0).hv.coverClosed = true ∧ (requested false rest0).hv.coverClosed = false) ∧
    (requested true State.reset).hv.rail ≠ .safe ∧
    ((railIn .ramp rest0).hv.rail = .ramp ∧ (railIn .ramp rest0).hv.values = some values0 ∧
      (railIn .ramp rest0).hv.tickTimer = some 10 ∧ 0 + values0.rate < values0.setV ∧
      489 + values0.rate < values0.setV ∧ values0.setV ≤ 490 + values0.rate) := by decide +kernel

theorem witness_HvSampleIsExaminedByState :
    rest0.hv.rail = .safe ∧ State.reset.hv.rail = .discharge ∧
    ((railIn .ramp rest0).hv.rail = .ramp ∧ (railIn .ramp rest0).hv.values = some values0) ∧
    ((railIn .dwell rest0).hv.rail = .dwell ∧ (railIn .dwell rest0).hv.values = some values0) ∧
    (min 1999999 5000000 < values0.trip * 10000 ∧ values0.trip * 10000 ≤ min 2000000 5000000) ∧
    (values0.setV * 70 ≤ min 4375 16000 * 8 ∧ min 4374 16000 * 8 < values0.setV * 70) := by decide +kernel

theorem witness_DwellExpiryFixesTheVerdict :
    (railIn .dwell rest0).hv.rail = .dwell ∧ (railIn .dwell rest0).hv.values = some values0 ∧
    (railIn .dwell rest0).hv.dwellTimer = some 1000 ∧ history781.length = 16 ∧
    (2350 ≤ 2350 ∧ 150 < 2350) ∧ (99999 < values0.minIr * 1000 ∧ values0.minIr * 1000 ≤ 100000) ∧
    (0 < values0.arcLim ∧ values0.arcLim ≤ 10 ∧ 9 < values0.arcLim) := by decide +kernel

/-- The rail in DISCHARGE below the safe voltage. -/
def discharging (held : Option HeldResult) : State :=
  { State.reset with hv := { Hv.reset with holdTimer := some 10, held := held, presentV := 288 } }

theorem witness_DischargeEndsInSafeOrFault :
    ((discharging none).hv.rail = .discharge ∧ (discharging none).hv.holdTimer = some 10 ∧
      (discharging none).hv.held = none) ∧
    (discharging (some ⟨.irLow, 5000, 2350, 150, 99999, 0⟩)).hv.held = some ⟨.irLow, 5000, 2350, 150, 99999, 0⟩ ∧
    (State.reset.hv.rail = .discharge ∧ State.reset.hv.limitTimer = some 2000 ∧ State.reset.jobActive = false ∧
      State.reset.printer.state ≠ .idle ∧ State.reset.log.reporting = true ∧ State.reset.log.entries.length < 256) ∧
    (({ rest0 with hv := { rest0.hv with rail := .fault, presentV := 299 } } : State).ready ∧ 299 < 300 ∧
      rest0.head = none) ∧
    (rest0.ready ∧ rest0.hv.rail ≠ .fault) ∧ 300 ≤ 300 :=
  ⟨by decide +kernel, by decide +kernel, by decide +kernel, ⟨⟨rfl, rfl, rfl, rfl, rfl, rfl⟩, by decide +kernel⟩,
   ⟨rest0_ready, by decide +kernel⟩, by decide⟩

theorem witness_CoverIsDebouncedAndInterrupts :
    State.reset.pins.coverClosed = false ∧ State.reset.pins.coverClosed ≠ true ∧
    (State.reset.hv.debounce = some 10 ∧ State.reset.pins.coverClosed = State.reset.hv.coverClosed) ∧
    (({ State.reset with pins := { Pins.reset with coverClosed := true } } : State).pins.coverClosed = true ∧
      State.reset.hv.coverClosed = false ∧ State.reset.suspended = false) ∧
    ((railIn .dwell State.reset).hv.debounce = some 10 ∧ (railIn .dwell State.reset).hv.coverClosed = true ∧
      (railIn .dwell State.reset).pins.coverClosed = false ∧ (railIn .dwell State.reset).hv.rail = .dwell ∧
      (railIn .safe State.reset).hv.rail ≠ .ramp ∧ (railIn .safe State.reset).hv.rail ≠ .dwell) := by decide +kernel

/-! ### Witnesses: jobs -/

theorem witness_QueueRequestsKeepTheQueue :
    rest0.ready ∧ 1 ≤ (1#8).toNat ∧ 1 ≤ (255#8).toNat ∧ ((1 ≤ 1 ∧ 1 ≤ 1024) ∧ 1 ≤ 1024 ∧ 1024 ≤ 1024) ∧ 4095 ≤ 4095 ∧
    8 ≤ (List.replicate 8 (jobOf .refcheck .queued)).length ∧
    ((List.replicate 7 (jobOf .refcheck .queued)).length < 8 ∧
      (∃ q ∈ List.replicate 7 (jobOf .refcheck .queued), q.tag = (7#8).toNat) ∧
      ∀ q ∈ List.replicate 7 (jobOf .refcheck .queued), q.tag ≠ (8#8).toNat) ∧
    rest0.queue.jobs.length < 8 ∧ rest0.log.entries.length + 9 ≤ 256 ∧ busy.jobActive = true :=
  ⟨rest0_ready, by decide +kernel⟩

/-- A high-voltage step of job 7 in RAMP. -/
def stepping : State :=
  { withJobs [jobOf .refcheck .running] (railIn .ramp rest0) with
    engine := { Engine.reset with work := .refHv true, phase := .hvStep } }

/-- The end of the safe hold with a result of a REFCHECK held. -/
def refDone (r : HeldResult) : State :=
  { stepping with hv := { stepping.hv with rail := .discharge, holdTimer := some 10, held := some r } }

/-- 19,000 and 21,000 kΩ, the ends of the window of R143, lie inside it; 18,999 and 21,001 outside. -/
theorem witness_RefcheckSetsTheReferenceState :
    (∃ (s : State) (r : HeldResult), r = ⟨.pass, 5003, 25120, 0, 19000, 0⟩ ∧ s = refDone r ∧ s.hv.rail = .discharge ∧
      s.hv.holdTimer = some 10 ∧ s.hv.held = some r ∧ s.engine.phase = .hvStep ∧ s.engine.work = .refHv true ∧
      s.engine.abort = none ∧ s.engine.toAppend = [] ∧ s.queue.jobs = [jobOf .refcheck .running] ∧
      r.verdict ≠ .breakdown .trip ∧ r.verdict ≠ .breakdown .collapse ∧ r.verdict ≠ .interrupted ∧
      s.log.entries.length + 9 ≤ 256 ∧ s.matrix.slot = .empty ∧ s.link.exchange = none) ∧
    (after .safeHoldExpiry (refDone ⟨.pass, 5003, 25120, 0, 19000, 0⟩)).reference = .verified ∧
    (after .safeHoldExpiry (refDone ⟨.pass, 5003, 25120, 0, 21000, 0⟩)).reference = .verified ∧
    (after .safeHoldExpiry (refDone ⟨.pass, 5003, 25120, 0, 18999, 0⟩)).reference = .failed ∧
    (after .safeHoldExpiry (refDone ⟨.pass, 5003, 25120, 0, 21001, 0⟩)).reference = .failed :=
  ⟨⟨_, _, rfl, rfl, by decide +kernel⟩, by decide +kernel, by decide +kernel, by decide +kernel, by decide +kernel⟩

/-- The last pair of net 5, P10 and P12, in the continuity phase of a CHECK of the nets 1 to 5. -/
def lastPair : State :=
  { withJobs [jobOf (.check 1 5 .cont) .running] netted with
    lmu := { Lmu.reset with phase := .sample, issuer := .engine, count := 3, codeSum := 14404 }
    engine := { Engine.reset with
      phase := .measure
      work := .check { CheckWork.start 1 5 .cont with
        num := 5, members := [10, 12], passLimit := 2000, doing := .sweep } } }

theorem witness_CheckJudgesAPairByItsBand :
    ∃ (s : State) (w : CheckWork), s = lastPair ∧ s.engine.work = .check w ∧ s.lmu.phase = .sample ∧
      s.lmu.mode = .cont ∧ s.lmu.issuer = .engine ∧ s.lmu.n = s.lmu.count + 1 ∧ (4802#16).toNat ≠ 65535 ∧
      s.engine.phase = .measure ∧ w.doing = .sweep ∧ w.phases = .cont ∧ w.members = [10, 12] ∧ w.rootIdx = 0 ∧
      w.next = 1 ∧ w.openList = [] ∧ (∀ r ∈ s.store.nets, r.body.num ≤ w.num ∨ w.last < r.body.num) ∧
      s.queue.jobs = [jobOf (.check 1 5 .cont) .running] ∧ s.log.entries.length + 9 ≤ 256 ∧ s.log.reporting = true ∧
      s.printer.state ≠ .idle ∧ s.matrix.slot = .empty ∧ s.hv.rail = .safe ∧ s.link.exchange = none ∧
      ∀ r ∈ s.host.slots, r.phase ≠ .waiting :=
  ⟨_, { CheckWork.start 1 5 .cont with num := 5, members := [10, 12], passLimit := 2000, doing := .sweep }, rfl,
   by decide +kernel⟩

theorem witness_SearchFindsEveryBadMember :
    ∃ p, p < 5 ∧ (fun k => decide (k ≠ 2)) p = true ∧ (fun k => decide (k = 1 ∨ k = 4)) p = true :=
  ⟨4, by decide⟩

/-! ### Witnesses: the test log and the printout -/

/-- A log of `n` system records with both marks. -/
def logOf (n : Nat) : Log :=
  { Log.reset with entries := (List.range n).map (fun k => ⟨k + 1, true, true, { kind := .interlock, system := true }⟩) }

/-- A test record needs nine free entries (R159), a system record one (R160). -/
theorem test_logReserve :
    (State.offerTest { rest0 with log := logOf 247 } true { kind := .opn, system := false }).2 = true ∧
    (State.offerTest { rest0 with log := logOf 248 } true { kind := .opn, system := false }).2 = false ∧
    (State.offerSystem { rest0 with log := logOf 255 } { kind := .cardLost, system := true }).2 = true ∧
    (State.offerSystem { rest0 with log := logOf 256 } { kind := .cardLost, system := true }).2 = false := by
  decide +kernel

theorem witness_HostReadsTheLog :
    (rest0.ready ∧ rest0.queue.jobs = [] ∧ rest0.log.reporting = true ∧
      rest0.log.entries.countP (·.hostMark) = 0) ∧
    (∀ b ∈ [decide (1 ≤ 1), decide (1 ≤ 64 ∧ 64 ≤ 64), decide (10 ≤ 10 ∧ 10 ≤ 10000)], b = true) ∧
    ([decide (1 ≤ 1), decide (1 ≤ 65 ∧ 65 ≤ 64), decide (10 ≤ 10 ∧ 10 ≤ 10000)][1]? = some false ∧
      ∀ j < 1, [decide (1 ≤ 1), decide (1 ≤ 65 ∧ 65 ≤ 64), decide (10 ≤ 10 ∧ 10 ≤ 10000)][j]? = some true) ∧
    (1 ≤ (1#8).toNat ∧ (16#8).toNat ≤ 16 ∧ (0#8).toNat = 0 ∧ 16 < (17#8).toNat) ∧
    ({ logOf 1 with notifyTimer := some 500 } : Log).notifyTimer = some 500 :=
  ⟨⟨rest0_ready, by decide +kernel⟩, by decide⟩

/-- A printer in a state. -/
def printerIn (st : PrinterState) : State :=
  { rest0 with
    pins := ⟨false, true, true, false⟩
    printer := { Printer.reset with
      state := st, current := some 3, lines := [[0x41#8, 0x42#8, 0x0A#8], [0x43#8, 0x0A#8]] } }

theorem printerIn_ready (st : PrinterState) : (printerIn st).ready := ⟨rfl, rfl, rfl, rfl, rfl, rfl⟩

theorem witness_PrinterRequestsFollowTheState :
    (∀ st, (printerIn st).ready) ∧
    ((printerIn .off).printer.state = .off ∧ (printerIn .held).printer.state = .held ∧
      (printerIn .idle).printer.state ≠ .off ∧ (printerIn .idle).printer.state ≠ .held ∧
      (printerIn .holdPending).printer.state = .holdPending) ∧
    (∀ b ∈ [decide (1 ≤ 1), decide (1 ≤ 8 ∧ 8 ≤ 8), decide (7 = 7 ∨ 7 = 8), decide (3 ≤ 3), decide (2 = 1 ∨ 2 = 2),
      decide (1 ≤ 1), decide (1 ≤ 60 ∧ 60 ≤ 60)], b = true) ∧
    ([decide (2 ≤ 1)] : List Bool)[0]? = some false ∧
    (∀ e ∈ (printerIn .off).log.entries, e.printMark = false) ∧ (printerIn .held).queue.jobs = [] ∧
    ((printerIn .held).printer.current = some 3 ∧ (printerIn .held).pins.ppaper = true ∧
      (printerIn .held).pins.pready ≠ (printerIn .held).printer.cfg.lowTrue) ∧
    ({ printerIn .held with printer := { Printer.reset with state := .held } } : State).printer.current = none :=
  ⟨printerIn_ready, by decide +kernel⟩

theorem witness_FormatterSendsItsLines :
    ((printerIn .printing).printer.current = some 3 ∧ (printerIn .printing).printer.waiting = false ∧
      (printerIn .printing).printer.state = .printing ∧ (printerIn .holdPending).printer.state = .holdPending) ∧
    (0 + 1 < ((printerIn .printing).printer.lines.getD 0 []).length ∧
      1 + 1 < ((printerIn .printing).printer.lines.getD 0 []).length ∧
      ((printerIn .printing).printer.lines.getD 0 []).length ≤ 2 + 1 ∧
      0 + 1 < (printerIn .printing).printer.lines.length ∧ (printerIn .printing).printer.lines.length ≤ 1 + 1) ∧
    (true ≠ (printerIn .printing).printer.cfg.lowTrue ∧ false = (printerIn .printing).printer.cfg.lowTrue) ∧
    ((printerIn .printing).queue.jobs = [] ∧
      ∀ e ∈ (printerIn .printing).log.entries, e.printMark = true → e.seq = 3) ∧
    (({ (printerIn .waitReady).printer with waiting := true, timer := some 10000 } : Printer).waiting = true ∧
      (printerIn .waitReady).printer.state = .waitReady) ∧
    ((printerIn .paperOut).printer.state = .paperOut ∧
      (printerIn .paperOut).pins.pready ≠ (printerIn .paperOut).printer.cfg.lowTrue) := by decide +kernel


/-! ### Witnesses: the other clauses -/

/-- A station whose roster is empty: no card, the reference channels alone. -/
def bare : State := { rest0 with matrix := { Matrix.reset with image := [(0, .opn), (1, .opn), (2, .hv), (3, .collect)] } }

/-- The step of the high voltage of a REFCHECK. -/
def refHvTargets : List (Nat × Rail) := [(2, .hv), (3, .collect)]

theorem positions_of {P : Nat → Prop} (h : ∀ r ∈ List.range' 1 32, P r) (r : Nat) (h1 : 1 ≤ r) (h2 : r ≤ 32) : P r :=
  h r (by rw [List.mem_range'_1]; omega)

theorem unchanged_of (s : State) (ts : List (Nat × Rail)) (h : s.hv.rail = .safe ∧ s.matrix.slot = .empty ∧
    s.matrix.waiting = [] ∧ (∀ x ∈ ts, s.checkTarget x = none) ∧ s.refChanges (s.stepTaken ts) = [])
    (hp : ∀ r ∈ List.range' 1 32, s.changeList (s.stepTaken ts) r = []) : s.unchangedBy ts :=
  ⟨h.1, h.2.1, h.2.2.1, h.2.2.2.1, h.2.2.2.2, positions_of hp⟩

theorem sendsTo_first (s : State) (ts : List (Nat × Rail)) (h : s.hv.rail = .safe ∧ s.matrix.slot = .empty ∧
    s.link.exchange = none ∧ (∀ x ∈ ts, s.checkTarget x = none) ∧ s.changeList (s.stepTaken ts) 1 ≠ [] ∧
    (s.posn 1).state = .present) : s.sendsTo ts 1 :=
  ⟨h.1, h.2.1, h.2.2.1, h.2.2.2.1, by decide, by decide, fun r h1 h2 => by omega, h.2.2.2.2.1, h.2.2.2.2.2⟩

/-- A full log and eight jobs. -/
theorem witness_EveryStepKeepsTheCapacities_bounds :
    ∃ s : State, s = { State.reset with
        log := logOf 256
        queue := { Queue.reset with jobs := (List.range 8).map (fun k => { jobOf .refcheck .queued with tag := k + 1 }) }
        pending := [.lenTooLarge 1025#16] } ∧
      s.log.bounded ∧ s.queue.ordered ∧ step s = .next (after (.lenTooLarge 1025#16) { s with pending := [] }) :=
  ⟨_, rfl, by unfold Log.bounded; decide +kernel, by unfold Queue.ordered; decide +kernel, rfl⟩

/-- A net stored, and channel 63 of the HV-64 on HV. -/
theorem witness_EveryStepKeepsTheTablesCanonical_sound :
    ∃ s : State, s = { netted with
        matrix := { netted.matrix with image := imageReset ++ [(319, .hv)] }, pending := [.storageUpset 5 1#16] } ∧
      s.tablesWf = true ∧ s.store.mapSound ∧ s.netsAgree ∧ s.hvOnHv64 ∧
      step s = .next (after (.storageUpset 5 1#16) { s with pending := [] }) := by
  refine ⟨_, rfl, by decide +kernel, by unfold Store.mapSound; decide +kernel, ⟨?_, ?_, ?_⟩, ⟨?_, ?_⟩, rfl⟩
  · exact Store.putNet_owned wired.store ⟨5, [10, 12], true, none, []⟩ (by decide +kernel)
      ⟨(by decide +kernel : ∀ r ∈ wired.store.nets, 1 ≤ r.body.num ∧ r.body.num ≤ 1024), fun p n => by
        constructor
        · exact fun h => nomatch h
        · rintro ⟨r, hr, _⟩; exact nomatch hr⟩ (by decide) (by decide +kernel)
  · exact fun h => absurd rfl h
  · exact fun w h => nomatch h
  · intro c h1 h2 h3 h
    have hk : c.key = 319 := by
      unfold State.imageOf imageReset at h
      have hk : 128 ≤ c.key := by unfold Chan.key; omega
      simp only [List.cons_append, List.nil_append, tget] at h
      split at h <;> first | omega | skip
      split at h <;> first | omega | skip
      split at h <;> first | omega | skip
      split at h <;> first | omega | skip
      split at h
      · assumption
      · exact nomatch h
    have hp : c.pos = 2 ∧ c.ch = 63 := by unfold Chan.key at hk; omega
    rw [hp.1, hp.2]; decide +kernel
  · exact fun e p items h => nomatch h

theorem witness_FrameBytesCarryTheRequest_slots :
    (∃ x : RxSlot, x = ⟨0x12#8, 20#8, [], .carried⟩ ∧ (withSlots [x] rest0).host.slots = [x] ∧ x.phase = .carried ∧
      (withSlots [x] rest0).host.assembly = []) ∧
    (rest0.ready ∧ requestOf 0x3F#8 = none) ∧ (1 ≤ 1 ∧ 1 < ([] : List Byte).length + 7) ∧
    (1 ≤ 1030 ∧ 1030 < (List.replicate 1024 0#8).length + 7) :=
  ⟨⟨_, rfl, rfl, rfl, rfl⟩, ⟨rest0_ready, by decide⟩, by decide, by decide +kernel⟩

/-- Seven and eight records for a threshold of 8, DEFECT_READY masked and not. -/
theorem witness_EventRequestsMaskAndClear_defectReady :
    (∀ n, ({ rest0 with log := logOf n } : State).ready) ∧ (512).testBit 9 = true ∧ (4095).testBit 9 = true ∧ 4095 < 4096 ∧
    (logOf 7).entries.countP (·.hostMark) < (logOf 7).threshold ∧
    (logOf 8).threshold ≤ (logOf 8).entries.countP (·.hostMark) ∧
    ({ Events.reset with mask := 0x200#12 } : Events).mask.getLsbD 9 = true ∧ Events.reset.mask.getLsbD 9 = false :=
  ⟨fun _ => ⟨rfl, rfl, rfl, rfl, rfl, rfl⟩, by decide +kernel⟩

/-- A plan of an issuer in SETTLING. -/
def settlingFor (who : Issuer) : State :=
  { rest0 with matrix := { rest0.matrix with slot := .settling ⟨⟨.allOpen, who⟩, []⟩ [0] 1 } }

theorem witness_AllOpenPlanRunsToItsEnd_issuers :
    (∀ who, (settlingFor who).matrix.slot = .settling ⟨⟨.allOpen, who⟩, []⟩ [0] 1 ∧
      (settlingFor who).matrix.waiting = []) ∧
    (∃ s : State, s = withSlots [⟨0x14#8, 1#8, [], .carried⟩] (settlingFor .manual) ∧
      s.host.slots = [⟨0x14#8, 1#8, [], .carried⟩] ∧ s.host.tx = none ∧ ∀ r ∈ s.host.slots, r.phase ≠ .waiting) ∧
    (∃ s : State, s = { settlingFor .unblock with host := { rest0.host with
        slots := [⟨0x16#8, 1#8, [], .carried⟩], carried := some (.unblock 128) } } ∧
      s.host.slots = [⟨0x16#8, 1#8, [], .carried⟩] ∧ s.host.tx = none ∧ s.host.carried = some (.unblock 128)) ∧
    (∃ s : State, s = withJobs [jobOf .refcheck .running] { settlingFor .engine with engine := { Engine.reset with
        work := .refLv, phase := .plan, inHand := some ⟨.targets [] true, .lmu ⟨.cont, 16, .r100, 5⟩⟩ } } ∧
      s.hv.rail = .safe ∧ s.engine.abort = none ∧
      s.engine.inHand = some ⟨.targets [] true, .lmu ⟨.cont, 16, .r100, 5⟩⟩) ∧
    (∃ s : State, s = withJobs [jobOf .refcheck .running] { settlingFor .engine with engine := { Engine.reset with
        work := .refHv true, phase := .plan, inHand := some ⟨.targets refHvTargets true, .hv values0⟩ } } ∧
      s.engine.abort = none ∧ s.engine.inHand = some ⟨.targets refHvTargets true, .hv values0⟩) ∧
    (∃ s : State, s = withJobs [jobOf .refcheck .running] { settlingFor .engine with engine := { Engine.reset with
        work := .refLv, phase := .plan, abort := some ⟨.abortedHost, .nothing⟩ } } ∧
      s.engine.abort = some ⟨.abortedHost, .nothing⟩ ∧ s.queue.jobs = [jobOf .refcheck .running] ∧
      s.link.exchange = none) ∧
    ∃ (s : State) (j : Job), j = { jobOf .refcheck .ending with ended := some ⟨.complete, .nothing⟩ } ∧
      s = { withJobs [j] (settlingFor .jobEnd) with log := logOf 255 } ∧ s.queue.jobs = [j] ∧
      j.ended = some ⟨.complete, .nothing⟩ ∧ s.printer.state ≠ .idle ∧ s.log.reporting = true ∧
      s.log.entries.length < 256 :=
  ⟨fun _ => ⟨rfl, rfl⟩, ⟨_, rfl, by decide +kernel⟩, ⟨_, rfl, by decide +kernel⟩, ⟨_, rfl, by decide +kernel⟩,
   ⟨_, rfl, by decide +kernel⟩, ⟨_, rfl, by decide +kernel⟩, _, _, rfl, rfl, by decide +kernel⟩

/-- The job whose step's SET, resent, is lost. -/
theorem witness_ReplyTimerResendsOnceThenLoses_job :
    ∃ (s : State) (t : Taken), t = ⟨⟨.targets [] true, .engine⟩, []⟩ ∧
      s = { withJobs [jobOf .refcheck .running] rest0 with
        matrix := { rest0.matrix with slot := .sending t 2 [] }
        link := { rest0.link with exchange := some ⟨.set 2 [(0, .source)], true, true⟩, replyTimer := some 4 }
        engine := { Engine.reset with work := .refLv, phase := .plan } } ∧
      (1 ≤ 2 ∧ 2 ≤ 32) ∧ s.matrix.roster.length = 32 ∧
      s.link.exchange = some ⟨.set 2 [(0, .source)], true, true⟩ ∧ s.link.replyTimer = some 4 ∧ s.hv.rail = .safe ∧
      s.matrix.slot = .sending t 2 [] ∧ t.plan.issuer = .engine ∧ s.matrix.waiting = [] ∧
      s.queue.jobs = [jobOf .refcheck .running] ∧ (jobOf .refcheck .running).state = .running ∧
      s.engine.phase = .plan ∧ s.engine.abort = none ∧ ∀ r ∈ s.host.slots, r.phase ≠ .waiting :=
  ⟨_, _, rfl, rfl, by decide +kernel⟩

/-- An attention query while a job is active. -/
def queryingJob (st : JobState) (ph : StepPhase) (r : RailState) : State :=
  { withJobs [jobOf .refcheck st] querying with
    engine := { Engine.reset with work := .refHv true, phase := ph }
    hv := { querying.hv with rail := r, coverClosed := true } }

theorem witness_AttentionIsServedAndCleared_job :
    (∀ st ph r, (queryingJob st ph r).accepted (replyFrame 0x84#8 1 false [1#8, 0#8]) = some .attnQuery ∧
      (queryingJob st ph r).queue.jobs = [jobOf .refcheck st] ∧ (queryingJob st ph r).engine.abort = none ∧
      (queryingJob st ph r).matrix.slot = .empty ∧ (queryingJob st ph r).matrix.waiting = []) ∧
    (replyFrame 0x84#8 1 false [1#8, 0#8]).addr.toNat = 1 ∧
    (∀ st ph r, ((queryingJob st ph r).posn 1).state = .present ∧
      ∀ x ∈ (queryingJob st ph r).host.slots, x.phase ≠ .waiting) ∧
    ((3#8).toNat = 3 ∧ (jobOf .refcheck .ending).state = .ending ∧ (1#8).toNat ≠ 3 ∧ (2#8).toNat ≠ 3) ∧
    ((queryingJob .running .plan .safe).engine.phase = .plan ∧
      (queryingJob .running .measure .safe).engine.phase = .measure ∧
      (queryingJob .running .measure .safe).hv.rail = .safe ∧ (jobOf .refcheck .logWait).state = .logWait ∧
      (jobOf .refcheck .suspended).state = .suspended) ∧
    (queryingJob .running .hvStep .ramp).hv.rail = .ramp ∧ (queryingJob .running .hvStep .dwell).hv.rail = .dwell ∧
    (queryingJob .running .hvStep .dwell).engine.phase = .hvStep :=
  ⟨fun st ph r => ⟨by cases st <;> cases ph <;> cases r <;> decide +kernel, rfl, rfl, rfl, rfl⟩, by decide +kernel,
   fun _ _ _ => ⟨rfl, fun _ h => nomatch h⟩, by decide +kernel⟩

/-- A station with an HV-64 at position 1 and the first points from 10 on at its first channels. -/
def hvStation (points : Nat) : State :=
  { bare with
    matrix := { bare.matrix with roster := ⟨.present, .hv64, 9, 3, .none⟩ :: List.replicate 31 RosterEntry.empty }
    store := { Store.reset with map := (List.range points).map (fun k => (10 + k, ⟨1, k⟩)) } }

/-- Job 7 suspended, the cover found closed and still so at the debounce's end; or open as yet. -/
def suspendedOn (b : State) (w : Work) (ts : List (Nat × Rail)) (closed : Bool) : State :=
  { withJobs [jobOf .refcheck .suspended] b with
    pins := { b.pins with coverClosed := true }
    hv := { b.hv with coverClosed := closed, debounce := some 10 }
    engine := { Engine.reset with work := w, inHand := some ⟨.targets ts true, .hv values0⟩ } }

/-- The end of the safe hold of an interrupted step. -/
def interruptedIn (w : Work) (closed : Bool) : State :=
  { withJobs [jobOf .refcheck .running] bare with
    hv := { bare.hv with
      rail := .discharge, holdTimer := some 10, held := some ⟨.interrupted, 5000, 2350, 0, 0, 1⟩, coverClosed := closed }
    engine := { Engine.reset with
      work := w, phase := .hvStep, inHand := some ⟨.targets refHvTargets true, .hv values0⟩ } }

theorem witness_CoverIsDebouncedAndInterrupts_suspended :
    (∀ b, ∃ (s : State) (w : InsWork), s = suspendedOn bare (.insulate w) refHvTargets false ∧
      w = InsWork.start 1 5 b false ∧ s.hv.debounce = some 10 ∧ s.pins.coverClosed = true ∧ s.hv.coverClosed = false ∧
      s.queue.jobs = [jobOf .refcheck .suspended] ∧ (jobOf .refcheck .suspended).state = .suspended ∧
      s.engine.work = .insulate w ∧ w.auto = false) ∧
    (∃ s : State, s = suspendedOn bare (.refHv true) refHvTargets false ∧ s.engine.work = .refHv true ∧
      s.engine.inHand = some ⟨.targets refHvTargets true, .hv values0⟩ ∧ s.engine.abort = none ∧
      s.unchangedBy refHvTargets) ∧
    (∃ (s : State) (w : InsWork), s = suspendedOn bare (.insulate w) refHvTargets false ∧ s.engine.work = .insulate w ∧
      w.auto = true ∧ s.unchangedBy refHvTargets) ∧
    (∀ closed, ∃ s : State, s = interruptedIn (.refHv true) closed ∧ s.hv.rail = .discharge ∧ s.hv.holdTimer = some 10 ∧
      s.hv.held = some ⟨.interrupted, 5000, 2350, 0, 0, 1⟩ ∧ s.engine.phase = .hvStep ∧
      s.queue.jobs = [jobOf .refcheck .running] ∧ (jobOf .refcheck .running).state = .running ∧ s.printer.state ≠ .idle ∧
      s.log.reporting = true ∧ s.log.entries.length < 256 ∧ s.hv.coverClosed = closed ∧
      s.engine.inHand = some ⟨.targets refHvTargets true, .hv values0⟩ ∧ s.engine.abort = none ∧
      State.unchangedBy { s with hv := { s.hv with rail := .safe } } refHvTargets) ∧
    ∃ w : InsWork, (interruptedIn (.insulate w) true).engine.work = .insulate w ∧ w.auto = false ∧ w.stage = .offset := by
  refine ⟨fun b => ⟨_, _, rfl, rfl, by cases b <;> decide +kernel⟩, ⟨_, rfl, rfl, rfl, rfl, ?_⟩,
    ⟨_, InsWork.start 1 5 true true, rfl, rfl, rfl, ?_⟩, ?_, InsWork.start 1 5 true false, rfl, rfl, rfl⟩
  · exact unchanged_of _ _ (by decide +kernel) (by decide +kernel)
  · exact unchanged_of _ _ (by decide +kernel) (by decide +kernel)
  · intro closed
    refine ⟨_, rfl, rfl, rfl, rfl, rfl, rfl, rfl, (by decide : PrinterState.off ≠ .idle), rfl,
      (by decide : 0 < 256), rfl, rfl, rfl, unchanged_of _ _ ?_ ?_⟩
    · cases closed <;> decide +kernel
    · cases closed <;> decide +kernel

/-- Job 7 in one of its states, in a phase of its step. -/
def inState (st : JobState) (ph : StepPhase) (b : State) : State :=
  { withJobs [jobOf .refcheck st] b with engine := { Engine.reset with work := .refHv true, phase := ph } }

/-- A log of 246 entries is the first, and one of 254 the last, in which the two records take the head's space. -/
theorem witness_AbortAndResumeReachTheJob :
    (rest0.ready ∧ 1 ≤ (7#8).toNat ∧ ∀ q ∈ rest0.queue.jobs, q.tag ≠ (7#8).toNat) ∧
    (∀ n, n = 246 ∨ n = 254 → ∃ s : State,
      s = withJobs [{ jobOf .refcheck .queued with tag := 1 }, jobOf .refcheck .queued] { rest0 with log := logOf n } ∧
      s.ready ∧ jobOf .refcheck .queued ∈ s.queue.jobs ∧ (jobOf .refcheck .queued).tag = (7#8).toNat ∧
      (jobOf .refcheck .queued).state = .queued ∧
      (∀ q ∈ s.queue.jobs, q.tag = (7#8).toNat → q = jobOf .refcheck .queued) ∧ s.printer.state ≠ .idle ∧
      s.log.reporting = true ∧ s.log.entries.length + 2 ≤ 256 ∧ 245 < s.log.entries.length ∧ s.queue.hold = false ∧
      s.hv.rail ≠ .fault ∧ s.link.startup = false ∧ s.queue.stallWait = false) ∧
    (∀ st ph, (inState st ph rest0).ready ∧ (inState st ph rest0).queue.jobs = [jobOf .refcheck st] ∧
      (jobOf .refcheck st).tag = (7#8).toNat ∧ (jobOf .refcheck st).state = st ∧ (inState st ph rest0).engine.phase = ph ∧
      (inState st ph rest0).engine.abort = none ∧ (inState st ph rest0).matrix.waiting = [] ∧
      (inState st ph rest0).matrix.slot = .empty ∧ (inState st ph rest0).hv.rail = .safe ∧
      (inState st ph rest0).link.exchange = none) ∧
    (∃ s : State, s = { inState .running .plan rest0 with matrix := { rest0.matrix with
        slot := .settling ⟨⟨.allOpen, .manual⟩, []⟩ [0] 1, waiting := [⟨.targets refHvTargets true, .engine⟩] } } ∧
      s.ready ∧ s.engine.phase = .plan ∧ (∃ q ∈ s.matrix.waiting, q.issuer = .engine) ∧ s.matrix.slot ≠ .empty ∧
      s.hv.rail ≠ .fault) ∧
    (stepping.ready ∧ stepping.queue.jobs = [jobOf .refcheck .running] ∧ stepping.engine.phase = .hvStep ∧
      stepping.engine.abort = none ∧ stepping.matrix.slot = .empty ∧ stepping.hv.rail = .ramp) ∧
    ((inState .suspended .between rest0).ready ∧ (inState .suspended .between rest0).hv.coverClosed = false) ∧
    (rest0.ready ∧ ∀ j rest, rest0.queue.jobs = j :: rest → j.state ≠ .suspended) ∧
    (∃ s : State, s = suspendedOn bare (.refHv true) refHvTargets true ∧ s.ready ∧
      s.queue.jobs = [jobOf .refcheck .suspended] ∧ s.hv.coverClosed = true ∧
      s.engine.inHand = some ⟨.targets refHvTargets true, .hv values0⟩ ∧ s.engine.abort = none ∧
      s.unchangedBy refHvTargets) ∧
    (∃ (s : State) (ts : List (Nat × Rail)), ts = [(2, .hv)] ∧ s = suspendedOn bare (.refHv true) ts true ∧ s.ready ∧
      s.engine.inHand = some ⟨.targets ts true, .hv values0⟩ ∧ s.hv.rail = .safe ∧ s.matrix.slot = .empty ∧
      (∀ x ∈ ts, s.checkTarget x = none) ∧ (∀ r, 1 ≤ r → r ≤ 32 → s.changeList (s.stepTaken ts) r = []) ∧
      s.refChanges (s.stepTaken ts) ≠ []) ∧
    ∃ (s : State) (ts : List (Nat × Rail)), ts = [(10, .hv), (11, .collect)] ∧
      s = suspendedOn (hvStation 2) (.refHv true) ts true ∧ s.ready ∧ s.sendsTo ts 1 := by
  refine ⟨⟨rest0_ready, by decide +kernel⟩, ?_, fun _ _ => ⟨⟨rfl, rfl, rfl, rfl, rfl, rfl⟩, rfl, rfl, rfl, rfl, rfl, rfl,
    rfl, rfl, rfl⟩, ⟨_, rfl, ⟨rfl, rfl, rfl, rfl, rfl, rfl⟩, by decide +kernel⟩,
    ⟨⟨rfl, rfl, rfl, rfl, rfl, rfl⟩, by decide +kernel⟩, ⟨⟨rfl, rfl, rfl, rfl, rfl, rfl⟩, by decide +kernel⟩,
    ⟨rest0_ready, fun _ _ h => nomatch h⟩,
    ⟨_, rfl, ⟨rfl, rfl, rfl, rfl, rfl, rfl⟩, rfl, rfl, rfl, rfl, unchanged_of _ _ (by decide +kernel) (by decide +kernel)⟩,
    ⟨_, _, rfl, rfl, ⟨rfl, rfl, rfl, rfl, rfl, rfl⟩, rfl, rfl, rfl, by decide +kernel, positions_of (by decide +kernel),
      by decide +kernel⟩,
    ⟨_, _, rfl, rfl, ⟨rfl, rfl, rfl, rfl, rfl, rfl⟩, sendsTo_first _ _ (by decide +kernel)⟩⟩
  rintro n (rfl | rfl) <;> exact ⟨_, rfl, ⟨rfl, rfl, rfl, rfl, rfl, rfl⟩, by decide +kernel⟩

theorem witness_HeadJobStartsOrIsRefused :
    (∀ (b : State) (spec : JobSpec), b = bare ∨ b = wired → ∃ s : State, s = withJobs [jobOf spec .queued] b ∧
      s.queue.jobs = [jobOf spec .queued] ∧ (jobOf spec .queued).state = .queued ∧ (jobOf spec .queued).spec = spec ∧
      s.queue.hold = false ∧ s.link.startup = false ∧ s.link.enumPhase = .idle ∧ s.host.slots = [] ∧
      s.log.entries.length + 9 ≤ 256 ∧ s.printer.state ≠ .idle ∧ s.log.reporting = true ∧ s.matrix.slot = .empty ∧
      s.hv.rail = .safe ∧ s.reference ≠ .failed) ∧
    (∃ (s : State) (ts : List (Nat × Rail)), ts = [(0, .source), (1, .ret)] ∧
      s = withJobs [jobOf .refcheck .queued] bare ∧
      s.stepTaken ts = ⟨⟨.targets ts true, .engine⟩, [(⟨0, 0⟩, .source), (⟨0, 1⟩, .ret)]⟩ ∧
      s.imageOf ⟨0, 0⟩ ≠ some .source ∧ ∀ p, 1 ≤ p → p ≤ 32 → s.changeList (s.stepTaken ts) p = []) ∧
    (∃ (s : State) (ts : List (Nat × Rail)), ts = [(0, .source), (1, .ret)] ∧
      s = withJobs [jobOf .refcheck .queued] wired ∧ s.sendsTo ts 1) ∧
    (∃ (s : State) (ts : List (Nat × Rail)), s = withJobs [jobOf (.learn true) .queued] wired ∧ s.store.mapSound ∧
      (s.store.map.filter (fun e => !(s.isBlocked e.2))).map (·.1) = 10 :: 11 :: [12, 4095] ∧
      ts = (10, .source) :: (11 :: [12, 4095]).map (fun x => (x, .ret)) ∧ s.sendsTo ts 1) ∧
    (1 < 2 ∧ rest0.hv.rail ≠ .fault) := by
  refine ⟨?_, ⟨_, _, rfl, rfl, by decide +kernel, by decide +kernel, positions_of (by decide +kernel)⟩,
    ⟨_, _, rfl, rfl, sendsTo_first _ _ (by decide +kernel)⟩,
    ⟨_, _, rfl, by unfold Store.mapSound; decide +kernel, by decide +kernel, rfl, sendsTo_first _ _ (by decide +kernel)⟩,
    by decide +kernel⟩
  rintro b spec (rfl | rfl) <;> exact ⟨_, rfl, rfl, rfl, rfl, rfl, rfl, rfl, rfl, (by decide : 0 + 9 ≤ 256),
    (by decide : PrinterState.off ≠ .idle), rfl, rfl, rfl, (by decide : RefState.unverified ≠ .failed)⟩

/-- The end of the safe hold of a step of an INSULATE of the nets 1 to 5 at a station of some points, net 5 stored; the
step's offset current is given. -/
def insulating (points : Nat) (w : InsWork) (r : HeldResult) (offset : Nat) : State :=
  { withJobs [jobOf (.insulate 1 5 w.locate w.auto) .running] (hvStation points) with
    store := (hvStation points).store.putNet ⟨5, [10, 11], true, none, []⟩
    hv := { bare.hv with rail := .discharge, holdTimer := some 10, held := some r, offset := offset }
    engine := { Engine.reset with work := .insulate w, phase := .hvStep } }

/-- The main step of net 5, and the locate search in its place. -/
def mainWork (loc : Bool) : InsWork := { InsWork.start 1 5 loc true with stage := .main, num := 5, members := [10, 11] }

def locating : InsWork :=
  { mainWork true with
    stage := .locate, units := [⟨.point 12, [12], false⟩, ⟨.point 13, [13], false⟩], locCount := 15
    gRes := ⟨.irLow, 5000, 60000, 150, 83333, 0⟩, mainRes := ⟨.irLow, 5000, 60000, 150, 83333, 0⟩
    search := ⟨⟨0, 2⟩, [⟨1, 1⟩], ⟨0, 1⟩, .lower⟩ }

/-- The hypotheses of every clause, whatever the step and its result. -/
theorem insulating_meets (points : Nat) (w : InsWork) (r : HeldResult) (offset : Nat) :
    ∃ s : State, s = insulating points w r offset ∧ s.hv.rail = .discharge ∧ s.hv.holdTimer = some 10 ∧
      s.hv.held = some r ∧ s.engine.phase = .hvStep ∧ s.engine.work = .insulate w ∧ s.engine.abort = none ∧
      s.engine.toAppend = [] ∧ s.queue.jobs = [jobOf (.insulate 1 5 w.locate w.auto) .running] ∧
      (jobOf (.insulate 1 5 w.locate w.auto) .running).snapshot = some ⟨Limits.reset, HvSet.reset⟩ ∧
      s.log.entries.length + 9 ≤ 256 ∧ s.log.reporting = true ∧ s.printer.state ≠ .idle ∧ s.matrix.slot = .empty ∧
      s.link.exchange = none ∧ s.hv.offset = offset ∧
      (∀ x ∈ s.store.nets, x.body.num ≤ 5 ∧ x.body.num = 5) :=
  ⟨_, rfl, rfl, rfl, rfl, rfl, rfl, rfl, rfl, rfl, rfl, (by decide : 0 + 9 ≤ 256), rfl,
   (by decide : PrinterState.off ≠ .idle), rfl, rfl, rfl,
   by show ∀ x ∈ (Store.reset.putNet ⟨5, [10, 11], true, none, []⟩).nets, x.body.num ≤ 5 ∧ x.body.num = 5
      decide +kernel⟩

/-- A leak is a quarter of the trip current of 200 µA: 500,000 in its unit of a tenth of a nA is one, 499,999 is none. -/
theorem witness_RefcheckSetsTheReferenceState_insulate :
    HvSet.reset.trip * 2500 ≤ 500000 ∧ 499999 < HvSet.reset.trip * 2500 ∧
    (InsWork.start 1 5 true true).stage = .offset ∧ (∀ b, (mainWork b).stage = .main ∧ (mainWork b).locate = b) ∧
    (∃ (r : HeldResult) (s safe : State) (b : NetBody) (ts : List (Nat × Rail)), r = ⟨.pass, 100, 10, 0, 100000, 0⟩ ∧
      s = insulating 4 (InsWork.start 1 5 true true) r 499999 ∧ safe = { s with hv := { s.hv with
        rail := .safe, holdTimer := none, limitTimer := none, held := none, values := none } } ∧
      b = ⟨5, [10, 11], true, none, []⟩ ∧ s.store.nets = [] ++ ⟨b, crc16 b.bytes, false⟩ :: [] ∧ 0 < b.num ∧
      b.num ≤ 5 ∧ b.hv = true ∧ ts = b.members.map (fun p => (p, Rail.hv)) ++
        (s.mapped.filter (fun p => decide (s.ownerOf p ≠ some b.num))).map (fun p => (p, Rail.collect)) ∧
      safe.sendsTo ts 1) ∧
    (insulating 3 (mainWork true) ⟨.irLow, 5000, 60000, 150, 83333, 0⟩ 150).unassigned = [12] ∧
    (∃ (r : HeldResult) (s safe : State) (ps : List Nat) (ts : List (Nat × Rail)),
      r = ⟨.breakdown .trip, 4000, 2000000, 0, 0, 0⟩ ∧ s = insulating 4 (mainWork true) r 150 ∧
      safe = { s with hv := { s.hv with
        rail := .safe, holdTimer := none, limitTimer := none, held := none, values := none } } ∧
      ps = [12, 13] ∧ s.unassigned = ps ∧ 2 ≤ ps.length ∧ 1 ≤ HvSet.reset.budget ∧
      ts = (mainWork true).members.map (fun p => (p, Rail.hv)) ++ (ps.take 1).map (fun p => (p, Rail.collect)) ∧
      safe.sendsTo ts 1) ∧
    (locating.stage = .locate ∧ locating.units = [⟨.point 12, [12], false⟩, ⟨.point 13, [13], false⟩] ∧
      locating.search = ⟨⟨0, 2⟩, [⟨1, 1⟩], ⟨0, 1⟩, .lower⟩ ∧ HvSet.reset.budget = locating.locCount + 1) := by
  refine ⟨by decide, by decide, rfl, by decide, ⟨_, _, _, _, _, rfl, rfl, rfl, rfl, by decide +kernel, by decide +kernel,
    by decide +kernel, rfl, rfl, sendsTo_first _ _ (by decide +kernel)⟩, by decide +kernel,
    ⟨_, _, _, _, _, rfl, rfl, rfl, rfl, by decide +kernel, by decide +kernel, by decide +kernel, rfl,
      sendsTo_first _ _ (by decide +kernel)⟩, by decide +kernel⟩

/-- The last sample of four of a low-voltage step of a job, in a mode and a range, with the sums so far. -/
def judging (b : State) (w : Work) (m : LmuMode) (r : CRange) (codes v i : Nat) : State :=
  { withJobs [jobOf (.learn false) .running] b with
    lmu := { Lmu.reset with
      phase := .sample, issuer := .engine, mode := m, range := r, count := 3, codeSum := codes, vSum := v, iSum := i }
    engine := { Engine.reset with phase := .measure, work := w } }

/-- A LEARN whose root is P10, with the rest of the pool and what the step at hand is doing. -/
def learning (pool : List Nat) (d : LvStep) : LearnWork :=
  ⟨false, pool, some 10, pool, [], 500, ⟨⟨0, 1⟩, [], ⟨0, 1⟩, .popped⟩, 1, d⟩

theorem judging_meets (b : State) (w : Work) (m : LmuMode) (r : CRange) (codes v i : Nat)
    (h : ∃ st, b = { wired with store := st }) :
    ∃ s : State, s = judging b w m r codes v i ∧ s.lmu.phase = .sample ∧ s.lmu.issuer = .engine ∧
      s.lmu.n = s.lmu.count + 1 ∧ s.engine.phase = .measure ∧ s.engine.toAppend = [] ∧
      s.queue.jobs = [jobOf (.learn false) .running] ∧
      (jobOf (.learn false) .running).snapshot = some ⟨Limits.reset, HvSet.reset⟩ ∧ s.log.entries.length + 9 ≤ 256 ∧
      s.log.reporting = true ∧ s.printer.state ≠ .idle ∧ s.matrix.slot = .empty ∧ s.hv.rail = .safe ∧
      s.link.exchange = none ∧ (∀ x ∈ s.host.slots, x.phase ≠ .waiting) ∧ s.lmu.mode = m ∧ s.engine.work = w := by
  obtain ⟨st, rfl⟩ := h
  exact ⟨_, rfl, rfl, rfl, rfl, rfl, rfl, rfl, rfl, (by decide : 0 + 9 ≤ 256), rfl,
   (by decide : PrinterState.off ≠ .idle), rfl, rfl, rfl, fun _ h => (nomatch h), rfl, rfl⟩

/-- At 1 mA the mean 3199 is 99,969 mΩ, below the open limit of 100,000, and 3200 is 100,000. At the limit of 1000 kΩ a
pool is isolated; at 999 it leaks. -/
theorem witness_CheckJudgesAPairByItsBand_learn :
    (∃ (s : State) (w : LearnWork), w = learning [11] .confirm ∧ s = judging wired (.learn w) .cont .r1 9597 0 0 ∧
      w.doing = .confirm ∧ w.root = some 10 ∧ w.pool = [11] ∧ w.list = [11] ∧ w.found = [] ∧ w.search.g = ⟨0, 1⟩ ∧
      w.search.stack = [] ∧ (∀ r ∈ s.store.nets, r.body.num < w.nextNum) ∧ s.store.nets.length < 1024 ∧
      (∀ e ∈ s.store.owner, e.2 ≠ w.nextNum) ∧ s.leadOf 10 = 0 ∧ s.leadOf 11 = 0) ∧
    (4 ≤ 10 ∧ 10 < 11 ∧ rawResistance (meanOf (9597 + 3199) 4) .r1 = 99969 ∧ 99969 < Limits.reset.opn ∧
      rawResistance (meanOf (9600 + 3200) 4) .r1 = 100000 ∧ Limits.reset.opn ≤ 100000 ∧ Limits.reset.pass < 100000 ∧
      (3199#16).toNat ≠ 65535 ∧ (3200#16).toNat ≠ 65535) ∧
    (∀ pool, pool = [] ∨ pool = [11] ∨ pool = [11, 12] → ∃ (s : State) (w : LearnWork), w = learning pool .whole ∧
      s = judging wired (.learn w) .iso .r100 0 30000 30000 ∧ w.doing = .whole ∧ w.root = some 10 ∧ w.pool = pool) ∧
    ((meanOf (30000 + min 10000 10000) 4, meanOf (30000 + min 10000 10000000) 4) = (10000, 10000) ∧
      isoResistance 10000 10000 = some 1000 ∧ Limits.reset.iso ≤ 1000) ∧
    (∃ ts : List (Nat × Rail), ts = (11, .source) :: [12].map (fun x => (x, .ret)) ∧
      (judging wired (.learn (learning [11, 12] .whole)) .iso .r100 0 30000 30000).sendsTo ts 1) ∧
    (meanOf (30040 + min 10000 10000000) 4 = 10010 ∧ isoResistance 10000 10010 = some 999 ∧ 999 < Limits.reset.iso) ∧
    (∃ (s : State) (w : LearnWork) (ts : List (Nat × Rail)), w = learning [11] .whole ∧ w.list = [11] ∧
      ts = [(10, .source), (11, .ret)] ∧ s = judging wired (.learn w) .iso .r100 0 30000 30040 ∧ s.sendsTo ts 1) ∧
    ∃ (s : State) (w : LearnWork) (ts : List (Nat × Rail)), w = learning [11, 12] .whole ∧ 2 ≤ w.list.length ∧
      ts = (10, .source) :: (w.list.take 1).map (fun x => (x, .ret)) ∧
      s = judging wired (.learn w) .iso .r100 0 30000 30040 ∧ s.sendsTo ts 1 := by
  refine ⟨⟨_, _, rfl, rfl, by decide +kernel⟩, by decide, ?_, by decide, ⟨_, rfl, sendsTo_first _ _ (by decide +kernel)⟩,
    by decide, ⟨_, _, _, rfl, rfl, rfl, rfl, sendsTo_first _ _ (by decide +kernel)⟩,
    ⟨_, _, _, rfl, by decide, rfl, rfl, sendsTo_first _ _ (by decide +kernel)⟩⟩
  rintro pool (rfl | rfl | rfl) <;> exact ⟨_, _, rfl, rfl, rfl, rfl, rfl⟩

/-- A common point that is not the first of the points, and one that is; and the last point. -/
theorem witness_CheckJudgesAPairByItsBand_leads :
    (∀ (k : Nat) (points : List Nat) (common q : Nat), (k, points, common, q) = (0, [10, 11], 12, 10) ∨
        (k, points, common, q) = (1, [10, 11], 10, 11) →
      ∃ (s : State) (w : LeadsWork) (more : List Nat) (ts : List (Nat × Rail)), w = ⟨points, common, q, none, 0⟩ ∧
        s = judging wired (.leads w) .cont .r100 14404 0 0 ∧ w.lead = none ∧ 4 ≤ w.common ∧ s.store.wf = true ∧
        ((w.points = q :: more ∧ k = 0) ∨ (w.points = w.common :: q :: more ∧ k = 1)) ∧ q ≠ w.common ∧
        ts = [(q, .source), (w.common, .ret)] ∧ s.sendsTo ts 1) ∧
    (∃ (s : State) (w : LeadsWork), w = ⟨[10, 11], 10, 11, some 750, 1⟩ ∧
      s = judging wired (.leads w) .cont .r100 14404 0 0 ∧ w.lead = some 750 ∧ w.points.drop w.next = [11] ∧ 4 ≤ 11 ∧
      s.store.wf = true) := by
  refine ⟨?_, ⟨_, _, rfl, rfl, by decide +kernel⟩⟩
  rintro k points common q (h | h) <;> cases h
  · exact ⟨_, _, [11], _, rfl, rfl, rfl, by decide, by decide +kernel, .inl ⟨rfl, rfl⟩, by decide, rfl,
      sendsTo_first _ _ (by decide +kernel)⟩
  · exact ⟨_, _, [], _, rfl, rfl, rfl, by decide, by decide +kernel, .inr ⟨rfl, rfl⟩, by decide, rfl,
      sendsTo_first _ _ (by decide +kernel)⟩

/-- Seven and eight host marks at a threshold of 8, and eight with DEFECT_READY pending. -/
theorem witness_HostReadsTheLog_waiting :
    (∀ n, ({ rest0 with log := logOf n } : State).ready ∧ ({ rest0 with log := logOf n } : State).queue.jobs = []) ∧
    (1 ≤ (logOf 7).entries.countP (·.hostMark) ∧ (logOf 7).entries.countP (·.hostMark) < 8 ∧
      8 ≤ (logOf 8).entries.countP (·.hostMark) ∧ rest0.events.pending.getLsbD 9 = false) ∧
    (∃ s : State, s = { rest0 with log := logOf 8, events := { Events.reset with pending := 0x200#12 } } ∧ s.ready ∧
      s.events.pending.getLsbD 9 = true) ∧
    ∀ b ∈ [decide (1 ≤ 1), decide (1 ≤ 8 ∧ 8 ≤ 64), decide (10 ≤ 10000 ∧ 10000 ≤ 10000)], b = true :=
  ⟨fun _ => ⟨⟨rfl, rfl, rfl, rfl, rfl, rfl⟩, rfl⟩, by decide +kernel,
   ⟨_, rfl, ⟨rfl, rfl, rfl, rfl, rfl, rfl⟩, by decide +kernel⟩, by decide⟩

theorem witness_PrinterRequestsFollowTheState_release :
    ((printerIn .idle).printer.state ≠ .held ∧ (printerIn .idle).printer.state ≠ .holdPending ∧
      (printerIn .paperOut).printer.state ≠ .held ∧ (printerIn .paperOut).printer.state ≠ .holdPending) ∧
    (∃ (s : State) (e : Entry), e = ⟨1, true, true, { kind := .interlock, system := true }⟩ ∧ s = { printerIn .held with
        printer := { Printer.reset with state := .held }, log := logOf 2 } ∧ s.ready ∧ s.printer.state = .held ∧
      s.printer.current = none ∧ s.log.entries.find? (·.printMark) = some e ∧ e.data.net = none ∧
      e.data.otherNet = none ∧ e.data.counts = none ∧ s.pins.ppaper = true ∧ s.pins.pready ≠ s.printer.cfg.lowTrue) ∧
    ∃ s : State, s = { printerIn .held with pins := ⟨false, true, false, false⟩ } ∧ s.ready ∧ s.printer.state = .held ∧
      s.printer.current = some 3 ∧ s.pins.ppaper = false :=
  ⟨by decide +kernel, ⟨_, _, rfl, rfl, ⟨rfl, rfl, rfl, rfl, rfl, rfl⟩, by decide +kernel⟩,
   ⟨_, rfl, ⟨rfl, rfl, rfl, rfl, rfl, rfl⟩, by decide +kernel⟩⟩

theorem witness_FormatterSendsItsLines_lines :
    99999999 < 10 ^ 20 ∧ 10 ≤ 10 ∧ (∀ e ∈ [(1, ([] : List Byte)), (3, [])], e.2 = []) := by decide

theorem witness_LowVoltageResultsStayInTheirRanges :
    65534 ≤ 65534 ∧ 10000 ≤ 10000 ∧ isoResistance 10000 1 = some 10000000 ∧ 0 < 1 := by decide

theorem witness_LogTakesRefusesOrDrops :
    ({ rest0 with log := logOf 248 } : State).log.reporting = true ∧
    (decide (({ rest0 with log := logOf 247 } : State).log.entries.length + 9 ≤ 256) = true ∧
      decide (({ rest0 with log := logOf 248 } : State).log.entries.length + 9 ≤ 256) = false) ∧
    (decide (({ rest0 with log := logOf 255 } : State).log.entries.length < 256) = true ∧
      decide (({ rest0 with log := logOf 256 } : State).log.entries.length < 256) = false) := by decide +kernel

/-! ### Witnesses: reads of nets, the whole blocked set, the starts of jobs, the phases of a CHECK -/

/-- EXACT and NEXT at their bounds with net 5 alone; net 5 struck by an upset, and found CORRUPT. -/
theorem witness_ReadNetAnswersTheContents_selected :
    (netted.store.wf = true ∧ ∀ n, n = 0 ∨ n = 5 → n ≤ 1025 ∧ ∃ r ∈ netted.store.nets, n ≤ r.body.num ∧
      (∀ x ∈ netted.store.nets, n ≤ x.body.num → r.body.num ≤ x.body.num) ∧ r.corrupt = false ∧
      r.check = crc16 r.body.bytes) ∧
    (∀ n, n = 6 ∨ n = 1025 → n ≤ 1025 ∧ ∀ x ∈ netted.store.nets, x.body.num < n) ∧
    (∃ s : State, s = after (.storageUpset 5 1#16) netted ∧ s.ready ∧ s.store.wf = true ∧ s.printer.state ≠ .idle ∧
      s.log.reporting = true ∧ s.log.entries.length < 256 ∧ ∃ r ∈ s.store.nets, s.findNet 5 = some r ∧
        r.corrupt = false ∧ r.check ≠ crc16 r.body.bytes) ∧
    (∃ s : State, s = { netted with store := netted.store.markCorrupt 5 } ∧ s.ready ∧ s.store.wf = true ∧
      ∃ r ∈ s.store.nets, s.findNet 5 = some r ∧ r.corrupt = true) ∧
    (0 < 65536 ∧ 1024 < 1025 ∧ 1025 < 65536 ∧ 1025 < 1026 ∧ 1 < (0x02#8).toNat) := by
  refine ⟨⟨by decide +kernel, ?_⟩, ?_, ⟨_, rfl, ⟨rfl, rfl, rfl, rfl, rfl, rfl⟩, by decide +kernel⟩,
    ⟨_, rfl, ⟨rfl, rfl, rfl, rfl, rfl, rfl⟩, by decide +kernel⟩, by decide⟩
  · rintro n (rfl | rfl) <;> decide +kernel
  · rintro n (rfl | rfl) <;> decide +kernel

/-- A channel of a PRESENT position and one of an empty one; and the empty one alone. -/
theorem witness_UnblockRemovesAndOpens_all :
    (∃ (u : State) (cs : List Chan) (t : Taken), cs = [⟨1, 0⟩, ⟨3, 127⟩] ∧ blocked0.matrix.blocked = cs ∧
      (∀ d ∈ cs, 1 ≤ d.pos) ∧ t = ⟨⟨.opens cs, .unblock⟩, cs.map (fun d => (d, .opn))⟩ ∧
      u = { blocked0 with
        matrix := { blocked0.matrix with blocked := [] }
        lmu := blocked0.lmu.sourceOff, queue := { blocked0.queue with stallWait := false } } ∧
      u.changeList t 1 ≠ [] ∧ (blocked0.posn 1).state = .present ∧ blocked0.link.exchange = none) ∧
    ∃ (s u : State) (cs : List Chan) (t : Taken), cs = [⟨3, 127⟩] ∧
      s = { wired with matrix := { wired.matrix with blocked := cs } } ∧ s.ready ∧ s.jobActive = false ∧
      (∀ d ∈ cs, 1 ≤ d.pos) ∧ t = ⟨⟨.opens cs, .unblock⟩, cs.map (fun d => (d, .opn))⟩ ∧
      u = { s with
        matrix := { s.matrix with blocked := [] }
        lmu := s.lmu.sourceOff, queue := { s.queue with stallWait := false } } ∧
      ∀ p, 1 ≤ p → p ≤ 32 → u.changeList t p = [] ∨ (s.posn p).state ≠ .present :=
  ⟨⟨_, _, _, rfl, rfl, by decide, rfl, rfl, by decide +kernel⟩,
   ⟨_, _, _, _, rfl, rfl, ⟨rfl, rfl, rfl, rfl, rfl, rfl⟩, rfl, by decide, rfl, rfl, positions_of (by decide +kernel)⟩⟩

/-- The job of a step that is already in DISCHARGE. -/
theorem witness_AbortAndResumeReachTheJob_discharge :
    ∃ s : State, s = { inState .running .hvStep rest0 with hv := { rest0.hv with
        rail := .discharge, limitTimer := some 2000, held := some ⟨.pass, 5003, 2350, 0, 21001, 0⟩ } } ∧ s.ready ∧
      s.queue.jobs = [jobOf .refcheck .running] ∧ s.engine.phase = .hvStep ∧ s.engine.abort = none ∧
      s.matrix.slot = .empty ∧ s.hv.rail = .discharge := ⟨_, rfl, ⟨rfl, rfl, rfl, rfl, rfl, rfl⟩, by decide +kernel⟩

theorem fits_of (s : State) (l : List Nat)
    (h : ∀ p ∈ l, ((s.chanOf p).map (fun c => s.reachable c && !s.isBlocked c)).getD false = true) (p : Nat)
    (hp : p ∈ l) : ∃ c, s.chanOf p = some c ∧ s.reachable c = true ∧ s.isBlocked c = false := by
  have h1 := h p hp
  cases hc : s.chanOf p with
  | none => rw [hc] at h1; simp at h1
  | some c => rw [hc] at h1; exact ⟨c, rfl, by simpa using h1⟩

/-- A common point below its partner, and one that is the last of the points. -/
theorem witness_HeadJobStartsOrIsRefused_leads :
    ∀ c q, (c, q) = (10, 11) ∨ (c, q) = (4095, 10) →
      ∃ (s : State) (ts : List (Nat × Rail)), s = withJobs [jobOf (.learnLeads c) .queued] wired ∧ 4 ≤ c ∧
        c ∈ s.mapped ∧ q ≠ c ∧ tableWf s.store.map = true ∧ q ∈ s.mapped ∧
        (∀ p ∈ s.mapped, ∃ c, s.chanOf p = some c ∧ s.reachable c = true ∧ s.isBlocked c = false) ∧
        (if c < q then ∀ p ∈ s.mapped, c < p → q ≤ p else ∀ p ∈ s.mapped, q ≤ p ∧ p ≤ c) ∧
        ts = [(c, .source), (q, .ret)] ∧ s.sendsTo ts 1 := by
  rintro c q (h | h) <;> cases h <;>
    exact ⟨_, _, rfl, by decide, by decide +kernel, by decide, by decide +kernel, by decide +kernel,
      fits_of _ _ (by decide +kernel), by decide +kernel, rfl, sendsTo_first _ _ (by decide +kernel)⟩

/-- Net 5 with two members in each phase, and with one member. -/
theorem witness_HeadJobStartsOrIsRefused_check :
    ∀ (ms : List Nat) (ph : CheckPhases) (cs : List Nat) (ts : List (Nat × Rail)),
      (ms, cs) = ([10, 12], [11, 4095]) ∧ (ph ≠ .iso ∧ ts = [(10, .source), (12, .ret)] ∨
        ph = .iso ∧ ts = ms.map (fun p => (p, Rail.source)) ++ cs.map (fun p => (p, Rail.ret))) ∨
      (ms, cs) = ([10], [11, 12, 4095]) ∧ ph = .both ∧
        ts = ms.map (fun p => (p, Rail.source)) ++ cs.map (fun p => (p, Rail.ret)) →
      ∃ (s : State) (b : NetBody), b = ⟨5, ms, true, none, []⟩ ∧
        s = withJobs [jobOf (.check 1 5 ph) .queued] { wired with store := wired.store.putNet b } ∧
        s.reference ≠ .failed ∧ s.store.wf = true ∧
        (∀ r ∈ s.store.nets, r.corrupt = false ∧ r.check = crc16 r.body.bytes) ∧
        (s.store.nets.map (·.body)).filter (fun b => decide (1 ≤ b.num ∧ b.num ≤ 5)) = [b] ∧
        (∀ p ∈ b.members ++ s.mapped, ∃ c, s.chanOf p = some c ∧ s.reachable c = true ∧ s.isBlocked c = false) ∧
        cs = s.mapped.filter (fun p => decide (∀ m ∈ s.ownerOf p, b.num < m)) ∧ s.sendsTo ts 1 := by
  rintro ms ph cs ts (⟨h, hp⟩ | ⟨h, rfl, rfl⟩) <;> cases h
  · rcases hp with ⟨hp, rfl⟩ | ⟨rfl, rfl⟩
    · cases ph
      · exact ⟨_, _, rfl, rfl, by decide, by decide +kernel, by decide +kernel, by decide +kernel,
          fits_of _ _ (by decide +kernel), by decide +kernel, sendsTo_first _ _ (by decide +kernel)⟩
      · exact absurd rfl hp
      · exact ⟨_, _, rfl, rfl, by decide, by decide +kernel, by decide +kernel, by decide +kernel,
          fits_of _ _ (by decide +kernel), by decide +kernel, sendsTo_first _ _ (by decide +kernel)⟩
    · exact ⟨_, _, rfl, rfl, by decide, by decide +kernel, by decide +kernel, by decide +kernel,
        fits_of _ _ (by decide +kernel), by decide +kernel, sendsTo_first _ _ (by decide +kernel)⟩
  · exact ⟨_, _, rfl, rfl, by decide, by decide +kernel, by decide +kernel, by decide +kernel,
      fits_of _ _ (by decide +kernel), by decide +kernel, sendsTo_first _ _ (by decide +kernel)⟩

/-- Net 5 of one member on an HV-64; and with every channel of the card OPEN already. -/
theorem witness_HeadJobStartsOrIsRefused_insulate :
    ∀ im : List (Nat × Rail), im = imageReset ∨ im = imageReset ++ (List.range 64).map (fun k => (128 + k, .opn)) →
      ∃ (s : State) (b : NetBody), b = ⟨5, [10], true, none, []⟩ ∧
        s = withJobs [jobOf (.insulate 1 5 true true) .queued] { hvStation 2 with
          store := (hvStation 2).store.putNet b, matrix := { (hvStation 2).matrix with image := im } } ∧
        s.reference ≠ .failed ∧ s.store.wf = true ∧
        (∀ r ∈ s.store.nets, r.corrupt = false ∧ r.check = crc16 r.body.bytes) ∧
        (∃ r ∈ s.store.nets, 1 ≤ r.body.num ∧ r.body.num ≤ 5 ∧ r.body.hv = true) ∧
        (∀ p ∈ s.mapped, ∃ c, s.chanOf p = some c ∧ s.reachable c = true ∧ s.isBlocked c = false) ∧
        (∀ r ∈ s.store.nets, ∀ p ∈ r.body.members, p ∈ s.mapped ∧ ∀ c ∈ s.chanOf p, (s.posn c.pos).kind = .hv64) ∧
        (im = imageReset → s.sendsTo [] 1) ∧ (im ≠ imageReset → s.unchangedBy []) := by
  rintro im (rfl | rfl)
  · exact ⟨_, _, rfl, rfl, by decide, by decide +kernel, by decide +kernel, by decide +kernel,
      fits_of _ _ (by decide +kernel), by decide +kernel, fun _ => sendsTo_first _ _ (by decide +kernel),
      fun h => absurd rfl h⟩
  · exact ⟨_, _, rfl, rfl, by decide, by decide +kernel, by decide +kernel, by decide +kernel,
      fits_of _ _ (by decide +kernel), by decide +kernel, fun h => absurd h (by decide +kernel),
      fun _ => unchanged_of _ _ (by decide +kernel) (by decide +kernel)⟩

/-- A CHECK of net `n` up to net `last`. -/
def checking (n last : Nat) (members : List Nat) (cands : List Cand) (q : Search) (d : LvStep) : CheckWork :=
  { CheckWork.start 1 last .both with
    num := n, members := members, passLimit := 2000, cands := cands, search := q, doing := d, gRes := 500 }

/-- The candidates that are not excluded. -/
def fresh (l : List Nat) : List Cand := l.map (fun p => ⟨p, false⟩)

/-- The last pair with the isolation phase to come; a pair of three members with one left; a root found OPEN to both. -/
theorem witness_CheckJudgesAPairByItsBand_sweep :
    (∃ (s : State) (w : CheckWork) (cs : List Nat) (ts : List (Nat × Rail)),
      w = checking 5 5 [10, 12] [] Search.empty .sweep ∧ s = judging netted (.check w) .cont .r100 14404 0 0 ∧
      w.phases = .both ∧ w.rootIdx = 0 ∧ w.next = 1 ∧ w.openList = [] ∧ cs = [11, 4095] ∧
      cs = s.mapped.filter (fun p => decide (∀ m ∈ s.ownerOf p, w.num < m)) ∧
      ts = [(10, .source), (12, .source)] ++ cs.map (fun p => (p, .ret)) ∧ s.sendsTo ts 1 ∧
      ∀ r ∈ s.store.nets, r.body.num ≤ w.num ∨ w.last < r.body.num) ∧
    (∃ (s : State) (w : CheckWork) (ts : List (Nat × Rail)), w = checking 5 5 [10, 11, 12] [] Search.empty .sweep ∧
      s = judging wired (.check w) .cont .r100 14404 0 0 ∧ w.members[w.rootIdx]? = some 10 ∧
      w.members[w.next]? = some 11 ∧ w.members[w.next + 1]? = some 12 ∧ ts = [(10, .source), (12, .ret)] ∧
      s.sendsTo ts 1) ∧
    ∃ (s : State) (w : CheckWork) (ts : List (Nat × Rail)),
      w = { checking 5 5 [10, 11, 12] [] Search.empty .sweep with next := 2, openList := [⟨11, some 100000, .r1⟩] } ∧
      s = judging wired (.check w) .cont .r1 9600 0 0 ∧ w.rootIdx = 0 ∧ s.leadOf 10 = 0 ∧ s.leadOf 12 = 0 ∧
      rawResistance (meanOf (9600 + 3200) 4) .r1 = 100000 ∧ w.passLimit < 100000 ∧ Limits.reset.opn ≤ 100000 ∧
      ts = [(11, .source), (12, .ret)] ∧ s.sendsTo ts 1 := by
  refine ⟨⟨_, _, _, _, rfl, rfl, rfl, rfl, rfl, rfl, rfl, by decide +kernel, rfl, sendsTo_first _ _ (by decide +kernel),
    by decide +kernel⟩, ⟨_, _, _, rfl, rfl, rfl, rfl, rfl, rfl, sendsTo_first _ _ (by decide +kernel)⟩,
    ⟨_, _, _, rfl, rfl, rfl, by decide +kernel, by decide +kernel, by decide, by decide, by decide, rfl,
      sendsTo_first _ _ (by decide +kernel)⟩⟩

/-- The members of a run, as the statement says them. -/
def runMembers (w : CheckWork) (r : Run) : List Nat :=
  (((w.cands.drop r.first).take r.count).filter (fun c => !c.excluded)).map (·.pt)

/-- An isolated group at each place of the search: popped, the last; upper, and lower with an empty upper half, which give
an aggregate; lower and popped with a group to follow. The readings are those of the LEARN witness: 1000 and 999 kΩ. -/
theorem witness_CheckJudgesAPairByItsBand_isolated :
    (∃ w : CheckWork, w = checking 5 5 [10] (fresh [11, 12]) ⟨⟨0, 1⟩, [], ⟨1, 1⟩, .popped⟩ .group ∧
      w.search.which = .popped ∧ (∀ q ∈ w.search.stack, runMembers w q = []) ∧
      ∀ r ∈ wired.store.nets, r.body.num ≤ w.num ∨ w.last < r.body.num) ∧
    (∃ w : CheckWork, w = checking 5 5 [10] (fresh [11, 12]) ⟨⟨0, 2⟩, [], ⟨1, 1⟩, .upper⟩ .group ∧
      runMembers w ⟨0, 2⟩ = 11 :: [12] ∧ w.search.which = .upper ∧ w.search.stack = []) ∧
    (∃ w : CheckWork, w = checking 5 5 [10] (fresh [11, 12] ++ [⟨4095, true⟩])
        ⟨⟨0, 3⟩, [⟨2, 1⟩], ⟨0, 2⟩, .lower⟩ .group ∧ runMembers w ⟨0, 3⟩ = 11 :: [12] ∧ w.search.which = .lower ∧
      w.search.stack.drop 1 = [] ∧ runMembers w ⟨0 + (3 + 1) / 2, 3 - (3 + 1) / 2⟩ = []) ∧
    ∀ h, h = Which.lower ∨ h = Which.popped → ∃ (s : State) (w : CheckWork) (r : Run) (ts : List (Nat × Rail)),
      w = checking 5 5 [10] (fresh [11, 12]) ⟨⟨0, 2⟩, r :: [], ⟨0, 1⟩, h⟩ .group ∧
      s = judging wired (.check w) .iso .r100 0 30000 30000 ∧ r = ⟨0 + (2 + 1) / 2, 2 - (2 + 1) / 2⟩ ∧
      runMembers w r ≠ [] ∧
      ts = w.members.map (fun p => (p, .source)) ++ (runMembers w r).map (fun p => (p, .ret)) ∧ s.sendsTo ts 1 := by
  refine ⟨⟨_, rfl, by decide +kernel⟩, ⟨_, rfl, by decide +kernel⟩, ⟨_, rfl, by decide +kernel⟩, ?_⟩
  rintro h (rfl | rfl) <;>
    exact ⟨_, _, _, _, rfl, rfl, rfl, by decide +kernel, rfl, sendsTo_first _ _ (by decide +kernel)⟩

/-- A leak of a whole net and of a group, with one member to resolve and with two to split. -/
theorem witness_CheckJudgesAPairByItsBand_leaks :
    ∀ d, d = LvStep.whole ∨ d = LvStep.group →
      (∃ (s : State) (w : CheckWork) (r : Run) (st : List Run) (ts : List (Nat × Rail)),
        w = checking 5 5 [10] (fresh [11]) ⟨⟨0, 1⟩, [], ⟨0, 1⟩, .popped⟩ d ∧ r = ⟨0, 1⟩ ∧ st = [] ∧
        s = judging wired (.check w) .iso .r100 0 30000 30040 ∧
        ((w.doing = .whole ∧ r = ⟨0, w.cands.length⟩ ∧ st = []) ∨
          (w.doing = .group ∧ r = w.search.testing ∧ st = w.search.stack)) ∧
        runMembers w r = [11] ∧ ts = [(10, .source), (11, .ret)] ∧ s.sendsTo ts 1) ∧
      ∃ (s : State) (w : CheckWork) (r lo : Run) (st : List Run) (ts : List (Nat × Rail)),
        w = checking 5 5 [10] (fresh [11, 12]) ⟨⟨0, 2⟩, [], ⟨0, 2⟩, .popped⟩ d ∧ r = ⟨0, 2⟩ ∧ st = [] ∧
        s = judging wired (.check w) .iso .r100 0 30000 30040 ∧
        ((w.doing = .whole ∧ r = ⟨0, w.cands.length⟩ ∧ st = []) ∨
          (w.doing = .group ∧ r = w.search.testing ∧ st = w.search.stack)) ∧
        2 ≤ (runMembers w r).length ∧ lo = ⟨r.first, (r.count + 1) / 2⟩ ∧ runMembers w lo ≠ [] ∧
        ts = w.members.map (fun p => (p, .source)) ++ (runMembers w lo).map (fun p => (p, .ret)) ∧ s.sendsTo ts 1 := by
  rintro d (rfl | rfl) <;>
    exact ⟨⟨_, _, _, _, _, rfl, rfl, rfl, rfl, by decide +kernel, by decide +kernel, rfl,
        sendsTo_first _ _ (by decide +kernel)⟩,
      ⟨_, _, _, _, _, _, rfl, rfl, rfl, rfl, by decide +kernel, by decide +kernel, rfl, by decide +kernel, rfl,
        sendsTo_first _ _ (by decide +kernel)⟩⟩

/-- A confirming step, of a point of no net with and without a group that waits; of a point of net 5, whose other member is
excluded from the group that waits; of a point of net 5 marked CORRUPT; and the OVER of range 1 mA. -/
theorem witness_CheckJudgesAPairByItsBand_confirm :
    (∀ r, r = CRange.r100 ∨ r = CRange.r1 → ∃ (s : State) (w : CheckWork),
      w = checking 1 1 [10] (fresh [11]) ⟨⟨0, 1⟩, [], ⟨0, 1⟩, .popped⟩ .confirm ∧
      s = judging wired (.check w) .cont r 14404 0 0 ∧ runMembers w w.search.g = [11] ∧ s.ownerOf 11 = none ∧
      (∀ x ∈ s.store.nets, x.body.num ≤ w.num ∨ w.last < x.body.num) ∧ (∀ q ∈ w.search.stack, runMembers w q = []) ∧
      s.lmu.range = r ∧ (0xFFFF#16).toNat = 65535 ∧ (4802#16).toNat ≠ 65535) ∧
    (∃ (s : State) (w : CheckWork) (ts : List (Nat × Rail)),
      w = checking 1 1 [10] (fresh [11, 12]) ⟨⟨0, 1⟩, ⟨1, 1⟩ :: [], ⟨0, 1⟩, .lower⟩ .confirm ∧
      s = judging wired (.check w) .cont .r100 14404 0 0 ∧ runMembers w w.search.g = [11] ∧ s.ownerOf 11 = none ∧
      runMembers w ⟨1, 1⟩ ≠ [] ∧
      ts = w.members.map (fun p => (p, .source)) ++ (runMembers w ⟨1, 1⟩).map (fun p => (p, .ret)) ∧ s.sendsTo ts 1) ∧
    (∃ (s : State) (w w1 : CheckWork) (b : NetBody), b = ⟨5, [10, 12], true, none, []⟩ ∧
      w = checking 1 1 [11] (fresh [10, 12]) ⟨⟨0, 1⟩, [⟨1, 1⟩], ⟨0, 1⟩, .lower⟩ .confirm ∧
      s = judging netted (.check w) .cont .r100 14404 0 0 ∧ runMembers w w.search.g = [10] ∧ s.ownerOf 10 = some 5 ∧
      s.findNet 5 = some ⟨b, crc16 b.bytes, false⟩ ∧ w1 = { w with
        cands := w.cands.map (fun d => if d.pt ∈ b.members ∧ d.pt ≠ 10 then { d with excluded := true } else d) } ∧
      (∀ q ∈ w.search.stack, runMembers w1 q = []) ∧
      ∀ x ∈ s.store.nets, x.body.num ≤ w.num ∨ w.last < x.body.num) ∧
    ∃ (s : State) (w : CheckWork) (r : NetRec),
      w = checking 1 1 [11] (fresh [10]) ⟨⟨0, 1⟩, [], ⟨0, 1⟩, .popped⟩ .confirm ∧
      s = judging { netted with store := netted.store.markCorrupt 5 } (.check w) .cont .r100 14404 0 0 ∧
      r = ⟨⟨5, [10, 12], true, none, []⟩, crc16 (NetBody.bytes ⟨5, [10, 12], true, none, []⟩), true⟩ ∧
      runMembers w w.search.g = [10] ∧ s.ownerOf 10 = some 5 ∧ s.findNet 5 = some r ∧ r.corrupt = true := by
  refine ⟨?_, ⟨_, _, _, rfl, rfl, by decide +kernel, by decide +kernel, by decide +kernel, rfl,
    sendsTo_first _ _ (by decide +kernel)⟩, ⟨_, _, _, _, rfl, rfl, rfl, by decide +kernel, by decide +kernel,
    by decide +kernel, rfl, by decide +kernel, by decide +kernel⟩, ⟨_, _, _, rfl, rfl, rfl, by decide +kernel⟩⟩
  rintro r (rfl | rfl) <;> exact ⟨_, _, rfl, rfl, by decide +kernel⟩


/-! ### Witnesses: clauses on records, waits and the log's reserve -/

/-- A settling MANUAL_SWITCH with a READ_QUEUE in the other slot; and a READ_QUEUE received behind a reply on its way. -/
theorem witness_TwoSlotsHoldTheRequests_timed :
    (∃ (s : State) (t : Taken), t = ⟨⟨.allOpen, .manual⟩, []⟩ ∧
      s = withSlots [⟨0x14#8, 1#8, [], .carried⟩, ⟨0x24#8, 2#8, [], .waiting⟩] (settlingFor .manual) ∧
      s.matrix.slot = .settling t [0] 1 ∧ t.plan.issuer = .manual ∧ s.matrix.waiting = [] ∧ s.host.tx = none ∧
      s.host.slots = [⟨0x14#8, 1#8, [], .carried⟩, ⟨0x24#8, 2#8, [], .waiting⟩] ∧ s.queue.jobs = [] ∧
      s.enumerating = false ∧ s.link.startup = false) ∧
    ∃ s : State, s = sendingOut true [⟨0x19#8, 1#8, [], .sending [0x00#8]⟩] false 0 ∧
      s.host.slots = [⟨0x19#8, 1#8, [], .sending [0x00#8]⟩] ∧ s.host.tx = some ⟨true, [0xA5#8]⟩ ∧
      s.host.carried = none ∧ s.host.assembly = [] ∧ s.queue.jobs = [] ∧ s.enumerating = false ∧
      s.link.startup = false :=
  ⟨⟨_, _, rfl, rfl, by decide +kernel⟩, _, rfl, by decide +kernel⟩

theorem witness_RaisingAnEvent_busy :
    ((sendingOut false [] false 0).events.isPending .linkError = false ∧
      (sendingOut false [] false 0).events.isMasked .linkError = false ∧
      (sendingOut false [] false 0).host.tx = some ⟨false, [0xA5#8]⟩) ∧
    (withSlots [⟨0x12#8, 1#8, [], .ready [0x00#8]⟩] rest0).host.slots = [⟨0x12#8, 1#8, [], .ready [0x00#8]⟩] ∧
    (withSlots [⟨0x12#8, 1#8, [], .ready [0x00#8]⟩] rest0).host.tx = none := by decide +kernel

/-- The end of an attention exchange while an enumeration waits for it. -/
def waitingFor (f : Sent) : State := during f { rest0 with link := { rest0.link with enumPhase := .waitLink } }

theorem witness_EnumerationBreaksAndAssigns_waits :
    ((during .attnQuery rest0).ready ∧ (during .attnQuery rest0).jobActive = false ∧
      (during .attnQuery rest0).matrix.slot = .empty ∧ (during .attnQuery rest0).hv.rail = .safe ∧
      (during .attnQuery rest0).link.exchange = some ⟨.attnQuery, false, false⟩) ∧
    (∃ s : State, s = { during .attnQuery rest0 with link := { (during .attnQuery rest0).link with startup := true } } ∧
      s.link.startup = true ∧ s.link.enumPhase = .idle ∧ s.link.exchange = some ⟨.attnQuery, false, false⟩) ∧
    ((waitingFor (.attnClear 1)).link.enumPhase = .waitLink ∧
      (waitingFor (.attnClear 1)).accepted (replyFrame 0x82#8 1 false []) = some (.attnClear 1)) ∧
    (waitingFor (.status 2)).accepted (replyFrame 0x86#8 2 false [0#8, 0#8]) = some (.status 2) ∧
    ∀ r ∈ List.range' 3 30, (waitingFor (.status 2)).sweepable r = false :=
  ⟨⟨⟨rfl, rfl, rfl, rfl, rfl, rfl⟩, by decide +kernel⟩, ⟨_, rfl, by decide +kernel⟩, by decide +kernel,
   by decide +kernel, by decide +kernel⟩

/-- An IDENT at position 32; and an ENUMERATE whose frozen roster expects a card at position 2, where none answers. -/
theorem witness_EnumerationCloses_ident :
    ((assigning 32).accepted (replyFrame 0x81#8 32 false [2#8, 0#8, 0#8, 0#8, 9#8, 3#8]) = some (.assign 32) ∧
      (replyFrame 0x81#8 32 false [2#8, 0#8, 0#8, 0#8, 9#8, 3#8]).payload = [2#8, 0#8, 0#8, 0#8, 9#8, 3#8] ∧
      (assigning 32).link.enumHost = false ∧ (assigning 32).host.slots = []) ∧
    ∃ (s : State) (e1 e2 : RosterEntry), e1 = ⟨.present, .lv128, 7, 2, .lv128⟩ ∧ e2 = ⟨.lost, .hv64, 9, 3, .hv64⟩ ∧
      s = { assigning 2 with
        host := { rest0.host with slots := [⟨0x12#8, 1#8, [], .carried⟩], carried := some .enumerate }
        link := { (assigning 2).link with enumHost := true }
        matrix := { rest0.matrix with
          frozen := true, roster := e1 :: e2 :: List.replicate 30 RosterEntry.empty } } ∧
      s.link.enumHost = true ∧ s.host.slots = [⟨0x12#8, 1#8, [], .carried⟩] ∧ (∀ r ∈ s.host.slots, r.phase ≠ .waiting) ∧
      s.printer.state ≠ .idle ∧ s.log.reporting = true ∧
      (after .cardReplyTimeout s).log.entries.map (·.data) = [{
        kind := .rosterMismatch, system := true, position := some 2, cause := some (.roster .hv64 .none) }] ∧
      replyOf (after .cardReplyTimeout s) = [0x00#8, 0x01#8] ++ [1#8, 1#8, 7#8, 0#8, 0#8, 0#8, 2#8, 1#8] ++
        [0#8, 0#8, 0#8, 0#8, 0#8, 0#8, 0#8, 2#8] ++ List.replicate 240 0#8 :=
  ⟨by decide +kernel, _, _, _, rfl, rfl, rfl, by decide +kernel⟩

/-- The second expiry of an ATTN_CLEAR; of a STATUS, at position 2 the last of its sweep; and of an ATTN_QUERY. -/
def resent (f : Sent) : State :=
  { rest0 with link := { rest0.link with exchange := some ⟨f, false, true⟩, replyTimer := some 4 } }

theorem witness_ReplyTimerResendsOnceThenLoses_attention :
    (∀ f, (resent f).link.exchange = some ⟨f, false, true⟩ ∧ (resent f).link.replyTimer = some 4 ∧
      (resent f).matrix.roster.length = 32 ∧ tableWf (resent f).matrix.image = true ∧ (resent f).jobActive = false ∧
      (resent f).link.enumPhase = .idle ∧ (resent f).matrix.slot = .empty ∧ (resent f).printer.state ≠ .idle ∧
      (resent f).log.reporting = true ∧ ∀ r ∈ (resent f).host.slots, r.phase ≠ .waiting) ∧
    (∀ r ∈ List.range' 3 30, (resent (.status 2)).sweepable r = false) ∧
    ((resent .attnQuery).sweepable 1 = true ∧ ∀ r, 1 ≤ r → r < 1 → (resent .attnQuery).sweepable r = false) :=
  ⟨fun _ => ⟨rfl, rfl, rfl, (by decide +kernel : tableWf rest0.matrix.image = true), rfl, rfl, rfl,
     (by decide : PrinterState.off ≠ .idle), rfl,
     fun _ h => nomatch h⟩, by decide +kernel, rfl, fun r _ _ => by omega⟩

/-- Each cause of a STATUS_REPLY; the last channel of an LV-128, and the first one past an HV-64. -/
theorem witness_StatusSweepGoesOnToTheNext_causes :
    ∀ c : Byte, c = 1#8 ∨ c = 2#8 ∨ c = 3#8 → ∃ s : State, s = during (.status 1) rest0 ∧ c ≠ 0#8 ∧
      s.accepted (replyFrame 0x86#8 1 false [c, 127#8]) = some (.status 1) ∧ s.jobActive = false ∧ (1 ≤ 1 ∧ 1 ≤ 32) ∧
      s.matrix.roster.length = 32 ∧ tableWf s.matrix.image = true ∧ (∀ r ∈ s.host.slots, r.phase ≠ .waiting) ∧
      (127#8).toNat < (s.posn 1).kind.channels ∧ ¬ (64#8).toNat < (s.posn 2).kind.channels ∧
      s.printer.state ≠ .idle ∧ s.log.reporting = true ∧ s.log.entries.length < 256 := by
  rintro c (rfl | rfl | rfl) <;> exact ⟨_, rfl, by decide +kernel⟩

/-- A full log but two entries, and a job in each state that the limit of a discharge can find. -/
def atLimit (st : JobState) (ph : StepPhase) (slot : Slot) : State :=
  { withJobs [{ jobOf .refcheck st with ended := some ⟨.abortedHost, .nothing⟩ }] State.reset with
    log := logOf 254
    matrix := { Matrix.reset with slot := slot }
    engine := { Engine.reset with work := .refHv true, phase := ph } }

theorem witness_DischargeEndsInSafeOrFault_job :
    (∀ st ph slot, (atLimit st ph slot).hv.rail = .discharge ∧ (atLimit st ph slot).hv.limitTimer = some 2000 ∧
      (∃ j, (atLimit st ph slot).queue.jobs = [j] ∧ j.state = st ∧ j.ended = some ⟨.abortedHost, .nothing⟩) ∧
      (atLimit st ph slot).matrix.waiting = [] ∧ (atLimit st ph slot).printer.state ≠ .idle ∧
      (atLimit st ph slot).log.reporting = true ∧ (atLimit st ph slot).log.entries.length + 2 ≤ 256 ∧
      (atLimit st ph slot).matrix.slot = slot ∧ (atLimit st ph slot).engine.phase = ph ∧
      (atLimit st ph slot).engine.abort = none) ∧
    (after .dischargeLimit (atLimit .running .hvStep .empty)).queue.jobs = [] ∧
    (after .dischargeLimit (atLimit .ending .between (.held ⟨⟨.allOpen, .jobEnd⟩, []⟩))).matrix.slot =
      .held ⟨⟨.allOpen, .nobody⟩, []⟩ :=
  ⟨fun _ _ _ => ⟨rfl, rfl, ⟨_, rfl, rfl, rfl⟩, rfl, (by decide : PrinterState.off ≠ .idle), rfl,
     by show (logOf 254).entries.length + 2 ≤ 256; decide +kernel, rfl, rfl, rfl⟩, by decide +kernel, by decide +kernel⟩

/-- A QUEUED head with every other condition met; it waits for log space from 248 entries on. -/
theorem witness_QueueRequestsKeepTheQueue_head :
    (∃ (s : State) (j : Job), j = jobOf .refcheck .queued ∧ s = withJobs [j] { rest0 with log := logOf 248 } ∧
      s.queue.jobs = j :: [] ∧ j.state = .queued ∧ s.queue.hold = false ∧ s.hv.rail ≠ .fault ∧ s.link.startup = false ∧
      s.enumerating = false ∧ s.host.slots = [] ∧ 256 < s.log.entries.length + 9 ∧ s.queue.stallWait = false) ∧
    (logOf 247).entries.length + 9 ≤ 256 ∧ rest0.queue.jobs = [] := ⟨⟨_, _, rfl, rfl, by decide +kernel⟩, by decide +kernel⟩

/-- A breakdown of the step of REFCHECK, whose job runs with a snapshot. -/
theorem witness_RefcheckSetsTheReferenceState_breakdown :
    ∃ (s : State) (r : HeldResult), r = ⟨.breakdown .trip, 4000, 2000000, 0, 0, 0⟩ ∧ s = refDone r ∧
      (∃ c, r.verdict = .breakdown c) ∧ r.verdict ≠ .interrupted ∧ s.log.reporting = true ∧ s.printer.state ≠ .idle ∧
      (after .safeHoldExpiry s).reference = .failed ∧
      (after .safeHoldExpiry s).log.entries.map (fun e => (e.data.kind, e.data.cause)) =
        [(RecKind.refFail, some .refBreakdown)] := ⟨_, _, rfl, rfl, ⟨_, rfl⟩, by decide +kernel⟩

/-- From 248 entries on a test record finds fewer than nine free: a HIGH of P10 and P12 at 1,501 mΩ against a pass limit of
1,500, and a low-voltage step of REFCHECK at 1,959 mΩ (mean 6268) or 2,041 mΩ (mean 6530). -/
theorem witness_CheckJudgesAPairByItsBand_full :
    (∃ (s : State) (w : CheckWork), w = { checking 5 5 [10, 12] [] Search.empty .sweep with passLimit := 1500 } ∧
      s = { judging wired (.check w) .cont .r100 14404 0 0 with log := logOf 248 } ∧
      256 < s.log.entries.length + 9 ∧ s.engine.toAppend = [] ∧ (4802#16).toNat ≠ 65535 ∧ w.doing = .sweep ∧
      w.members[w.rootIdx]? = some 10 ∧ w.members[w.next]? = some 12 ∧ s.leadOf 10 = 0 ∧ s.leadOf 12 = 0 ∧
      rawResistance (meanOf (14404 + 4802) 4) .r100 = 1501 ∧ w.passLimit < 1501 ∧ 1501 < Limits.reset.opn ∧
      (after (.contConversion 4802#16) s).queue.jobs.map (·.state) = [.logWait] ∧
      (after (.contConversion 4802#16) s).log = s.log) ∧
    (∀ m, m = 6268 ∨ m = 6530 → ∃ s : State,
      s = { judging wired .refLv .cont .r100 (m * 3) 0 0 with log := logOf 248 } ∧ s.engine.work = .refLv ∧
      256 < s.log.entries.length + 9 ∧ (BitVec.ofNat 16 m).toNat ≠ 65535 ∧
      (rawResistance (meanOf (m * 3 + m) 4) .r100 < 1960 ∨ 2040 < rawResistance (meanOf (m * 3 + m) 4) .r100) ∧
      (after (.contConversion (BitVec.ofNat 16 m)) s).reference = .failed) := by
  refine ⟨⟨_, _, rfl, rfl, by decide +kernel⟩, ?_⟩
  rintro m (rfl | rfl) <;> exact ⟨_, rfl, by decide +kernel⟩

/-- The low-voltage step of REFCHECK at 1,960 and 2,040 mΩ, which pass, with a card to open and with none; and OVER. -/
theorem witness_CheckJudgesAPairByItsBand_refcheck :
    (∀ m, m = 6271 ∨ m = 6529 → 1960 ≤ rawResistance (meanOf (m * 3 + m) 4) .r100 ∧
      rawResistance (meanOf (m * 3 + m) 4) .r100 ≤ 2040) ∧
    (∃ s : State, s = judging wired .refLv .cont .r100 18813 0 0 ∧ s.engine.work = .refLv ∧
      s.queue.jobs = [jobOf (.learn false) .running] ∧ s.sendsTo refHvTargets 1) ∧
    (∃ s : State, s = judging bare .refLv .cont .r1 0 0 0 ∧ s.engine.work = .refLv ∧ s.lmu.range = .r1 ∧
      (∀ x ∈ refHvTargets, s.checkTarget x = none)) ∧
    ∃ s : State, s = judging { bare with matrix := { bare.matrix with image := imageReset } } .refLv .cont .r1 0 0 0 ∧
      (∀ x ∈ refHvTargets, s.checkTarget x = none) ∧ s.refChanges (s.stepTaken refHvTargets) ≠ [] ∧
      ∀ p, 1 ≤ p → p ≤ 32 → s.changeList (s.stepTaken refHvTargets) p = [] := by
  refine ⟨by rintro m (rfl | rfl) <;> decide, ⟨_, rfl, rfl, rfl, sendsTo_first _ _ (by decide +kernel)⟩,
    ⟨_, rfl, by decide +kernel⟩, _, rfl, by decide +kernel, by decide +kernel, positions_of (by decide +kernel)⟩

/-- A CHECK in LOG_WAIT with its OPEN pending and the next pair, P10 and P12, to come. -/
def stalled (b : State) (l : Log) (p : Printer) : State :=
  { withJobs [jobOf (.check 5 5 .cont) .logWait] b with
    log := l, printer := p
    engine := { Engine.reset with
      work := .check { checking 5 5 [10, 11, 12] [] Search.empty .sweep with next := 2 }, ctl := .sweep
      pendingRec := some { kind := .opn, system := false, tag := some 7, net := some 5 } } }

/-- A log of `n` entries with both marks behind one with a host mark or a print mark alone. -/
def markedLog (host : Bool) (n : Nat) : Log :=
  { Log.reset with
    entries := ⟨300, !host, host, { kind := .interlock, system := true }⟩ ::
      (List.range n).map (fun k => ⟨k + 1, true, true, { kind := .interlock, system := true }⟩) }

/-- What is left when the marked entry has lost its mark. -/
theorem markedLog_left : ∀ n, n = 247 ∨ n = 248 →
    (∃ es, es = ((markedLog true n).entries.filter (·.hostMark)).take (1#8).toNat ∧
      (((markedLog true n).entries.map
        (fun e => if e.seq ∈ es.map (·.seq) then { e with hostMark := false } else e)).filter
        (fun e => e.printMark || e.hostMark)).length = n) ∧
    (((markedLog true n).entries.map (fun e => { e with hostMark := false })).filter (·.printMark)).length = n ∧
    (((markedLog false n).entries.map (fun e => { e with printMark := false })).filter (·.hostMark)).length = n ∧
    (((markedLog false n).entries.map (fun e => if e.seq = 300 then { e with printMark := false } else e)).filter
      (fun e => e.printMark || e.hostMark)).length = n ∧
    n < (markedLog true n).entries.length ∧ n < (markedLog false n).entries.length := by
  rintro n (rfl | rfl) <;> exact ⟨⟨_, rfl, by decide +kernel⟩, by decide +kernel⟩

theorem witness_HostReadsTheLog_release :
    (∀ l p, ∃ (s : State) (w : CheckWork) (ts : List (Nat × Rail)), s = stalled wired l p ∧ s.ready ∧
      s.queue.jobs = [jobOf (.check 5 5 .cont) .logWait] ∧ (jobOf (.check 5 5 .cont) .logWait).state = .logWait ∧
      (∃ snap, (jobOf (.check 5 5 .cont) .logWait).snapshot = some snap) ∧ (∃ rec, s.engine.pendingRec = some rec) ∧
      s.engine.toAppend = [] ∧ s.engine.work = .check w ∧ s.engine.ctl = .sweep ∧ w.doing = .sweep ∧
      w.members[w.rootIdx]? = some 10 ∧ w.members[w.next]? = some 12 ∧ ts = [(10, .source), (12, .ret)] ∧
      s.sendsTo ts 1 ∧ s.log = l ∧ s.printer = p ∧ ∀ r ∈ s.host.slots, r.phase ≠ .waiting) ∧
    (1 ≤ (1#8).toNat ∧ (1#8).toNat ≤ 16 ∧ (1 ≤ 64 ∧ 64 ≤ 64) ∧ (10 ≤ 10000 ∧ 10000 ≤ 10000)) ∧
    ((∀ h n, (markedLog h n).reporting = true) ∧ (printerIn .paperOut).printer.state ≠ .idle ∧
      (printerIn .paperOut).printer.state ≠ .off ∧ (printerIn .held).printer.state = .held) ∧
    ∃ p : Printer, p = ⟨.holdPending, PrinterConfig.reset, some 300, [[0x0A#8]], 0, 0, false, none⟩ ∧
      p.current = some 300 ∧ p.waiting = false ∧ p.state = .holdPending ∧
      (p.lines.getD p.line []).length ≤ p.pos + 1 ∧ p.lines.length ≤ p.line + 1 ∧
      (after (.printerCharSent true true) (stalled wired (markedLog false 247) p)).queue.jobs.map (·.state) = [.running] ∧
      (after (.printerCharSent true true) (stalled wired (markedLog false 248) p)).queue.jobs.map (·.state) = [.logWait] :=
  ⟨fun _ _ => ⟨_, _, _, rfl, ⟨rfl, rfl, rfl, rfl, rfl, rfl⟩, rfl, rfl, ⟨_, rfl⟩, ⟨_, rfl⟩, rfl, rfl, rfl, rfl, rfl, rfl, rfl,
     sendsTo_first _ _ (by decide +kernel : wired.hv.rail = .safe ∧ wired.matrix.slot = .empty ∧
       wired.link.exchange = none ∧ (∀ x ∈ [(10, Rail.source), (12, Rail.ret)], wired.checkTarget x = none) ∧
       wired.changeList (wired.stepTaken [(10, .source), (12, .ret)]) 1 ≠ [] ∧ (wired.posn 1).state = .present),
     rfl, rfl, fun _ h => nomatch h⟩, by decide,
   ⟨fun _ _ => rfl, by decide +kernel⟩, _, rfl, by decide +kernel⟩

/-- The release of the pending record by a fetch, by reporting turned off and by a flush, with 247 and 248 entries left. -/
theorem test_releaseTakesTheRecord : ∀ n, n = 247 ∨ n = 248 → ∀ c : Instr × State,
    c = (.fetchRecords 1#8 [1#8], stalled wired (markedLog true n) (printerIn .paperOut).printer) ∨
      c = (.setReporting 1#8 ([0x00#8] ++ le1 8 ++ le2 500), stalled wired (markedLog true n) (printerIn .paperOut).printer) ∨
      c = (.printFlush 1#8 [], stalled wired (markedLog false n) (printerIn .held).printer) →
    (after c.1 c.2).queue.jobs.map (·.state) = [if n = 247 then .running else .logWait] := by
  rintro n (rfl | rfl) c (rfl | rfl | rfl) <;> decide +kernel
end Sys2Proof.Tests
end

section
/-! PROOFS. The net table's writes: LOAD_NET (R12, R13) and CLEAR_NETS (R14). -/

namespace Sys2Proof.Machine

open Sys2Proof

/-! ### A request that writes the wire-list store -/

/-- The wire-list store and the receive slots are apart: what a block writes into the store while its request is carried
out stands in the state in which the reply goes out. -/
theorem exec_answered_store (r : Request) (tag : Byte) (p : List Byte) (s : State) (st : Store) (rep : List Byte)
    (hs : s.ready) (hp : p.length ≤ 1024)
    (hc : carry r p (s.handed r.code tag p) = ({ s.handed r.code tag p with store := st }, some rep)) :
    exec (requestInstr r tag p) s = .next (State.replying { s with store := st } r.code tag p rep) :=
  exec_answered r tag p s { s.handed r.code tag p with store := st } rep hs hp hc rfl

/-! ### CLEAR_NETS (R14) -/

theorem doClearNets_of_idle (s : State) (h : s.jobActive = false) :
    doClearNets [] s = ({ s with store := s.store.clearNets }, reply .ok []) := by
  simp [doClearNets, h]

theorem doClearNets_of_active (s : State) (h : s.jobActive = true) : doClearNets [] s = (s, reply .busy []) := by
  simp [doClearNets, h]

theorem doClearNets_cons (b : Byte) (p : List Byte) (s : State) :
    doClearNets (b :: p) s = (s, reply .badLength []) := rfl

theorem State.ownerOf_of_owner_nil (s : State) (h : s.store.owner = []) (p : Nat) : s.ownerOf p = none := by
  simp [State.ownerOf, h, tget]

theorem State.findNet_of_nets_nil (s : State) (h : s.store.nets = []) (n : Nat) : s.findNet n = none := by
  simp [State.findNet, h]

/-- With an empty owner index every mapped point is unassigned. -/
theorem State.unassigned_of_owner_nil (s : State) (h : s.store.owner = []) : s.unassigned = s.mapped := by
  simp [State.unassigned, State.ownerOf_of_owner_nil s h]

/-- Settles O25: the three branches of the request, each answered in the event of its arrival (R14, R182). -/
theorem clearNetsEmptiesTheTable : Obligations.ClearNetsEmptiesTheTable := by
  intro tag s hs
  refine ⟨fun hidle => ⟨_, rfl, ?_, ?_, ?_, ?_, rfl⟩, fun hact => ?_, fun b p hp => ?_⟩
  · refine exec_answered_store .clearNets tag [] s s.store.clearNets [0x00#8] hs (by simp) ?_
    exact congrArg answered (doClearNets_of_idle (s.handed Request.clearNets.code tag []) hidle)
  · exact State.findNet_of_nets_nil _ rfl
  · exact State.ownerOf_of_owner_nil _ rfl
  · exact State.unassigned_of_owner_nil _ rfl
  · refine exec_answered_store .clearNets tag [] s s.store [0x01#8] hs (by simp) ?_
    exact congrArg answered (doClearNets_of_active (s.handed Request.clearNets.code tag []) hact)
  · refine exec_answered_store .clearNets tag (b :: p) s s.store [0x05#8] hs (by simpa using hp) ?_
    exact congrArg answered (doClearNets_cons b p (s.handed Request.clearNets.code tag (b :: p)))

/-! ### Sorted members -/

theorem insPoint_pairwise (p : Nat) : ∀ l : List Nat, l.Pairwise (· < ·) → (insPoint p l).Pairwise (· < ·)
  | [], _ => by simp [insPoint]
  | q :: r, h => by
    obtain ⟨hq, hr⟩ := List.pairwise_cons.1 h
    unfold insPoint
    split
    · next hlt =>
      refine List.pairwise_cons.2 ⟨fun x hx => ?_, h⟩
      rcases List.mem_cons.1 hx with rfl | hx
      · exact hlt
      · exact Nat.lt_trans hlt (hq x hx)
    · split
      · exact h
      · refine List.pairwise_cons.2 ⟨fun x hx => ?_, insPoint_pairwise p r hr⟩
        rcases (mem_insPoint p x r).1 hx with rfl | hx
        · omega
        · exact hq x hx

theorem sortPoints_pairwise : ∀ l : List Nat, (sortPoints l).Pairwise (· < ·)
  | [] => List.Pairwise.nil
  | p :: l => insPoint_pairwise p _ (sortPoints_pairwise l)

/-! ### The net table and the owner index after a net is stored (R13) -/

theorem State.findNet_putNet (s : State) (b : NetBody) (k : Nat) :
    State.findNet { s with store := s.store.putNet b } k =
      if k = b.num then some ⟨b, crc16 b.bytes, false⟩ else s.findNet k := by
  have hfind := find_insNet ⟨b, b.checkValue, false⟩ k (s.store.nets.filter (fun r => r.body.num != b.num))
    (fun q hq => by simpa using (List.mem_filter.1 hq).2)
  refine hfind.trans ?_
  by_cases hk : k = b.num
  · simp only [if_pos hk]; rfl
  · rw [if_neg hk, if_neg hk, List.find?_filter]
    have hkept (r : NetRec) : (r.body.num ≠ b.num ∧ r.body.num = k) ↔ r.body.num = k :=
      and_iff_right_of_imp fun hr => hr ▸ hk
    simp [hkept, State.findNet, beq_eq_decide]

theorem State.ownerOf_putNet (s : State) (b : NetBody) (hw : s.store.wf = true) (hm : ∀ p ∈ b.members, 4 ≤ p) (p : Nat) :
    State.ownerOf { s with store := s.store.putNet b } p =
      if p ∈ b.members then some b.num else if s.ownerOf p = some b.num then none else s.ownerOf p := by
  by_cases h4 : p < 4
  · have hp : p ∉ b.members := fun hp => by have := hm p hp; omega
    simp [State.ownerOf, h4, hp]
  · simp only [State.ownerOf, if_neg h4, Store.putNet_owner _ b hw]
    cases tget s.store.owner p <;> simp [Option.filter, ite_not]

/-! ### An accepted LOAD_NET -/

/-- What R12 asks of a net before it is stored, apart from the nets that stand in the table. -/
structure NetBody.Loadable (b : NetBody) : Prop where
  num : 1 ≤ b.num ∧ b.num ≤ 1024
  count : 1 ≤ b.members.length ∧ b.members.length ≤ 256
  nodup : b.members.Nodup
  members : ∀ p ∈ b.members, 4 ≤ p ∧ p ≤ 4095
  override : ∀ v, b.override = some v → 10 ≤ v ∧ v ≤ 1000000
  labelLength : b.label.length ≤ 8
  labelChars : ∀ c ∈ b.label, 0x20 ≤ c.toNat ∧ c.toNat ≤ 0x7E

/-- A net as the table holds it: its members in ascending order (R13). -/
def NetBody.sorted (b : NetBody) : NetBody := { b with members := sortPoints b.members }

/-- The fields of the LOAD_NET that offers a net. Its payload is laid out as the bytes of the check value are (R12, R16). -/
def NetBody.request (b : NetBody) : LoadNet :=
  ⟨b.num, b.members, b.hv.toNat, b.override.isSome.toNat, b.override.getD 0, b.label⟩

theorem NetBody.Loadable.override_le {b : NetBody} (h : b.Loadable) : b.override.getD 0 ≤ 1000000 := by
  cases ho : b.override with
  | none => simp
  | some v => exact (h.override v ho).2

theorem flatMap_le2_length (l : List Nat) : (l.flatMap le2).length = 2 * l.length := by
  simp [List.length_flatMap, Nat.mul_comm]

theorem NetBody.Loadable.bytes_length {b : NetBody} (h : b.Loadable) : b.bytes.length ≤ 1024 := by
  have hcount := h.count.2
  have hlabel := h.labelLength
  simp only [NetBody.bytes, List.length_append, flatMap_le2_length, le1_length, le2_length, le4_length,
    flagByte_length]
  omega

theorem flagByte_eq_singleton (v : Bool) : ∃ c : Byte, flagByte v = [c] ∧ c.toNat = v.toNat := by
  cases v <;> exact ⟨_, rfl, rfl⟩

/-- The payload of a LOAD_NET reads back as the fields it was written from. -/
theorem NetBody.Loadable.parseLoadNet_bytes {b : NetBody} (h : b.Loadable) :
    parseLoadNet b.bytes = some b.request := by
  have hnum := u16_of b.num (by have := h.num.2; omega)
  have hcount := u16_of b.members.length (by have := h.count.2; omega)
  have hval := u32_of (b.override.getD 0) (by have := h.override_le; omega)
  have hlen := byte_toNat b.label.length (by have := h.labelLength; omega)
  have hpoints := fun rest => takePoints_of b.members rest (fun p hp => by have := (h.members p hp).2; omega)
  obtain ⟨hvByte, hhv, hhvNat⟩ := flagByte_eq_singleton b.hv
  obtain ⟨ovByte, hov, hovNat⟩ := flagByte_eq_singleton b.override.isSome
  simp only [NetBody.bytes, hhv, hov, List.append_assoc, le2, le4, le1, List.cons_append, List.nil_append,
    parseLoadNet, hcount]
  simp only [hpoints, hlen, if_true, hnum, hval, hhvNat, hovNat]
  rfl

theorem NetBody.Loadable.inRange {b : NetBody} (h : b.Loadable) : b.request.inRange = true := by
  have hpoints : b.members.all harnessPoint = true := by
    simpa [harnessPoint] using h.members
  have hlabel : b.label.all (fun c => decide (0x20 ≤ c.toNat) && decide (c.toNat ≤ 0x7E)) = true := by
    simpa using h.labelChars
  have hover : b.override.isSome.toNat = 0 ∨ 10 ≤ b.override.getD 0 ∧ b.override.getD 0 ≤ 1000000 := by
    cases ho : b.override with
    | none => exact .inl rfl
    | some v => exact .inr (h.override v ho)
  simp only [LoadNet.inRange, Bool.and_eq_true, Bool.or_eq_true, beq_iff_eq, decide_eq_true_eq]
  exact ⟨⟨⟨⟨⟨⟨⟨⟨⟨h.num, h.count.1⟩, h.count.2⟩, hpoints⟩, h.nodup⟩, Bool.toNat_le _⟩, Bool.toNat_le _⟩, hover⟩,
    h.labelLength⟩, hlabel⟩

/-- The net a LOAD_NET stores is the one it offers, its members in ascending order. -/
theorem NetBody.request_body (b : NetBody) : b.request.body = b.sorted := by
  obtain ⟨num, ms, hv, ov, label⟩ := b
  cases hv <;> cases ov <;> rfl

theorem LoadNet.conflict_eq_none_of_free (q : LoadNet) (s : State)
    (h : ∀ p ∈ q.members, s.ownerOf p = none ∨ s.ownerOf p = some q.num) : q.conflict s = none := by
  refine List.findSome?_eq_none_iff.2 fun p hp => ?_
  rcases h p ((mem_sortPoints p q.members).1 hp) with ho | ho <;> simp [ho]

theorem doLoadNet_of_accepted (p : List Byte) (q : LoadNet) (s : State) (hparse : parseLoadNet p = some q)
    (hidle : s.jobActive = false) (hrange : q.inRange = true) (hfree : q.conflict s = none) :
    doLoadNet p s =
      ({ s with store := s.store.putNet q.body }, reply .ok (le2 q.num ++ le2 (s.store.putNet q.body).nets.length)) := by
  simp [doLoadNet, hparse, hidle, hrange, hfree]

theorem NetBody.Loadable.doLoadNet_bytes {b : NetBody} (h : b.Loadable) (s : State) (hidle : s.jobActive = false)
    (hfree : ∀ p ∈ b.members, s.ownerOf p = none ∨ s.ownerOf p = some b.num) :
    doLoadNet b.bytes s =
      ({ s with store := s.store.putNet b.sorted },
        reply .ok (le2 b.num ++ le2 (s.store.putNet b.sorted).nets.length)) := by
  rw [doLoadNet_of_accepted b.bytes b.request s h.parseLoadNet_bytes hidle h.inRange
    (b.request.conflict_eq_none_of_free s hfree), b.request_body]
  rfl

/-- A LOAD_NET of a net that R12 admits stores it with its members sorted, and answers the number of nets stored. -/
theorem NetBody.Loadable.exec_loadNet {b : NetBody} (h : b.Loadable) (tag : Byte) (s : State) (hs : s.ready)
    (hidle : s.jobActive = false) (hfree : ∀ p ∈ b.members, s.ownerOf p = none ∨ s.ownerOf p = some b.num) :
    exec (.loadNet tag b.bytes) s =
      .next (State.replying { s with store := s.store.putNet b.sorted } 0x0C#8 tag b.bytes
        ([0x00#8] ++ le2 b.num ++ le2 (s.store.putNet b.sorted).nets.length)) :=
  exec_answered_store .loadNet tag b.bytes s _ _ hs h.bytes_length
    (congrArg answered (h.doLoadNet_bytes (s.handed Request.loadNet.code tag b.bytes) hidle hfree))

/-- Settles O24: the payload reads back as the net offered, the request is accepted, and storing the net with its members
sorted writes the table and the owner index as R13 says. -/
theorem loadNetStoresTheNet : Obligations.LoadNetStoresTheNet := by
  intro tag n ms hv ov label s hs hidle hwf hn1 hn1024 hms1 hms256 hnodup hpoints hov hlen hlabel hfree
  let b : NetBody := ⟨n, ms, hv, ov, label⟩
  have hload : b.Loadable := ⟨⟨hn1, hn1024⟩, ⟨hms1, hms256⟩, hnodup, hpoints, hov, hlen, hlabel⟩
  have hmem (p : Nat) : p ∈ b.sorted.members ↔ p ∈ ms := mem_sortPoints p ms
  have hharness : ∀ p ∈ b.sorted.members, 4 ≤ p := fun p hp => (hpoints p ((hmem p).1 hp)).1
  refine ⟨b.bytes, b.sorted, (s.store.putNet b.sorted).nets, (s.store.putNet b.sorted).owner, _, rfl, rfl, rfl,
    hload.exec_loadNet tag s hs hidle hfree, hmem, sortPoints_pairwise ms, ?found, ?others, ?owner⟩
  case found => exact (State.findNet_putNet s b.sorted n).trans (if_pos rfl)
  case others => exact fun k hk => (State.findNet_putNet s b.sorted k).trans (if_neg hk)
  case owner =>
    intro p
    have howner := State.ownerOf_putNet s b.sorted hwf hharness p
    simp only [hmem] at howner
    exact howner

end Sys2Proof.Machine
end

section
/-! PROOFS. The values and judgments of a low-voltage measurement (R64, R65, R67, R69, R70). -/

namespace Sys2Proof.Machine

open Sys2Proof

/-! ### The raw resistance (R64) -/

theorem rawResistance_le_of_le {m n : Nat} (h : m ≤ n) (r : CRange) : rawResistance m r ≤ rawResistance n r :=
  Nat.div_le_div_right (Nat.add_le_add_right (Nat.mul_le_mul_right 3125 h) (r.divisor / 2))

/-- Code 65535 being the over-range code, these are the largest values of the three ranges. -/
theorem rawResistance_largest : rawResistance 65534 .r100 = 20479 ∧ rawResistance 65534 .r10 = 204794 ∧
    rawResistance 65534 .r1 = 2047938 := ⟨rfl, rfl, rfl⟩

/-- Of the three ranges the one of 1 mA reaches furthest. -/
theorem rawResistance_largest_le (r : CRange) : rawResistance 65534 r ≤ 2047938 := by
  cases r <;> simp [rawResistance_largest]

/-! ### Lead compensation (R65) -/

theorem compensated_eq_max (raw a b : Nat) : (compensated raw a b : Int) = max 0 ((raw : Int) - a - b) := by
  unfold compensated
  omega

/-! ### The ISO resistance (R67) -/

@[simp] theorem isoResistance_zero (v : Nat) : isoResistance v 0 = none := rfl

theorem isoResistance_of_pos (v : Nat) {i : Nat} (hi : 0 < i) :
    isoResistance v i = some ((v * 1000 + i / 2) / i) := if_neg hi.ne'

/-- A current that is not 0 is at least 1 nA, so no quotient exceeds that of 10,000 mV over 1 nA. -/
theorem isoResistance_le {v i k : Nat} (hv : v ≤ 10000) (hk : isoResistance v i = some k) : k ≤ 10000000 := by
  rcases Nat.eq_zero_or_pos i with rfl | hi
  · simp at hk
  · rw [isoResistance_of_pos v hi] at hk
    have hdividend : v * 1000 + i / 2 ≤ i * 10000000 := by omega
    exact Option.some.inj hk ▸ Nat.div_le_of_le_mul hdividend

/-! ### The band of a continuity value (R69) and the LEAK judgment (R70) -/

theorem bandOf_eq_connected_iff (v : Option Nat) (pass opn : Nat) :
    bandOf v pass opn = .connected ↔ ∃ r, v = some r ∧ r ≤ pass := by
  cases v with
  | none => simp [bandOf]
  | some r =>
    by_cases hpass : r ≤ pass
    · simp [bandOf, hpass]
    · by_cases hopn : r < opn <;> simp [bandOf, hpass, hopn]

theorem bandOf_eq_high_iff (v : Option Nat) (pass opn : Nat) :
    bandOf v pass opn = .high ↔ ∃ r, v = some r ∧ pass < r ∧ r < opn := by
  cases v with
  | none => simp [bandOf]
  | some r =>
    by_cases hpass : r ≤ pass
    · simp [bandOf, hpass, Nat.not_lt.2 hpass]
    · by_cases hopn : r < opn <;> simp [bandOf, hpass, hopn, Nat.not_le.1 hpass]

theorem bandOf_eq_opn_iff (v : Option Nat) (pass opn : Nat) :
    bandOf v pass opn = .opn ↔ v = none ∨ ∃ r, v = some r ∧ pass < r ∧ opn ≤ r := by
  cases v with
  | none => simp [bandOf]
  | some r =>
    by_cases hpass : r ≤ pass
    · simp [bandOf, hpass, Nat.not_lt.2 hpass]
    · by_cases hopn : r < opn
      · simp [bandOf, hpass, hopn]
      · simp [bandOf, hpass, hopn, Nat.not_le.1 hpass, Nat.not_lt.1 hopn]

@[simp] theorem isLeak_none (limit : Nat) : isLeak none limit = false := rfl

theorem isLeak_iff (r : Option Nat) (limit : Nat) : isLeak r limit = true ↔ ∃ k, r = some k ∧ k < limit := by
  cases r <;> simp [isLeak]

/-- Settles O45: each value and each judgment by its own lemma above, the range divisor being that of Table 4-2. -/
theorem lowVoltageResultsStayInTheirRanges : Obligations.LowVoltageResultsStayInTheirRanges := by
  refine ⟨fun mean r => ⟨r.divisor, by cases r <;> rfl, rfl, fun hmean => ?raw⟩,
    rawResistance_largest, compensated_eq_max,
    fun v i => ⟨fun hi => hi ▸ isoResistance_zero v, isoResistance_of_pos v, fun hv _ => isoResistance_le hv⟩,
    isoResistance_of_pos 10000 Nat.one_pos, isLeak_none,
    fun v pass opn => ⟨bandOf_eq_connected_iff v pass opn, bandOf_eq_high_iff v pass opn, bandOf_eq_opn_iff v pass opn⟩,
    isLeak_iff⟩
  case raw =>
    have hle : rawResistance mean r ≤ rawResistance 65534 r := rawResistance_le_of_le hmean r
    exact ⟨hle, hle.trans (rawResistance_largest_le r)⟩

end Sys2Proof.Machine
end

section
/-! PROOFS. The end of the dwell: the offset, the insulation resistance and the verdict of a high-voltage step
(R112, R117-R119, R126). -/

namespace Sys2Proof.Machine

open Sys2Proof

/-! ### The offset of a step (R112) -/

theorem Hv.offsetFor_eq (h : Hv) (v : StepValues) : h.offsetFor v = if v.offsetMode = .apply then h.offset else 0 := by
  unfold Hv.offsetFor
  cases v.offsetMode <;> rfl

/-! ### The insulation resistance (R118) -/

theorem insulation_of_le (vm : Nat) {im off : Nat} (h : im ≤ off) : insulation vm im off = 99999999 := if_pos h

theorem insulation_of_lt (vm : Nat) {im off : Nat} (h : off < im) :
    insulation vm im off = min 99999999 ((vm * 100000 + (im - off) / 2) / (im - off)) := if_neg (Nat.not_le.2 h)

/-! ### The precedence of the verdicts (R119) -/

theorem verdictOf_of_irLow (v : StepValues) {ir : Nat} (arcs : Nat) (h : ir < v.minIr * 1000) :
    verdictOf v ir arcs = .irLow := if_pos h

/-- A resistance that is not too low leaves the verdict to the arcs, which an arc limit of 0 does not judge. -/
theorem verdictOf_of_irEnough (v : StepValues) {ir : Nat} (arcs : Nat) (h : v.minIr * 1000 ≤ ir) :
    verdictOf v ir arcs = if 0 < v.arcLim ∧ v.arcLim ≤ arcs then .arc else .pass := by
  simp [verdictOf, Nat.not_lt.2 h]

theorem verdictOf_of_arc {v : StepValues} {ir arcs : Nat} (h : v.minIr * 1000 ≤ ir) (hlim : 0 < v.arcLim)
    (harcs : v.arcLim ≤ arcs) : verdictOf v ir arcs = .arc :=
  (verdictOf_of_irEnough v arcs h).trans (if_pos ⟨hlim, harcs⟩)

theorem verdictOf_of_pass {v : StepValues} {ir arcs : Nat} (h : v.minIr * 1000 ≤ ir)
    (hfew : v.arcLim = 0 ∨ arcs < v.arcLim) : verdictOf v ir arcs = .pass :=
  (verdictOf_of_irEnough v arcs h).trans (if_neg (by omega))

/-! ### The dwell expiry -/

/-- With a full history (log 15) the expiry of a running dwell timer in DWELL is the HV unit's own operation. -/
theorem exec_dwellExpiry_of_dwell {v : StepValues} {ms : Nat} {s : State} (hrail : s.hv.rail = .dwell)
    (hvalues : s.hv.values = some v) (htimer : s.hv.dwellTimer = some ms) (hfull : s.hv.history.length = 16) :
    exec .dwellExpiry s = .next { s with hv := s.hv.dwellExpire v } := by
  show execDwellExpiry s = _
  simp [execDwellExpiry, hvalues, htimer, hrail, hfull]

/-- What the expiry writes: the held result, the offset of a MEASURE step and the entry of DISCHARGE; the present
reading, the history and the arc count stand. -/
theorem Hv.dwellExpire_eq (h : Hv) (v : StepValues) : h.dwellExpire v = { h with
    held := some ⟨verdictOf v (insulation h.vMeas h.iMeas (h.offsetFor v)) h.arcs, h.vMeas, h.iMeas, h.offsetFor v,
      insulation h.vMeas h.iMeas (h.offsetFor v), h.arcs⟩
    offset := if v.offsetMode = .measure then h.iMeas else h.offset
    rail := .discharge, target := 0, tickTimer := none, dwellTimer := none, holdTimer := none
    limitTimer := some 2000, cause := .verdict } := rfl

/-- Settles O48: the witnesses are the model's means, offset, resistance and verdict, each by its own lemma above. -/
theorem dwellExpiryFixesTheVerdict : Obligations.DwellExpiryFixesTheVerdict := by
  intro v ms s hrail hvalues htimer hfull
  have hexec := exec_dwellExpiry_of_dwell hrail hvalues htimer hfull
  rw [Hv.dwellExpire_eq] at hexec
  exact ⟨s.hv.vMeas, s.hv.iMeas, s.hv.offsetFor v, insulation s.hv.vMeas s.hv.iMeas (s.hv.offsetFor v),
    verdictOf v (insulation s.hv.vMeas s.hv.iMeas (s.hv.offsetFor v)) s.hv.arcs,
    rfl, rfl, s.hv.offsetFor_eq v, insulation_of_le _, insulation_of_lt _,
    verdictOf_of_irLow v _, verdictOf_of_arc, verdictOf_of_pass, hexec⟩

end Sys2Proof.Machine
end

section
/-! PROOFS. The host link's IDENT (R184) and the ATTN pin (R188). -/

namespace Sys2Proof.Machine

open Sys2Proof

/-! ### A request that changes nothing but the host link -/

/-- A request that its block answers without changing anything: only its slot and the transmit path change (R182). -/
theorem exec_answered_unchanged (r : Request) (tag : Byte) (p : List Byte) (s : State) (rep : List Byte) (hs : s.ready)
    (hp : p.length ≤ 1024) (hc : carry r p (s.handed r.code tag p) = (s.handed r.code tag p, some rep)) :
    exec (requestInstr r tag p) s = .next (s.replying r.code tag p rep) :=
  exec_answered r tag p s (s.handed r.code tag p) rep hs hp hc rfl

/-! ### IDENT (R184) -/

/-- The answer to an IDENT (R184): OK, the part number, the silicon revision, the baud code, the largest payload, and the
capacities of slots, queue and log. -/
theorem doIdent_nil (s : State) :
    doIdent [] s = (s, [0x00#8, 0xA0#8, 0x08#8, Config.siliconRevision]
      ++ le1 s.host.baud ++ [0x00#8, 0x04#8, 2#8, 8#8, 0x00#8, 0x01#8]) := rfl

theorem doIdent_cons (b : Byte) (p : List Byte) (s : State) : doIdent (b :: p) s = (s, [0x05#8]) := rfl

/-- Settles O16: the block answers both forms of the request and changes nothing, and the hand-over of the request
leaves the baud in force. -/
theorem identReportsThePart : Obligations.IdentReportsThePart := by
  intro tag s hs
  refine ⟨?_, fun b p hp => ?_⟩
  · refine exec_answered_unchanged .ident tag [] s _ hs (by simp) ?_
    exact congrArg answered (doIdent_nil (s.handed Request.ident.code tag []))
  · refine exec_answered_unchanged .ident tag (b :: p) s _ hs (by simpa using hp) ?_
    exact congrArg answered (doIdent_cons b p (s.handed Request.ident.code tag (b :: p)))

/-! ### ATTN (R188) -/

theorem Events.mem_visible (v : Events) (n : Nat) :
    n ∈ v.visible ↔ n < 12 ∧ v.pending.getLsbD n = true ∧ v.mask.getLsbD n = false := by
  simp [Events.visible]

theorem Events.attn_iff (v : Events) : v.attn = true ↔
    ∃ n, n < 12 ∧ v.pending.getLsbD n = true ∧ v.mask.getLsbD n = false ∧ v.attnLevel ≤ v.levels.getD n 0 := by
  simp only [Events.attn, List.any_eq_true, Events.mem_visible, decide_eq_true_eq, and_assoc]

/-- No masks, levels or ATTN level raise ATTN while no event is pending. -/
theorem Events.attn_of_pending_zero {v : Events} (h : v.pending = 0#12) : v.attn = false := by
  rw [Bool.eq_false_iff, ne_eq, Events.attn_iff]
  rintro ⟨n, -, hpending, -⟩
  simp [h] at hpending

/-- Settles O14: the pin is the model's level of ATTN, and a hardware reset leaves no event pending. -/
theorem attnFollowsTheEvents : Obligations.AttnFollowsTheEvents :=
  ⟨Events.attn_iff, Events.attn_of_pending_zero rfl⟩

end Sys2Proof.Machine
end

section
/-! PROOFS. What every step keeps: the interlocks, the capacities and the canonical tables. Each invariant is kept by every
primitive change, so by every command (`Keeps.step`); a proof gives the changes that touch the invariant's own fields. -/

namespace Sys2Proof.Machine

open Sys2Proof

/-- A predicate that the primitive changes keep holds in the state a step leads to. -/
theorem Keeps.of_step {P : State → Prop} (K : Keeps P) {s t : State} (h : P s) (hst : Machine.step s = .next t) : P t := by
  obtain ⟨u, hu, hP⟩ := K.step h
  rw [hst] at hu
  cases hu
  exact hP

/-! ### The interlocks (R46, R60, R113) -/

theorem reset_interlocked : State.reset.interlocked :=
  ⟨fun h => absurd h (by decide), fun h => absurd rfl h, fun h => absurd h (by decide)⟩

/-- A busy slot, a source that goes on and a rail that leaves SAFE each meet the other two as the machine finds them. -/
theorem keeps_interlocked : Keeps State.interlocked := by
  constructor
  case ofSlot =>
    rintro s x hx ⟨hslot, hsource, hcover⟩
    refine ⟨fun hbusy => ?_, fun hon => ?_, hcover⟩
    · rcases hx with hx | hx
      · rw [hx] at hbusy; cases hbusy
      · exact hslot hx
    · obtain ⟨hok, hsafe⟩ := s.sourceAllowed_iff.1 (hsource hon)
      rcases hx with hx | hx
      · exact (State.sourceAllowed_iff _).2 ⟨hx, hsafe⟩
      · rw [hok] at hx; cases hx
  case ofBusy =>
    rintro s x hsafe hidle ⟨-, -, hcover⟩
    exact ⟨fun _ => hsafe, fun hon => absurd hidle hon, hcover⟩
  case ofLmu =>
    rintro s l hl ⟨hslot, hsource, hcover⟩
    exact ⟨hslot, fun hon => (hl hon).elim hsource id, hcover⟩
  case ofHv =>
    rintro s h hr hd ⟨hslot, hsource, hcover⟩
    refine ⟨fun hbusy => ?_, fun hon => ?_, fun hdr => ?_⟩
    · by_contra hns
      rcases hr hns with hold | ⟨hok, -⟩
      · exact hold (hslot hbusy)
      · exact absurd hbusy (by simp [hok])
    · obtain ⟨hok, hsafe⟩ := s.sourceAllowed_iff.1 (hsource hon)
      refine (State.sourceAllowed_iff _).2 ⟨hok, ?_⟩
      by_contra hns
      rcases hr hns with hold | ⟨-, hidle⟩
      · exact hold hsafe
      · exact hon hidle
    · rcases hd hdr with hc | ⟨hold, hc⟩
      · exact hc
      · exact hc.trans (hcover hold)
  case ofHead =>
    intro s f _ _ h
    simpa only [State.interlocked, State.sourceAllowed, State.setHead_matrix, State.setHead_hv, State.setHead_lmu] using h
  case ofHardReset => exact fun _ _ => reset_interlocked
  case ofRestart => exact fun _ _ => reset_interlocked
  all_goals intros; assumption

/-- Settles O5, by the changes of slot, source and rail that a command may make. -/
theorem everyStepKeepsTheInterlocks : Obligations.EveryStepKeepsTheInterlocks :=
  fun _ _ h hst => keeps_interlocked.of_step h hst

/-! ### The capacities (R34, R156, R160, R181) -/

theorem reset_withinCapacity : State.reset.withinCapacity := by
  refine ⟨?_, ?_, ?_, ?_, ?_⟩ <;> decide

theorem nextSeqNum_range {n : Nat} (h1 : 1 ≤ n) (h2 : n ≤ 4294967295) :
    1 ≤ nextSeqNum n ∧ nextSeqNum n ≤ 4294967295 := by
  unfold nextSeqNum
  split <;> omega

theorem keeps_withinCapacity : Keeps State.withinCapacity := by
  constructor
  case ofHost =>
    rintro s x hx ⟨hslots, hrest⟩
    exact ⟨hx hslots, hrest⟩
  case ofRoster =>
    rintro s r f hr - ⟨hslots, hroster, hrest⟩
    exact ⟨hslots, hr hroster, hrest⟩
  case ofEnum =>
    rintro s r im hr - - - ⟨hslots, -, hrest⟩
    exact ⟨hslots, hr, hrest⟩
  case ofHead =>
    intro s f _ _ h
    simpa only [State.withinCapacity, State.setHead_host, State.setHead_matrix, State.setHead_log] using h
  case ofTake =>
    rintro s d - ⟨hslots, hroster, hlow, hhigh, hdropped⟩
    obtain ⟨h1, h2⟩ := nextSeqNum_range hlow hhigh
    exact ⟨hslots, hroster, h1, h2, hdropped⟩
  case ofDropped =>
    rintro s n hn ⟨hslots, hroster, hlow, hhigh, -⟩
    exact ⟨hslots, hroster, hlow, hhigh, hn⟩
  case ofHardReset => exact fun _ _ => reset_withinCapacity
  case ofRestart =>
    rintro s ⟨-, hroster, -⟩
    exact ⟨Nat.zero_le _, hroster, Nat.le_refl 1, Nat.le_add_left 1 4294967294, Nat.zero_le _⟩
  all_goals intros; assumption

/-! ### The log (R158, R159) -/

theorem Log.bounded_nil (l : Log) (h : l.entries = []) : l.bounded := by
  simp [Log.bounded, Log.testOccupancy, h]

/-- A record that has room: a test record leaves the reserve of eight entries to the system records. -/
theorem Log.take_bounded {l : Log} {pm : Bool} {d : RecData} (h : l.bounded)
    (hroom : (pm || l.reporting) = true → 9 ≤ l.free ∨ (d.system = true ∧ 1 ≤ l.free)) : (l.take pm d).bounded := by
  by_cases hmark : (pm || l.reporting) = true
  · obtain ⟨hlen, hocc, hmarks⟩ := h
    have hle : l.testOccupancy ≤ l.entries.length := List.countP_le_length
    have hroom := hroom hmark
    unfold Log.testOccupancy at hocc hle
    unfold Log.free at hroom
    refine ⟨?_, ?_, ?_⟩
    · simp only [Log.take, hmark, if_true, List.length_append, List.length_singleton]
      omega
    · simp only [Log.testOccupancy, Log.take, hmark, if_true, List.countP_append, List.countP_singleton]
      split
      · next ht =>
        have : d.system = false := by simpa using ht
        simp only [this, Bool.false_eq_true, false_and, or_false] at hroom
        omega
      · omega
    · simp only [Log.take, hmark, if_true, List.mem_append, List.mem_singleton]
      rintro e (he | rfl)
      · exact hmarks e he
      · exact hmark
  · simpa only [Log.bounded, Log.testOccupancy, Log.take, if_neg hmark] using h

/-- Marks cleared leave no more entries, no more test records among them, and none without a mark. -/
theorem Log.clearMarks_bounded {l : Log} {f : Entry → Entry} (hf : ∀ e, (f e).data = e.data) (h : l.bounded) :
    (l.clearMarks f).bounded := by
  obtain ⟨hlen, hocc, -⟩ := h
  refine ⟨?_, ?_, ?_⟩
  · refine (List.length_filter_le _ _).trans ?_
    rw [List.length_map]
    exact hlen
  · calc (l.clearMarks f).testOccupancy
        ≤ (l.entries.map f).countP (fun e => !e.data.system) := List.filter_sublist.countP_le
      _ = l.testOccupancy := by
          rw [List.countP_map]
          simp only [Function.comp_def, hf, Log.testOccupancy]
      _ ≤ 248 := hocc
  · intro e he
    exact (List.mem_filter.1 he).2

theorem keeps_logBounded : Keeps (fun s => s.log.bounded) := by
  constructor
  case ofTake => exact fun s d hroom h => Log.take_bounded h hroom
  case ofMarks => exact fun s f hf h => Log.clearMarks_bounded hf h
  case ofHead =>
    intro s f _ _ h
    simpa only [State.setHead_log] using h
  case ofHardReset => exact fun _ _ => Log.bounded_nil _ rfl
  case ofRestart => exact fun _ _ => Log.bounded_nil _ rfl
  all_goals intros; assumption

/-! ### The queue (R144) -/

theorem Queue.ordered_nil (q : Queue) (h : q.jobs = []) : q.ordered := by
  simp [Queue.ordered, h]

theorem keeps_queueOrdered : Keeps (fun s => s.queue.ordered) := by
  constructor
  case ofHead =>
    rintro s f htag - ⟨hlen, htags, htail⟩
    unfold State.setHead
    split
    · exact ⟨hlen, htags, htail⟩
    · next j r hj =>
      rw [hj] at hlen htags htail
      exact ⟨hlen, by simpa [htag] using htags, htail⟩
  case ofTail =>
    rintro s - ⟨hlen, htags, htail⟩
    have hsub : (s.queue.jobs.tail.map (·.tag)).Sublist (s.queue.jobs.map (·.tag)) := (List.tail_sublist _).map _
    exact ⟨(List.tail_sublist _).length_le.trans hlen, htags.sublist hsub, fun j hj => htail j (List.mem_of_mem_tail hj)⟩
  case ofFilter =>
    rintro s p - ⟨hlen, htags, htail⟩
    refine ⟨(List.length_filter_le _ _).trans hlen, htags.sublist (List.filter_sublist.map _), fun j hj => ?_⟩
    cases hjobs : s.queue.jobs with
    | nil => simp [hjobs] at hj
    | cons a r =>
      rw [hjobs] at htail
      simp only [hjobs, List.filter_cons] at hj
      split at hj
      · exact htail j (List.mem_filter.1 hj).1
      · exact htail j (List.mem_filter.1 (List.mem_of_mem_tail hj)).1
  case ofPush =>
    rintro s t j hroom hfresh ⟨hlen, htags, htail⟩
    have hnew : ∀ q ∈ s.queue.jobs, q.tag ≠ t := by simpa using hfresh
    refine ⟨?_, ?_, fun q hq => ?_⟩
    · simp only [List.length_append, List.length_singleton]
      omega
    · simp only [List.map_append, List.map_singleton]
      refine List.nodup_append.2 ⟨htags, List.nodup_singleton _, ?_⟩
      rintro a ha b hb rfl
      obtain ⟨q, hq, hqa⟩ := List.mem_map.1 ha
      exact hnew q hq (hqa.trans (List.mem_singleton.1 hb))
    · cases hjobs : s.queue.jobs with
      | nil => simp [hjobs] at hq
      | cons a r =>
        simp only [hjobs, List.cons_append, List.tail_cons, List.mem_append, List.mem_singleton] at hq htail
        rcases hq with hq | rfl
        · exact htail q hq
        · rfl
  case ofHardReset => exact fun _ _ => Queue.ordered_nil _ rfl
  case ofRestart => exact fun _ _ => Queue.ordered_nil _ rfl
  all_goals intros; assumption

/-- Settles O6, the three invariants apart. -/
theorem everyStepKeepsTheCapacities : Obligations.EveryStepKeepsTheCapacities :=
  ⟨fun _ _ h hst => keeps_withinCapacity.of_step h hst, fun _ _ h hst => keeps_logBounded.of_step h hst,
    fun _ _ h hst => keeps_queueOrdered.of_step h hst⟩

/-! ### The canonical form of the tables -/

theorem State.tablesWf_iff (s : State) : s.tablesWf = true ↔ s.store.wf = true ∧ tableWf s.matrix.image = true := by
  simp [State.tablesWf]

theorem reset_tablesWf : State.reset.tablesWf = true := by decide

theorem keeps_tablesWf : Keeps (fun s => s.tablesWf = true) := by
  constructor
  case ofStore =>
    intro s st hst h
    obtain ⟨hstore, himage⟩ := s.tablesWf_iff.1 h
    exact (State.tablesWf_iff _).2 ⟨hst.wf hstore, himage⟩
  case ofLearned =>
    intro s w e _ _ _ _ h
    obtain ⟨hstore, himage⟩ := s.tablesWf_iff.1 h
    exact (State.tablesWf_iff _).2 ⟨Store.putNet_wf _ _ hstore, himage⟩
  case ofImage =>
    intro s im him h
    obtain ⟨hstore, himage⟩ := s.tablesWf_iff.1 h
    exact (State.tablesWf_iff _).2 ⟨hstore, him.wf himage⟩
  case ofEnum =>
    intro s r im _ him _ _ h
    obtain ⟨hstore, himage⟩ := s.tablesWf_iff.1 h
    exact (State.tablesWf_iff _).2 ⟨hstore, him himage⟩
  case ofHead =>
    intro s f _ _ h
    simpa only [State.tablesWf, State.setHead_store, State.setHead_matrix] using h
  case ofHardReset => exact fun _ _ => reset_tablesWf
  case ofRestart =>
    intro s h
    exact (State.tablesWf_iff _).2 ⟨(s.tablesWf_iff.1 h).1, rfl⟩
  all_goals intros; assumption

/-! ### The point map (R3) -/

theorem Store.mapSound_nil (st : Store) (h : st.map = []) : st.mapSound := by
  simp [Store.mapSound, h]

theorem keeps_mapSound : Keeps (fun s => s.tablesWf = true ∧ s.store.mapSound) := by
  constructor
  case ofStore =>
    rintro s st hst ⟨hwf, hmap⟩
    exact ⟨keeps_tablesWf.ofStore s st hst hwf, hst.map (s.tablesWf_iff.1 hwf).1 hmap⟩
  case ofLearned =>
    rintro s w e hw hf hn he ⟨hwf, hmap⟩
    exact ⟨keeps_tablesWf.ofLearned s w e hw hf hn he hwf, hmap⟩
  case ofImage =>
    rintro s im him ⟨hwf, hmap⟩
    exact ⟨keeps_tablesWf.ofImage s im him hwf, hmap⟩
  case ofEnum =>
    rintro s r im hr him hhv hex ⟨hwf, hmap⟩
    exact ⟨keeps_tablesWf.ofEnum s r im hr him hhv hex hwf, hmap⟩
  case ofHead =>
    rintro s f ht ha ⟨hwf, hmap⟩
    exact ⟨keeps_tablesWf.ofHead s f ht ha hwf, by simpa only [State.setHead_store] using hmap⟩
  case ofHardReset => exact fun _ _ => ⟨reset_tablesWf, Store.mapSound_nil _ rfl⟩
  case ofRestart =>
    rintro s ⟨hwf, hmap⟩
    exact ⟨keeps_tablesWf.ofRestart s hwf, hmap⟩
  all_goals intros; assumption

/-! ### The net records and the owner index (R10, R11) -/

theorem State.jobActive_iff (s : State) : s.jobActive = true ↔ ∃ j, s.queue.jobs.head? = some j ∧ j.state.active = true := by
  simp only [State.jobActive, State.activeJob, State.head, Option.isSome_filter, Option.any_eq_true]

theorem reset_netsAgree : State.reset.netsAgree :=
  ⟨Store.clearNets_owned Store.reset, fun h => absurd rfl h, nofun⟩

/-- A LEARN that has found points has a root, in no net and out of the pool. -/
theorem LearnWork.root_of_found {w : LearnWork} {st : Store} (h : w.sound st) (hf : w.found ≠ []) :
    tget st.owner w.rootPt = none ∧ w.rootPt ∉ w.pool := by
  obtain ⟨-, -, -, -, hroot, hnoroot, -, hfound, -⟩ := h
  unfold LearnWork.rootPt
  cases hr : w.root with
  | some q => exact hroot q hr
  | none =>
    obtain ⟨q, hq⟩ := List.exists_mem_of_ne_nil _ hf
    have := hfound q hq
    rw [hnoroot hr] at this
    cases this

/-- The points of the net a LEARN stores were in no net. -/
theorem LearnWork.net_members_free {w : LearnWork} {st : Store} (h : w.sound st) (hf : w.found ≠ []) :
    ∀ p ∈ w.net.members, tget st.owner p = none := by
  have hroot := LearnWork.root_of_found h hf
  obtain ⟨-, -, -, hpool, -, -, hlist, hfound, -⟩ := h
  intro p hp
  obtain rfl | hp := List.mem_cons.1 ((mem_sortPoints p _).1 hp)
  · exact hroot.1
  · exact hpool p (hlist p (hfound p hp))

/-- A LEARN stands on its table once a root's net is stored (R102). -/
theorem LearnWork.sound_stored {w : LearnWork} {st : Store} (hw : st.wf = true) (h : w.sound st)
    (hf : w.found ≠ []) : w.stored.sound (st.putNet w.net) := by
  have hroot := LearnWork.root_of_found h hf
  obtain ⟨hnum, hbelow, hnodup, hpool, -⟩ := h
  have hold : st.nets.filter (fun r => r.body.num != w.net.num) = st.nets :=
    List.filter_eq_self.2 fun r hr => by simpa [LearnWork.net] using (hbelow r hr).ne
  refine ⟨?_, fun r hr => ?_, hnodup.filter _, fun p hp => ?_, nofun, fun _ => rfl, nofun, nofun, nofun⟩
  · show w.nextNum + 1 = (insNet _ _).length + 1
    rw [hold, insNet_length, hnum]
  · rcases (st.mem_putNet w.net r).1 hr with rfl | ⟨hr, -⟩
    · exact Nat.lt_succ_self _
    · exact Nat.lt_succ_of_lt (hbelow r hr)
  · obtain ⟨hp, hnf⟩ := List.mem_filter.1 hp
    have hne : p ∉ w.net.members := by
      rw [LearnWork.net, mem_sortPoints, List.mem_cons]
      rintro (rfl | hpf)
      · exact hroot.2 hp
      · simp [hpf] at hnf
    rw [st.putNet_owner w.net hw, if_neg hne, hpool p hp]
    rfl

theorem keeps_netsAgree : Keeps (fun s => s.tablesWf = true ∧ s.netsAgree) := by
  constructor
  case ofEngine =>
    rintro s e he ⟨hwf, howned, hlive, hlearn⟩
    exact ⟨hwf, howned, fun hne => (he.live hne).elim hlive id, he.sound (s.tablesWf_iff.1 hwf).1 hlearn⟩
  case ofStore =>
    rintro s st hst ⟨hwf, howned, hlive, hlearn⟩
    have hs := (s.tablesWf_iff.1 hwf).1
    refine ⟨keeps_tablesWf.ofStore s st hst hwf, hst.owned hs howned, hlive, fun w hw => ?_⟩
    rcases hst.sound with hsound | hidle | hnone
    · exact hsound w (hlearn w hw)
    · have hact := hlive (by rw [show s.engine.work = _ from hw]; exact nofun)
      rw [hidle] at hact
      cases hact
    · rw [hnone] at hw
      cases hw
  case ofLearned =>
    rintro s w e hw hf hn he ⟨hwf, howned, hlive, hlearn⟩
    have hs := (s.tablesWf_iff.1 hwf).1
    have hsound := hlearn w hw
    refine ⟨keeps_tablesWf.ofLearned s w e hw hf hn he hwf, ?_, fun _ => hlive (by rw [hw]; exact nofun), fun v hv => ?_⟩
    · refine Store.putNet_owned _ _ hs howned ?_ fun p hp => .inl (LearnWork.net_members_free hsound hf p hp)
      have := hsound.1
      show 1 ≤ w.nextNum ∧ w.nextNum ≤ 1024
      omega
    · rw [show e.work = _ from hv] at he
      cases he
      exact LearnWork.sound_stored hs hsound hf
  case ofImage =>
    rintro s im him ⟨hwf, h⟩
    exact ⟨keeps_tablesWf.ofImage s im him hwf, h⟩
  case ofEnum =>
    rintro s r im hr him hhv hex ⟨hwf, h⟩
    exact ⟨keeps_tablesWf.ofEnum s r im hr him hhv hex hwf, h⟩
  case ofHead =>
    rintro s f ht ha ⟨hwf, howned, hlive, hlearn⟩
    refine ⟨keeps_tablesWf.ofHead s f ht ha hwf, ?_, fun hne => ?_, ?_⟩
    · simpa only [State.setHead_store] using howned
    · rw [State.setHead_engine] at hne
      obtain ⟨j, hj, hact⟩ := s.jobActive_iff.1 (hlive hne)
      refine (State.jobActive_iff _).2 ⟨f j, ?_, ?_⟩
      · rw [show (s.setHead f).queue.jobs.head? = s.queue.jobs.head?.map f from s.setHead_head f, hj]
        rfl
      · rcases ha j with h | h
        · exact h
        · rw [h]; exact hact
    · simpa only [State.setHead_store, State.setHead_engine] using hlearn
  case ofTail =>
    rintro s hnone ⟨hwf, howned, -, hlearn⟩
    exact ⟨hwf, howned, fun hne => absurd hnone hne, hlearn⟩
  case ofFilter =>
    rintro s p hp ⟨hwf, howned, hlive, hlearn⟩
    refine ⟨hwf, howned, fun hne => ?_, hlearn⟩
    obtain ⟨j, hj, hact⟩ := s.jobActive_iff.1 (hlive hne)
    have hkeep := hp j (by simp [hj]) hact
    refine (State.jobActive_iff _).2 ⟨j, ?_, hact⟩
    cases hjobs : s.queue.jobs with
    | nil => simp [hjobs] at hj
    | cons a r =>
      rw [hjobs] at hj
      cases hj
      simp [hkeep]
  case ofPush =>
    rintro s t j - - ⟨hwf, howned, hlive, hlearn⟩
    refine ⟨hwf, howned, fun hne => ?_, hlearn⟩
    obtain ⟨q, hq, hact⟩ := s.jobActive_iff.1 (hlive hne)
    exact (State.jobActive_iff _).2 ⟨q, by simp [List.head?_append, hq], hact⟩
  case ofHardReset => exact fun _ _ => ⟨reset_tablesWf, reset_netsAgree⟩
  case ofRestart =>
    rintro s ⟨hwf, howned, -⟩
    exact ⟨keeps_tablesWf.ofRestart s hwf, howned, fun hne => absurd rfl hne, nofun⟩
  all_goals intros; assumption

/-- A net number names one record. -/
theorem Store.net_unique {st : Store} (hw : st.wf = true) {r q : NetRec} (hr : r ∈ st.nets) (hq : q ∈ st.nets)
    (h : r.body.num = q.body.num) : r = q := by
  simp only [Store.wf, Bool.and_eq_true] at hw
  obtain ⟨-, hnets⟩ := hw
  exact List.inj_on_of_nodup_map (tableWf_nodup _ hnets) hr hq (by rw [h])

/-- No point is in two nets (R10). -/
theorem Store.owned_disjoint {st : Store} (hw : st.wf = true) (ho : st.owned) {r q : NetRec} (hr : r ∈ st.nets)
    (hq : q ∈ st.nets) {p : Nat} (hpr : p ∈ r.body.members) (hpq : p ∈ q.body.members) : r = q := by
  have hrn := (ho.2 p r.body.num).2 ⟨r, hr, rfl, hpr⟩
  have hqn := (ho.2 p q.body.num).2 ⟨q, hq, rfl, hpq⟩
  exact Store.net_unique hw hr hq (Option.some.inj (hrn.symm.trans hqn))

/-! ### HV on HV-64 channels alone (R19, R45) -/

theorem imageReset_hv : ∀ k : Nat, tget imageReset k ≠ some .hv := by
  intro k h
  have := mem_of_tget _ _ _ h
  simp [imageReset] at this

theorem reset_hvOnHv64 : State.reset.hvOnHv64 :=
  ⟨fun _ _ _ _ h => absurd h (imageReset_hv _), nofun⟩

theorem keeps_hvOnHv64 : Keeps (fun s => s.tablesWf = true ∧ s.hvOnHv64) := by
  constructor
  case ofLink =>
    rintro s l hl ⟨hwf, himage, hset⟩
    refine ⟨hwf, himage, fun e p items he hs it hit hv => ?_⟩
    rcases hl e p items he hs with ⟨d, hd, hde⟩ | hitems
    · exact hset d p items hd (hde.trans hs) it hit hv
    · exact hitems it hit hv
  case ofStore =>
    rintro s st hst ⟨hwf, h⟩
    exact ⟨keeps_tablesWf.ofStore s st hst hwf, h⟩
  case ofLearned =>
    rintro s w e hw hf hn he ⟨hwf, h⟩
    exact ⟨keeps_tablesWf.ofLearned s w e hw hf hn he hwf, h⟩
  case ofImage =>
    rintro s im him ⟨hwf, h⟩
    exact ⟨keeps_tablesWf.ofImage s im him hwf, him.hv (s.tablesWf_iff.1 hwf).2 h, h.2⟩
  case ofRoster =>
    rintro s r f - hkind ⟨hwf, himage, hset⟩
    refine ⟨hwf, fun c h1 h2 h3 hc => ?_, fun e p items he hs it hit hv => ?_⟩
    · obtain ⟨hk, hch⟩ := himage c h1 h2 h3 hc
      exact ⟨(hkind c.pos h1 h2).trans hk, hch⟩
    · obtain ⟨hch, hk⟩ := hset e p items he hs it hit hv
      exact ⟨hch, fun h1 h2 => (hkind p h1 h2).trans (hk h1 h2)⟩
  case ofEnum =>
    rintro s r im hr him hhv hex ⟨hwf, -⟩
    refine ⟨keeps_tablesWf.ofEnum s r im hr him hhv hex hwf, fun c h1 _ _ hc => ?_, fun e p items he hs => ?_⟩
    · exact absurd hc (hhv _ (by unfold Chan.key; omega))
    · exact absurd hs (hex e p items he)
  case ofHead =>
    rintro s f ht ha ⟨hwf, h⟩
    refine ⟨keeps_tablesWf.ofHead s f ht ha hwf, ?_⟩
    simpa only [State.hvOnHv64, State.imageOf, State.posn, State.setHead_matrix, State.setHead_link] using h
  case ofHardReset => exact fun _ _ => ⟨reset_tablesWf, reset_hvOnHv64⟩
  case ofRestart =>
    rintro s ⟨hwf, -⟩
    exact ⟨keeps_tablesWf.ofRestart s hwf, fun _ _ _ _ h => absurd h (imageReset_hv _), nofun⟩
  all_goals intros; assumption

/-- Settles O7: the canonical form is kept by itself, and each of the other invariants together with it. -/
theorem everyStepKeepsTheTablesCanonical : Obligations.EveryStepKeepsTheTablesCanonical := by
  refine ⟨fun s t hwf hst => keeps_tablesWf.of_step hwf hst, fun s t hwf h hst => (keeps_mapSound.of_step ⟨hwf, h⟩ hst).2,
    fun s t hwf h hst => ?_, fun s t hwf h hst => ?_⟩
  · obtain ⟨htwf, hagree⟩ := keeps_netsAgree.of_step ⟨hwf, h⟩ hst
    exact ⟨hagree, fun r hr q hq p hpr hpq =>
      Store.owned_disjoint (t.tablesWf_iff.1 htwf).1 hagree.1 hr hq hpr hpq⟩
  · obtain ⟨-, hhv⟩ := keeps_hvOnHv64.of_step ⟨hwf, h⟩ hst
    refine ⟨hhv, fun c h1 h2 h3 hlv hc => ?_⟩
    have := (hhv.1 c h1 h2 h3 hc).1
    rw [hlv] at this
    cases this

end Sys2Proof.Machine
end

section
/-! PROOFS. The machine as a whole: a step, an empty queue, the hardware reset. -/

namespace Sys2Proof.Machine

open Sys2Proof

/-- Settles O1: a step is defined by its front command. -/
theorem stepRunsTheFrontCommand : Obligations.StepRunsTheFrontCommand := fun _ _ _ => rfl

theorem step_of_pending_nil {s : State} (h : s.pending = []) : step s = .next s := by
  unfold step
  rw [h]

/-- Settles O2. -/
theorem emptyQueueIdles : Obligations.EmptyQueueIdles := fun _ h => step_of_pending_nil h

/-! ### The hardware reset (R127) -/

/-- The image after a reset: the reference channels OPEN, every other channel UNKNOWN (R42). -/
theorem tget_imageReset (k : Nat) : tget imageReset k = if k < 4 then some .opn else none := by
  by_cases h : k < 4
  · interval_cases k <;> rfl
  · rw [if_neg h]
    simp [imageReset, tget, show k ≠ 0 by omega, show k ≠ 1 by omega, show k ≠ 2 by omega, show k ≠ 3 by omega]

theorem reset_imageOf (p ch : Nat) :
    State.reset.imageOf ⟨p, ch⟩ = if p * 128 + ch < 4 then some .opn else none := tget_imageReset _

/-- Settles O3: the values are those of `State.reset`, the image by the one lemma on its reads. -/
theorem hardwareResetGivesEveryBlockItsValues : Obligations.HardwareResetGivesEveryBlockItsValues := by
  have himage : ∀ p ch, State.reset.imageOf ⟨p, ch⟩ = some .opn ↔ p * 128 + ch < 4 := fun p ch => by
    rw [reset_imageOf]
    split <;> simp_all
  have hunknown : ∀ p ch, 4 ≤ p * 128 + ch → State.reset.imageOf ⟨p, ch⟩ = none := fun p ch h => by
    rw [reset_imageOf, if_neg (by omega)]
  have hattn : State.reset.events.attn = false := Events.attn_of_pending_zero rfl
  exact ⟨fun _ => rfl, rfl, rfl, rfl, rfl, rfl, rfl, rfl, rfl, himage, hunknown, rfl, rfl, rfl, rfl, rfl, rfl, rfl, rfl,
    rfl, rfl, rfl, rfl, rfl, rfl, rfl, rfl, rfl, rfl, rfl, rfl, rfl, rfl, rfl, rfl, rfl, rfl, rfl, rfl, rfl, rfl, rfl,
    rfl, hattn⟩

/-- Settles O4, each invariant by the lemma that starts its induction. -/
theorem resetMeetsTheInvariants : Obligations.ResetMeetsTheInvariants :=
  ⟨reset_interlocked, Log.bounded_nil _ rfl, Queue.ordered_nil _ rfl, reset_withinCapacity, reset_tablesWf,
    Store.mapSound_nil _ rfl, reset_netsAgree, reset_hvOnHv64⟩

end Sys2Proof.Machine
end

section
/-! PROOFS. The host link's receiver: the bytes of a frame (Table 12-1), damaged frames, the two slots. -/

namespace Sys2Proof.Machine

open Sys2Proof

/-! ### The bytes of a frame (R180) -/

/-- A frame with any two bytes at the place of its check value. -/
def rawFrame (kind tag : Byte) (p : List Byte) (c d : Byte) : List Byte :=
  0xA5#8 :: (le2 p.length ++ [kind, tag] ++ p ++ [c, d])

theorem hostFrame_eq_rawFrame (kind tag : Byte) (p : List Byte) :
    hostFrame kind tag p =
      rawFrame kind tag p (BitVec.ofNat 8 ((crc16 (le2 p.length ++ [kind, tag] ++ p)).toNat / 256))
        (BitVec.ofNat 8 (crc16 (le2 p.length ++ [kind, tag] ++ p)).toNat) := rfl

theorem rawFrame_length (kind tag : Byte) (p : List Byte) (c d : Byte) : (rawFrame kind tag p c d).length = p.length + 7 := by
  simp [rawFrame]
  omega

theorem lenOf_rawFrame (kind tag : Byte) (p : List Byte) (c d : Byte) (hp : p.length ≤ 1024) :
    lenOf (rawFrame kind tag p c d) = p.length := by
  simpa [lenOf, rawFrame, le2] using u16_of p.length (by omega)

theorem hostFrame_length (kind tag : Byte) (p : List Byte) : (hostFrame kind tag p).length = p.length + 7 :=
  rawFrame_length ..

/-- Three bytes hold the LEN. -/
theorem lenOf_take {a : List Byte} {k : Nat} (hk : 3 ≤ k) : lenOf (a.take k) = lenOf a := by
  simp [lenOf, show 1 < k by omega, show 2 < k by omega]

theorem State.hunt_of_hunting {s : State} (h : s.host.assembly = []) : s.hunt = s := by
  unfold State.hunt
  rw [← h]

/-- The receiver with the bytes of a frame in assembly. -/
def State.assembling (s : State) (a : List Byte) : State := { s with host := { s.host with assembly := a } }

theorem State.feedAll_append (s : State) (a b : List Byte) : s.feedAll (a ++ b) = (s.feedAll a).feedAll b :=
  List.foldl_append

/-- A byte behind the first, while the frame goes on (R180). -/
theorem State.feed_assembling {s : State} {a : List Byte} {b : Byte} (ha : a ≠ [])
    (hlen : (a ++ [b]).length = 3 → lenOf (a ++ [b]) ≤ 1024)
    (hmore : 7 ≤ (a ++ [b]).length → (a ++ [b]).length ≠ lenOf (a ++ [b]) + 7) :
    (s.assembling a).feed b = s.assembling (a ++ [b]) := by
  cases a with
  | nil => exact absurd rfl ha
  | cons x r =>
    have h1 : ¬ ((x :: r ++ [b]).length = 3 ∧ 1024 < lenOf (x :: r ++ [b])) := fun h => by
      have := hlen h.1
      omega
    have h2 : ¬ (7 ≤ (x :: r ++ [b]).length ∧ (x :: r ++ [b]).length = lenOf (x :: r ++ [b]) + 7) :=
      fun h => hmore h.1 h.2
    simp only [State.feed, State.assembling, if_neg h1, if_neg h2]

/-- The bytes of a frame that has not ended are kept. -/
theorem State.feedAll_take {s : State} (hs : s.host.assembly = []) {a : List Byte} (h0 : a.head? = some 0xA5#8)
    (hn : lenOf a ≤ 1024) : ∀ k, 1 ≤ k → k ≤ a.length → k < lenOf a + 7 → s.feedAll (a.take k) = s.assembling (a.take k)
  | 0, h, _, _ => absurd h (by omega)
  | 1, _, _, _ => by
    obtain ⟨r, rfl⟩ := List.head?_eq_some_iff.1 h0
    simp [State.feedAll, State.feed, State.assembling, hs]
  | k + 2, _, hk, hlt => by
    have hsplit : a.take (k + 2) = a.take (k + 1) ++ [a[k + 1]] := by
      rw [List.take_succ_eq_append_getElem (by omega)]
    have hlength : (a.take (k + 2)).length = k + 2 := List.length_take_of_le hk
    rw [hsplit, State.feedAll_append, State.feedAll_take hs h0 hn (k + 1) (by omega) (by omega) (by omega)]
    refine State.feed_assembling (List.ne_nil_of_length_pos (by rw [List.length_take_of_le (by omega)]; omega)) ?_ ?_
    · intro h3
      rw [← hsplit] at h3 ⊢
      rw [lenOf_take (by omega)]
      exact hn
    · intro h7
      rw [← hsplit] at h7 ⊢
      rw [lenOf_take (by omega)]
      omega

/-- The last byte of a frame ends it. -/
theorem State.feedAll_frame {s : State} (hs : s.host.assembly = []) {a : List Byte} (h0 : a.head? = some 0xA5#8)
    (hn : lenOf a ≤ 1024) (hl : a.length = lenOf a + 7) : s.feedAll a = s.frameEnd a := by
  have hsplit : a = a.take (lenOf a + 6) ++ [a[lenOf a + 6]] := by
    rw [← List.take_succ_eq_append_getElem (by omega), List.take_of_length_le (by omega)]
  obtain ⟨x, r, hxr⟩ := List.exists_cons_of_length_pos (l := a.take (lenOf a + 6)) (by simp; omega)
  have hfeed : (s.assembling (a.take (lenOf a + 6))).feed a[lenOf a + 6] = s.frameEnd a := by
    rw [hxr] at hsplit
    simp only [State.feed, State.assembling, hxr, ← hsplit]
    rw [if_neg (by omega), if_pos (by omega)]
    rfl
  calc s.feedAll a = s.feedAll (a.take (lenOf a + 6) ++ [a[lenOf a + 6]]) := congrArg s.feedAll hsplit
    _ = (s.assembling (a.take (lenOf a + 6))).feed a[lenOf a + 6] := by
      rw [State.feedAll_append, State.feedAll_take hs h0 hn _ (by omega) (by omega) (by omega)]
      rfl
    _ = s.frameEnd a := hfeed

/-- Two bytes, high byte first, give a check value back. -/
theorem append_crcBytes (c : Word16) : (BitVec.ofNat 8 (c.toNat / 256)).append (BitVec.ofNat 8 c.toNat) = c := by
  show BitVec.ofNat 8 (c.toNat / 256) ++ BitVec.ofNat 8 c.toNat = c
  have hc := c.isLt
  apply BitVec.eq_of_toNat_eq
  rw [BitVec.toNat_append, BitVec.toNat_ofNat, BitVec.toNat_ofNat, ← Nat.shiftLeft_add_eq_or_of_lt (by omega),
    Nat.shiftLeft_eq]
  omega

theorem crcBytes_append (c d : Byte) : crcBytes (c.append d) = [c, d] := by
  have hn : (c.append d).toNat = c.toNat * 256 + d.toNat := by
    show (c ++ d).toNat = _
    rw [BitVec.toNat_append, ← Nat.shiftLeft_add_eq_or_of_lt d.isLt, Nat.shiftLeft_eq]
  have hc := c.isLt
  have hd := d.isLt
  unfold crcBytes
  rw [hn]
  congr 1
  · apply BitVec.eq_of_toNat_eq
    rw [BitVec.toNat_ofNat]
    omega
  · congr 1
    apply BitVec.eq_of_toNat_eq
    rw [BitVec.toNat_ofNat]
    omega

/-- The check at the end of a frame, and the fields it is taken apart into (R180). -/
theorem State.frameEnd_rawFrame (s : State) (kind tag : Byte) (p : List Byte) (c d : Byte) (hp : p.length ≤ 1024) :
    s.frameEnd (rawFrame kind tag p c d) =
      if crc16 (le2 p.length ++ [kind, tag] ++ p) = c.append d then s.hunt.received kind tag p
      else s.hunt.raiseLink .crc := by
  have hbody : ((rawFrame kind tag p c d).drop 1).take (p.length + 4) = le2 p.length ++ [kind, tag] ++ p := by
    show (le2 p.length ++ [kind, tag] ++ p ++ [c, d]).take (p.length + 4) = _
    rw [List.take_left' (by simp; omega)]
  have hc : (rawFrame kind tag p c d).getD (p.length + 5) 0#8 = c := by simp [rawFrame, le2]
  have hd : (rawFrame kind tag p c d).getD (p.length + 6) 0#8 = d := by
    simp [rawFrame, le2]
  have hpay : ((rawFrame kind tag p c d).drop 5).take p.length = p := by simp [rawFrame, le2]
  have hkind : (rawFrame kind tag p c d).getD 3 0#8 = kind := by simp [rawFrame, le2]
  have htag : (rawFrame kind tag p c d).getD 4 0#8 = tag := by simp [rawFrame, le2]
  simp only [State.frameEnd, lenOf_rawFrame kind tag p c d hp, hbody, hc, hd, hpay, hkind, htag]

theorem State.feedAll_rawFrame {s : State} (hs : s.host.assembly = []) (kind tag : Byte) (p : List Byte) (c d : Byte)
    (hp : p.length ≤ 1024) : s.feedAll (rawFrame kind tag p c d) =
      if crc16 (le2 p.length ++ [kind, tag] ++ p) = c.append d then s.received kind tag p else s.raiseLink .crc := by
  have hlen := lenOf_rawFrame kind tag p c d hp
  rw [State.feedAll_frame hs rfl (by omega) (by rw [hlen, rawFrame_length]), State.frameEnd_rawFrame s kind tag p c d hp,
    State.hunt_of_hunting hs]

theorem State.frame_hunting {s : State} (hs : s.host.assembly = []) (kind tag : Byte) {p : List Byte}
    (hp : p.length ≤ 1024) : s.frame kind tag p = s.received kind tag p := by
  unfold State.frame
  rw [if_neg (by omega), State.hunt_of_hunting hs]

/-- The bytes of an intact frame do what its arrival does (log 3). -/
theorem State.feedAll_hostFrame {s : State} (hs : s.host.assembly = []) (kind tag : Byte) (p : List Byte)
    (hp : p.length ≤ 1024) : s.feedAll (hostFrame kind tag p) = s.frame kind tag p := by
  rw [hostFrame_eq_rawFrame, State.feedAll_rawFrame hs _ _ _ _ _ hp, if_pos (append_crcBytes _).symm,
    State.frame_hunting hs _ _ hp]

theorem State.feedAll_take_hostFrame {s : State} (hs : s.host.assembly = []) (kind tag : Byte) (p : List Byte)
    (hp : p.length ≤ 1024) {k : Nat} (h1 : 1 ≤ k) (hk : k < p.length + 7) :
    s.feedAll ((hostFrame kind tag p).take k) = s.assembling ((hostFrame kind tag p).take k) := by
  have hlen : lenOf (hostFrame kind tag p) = p.length := lenOf_rawFrame _ _ _ _ _ hp
  have hl := hostFrame_length kind tag p
  exact State.feedAll_take hs rfl (by omega) k h1 (by omega) (by omega)

/-! ### The two slots (R181, R182) -/

/-- A frame takes the second slot and waits while the request in the first is being carried out. -/
theorem State.received_second {s : State} {x : RxSlot} (hx : s.host.slots = [x]) (hc : x.phase = .carried)
    (kind tag : Byte) (p : List Byte) :
    s.received kind tag p = { s with host := { s.host with slots := [x, ⟨kind, tag, p, .waiting⟩] } } := by
  unfold State.received State.dispatch
  rw [if_neg (by simp [hx]), hx]
  exact State.handOver_carried _ 3 (by simp [hc])

/-- A frame that finds both slots occupied (R181). -/
theorem State.received_full {s : State} (h : 2 ≤ s.host.slots.length) (kind tag : Byte) (p : List Byte) :
    s.received kind tag p = s.raiseLink .overrun := if_pos h

/-- A frame with an undefined KIND at a link that is ready (R182). -/
theorem State.frame_unknown {s : State} (hs : s.ready) {kind : Byte} (tag : Byte) {p : List Byte} (hp : p.length ≤ 1024)
    (hk : requestOf kind = none) : s.frame kind tag p = { s with host := { s.host with
      slots := [⟨kind, tag, p, .sending [0x06#8]⟩]
      tx := some ⟨true, hostFrame (replyKind kind) tag [0x06#8]⟩ } } := by
  rw [State.frame_ready s hs _ _ _ hp]
  obtain ⟨-, -, htx, hcar, -, -⟩ := hs
  simp only [carryOut, hk]
  rw [State.compose_carried (s.handed kind tag p) kind tag p _ rfl htx]
  rw [State.handOver_sending _ 2 kind tag p _ rfl]
  simp only [State.handed, hcar]
  rfl

theorem exec_hostFrameReceived (b : List Byte) (s : State) : exec (.hostFrameReceived b) s = .next (s.feedAll b) := rfl

/-- Settles O8: the bytes are the frame's arrival, by the lemma on `feedAll`; what the arrival does is the two slots'
business. -/
theorem frameBytesCarryTheRequest : Obligations.FrameBytesCarryTheRequest := by
  refine ⟨fun r tag p s hs hp => ?_, fun kind tag p x s hs hp hx hc => ?_, fun kind tag p s hs hp => ⟨fun hk => ?_, ?_⟩,
    fun kind tag p k s hs hp h1 hk => ?_⟩
  · rw [exec_request]
    exact congrArg _ (State.feedAll_hostFrame hs _ _ _ hp)
  · rw [exec_hostFrameReceived, State.feedAll_hostFrame hs _ _ _ hp, State.frame_hunting hs _ _ hp,
      State.received_second hx hc]
  · rw [exec_hostFrameReceived, State.feedAll_hostFrame hs.2.1 _ _ _ hp, State.frame_unknown hs tag hp hk]
  · rw [← (identReportsThePart tag s hs).1]
    exact congrArg _ (State.feedAll_hostFrame hs.2.1 _ _ _ (by simp))
  · exact congrArg _ (State.feedAll_take_hostFrame hs _ _ _ hp h1 hk)

/-- Settles O11. -/
theorem undefinedKindIsAnswered : Obligations.UndefinedKindIsAnswered := by
  intro kind tag p s hs hp hk
  have hrep : replyKind kind = if kind.toNat < 64 then kind + 0x80#8 else 0xFF#8 := by
    simp only [replyKind, Nat.lt_succ_iff.symm]
  show Host.Outcome.next (if (requestOf kind).isNone then s.frame kind tag p else s) = _
  rw [hk, Option.isNone_none, if_pos rfl, State.frame_unknown hs tag hp hk, hrep]

/-! ### What raising an event does (R187, R189) -/

/-- The transmit path takes a frame: only the host link and the wanted NOTICE change. -/
theorem State.txKick_eq (s : State) :
    ∃ w h, s.txKick = { s with events := { s.events with noticeWanted := w }, host := h } := by
  unfold State.txKick
  split
  · exact ⟨_, _, rfl⟩
  · split
    · exact ⟨_, _, rfl⟩
    · split
      · exact ⟨_, _, rfl⟩
      · exact ⟨_, _, rfl⟩

/-- An event is raised: its flag, the wanted NOTICE and the host link change. -/
theorem State.raise_eq (s : State) (e : Event) : ∃ w h, s.raise e =
    { s with
      events := { s.events with pending := s.events.pending ||| e.bit, noticeWanted := w }
      host := h } := by
  unfold State.raise
  dsimp only
  split
  · exact ⟨_, _, rfl⟩
  · obtain ⟨w, h, hk⟩ := State.txKick_eq { s with events :=
      { s.events with pending := s.events.pending ||| e.bit, noticeWanted := true } }
    exact ⟨w, h, hk⟩

theorem State.raise_link (s : State) (e : Event) : (s.raise e).events.link = s.events.link := by
  obtain ⟨w, h, hr⟩ := s.raise_eq e
  rw [hr]

theorem Event.getLsbD_bit (e : Event) (n : Nat) : e.bit.getLsbD n = decide (n = e.num) := by
  have he : e.num < 12 := by cases e <;> decide
  rw [Event.bit, BitVec.getLsbD_shiftLeft]
  by_cases hn : n = e.num
  · subst hn
    simp [he]
  · rw [BitVec.getLsbD_one]
    simp only [decide_eq_false hn]
    by_cases hlt : n < e.num
    · simp [hlt]
    · simp [show n - e.num ≠ 0 by omega]

/-- Raising an event newly, where no mask holds it back, makes a NOTICE wanted on the transmit path. -/
theorem State.raise_new {s : State} {e : Event} (hp : s.events.isPending e = false) (hm : s.events.isMasked e = false) :
    s.raise e = State.wantNotice { s with events := { s.events with pending := s.events.pending ||| e.bit } } := by
  simp [State.raise, hp, hm]

theorem State.raise_old {s : State} {e : Event} (h : s.events.isPending e = true ∨ s.events.isMasked e = true) :
    s.raise e = { s with events := { s.events with pending := s.events.pending ||| e.bit } } := by
  simp [State.raise, h]

/-- The transmit path by what it finds (R183). -/
theorem State.txKick_busy {s : State} {f : TxFrame} (h : s.host.tx = some f) : s.txKick = s := by
  simp [State.txKick, h]

theorem State.txKick_reply {s : State} {l : List RxSlot} {f : TxFrame} (h : s.host.tx = none)
    (hr : takeReply s.host.slots = some (l, f)) :
    s.txKick = { s with host := { s.host with slots := l, tx := some f } } := by
  simp [State.txKick, h, hr]

theorem State.txKick_notice {s : State} (h : s.host.tx = none) (hr : takeReply s.host.slots = none) :
    s.txKick = if s.events.noticeWanted then s.takeNotice else s := by
  simp [State.txKick, h, hr]

theorem State.takeNotice_visible {s : State} (h : s.events.visible ≠ []) : s.takeNotice = { s with
    events := { s.events with noticeWanted := false }
    host := { s.host with tx := some ⟨false, hostFrame 0xC0#8 0#8 s.events.noticePayload⟩ } } := by
  simp [State.takeNotice, h]

theorem State.takeNotice_none {s : State} (h : s.events.visible = []) :
    s.takeNotice = { s with events := { s.events with noticeWanted := false } } := by
  simp [State.takeNotice, h]

theorem Event.num_lt (e : Event) : e.num < 12 := by cases e <;> decide

/-- An event pending and unmasked is visible. -/
theorem Events.visible_ne_nil {v : Events} {e : Event} (hp : v.isPending e = true) (hm : v.isMasked e = false) :
    v.visible ≠ [] := List.ne_nil_of_mem ((v.mem_visible e.num).2 ⟨e.num_lt, hp, hm⟩)

theorem Events.isPending_raised (v : Events) (e : Event) :
    Events.isPending { v with pending := v.pending ||| e.bit } e = true := by
  simp [Events.isPending, Event.getLsbD_bit]

/-- A NOTICE becomes wanted on a free path with no reply ready: it goes out (log 5). -/
theorem State.wantNotice_free {s : State} (htx : s.host.tx = none) (hr : takeReply s.host.slots = none)
    (hv : s.events.visible ≠ []) : s.wantNotice = { s with
      events := { s.events with noticeWanted := false }
      host := { s.host with tx := some ⟨false, hostFrame 0xC0#8 0#8 s.events.noticePayload⟩ } } := by
  unfold State.wantNotice
  rw [State.txKick_notice (s := { s with events := { s.events with noticeWanted := true } }) htx hr, if_pos rfl,
    State.takeNotice_visible (s := { s with events := { s.events with noticeWanted := true } }) hv]
  rfl

/-- A NOTICE becomes wanted on a busy path. -/
theorem State.wantNotice_busy {s : State} {f : TxFrame} (htx : s.host.tx = some f) :
    s.wantNotice = { s with events := { s.events with noticeWanted := true } } :=
  State.txKick_busy (s := { s with events := { s.events with noticeWanted := true } }) htx

/-- A NOTICE becomes wanted on a free path with a reply ready: the reply goes first. -/
theorem State.wantNotice_behind {s : State} {l : List RxSlot} {f : TxFrame} (htx : s.host.tx = none)
    (hr : takeReply s.host.slots = some (l, f)) : s.wantNotice = { s with
      events := { s.events with noticeWanted := true }, host := { s.host with slots := l, tx := some f } } :=
  State.txKick_reply (s := { s with events := { s.events with noticeWanted := true } }) htx hr

/-- The state with an event's flag set. -/
def State.flagged (s : State) (e : Event) : State :=
  { s with events := { s.events with pending := s.events.pending ||| e.bit } }

theorem State.flagged_visible (s : State) {e : Event} (hm : s.events.isMasked e = false) :
    (s.flagged e).events.visible ≠ [] := Events.visible_ne_nil (e := e) (Events.isPending_raised s.events e) hm

/-- Settles O13, by what the transmit path finds once the NOTICE is wanted. -/
theorem raisingAnEvent : Obligations.RaisingAnEvent := by
  intro s e
  refine ⟨fun n => ?_, State.raise_old, fun hp hm htx hslots => ⟨_, rfl, ?_⟩, fun fr hp hm htx => ?_,
    fun k t q r hp hm htx hslots => ?_⟩
  · rw [State.raise_pending, BitVec.getLsbD_or, Event.getLsbD_bit]
  · exact (State.raise_new hp hm).trans
      (State.wantNotice_free (s := s.flagged e) htx (by simp [State.flagged, hslots, takeReply]) (s.flagged_visible hm))
  · exact (State.raise_new hp hm).trans (State.wantNotice_busy (s := s.flagged e) htx)
  · exact (State.raise_new hp hm).trans
      (State.wantNotice_behind (s := s.flagged e) htx (by simp [State.flagged, hslots, takeReply]))

/-! ### Damaged frames (R180) -/

theorem State.raiseLink_link (s : State) (c : LinkCause) : (s.raiseLink c).events.link = s.events.link.enter c := by
  unfold State.raiseLink
  rw [State.raise_link]

theorem State.byteTimeout_assembling {s : State} (hs : s.host.assembly = []) {a : List Byte} (ha : a ≠ []) :
    (s.assembling a).byteTimeout = s.raiseLink .timeout := by
  have hhunt : (s.assembling a).hunt = s := State.hunt_of_hunting hs
  have hne : (s.assembling a).host.assembly.isEmpty = false := by simpa [State.assembling] using ha
  simp [State.byteTimeout, hne, hhunt]

/-- A LEN above 1024 is seen with its second byte. -/
theorem State.feedAll_long {s : State} (hs : s.host.assembly = []) {n : Nat} (hn : n < 65536) (h : 1024 < n) :
    s.feedAll (0xA5#8 :: le2 n) = s.raiseLink .length := by
  have hlen : lenOf [0xA5#8, BitVec.ofNat 8 n, BitVec.ofNat 8 (n / 256)] = n := u16_of n hn
  have hhunt : ∀ a, (s.assembling a).hunt = s := fun _ => State.hunt_of_hunting hs
  have h1 : s.feed 0xA5#8 = s.assembling [0xA5#8] := by simp [State.feed, hs, State.assembling]
  have h2 : ∀ b, (s.assembling [0xA5#8]).feed b = s.assembling [0xA5#8, b] := fun b =>
    State.feed_assembling (by simp) (by simp) (by simp)
  have h3 : (s.assembling [0xA5#8, BitVec.ofNat 8 n]).feed (BitVec.ofNat 8 (n / 256)) = s.raiseLink .length := by
    show (if _ then (s.assembling _).hunt.raiseLink .length else _) = _
    rw [hhunt]
    exact if_pos ⟨rfl, lt_of_lt_of_eq h hlen.symm⟩
  show ((s.feed 0xA5#8).feed _).feed _ = _
  rw [h1, h2, h3]

/-- Settles O9: the receiver's three discards, and what the register of LINK_ERROR keeps. -/
theorem damagedFramesAreDiscarded : Obligations.DamagedFramesAreDiscarded := by
  refine ⟨fun kind tag c d p s hs hp hcrc => ?_, fun len s hs hlen => ?_, fun kind tag p k s hs hp h1 hk => ?_,
    fun c s => ⟨s.events.link.enter c, ?_, rfl, State.raiseLink_link s c, State.raise_isPending _ .linkError⟩⟩
  · have hne : crc16 (le2 p.length ++ [kind, tag] ++ p) ≠ c.append d := fun h => hcrc (by rw [h, crcBytes_append])
    refine (congrArg Host.Outcome.next (State.feedAll_rawFrame hs kind tag p c d hp)).trans ?_
    rw [if_neg hne]
  · exact congrArg Host.Outcome.next (State.feedAll_long hs len.isLt hlen)
  · have hne : (hostFrame kind tag p).take k ≠ [] :=
      List.ne_nil_of_length_pos (by rw [List.length_take, hostFrame_length]; omega)
    show Host.Outcome.next (State.byteTimeout (s.feedAll _)) = _
    rw [State.feedAll_take_hostFrame hs _ _ _ hp h1 hk, State.byteTimeout_assembling hs hne]
  · cases c <;> rfl

/-! ### A request behind another (R182; log 46) -/

/-- With no job there is nothing to examine. -/
theorem State.examineHead_nil {s : State} (h : s.queue.jobs = []) : s.examineHead = s.endWait := by
  simp [State.examineHead, State.spaceAlone, State.cond1, State.head, h]

theorem markCarried_none : ∀ {l : List RxSlot}, (∀ r ∈ l, r.phase ≠ .waiting) → markCarried l = none
  | [], _ => rfl
  | r :: rest, h => by
    have ih := markCarried_none fun q hq => h q (List.mem_cons_of_mem _ hq)
    have hr := h r (List.mem_cons_self ..)
    unfold markCarried
    split
    · contradiction
    all_goals simp [ih]

/-- Nothing is handed over when no slot waits. -/
theorem State.handOver_noneWaiting (s : State) (n : Nat) (h : ∀ r ∈ s.host.slots, r.phase ≠ .waiting) :
    State.handOver n s = s := by
  cases n with
  | zero => rfl
  | succ n =>
    unfold State.handOver
    split
    · rfl
    · rw [markCarried_none h]

/-- READ_QUEUE on an empty queue (R154). -/
theorem doReadQueue_nil {s : State} (h : s.queue.jobs = []) :
    doReadQueue [] s = (s, [0x00#8] ++ flagByte s.queue.hold ++ [0x00#8]) := by
  simp [doReadQueue, h, State.headReport, State.head, reply, Status.code, le1]

/-- A READ_QUEUE that waits behind a reply in transmission is handed over and answered; its reply waits for the path. -/
theorem State.dispatch_readQueue {s : State} {x : RxSlot} {t2 : Byte} {r : List Byte} {f : TxFrame}
    (hx : x.phase = .sending r) (hs : s.host.slots = [x, ⟨0x24#8, t2, [], .waiting⟩]) (htx : s.host.tx = some f)
    (hc : s.host.carried = none) (hq : s.queue.jobs = []) (he : s.enumerating = false) (hst : s.link.startup = false) :
    s.dispatch = { s with host := { s.host with
      slots := [x, ⟨0x24#8, t2, [], .ready ([0x00#8] ++ flagByte s.queue.hold ++ [0x00#8])⟩] } } := by
  have hb : s.handOverBlocked = false := by simp [State.handOverBlocked, hs, hx, he, hst]
  have hm : markCarried s.host.slots = some ([x, ⟨0x24#8, t2, [], .carried⟩], ⟨0x24#8, t2, [], .waiting⟩) := by
    simp [hs, markCarried, hx]
  have hreq : requestOf 0x24#8 = some .readQueue := requestOf_code .readQueue
  have hone : s.handOne [x, ⟨0x24#8, t2, [], .carried⟩] ⟨0x24#8, t2, [], .waiting⟩ = { s with host := { s.host with
      slots := [x, ⟨0x24#8, t2, [], .ready ([0x00#8] ++ flagByte s.queue.hold ++ [0x00#8])⟩] } } := by
    simp only [State.handOne, carryOut, hreq, carry]
    rw [doReadQueue_nil (s := { s with host := { s.host with slots := [x, ⟨0x24#8, t2, [], .carried⟩] } }) hq]
    simp [answered, State.compose, State.txKick, htx, RxSlot.answer, hx, hc]
  unfold State.dispatch State.handOver
  rw [if_neg (by simp [hb]), hm]
  show State.handOver 2 (s.handOne _ _) = _
  rw [hone]
  exact State.handOver_noneWaiting _ 2 (by simp [hx])

/-- The end of the settle time of a MANUAL_SWITCH's plan: its reply goes out, and no job waits to be examined (R50, R55). -/
theorem State.settleDone_manual {s : State} {t : Taken} {touched : List Nat} {ms : Nat} {tag : Byte} {p : List Byte}
    {y : RxSlot} (hslot : s.matrix.slot = .settling t touched ms) (hi : t.plan.issuer = .manual)
    (hw : s.matrix.waiting = []) (htx : s.host.tx = none) (hs : s.host.slots = [⟨0x14#8, tag, p, .carried⟩, y])
    (hy : y.phase = .waiting) (hq : s.queue.jobs = []) :
    s.settleDone = { s with
      matrix := { s.matrix with slot := .empty }
      queue := { s.queue with stallWait := false }
      host := { s.host with
        slots := [⟨0x14#8, tag, p, .sending ([0x00#8, 0x00#8] ++ le1 touched.length)⟩, y]
        tx := some ⟨true, hostFrame 0x94#8 tag ([0x00#8, 0x00#8] ++ le1 touched.length)⟩, carried := none } } := by
  have hreports : reports .manual (s.setSlot .empty, some (.complete touched.length)) =
      (s.setSlot .empty, [⟨.manual, .complete touched.length⟩]) := by
    simp only [reports, hw, State.takeWaiting, State.setSlot]
  have hcompose : (s.setSlot .empty).compose (planReply (.complete touched.length) []) = { s.setSlot .empty with
      host := { s.host with
        slots := [⟨0x14#8, tag, p, .sending ([0x00#8, 0x00#8] ++ le1 touched.length)⟩, y]
        tx := some ⟨true, hostFrame 0x94#8 tag ([0x00#8, 0x00#8] ++ le1 touched.length)⟩, carried := none } } := by
    simp [State.compose, State.txKick, hs, htx, RxSlot.answer, hy, takeReply, planReply, reply, Status.code, le1, replyKind]
  simp only [State.settleDone, hslot, hi, hreports, State.delivered, List.foldl_cons, List.foldl_nil, State.deliver,
    State.composeTimed]
  rw [hcompose]
  exact State.examineHead_nil hq

/-- Settles O10: the second slot waits, is handed over behind the reply in transmission, and a third frame overruns. -/
theorem twoSlotsHoldTheRequests : Obligations.TwoSlotsHoldTheRequests := by
  refine ⟨fun r tag p x s hs hp hx hc => ?_,
    fun tag t2 p t touched ms s hslot hi hw htx hs hq he hst => ?_,
    fun kind tag t2 p r fr s hs htx hc ha hq he hst => ?_, fun r tag p s hs hp hfull => ?_⟩
  · rw [exec_request, State.frame_hunting hs _ _ hp, State.received_second hx hc]
  · show Host.Outcome.next s.settleDone.dispatch = _
    rw [State.settleDone_manual hslot hi hw htx hs rfl hq]
    exact congrArg _ (State.dispatch_readQueue rfl rfl rfl rfl hq he hst)
  · refine (exec_request .readQueue t2 [] s).trans (congrArg _ ?_)
    rw [State.frame_hunting ha _ _ (by simp)]
    unfold State.received
    rw [if_neg (by simp [hs]), hs]
    exact State.dispatch_readQueue rfl rfl htx hc hq he hst
  · rw [exec_request, State.frame_hunting hs _ _ hp, State.received_full hfull]

end Sys2Proof.Machine
end

section
/-! PROOFS. Requests of the host link and of the event unit (12.3–12.7). -/

namespace Sys2Proof.Machine

open Sys2Proof

/-! ### Refusals (R182) -/

/-- What a block answers: OK, nothing yet, or a refusal with the state as it was. -/
def OkOrSame (s : State) (x : State × Option (List Byte)) : Prop :=
  ∀ st more, x.2 = some (st :: more) → st ≠ 0x00#8 → x.1 = s

@[simp] theorem okOrSame_same (s : State) (r : Option (List Byte)) : OkOrSame s (s, r) := fun _ _ _ _ => rfl

@[simp] theorem okOrSame_later (s t : State) : OkOrSame s (t, none) := fun _ _ h => by cases h

@[simp] theorem okOrSame_ok (s t : State) (c : List Byte) : OkOrSame s (t, some (reply .ok c)) :=
  fun _ _ h hne => by
    cases h
    exact absurd rfl hne

/-- An answered request, in the form in which the state with its reply is stated. -/
theorem exec_answered_eq (r : Request) (tag : Byte) (p : List Byte) (s u : State) {t : State} (rep : List Byte)
    (hs : s.ready) (hp : p.length ≤ 1024) (hu : carry r p (s.handed r.code tag p) = (u, some rep))
    (hh : u.host = (s.handed r.code tag p).host) (ht : u.replying r.code tag p rep = t) :
    exec (requestInstr r tag p) s = .next t := ht ▸ exec_answered r tag p s u rep hs hp hu hh

/-- Every branch of every block but READ_NET's answers OK or leaves the state as it was. -/
theorem carry_okOrSame (r : Request) (p : List Byte) (s : State) (hr : r ≠ .readNet) : OkOrSame s (carry r p s) := by
  cases r with
  | readNet => exact absurd rfl hr
  | _ =>
    simp only [carry, answered, doIdent, doSetLink, doRestart, doReadStatus, doSetEvents, doClearEvents, doMapPoints,
      doReadMap, doSetLeads, doReadLeads, doLoadNet, doClearNets, doSetCardLink, doSetRoster, rosterOk, doEnumerate,
      doReadRoster, doManualSwitch, doReadRelays, doUnblock, doSetLimits, doMeasure, doSetHv, doClearHvFault,
      doSubmitJob, doAbortJob, doHoldQueue, doReleaseQueue, doReadQueue, doResume, doSetReporting, doFetchRecords,
      doPrinterConfig, doPrintHold, doPrintRelease, doPrintFlush]
    repeat' split
    all_goals simp

/-- Settles O12: a refusal left the state as it was, so only the slot and the transmit path change. -/
theorem refusedRequestChangesNothing : Obligations.RefusedRequestChangesNothing := by
  intro r tag p s st more hs hp hr hc hst
  have hsame := carry_okOrSame r p (s.handed r.code tag p) hr st more hc hst
  exact exec_answered_unchanged r tag p s (st :: more) hs hp (Prod.ext hsame hc)

theorem answered_eq {x : State × List Byte} {s : State} {rep : List Byte} (h : x = (s, rep)) :
    answered x = (s, some rep) := by rw [h]; rfl

/-! ### A reply behind a NOTICE -/

/-- A request whose block starts a NOTICE: its reply waits ready. -/
theorem exec_answered_busy (r : Request) (tag : Byte) (p : List Byte) (s u : State) (rep : List Byte) (f : TxFrame)
    (hs : s.ready) (hp : p.length ≤ 1024) (hu : carry r p (s.handed r.code tag p) = (u, some rep))
    (hslots : u.host.slots = [⟨r.code, tag, p, .carried⟩]) (htx : u.host.tx = some f) :
    exec (requestInstr r tag p) s = .next { u with host := { u.host with
      slots := [⟨r.code, tag, p, .ready rep⟩], carried := none } } := by
  rw [exec_request, State.frame_ready s hs _ _ _ hp]
  simp only [carryOut, requestOf_code, hu]
  have hcompose : u.compose rep = { u with host := { u.host with
      slots := [⟨r.code, tag, p, .ready rep⟩], carried := none } } := by
    simp [State.compose, State.txKick, hslots, htx, RxSlot.answer]
  rw [hcompose]
  exact congrArg _ (State.handOver_noneWaiting _ 2 (by simp))

/-! ### The ends of transmission (R183, R185) -/

theorem exec_replySent {s : State} {fr : List Byte} {r : RxSlot} (htx : s.host.tx = some ⟨true, fr⟩)
    (hr : s.host.slots.find? RxSlot.isSending = some r) : exec .replySent s = .next (State.replyGone
      { s with host := { s.host with tx := none, slots := s.host.slots.filter (fun x => !x.isSending) } } r) := by
  show Host.Outcome.next s.replySent = _
  simp only [State.replySent, htx, hr]

theorem exec_noticeSent {s : State} {fr : List Byte} (htx : s.host.tx = some ⟨false, fr⟩) :
    exec .noticeSent s = .next (State.txKick { s with host := { s.host with tx := none } }) := by
  show Host.Outcome.next s.noticeSent = _
  simp only [State.noticeSent, htx]

/-- A free path with no reply ready and no NOTICE wanted stays free. -/
theorem State.txKick_idle {s : State} (htx : s.host.tx = none) (hr : takeReply s.host.slots = none)
    (hn : s.events.noticeWanted = false) : s.txKick = s := by
  rw [State.txKick_notice htx hr, hn]
  rfl

/-- Settles O15: what frees the path, and the order in which the path takes what waits (R183). -/
theorem endsOfTransmissionFreeThePath : Obligations.EndsOfTransmissionFreeThePath := by
  refine ⟨fun kind tag p st more fr s hs htx hn => ?_, fun fr s htx => ?_⟩
  · have hfind : s.host.slots.find? RxSlot.isSending = some ⟨kind, tag, p, .sending (st :: more)⟩ := by
      simp [hs, RxSlot.isSending]
    have hgone := exec_replySent htx hfind
    have hrest : s.host.slots.filter (fun x => !x.isSending) = [] := by simp [hs, RxSlot.isSending]
    rw [hrest] at hgone
    have hidle : State.txKick { s with host := { s.host with tx := none, slots := [] } } =
        { s with host := { s.host with slots := [], tx := none } } := State.txKick_idle rfl rfl hn
    refine ⟨fun hother => ?_, fun hok hkind hbaud => ?_⟩
    · have hno : ∀ k : Byte, k = 0x02#8 ∨ k = 0x03#8 →
          ((RxSlot.sentOk ⟨kind, tag, p, .sending (st :: more)⟩) && kind == k) = false := fun k hk => by
        simp only [List.mem_cons, List.not_mem_nil, or_false, not_or] at hother
        rcases hother with hst | ⟨h2, h3⟩
        · simp [RxSlot.sentOk, hst]
        · rcases hk with rfl | rfl <;> simp [h2, h3]
      have h3 := hno Request.restart.code (.inr rfl)
      have h2 := hno Request.setLink.code (.inl rfl)
      rw [hgone]
      simp only [State.replyGone, h2, h3]
      exact congrArg _ hidle
    · subst hok hkind
      rw [hgone]
      have hchange : State.changeBaud { s with host := { s.host with tx := none, slots := [] } } (p.headD 0#8).toNat =
          { s with host := { s.host with slots := [], tx := none, assembly := [], baud := (p.headD 0#8).toNat } } :=
        if_neg (Ne.symm hbaud)
      refine congrArg Host.Outcome.next ((congrArg State.txKick hchange).trans ?_)
      exact State.txKick_idle rfl rfl hn
  · rw [exec_noticeSent htx]
    refine ⟨fun hs hn => ?_, fun hs hn hv => ?_, fun hs hn hv => ?_, fun k t q r x hs => ?_, fun k t q r x hs hx => ?_⟩
    · exact congrArg _ (State.txKick_idle rfl (by simp [hs, takeReply]) hn)
    · refine congrArg _ ((State.txKick_notice rfl (by simp [hs, takeReply])).trans ?_)
      rw [if_pos hn]
      exact State.takeNotice_visible hv
    · refine congrArg _ ((State.txKick_notice rfl (by simp [hs, takeReply])).trans ?_)
      rw [if_pos hn]
      exact State.takeNotice_none hv
    · exact congrArg _ (State.txKick_reply rfl (by simp [hs, takeReply]))
    · refine congrArg _ (State.txKick_reply rfl ?_)
      rcases hx with hx | hx <;> simp [hs, takeReply, hx]

/-! ### SET_LINK (R185), RESTART (R186), READ_STATUS (R192) -/

theorem doSetLink_singleton (c : Byte) (s : State) :
    doSetLink [c] s = (s, if 1 ≤ c.toNat ∧ c.toNat ≤ 8 then [0x00#8] else [0x03#8]) := by
  simp only [doSetLink, Bool.and_eq_true, decide_eq_true_eq]
  split <;> rfl

theorem doSetLink_badLength {p : List Byte} (h : p.length ≠ 1) (s : State) : doSetLink p s = (s, [0x05#8]) := by
  match p with
  | [] => rfl
  | [_] => exact absurd rfl h
  | _ :: _ :: _ => rfl

/-- Settles O17. -/
theorem setLinkIsAnsweredAtTheOldBaud : Obligations.SetLinkIsAnsweredAtTheOldBaud := by
  intro tag c s hs
  refine ⟨fun hc => ?_, fun hc => ?_, fun p hp hne => ?_⟩
  · refine exec_answered_unchanged .setLink tag [c] s _ hs (by simp) (answered_eq ?_)
    rw [doSetLink_singleton, if_pos hc]
  · refine exec_answered_unchanged .setLink tag [c] s _ hs (by simp) (answered_eq ?_)
    rw [doSetLink_singleton, if_neg hc]
  · exact exec_answered_unchanged .setLink tag p s _ hs hp (answered_eq (doSetLink_badLength hne _))

/-- The restart takes effect with the last byte of its reply. -/
theorem exec_replySent_restart {s : State} {tag : Byte} {p more fr : List Byte} (htx : s.host.tx = some ⟨true, fr⟩)
    (hr : s.host.slots.find? RxSlot.isSending = some ⟨0x03#8, tag, p, .sending (0x00#8 :: more)⟩) :
    exec .replySent s = .next s.restart := exec_replySent htx hr

/-- Settles O18, by the values that `State.restart` gives each block. -/
theorem restartKeepsWhatTheRulesKeep : Obligations.RestartKeepsWhatTheRulesKeep := by
  refine ⟨fun tag s hs => ⟨?_, fun b p hp => ?_⟩, fun tag p more fr s hr htx => ⟨s.restart, ?_, ?_⟩⟩
  · exact exec_answered_unchanged .restart tag [] s _ hs (by simp) rfl
  · exact exec_answered_unchanged .restart tag (b :: p) s _ hs (by simpa using hp) rfl
  · exact exec_replySent_restart htx hr
  · exact ⟨rfl, rfl, rfl, rfl, rfl, rfl, rfl, rfl, rfl, rfl, rfl, rfl, rfl, rfl, rfl, rfl, rfl⟩

/-- Settles O19: the contents are those of the state at the hand-over, which differs in the receive slots alone. -/
theorem readStatusReportsThePart : Obligations.ReadStatusReportsThePart := by
  intro tag s hs
  refine ⟨?_, fun b p hp => ?_⟩
  · refine exec_answered_unchanged .readStatus tag [] s _ hs (by simp) (answered_eq ?_)
    show (_, reply .ok s.statusBytes) = _
    simp only [reply, Status.code, State.statusBytes, State.jobStatus, Log.testOccupancy, Log.hostPending,
      List.append_assoc, List.cons_append, List.nil_append]
    cases s.activeJob <;> rfl
  · exact exec_answered_unchanged .readStatus tag (b :: p) s _ hs (by simpa using hp) rfl

/-! ### SET_EVENTS and CLEAR_EVENTS (R190, R191) -/

theorem flatMap_le1 (l : List Nat) : l.flatMap le1 = l.map (BitVec.ofNat 8) := by
  induction l with
  | nil => rfl
  | cons n l ih => rw [List.flatMap_cons, ih]; rfl

/-- Numbers below 256 written as bytes and read back. -/
theorem map_toNat_ofNat {l : List Nat} (h : ∀ n ∈ l, n < 256) : (l.map (BitVec.ofNat 8)).map (·.toNat) = l := by
  rw [List.map_map]
  refine (List.map_congr_left fun n hn => ?_).trans (List.map_id l)
  exact byte_toNat n (h n hn)

/-- SET_EVENTS with every value in range (R190). -/
theorem doSetEvents_ok {m a : Nat} {levels : List Nat} (hm : m < 4096) (hl : levels.length = 12)
    (hlev : ∀ l ∈ levels, l ≤ 3) (ha : a ≤ 3) (s : State) :
    doSetEvents (le2 m ++ levels.flatMap le1 ++ le1 a) s = (s.applyEvents (BitVec.ofNat 12 m) levels a, [0x00#8]) := by
  have hrest : levels.flatMap le1 ++ le1 a = (levels ++ [a]).map (BitVec.ofNat 8) := by
    rw [flatMap_le1, List.map_append]
    rfl
  have hall : ∀ n ∈ levels ++ [a], n ≤ 3 := by
    intro n hn
    rcases List.mem_append.1 hn with hn | hn
    · exact hlev n hn
    · rw [List.mem_singleton.1 hn]; exact ha
  have htake : ((levels ++ [a]).map (BitVec.ofNat 8)).take 12 = levels.map (BitVec.ofNat 8) := by
    rw [List.map_append, List.take_left' (by simp [hl])]
  have hlast : ((levels ++ [a]).map (BitVec.ofNat 8)).getD 12 0#8 = BitVec.ofNat 8 a := by
    rw [List.map_append, List.getD_eq_getElem?_getD, List.getElem?_append_right (by simp [hl])]
    simp [hl]
  have hoks : (decide (u16 (BitVec.ofNat 8 m) (BitVec.ofNat 8 (m / 256)) < 4096) ::
      ((levels ++ [a]).map (BitVec.ofNat 8)).map (fun b : Byte => decide (b.toNat ≤ 3))).all id = true := by
    rw [u16_of m (by omega), List.all_cons, List.map_map]
    simp only [hm, decide_true, id, Bool.true_and, List.all_map, List.all_eq_true, Function.comp, decide_eq_true_eq]
    intro n hn
    have := hall n hn
    rw [byte_toNat n (by omega)]
    exact this
  rw [List.append_assoc, hrest]
  simp only [doSetEvents, le2, List.cons_append, List.nil_append]
  rw [if_neg (by simp [hl]), if_pos hoks, htake, hlast, map_toNat_ofNat fun n hn => by have := hlev n hn; omega,
    byte_toNat a (by omega), u16_of m (by omega)]
  rfl

/-- A pending event that a mask lets through is visible. -/
theorem Events.visible_of_unmasked {v : Events} {m : BitVec 12} (hm : v.mask = m) {old : BitVec 12}
    (h : (v.pending &&& old &&& ~~~m) ≠ 0#12) : v.visible ≠ [] := by
  by_contra hnone
  refine h (BitVec.eq_of_getLsbD_eq fun n hn => ?_)
  have hn' : n ∉ v.visible := by simp [hnone]
  rw [v.mem_visible, hm] at hn'
  simp only [BitVec.getLsbD_and, BitVec.getLsbD_not, BitVec.getLsbD_zero, hn, decide_true, Bool.true_and]
  cases hp : v.pending.getLsbD n <;> cases hk : m.getLsbD n <;> simp_all

/-- The values that a SET_EVENTS replaces. -/
def State.withEvents (s : State) (mask : BitVec 12) (levels : List Nat) (attn : Nat) : State :=
  { s with events := { s.events with mask := mask, levels := levels, attnLevel := attn } }

theorem State.applyEvents_masked {s : State} {mask : BitVec 12} (levels : List Nat) (attn : Nat)
    (h : (s.events.pending &&& s.events.mask &&& ~~~mask) = 0#12) :
    s.applyEvents mask levels attn = s.withEvents mask levels attn := if_pos h

/-- A pending event is unmasked on a free path (R190; log 5). -/
theorem State.applyEvents_unmasks {s : State} {mask : BitVec 12} (levels : List Nat) (attn : Nat)
    (h : (s.events.pending &&& s.events.mask &&& ~~~mask) ≠ 0#12) (htx : s.host.tx = none)
    (hr : takeReply s.host.slots = none) :
    s.applyEvents mask levels attn = { s.withEvents mask levels attn with
      events := { (s.withEvents mask levels attn).events with noticeWanted := false }
      host := { s.host with
        tx := some ⟨false, hostFrame 0xC0#8 0#8 (s.withEvents mask levels attn).events.noticePayload⟩ } } := by
  have hv : (s.withEvents mask levels attn).events.visible ≠ [] := Events.visible_of_unmasked rfl h
  exact (if_neg h).trans (State.wantNotice_free (s := s.withEvents mask levels attn) htx hr hv)

/-- The event registers once the events of a set are cleared. -/
theorem Events.clear_ofNat (v : Events) (m : Nat) : v.clear (BitVec.ofNat 12 m) = { v with
    pending := v.pending &&& ~~~(BitVec.ofNat 12 m)
    card := if m.testBit 2 then ⟨none, none, none, none⟩ else v.card
    printer := if m.testBit 8 then ⟨false, false⟩ else v.printer
    link := if m.testBit 11 then ⟨false, false, false, false⟩ else v.link } := by
  have hbit : ∀ n < 12, (BitVec.ofNat 12 m).getLsbD n = m.testBit n := fun n hn => by
    rw [BitVec.getLsbD_ofNat, decide_eq_true hn, Bool.true_and]
  simp only [Events.clear, Event.num, hbit 2 (by decide), hbit 8 (by decide), hbit 11 (by decide), CardReg.empty,
    PrinterReg.empty, LinkReg.empty]

theorem doClearEvents_ok {m : Nat} (hm : m < 4096) (s : State) : doClearEvents (le2 m) s =
    (s.clearEvents (BitVec.ofNat 12 m), [0x00#8] ++ le2 (s.clearEvents (BitVec.ofNat 12 m)).events.pending.toNat) := by
  simp only [doClearEvents, le2, u16_of m (by omega), if_neg (show ¬ 4096 ≤ m by omega)]
  rfl

/-- Notification afresh by what waits for the host (R163, R166). -/
theorem State.notifyFresh_below {s : State} (h : s.log.hostPending < s.log.threshold) :
    s.notifyFresh = { s with log := { s.log with notifyTimer :=
      if s.log.hostPending = 0 ∨ s.log.notifyTimer ≠ none then s.log.notifyTimer else some s.log.timeout } } := by
  unfold State.notifyFresh
  rw [if_neg (by omega)]
  by_cases hrest : s.log.hostPending = 0 ∨ s.log.notifyTimer ≠ none
  · rw [if_pos hrest, if_neg (by
      rcases hrest with h0 | ht
      · simp [h0]
      · simp [Option.isNone_iff_eq_none, ht])]
  · obtain ⟨h0, ht⟩ := not_or.1 hrest
    rw [if_neg hrest, if_pos (by simp at ht ⊢; exact ⟨by omega, ht⟩)]
    rfl

theorem State.notifyFresh_reached {s : State} (h : s.log.threshold ≤ s.log.hostPending) :
    s.notifyFresh = s.stopNotify.raise .defectReady := if_pos h

/-- An event of a set just cleared is not pending. -/
theorem Events.clear_isPending {v : Events} {m : BitVec 12} {e : Event} (h : m.getLsbD e.num = true) :
    (v.clear m).isPending e = false := by
  simp [Events.clear, Events.isPending, h]

theorem State.clearEvents_other {s : State} {m : BitVec 12} (h : m.getLsbD 9 = false) :
    s.clearEvents m = { s with events := s.events.clear m } := by
  simp only [State.clearEvents, Event.num, h]
  rfl

/-- The state with the named events cleared. -/
def State.cleared (s : State) (m : BitVec 12) : State := { s with events := s.events.clear m }

theorem State.clearEvents_defectReady {s : State} {m : BitVec 12} (h : m.getLsbD 9 = true) :
    s.clearEvents m = (s.cleared m).notifyFresh := by
  simp only [State.clearEvents, Event.num, h]
  rfl

/-- Settles O20: the values are replaced or cleared, then the NOTICE or the notification that follows. -/
theorem eventRequestsMaskAndClear : Obligations.EventRequestsMaskAndClear := by
  refine ⟨fun tag m levels a s hs hm hl hlev ha => ?_, fun tag m s hs hm => ?_⟩
  · have hlen : (le2 m ++ levels.flatMap le1 ++ le1 a).length ≤ 1024 := by
      rw [flatMap_le1]
      simp [hl]
    have hdo := doSetEvents_ok hm hl hlev ha (s.handed 0x05#8 tag (le2 m ++ levels.flatMap le1 ++ le1 a))
    refine ⟨fun hmasked => ?_, fun hunmasks => ⟨_, rfl, ?_⟩⟩
    · rw [State.applyEvents_masked (s := s.handed _ _ _) levels a hmasked] at hdo
      exact exec_answered_eq .setEvents tag _ s _ _ hs hlen (answered_eq hdo) rfl rfl
    · rw [State.applyEvents_unmasks (s := s.handed _ _ _) levels a hunmasks hs.2.2.1 rfl] at hdo
      have hcar : s.host.carried = none := hs.2.2.2.1
      refine (exec_answered_busy .setEvents tag _ s _ _ _ hs hlen (answered_eq hdo) rfl rfl).trans ?_
      simp only [State.handed, State.withEvents, hcar]
      rfl
  · have hlen : (le2 m).length ≤ 1024 := by simp
    have hbit : (BitVec.ofNat 12 m).getLsbD 9 = m.testBit 9 := by
      rw [BitVec.getLsbD_ofNat]
      rfl
    have hdo := doClearEvents_ok hm (s.handed 0x06#8 tag (le2 m))
    have hv := s.events.clear_ofNat m
    have hbelow' := State.notifyFresh_below (s := (s.handed 0x06#8 tag (le2 m)).cleared (BitVec.ofNat 12 m))
    have hreached' := State.notifyFresh_reached (s := (s.handed 0x06#8 tag (le2 m)).cleared (BitVec.ofNat 12 m))
    refine ⟨s.events.clear (BitVec.ofNat 12 m), _, hv, rfl, fun h9 => ?_, fun h9 hbelow => ?_, fun h9 hreached =>
      ⟨_, rfl, fun hmasked => ?_, fun hunmasked => ?_⟩⟩
    · rw [State.clearEvents_other (hbit.trans h9)] at hdo
      exact exec_answered_eq .clearEvents tag _ s _ _ hs hlen (answered_eq hdo) rfl rfl
    · rw [State.clearEvents_defectReady (hbit.trans h9), hbelow' hbelow] at hdo
      exact exec_answered_eq .clearEvents tag _ s _ _ hs hlen (answered_eq hdo) rfl rfl
    · rw [State.clearEvents_defectReady (hbit.trans h9), hreached' hreached,
        State.raise_old (s := State.stopNotify ((s.handed 0x06#8 tag (le2 m)).cleared _)) (e := .defectReady)
          (.inr hmasked)] at hdo
      exact exec_answered_eq .clearEvents tag _ s _ _ hs hlen (answered_eq hdo) rfl rfl
    · have hclear : (s.events.clear (BitVec.ofNat 12 m)).isPending .defectReady = false :=
        Events.clear_isPending (hbit.trans h9)
      have hraise := (State.raise_new (s := ((s.handed 0x06#8 tag (le2 m)).cleared
        (BitVec.ofNat 12 m)).stopNotify) (e := .defectReady) hclear hunmasked).trans
        (State.wantNotice_free (s := State.flagged _ .defectReady) hs.2.2.1 rfl (State.flagged_visible _ hunmasked))
      have hcar : s.host.carried = none := hs.2.2.2.1
      rw [State.clearEvents_defectReady (hbit.trans h9), hreached' hreached, hraise] at hdo
      refine (exec_answered_busy .clearEvents tag _ s _ _ _ hs hlen (answered_eq hdo) rfl rfl).trans ?_
      simp only [State.flagged, State.stopNotify, State.cleared, State.handed, hcar]
      rfl

end Sys2Proof.Machine
end

section
/-! PROOFS. The requests that write or read the point map and the lead table (01). -/

namespace Sys2Proof.Machine

open Sys2Proof

/-! ### A run of writes into a sparse table -/

/-- The table after a list of writes. -/
def tputs {α : Type} (t : List (Nat × α)) (items : List (Nat × Option α)) : List (Nat × α) :=
  items.foldl (fun t it => tput t it.1 it.2) t

theorem tputs_wf {α : Type} (items : List (Nat × Option α)) : ∀ t : List (Nat × α), tableWf t = true →
    tableWf (tputs t items) = true := by
  induction items with
  | nil => exact fun _ h => h
  | cons i l ih => exact fun t h => ih _ (tput_wf _ _ _ h)

theorem tget_tputs_other {α : Type} {q : Nat} : ∀ (items : List (Nat × Option α)) (t : List (Nat × α)),
    tableWf t = true → q ∉ items.map (·.1) → tget (tputs t items) q = tget t q
  | [], _, _, _ => rfl
  | i :: l, t, h, hq => by
    obtain ⟨hne, hl⟩ := not_or.1 (List.mem_cons.not.1 hq)
    exact (tget_tputs_other l _ (tput_wf _ _ _ h) hl).trans ((tget_tput _ _ _ _ h).trans (if_neg hne))

theorem tget_tputs_mem {α : Type} {it : Nat × Option α} : ∀ (items : List (Nat × Option α)) (t : List (Nat × α)),
    tableWf t = true → (items.map (·.1)).Nodup → it ∈ items → tget (tputs t items) it.1 = it.2
  | i :: l, t, h, hn, hit => by
    obtain ⟨hi, hl⟩ := List.nodup_cons.1 hn
    rcases List.mem_cons.1 hit with rfl | hit
    · exact (tget_tputs_other l _ (tput_wf _ _ _ h) hi).trans ((tget_tput _ _ _ _ h).trans (if_pos rfl))
    · exact tget_tputs_mem l _ (tput_wf _ _ _ h) hl hit

/-- Names that are pairwise apart: each stands once. -/
theorem countP_name {β : Type} {items : List (Nat × β)} (h : (items.map (·.1)).Nodup) (a : Nat) :
    items.countP (fun x => x.1 == a) ≤ 1 := by
  have hc := List.nodup_iff_count_le_one.1 h a
  rwa [List.count_eq_countP, List.countP_map] at hc

theorem counted_le1 {α : Type} (f : Nat → List Byte → Option α) {n : Nat} (h : n < 256) (rest : List Byte) :
    counted f (le1 n ++ rest) = (f n rest).map (fun x => (n, x)) := by
  simp only [le1, List.cons_append, List.nil_append, counted, byte_toNat n h]

theorem flatMap_four_length {α : Type} (l : List α) (f g : α → List Byte) (hf : ∀ x, (f x).length = 2)
    (hg : ∀ x, (g x).length = 2) : (l.flatMap (fun x => f x ++ g x)).length = 4 * l.length := by
  simp [List.length_flatMap, hf, hg, Nat.mul_comm]

/-! ### MAP_POINTS (R4, R5) -/

/-- The two bytes of a channel in a MAP_POINTS item. -/
def chanPair : Option Chan → Byte × Byte
  | none => (0xFF#8, 0#8)
  | some c => (BitVec.ofNat 8 c.pos, BitVec.ofNat 8 c.ch)

theorem chanBytes_eq (c : Option Chan) : chanBytes c = [(chanPair c).1, (chanPair c).2] := by
  cases c <;> rfl

/-- The fields of a MAP_POINTS item. -/
def mapItem (it : Nat × Option Chan) : Nat × Byte × Byte := (it.1, chanPair it.2)

theorem itemChan_chanPair {oc : Option Chan} (h : ∀ c, oc = some c → 1 ≤ c.pos ∧ c.pos ≤ 32 ∧ c.ch ≤ 127) :
    itemChan (chanPair oc).1 (chanPair oc).2 = some oc := by
  cases oc with
  | none => rfl
  | some c =>
    obtain ⟨h1, h2, h3⟩ := h c rfl
    have hpos := byte_toNat c.pos (by omega)
    have hch := byte_toNat c.ch (by omega)
    have hne : BitVec.ofNat 8 c.pos ≠ 0xFF#8 := fun he => by
      have h255 : c.pos = 255 := hpos ▸ congrArg BitVec.toNat he
      omega
    simp [itemChan, chanPair, hne, hpos, hch, h1, h2, h3]

section
variable {items : List (Nat × Option Chan)} (hpts : ∀ it ∈ items, 4 ≤ it.1 ∧ it.1 ≤ 4095)
  (hch : ∀ it ∈ items, ∀ c, it.2 = some c → 1 ≤ c.pos ∧ c.pos ≤ 32 ∧ c.ch ≤ 127)

include hpts in
theorem items4_mapItem : items4 items.length (items.flatMap (fun it => le2 it.1 ++ chanBytes it.2)) =
    some (items.map mapItem) := by
  have h := items4_of (items.map mapItem) (fun x hx => by
    obtain ⟨it, hit, rfl⟩ := List.mem_map.1 hx
    have := (hpts it hit).2
    show it.1 < 65536
    omega)
  rw [List.length_map, List.flatMap_map] at h
  simpa only [mapItem, chanBytes_eq] using h

include hch in
theorem applyMap_mapItem (m : List (Nat × Chan)) : applyMap m (items.map mapItem) = tputs m items := by
  induction items generalizing m with
  | nil => rfl
  | cons i l ih =>
    have hi := itemChan_chanPair (hch i (List.mem_cons_self ..))
    refine Eq.trans ?_ (ih (fun it hit => hch it (List.mem_cons_of_mem _ hit)) (tput m i.1 i.2))
    simp only [applyMap, List.map_cons, List.foldl_cons, mapItem, hi, Option.getD_some]

include hpts hch in
theorem mapItemBad_none (hn : (items.map (·.1)).Nodup) : (items.map mapItem).any (mapItemBad (items.map mapItem)) = false := by
  rw [List.any_eq_false]
  intro x hx
  obtain ⟨it, hit, rfl⟩ := List.mem_map.1 hx
  have hcount := countP_name (items := items.map mapItem) (by simpa [List.map_map, Function.comp_def, mapItem] using hn) it.1
  have hc := itemChan_chanPair (hch it hit)
  obtain ⟨h1, h2⟩ := hpts it hit
  rw [List.countP_map] at hcount
  simp [mapItemBad, mapItem, harnessPoint, h1, h2, hc, hcount]

include hch in
/-- No item's channel is another point's in the resulting map. -/
theorem mapItemConflict_none {m : List (Nat × Chan)} (hw : tableWf m = true) (hn : (items.map (·.1)).Nodup)
    (hfree : ∀ it ∈ items, ∀ c, it.2 = some c →
      (∀ jt ∈ items, jt.1 ≠ it.1 → jt.2 ≠ some c) ∧ ∀ e ∈ m, e.1 ∉ items.map (·.1) → e.2 ≠ c) :
    (items.map mapItem).any (mapItemConflict (tputs m items)) = false := by
  rw [List.any_eq_false]
  intro x hx
  obtain ⟨it, hit, rfl⟩ := List.mem_map.1 hx
  have hc : itemChan (mapItem it).2.1 (mapItem it).2.2 = some it.2 := itemChan_chanPair (hch it hit)
  rw [mapItemConflict, hc, Option.getD_some]
  cases hoc : it.2 with
  | none => simp
  | some c =>
    simp only [List.any_eq_true, Bool.and_eq_true, beq_iff_eq, bne_iff_ne, not_exists, not_and, not_not]
    intro e he hec
    by_contra hne
    obtain ⟨hitems, hold⟩ := hfree it hit c hoc
    have hget := tget_of_mem e _ (tputs_wf items m hw) he
    by_cases hq : e.1 ∈ items.map (·.1)
    · obtain ⟨jt, hjt, hjte⟩ := List.mem_map.1 hq
      have hj := tget_tputs_mem items m hw hn hjt
      rw [hjte, hget, hec] at hj
      exact hitems jt hjt (hjte ▸ hne) hj.symm
    · rw [tget_tputs_other items m hw hq] at hget
      exact hold e (mem_of_tget _ _ _ hget) hq hec

include hpts hch in
theorem doMapPoints_ok {s : State} (hact : s.jobActive = false) (hw : tableWf s.store.map = true)
    (h1 : 1 ≤ items.length) (h2 : items.length ≤ 128) (hn : (items.map (·.1)).Nodup)
    (hfree : ∀ it ∈ items, ∀ c, it.2 = some c →
      (∀ jt ∈ items, jt.1 ≠ it.1 → jt.2 ≠ some c) ∧ ∀ e ∈ s.store.map, e.1 ∉ items.map (·.1) → e.2 ≠ c) :
    doMapPoints (le1 items.length ++ items.flatMap (fun it => le2 it.1 ++ chanBytes it.2)) s =
      ({ s with store := { s.store with map := tputs s.store.map items } }, [0x00#8]) := by
  unfold doMapPoints
  rw [counted_le1 _ (by omega), items4_mapItem hpts, Option.map_some]
  have h0 : ¬ items.length = 0 := by omega
  have h128 : ¬ 128 < items.length := by omega
  simp only [hact, h0, h128, mapItemBad_none hpts hch hn, applyMap_mapItem hch, mapItemConflict_none hch hw hn hfree]
  rfl

end

/-- Settles O21: the accepted items are written one after the other, each point once. -/
theorem mapPointsWritesTheMap : Obligations.MapPointsWritesTheMap := by
  intro tag items s hs hact hw h1 h2 hn hpts hch hfree
  have hlen : (le1 items.length ++ items.flatMap (fun it => le2 it.1 ++ chanBytes it.2)).length ≤ 1024 := by
    have := flatMap_four_length items (fun it => le2 it.1) (fun it => chanBytes it.2) (fun _ => rfl)
      (fun it => by rw [chanBytes_eq]; rfl)
    simp only [List.length_append, le1_length, this]
    omega
  refine ⟨tputs s.store.map items, ?_, tputs_wf _ _ hw, fun it hit => tget_tputs_mem items _ hw hn hit,
    fun q hq => tget_tputs_other items _ hw hq⟩
  exact exec_answered_store .mapPoints tag _ s _ _ hs hlen
    (answered_eq (doMapPoints_ok hpts hch (s := s.handed _ tag _) hact hw h1 h2 hn hfree))

/-! ### SET_LEADS (R8) -/

/-- The fields of a SET_LEADS item. -/
def leadItem (it : Nat × Nat) : Nat × Byte × Byte := (it.1, BitVec.ofNat 8 it.2, BitVec.ofNat 8 (it.2 / 256))

/-- A lead as the table holds it: 0 is left unlisted (R7). -/
def leadEntry (it : Nat × Nat) : Nat × Option Nat := (it.1, if it.2 = 0 then none else some it.2)

theorem map_leadEntry_fst (items : List (Nat × Nat)) : (items.map leadEntry).map (·.1) = items.map (·.1) := by
  simp [List.map_map, Function.comp_def, leadEntry]

section
variable {items : List (Nat × Nat)} (hit : ∀ it ∈ items, 4 ≤ it.1 ∧ it.1 ≤ 4095 ∧ it.2 ≤ 5000)
include hit

theorem items4_leadItem : items4 items.length (items.flatMap (fun it => le2 it.1 ++ le2 it.2)) =
    some (items.map leadItem) := by
  have h := items4_of (items.map leadItem) (fun x hx => by
    obtain ⟨it, hmem, rfl⟩ := List.mem_map.1 hx
    have := (hit it hmem).2.1
    show it.1 < 65536
    omega)
  rw [List.length_map, List.flatMap_map] at h
  exact h

theorem leadItemBad_none (hn : (items.map (·.1)).Nodup) :
    (items.map leadItem).any (leadItemBad (items.map leadItem)) = false := by
  rw [List.any_eq_false]
  intro x hx
  obtain ⟨it, hmem, rfl⟩ := List.mem_map.1 hx
  have hcount := countP_name (items := items.map leadItem)
    (by simpa [List.map_map, Function.comp_def, leadItem] using hn) it.1
  obtain ⟨h1, h2, h3⟩ := hit it hmem
  have hv := u16_of it.2 (by omega)
  rw [List.countP_map] at hcount
  simp [leadItemBad, leadItem, harnessPoint, h1, h2, h3, hv, hcount]

theorem setLeads_eq (st : Store) : (items.map leadItem).foldl (fun st it => st.setLead it.1 (u16 it.2.1 it.2.2)) st =
    { st with leads := tputs st.leads (items.map leadEntry) } := by
  induction items generalizing st with
  | nil => rfl
  | cons i l ih =>
    have hv := u16_of i.2 (by have := (hit i (List.mem_cons_self ..)).2.2; omega)
    refine Eq.trans ?_ (ih (fun it h => hit it (List.mem_cons_of_mem _ h)) (st.setLead i.1 i.2))
    simp only [List.map_cons, List.foldl_cons, leadItem, hv]

theorem doSetLeads_ok {s : State} (hact : s.jobActive = false) (h1 : 1 ≤ items.length) (h2 : items.length ≤ 128)
    (hn : (items.map (·.1)).Nodup) :
    doSetLeads (le1 items.length ++ items.flatMap (fun it => le2 it.1 ++ le2 it.2)) s =
      ({ s with store := { s.store with leads := tputs s.store.leads (items.map leadEntry) } }, [0x00#8]) := by
  unfold doSetLeads
  rw [counted_le1 _ (by omega), items4_leadItem hit, Option.map_some]
  have h0 : ¬ items.length = 0 := by omega
  have h128 : ¬ 128 < items.length := by omega
  simp only [hact, h0, h128, leadItemBad_none hit hn, setLeads_eq hit]
  rfl

end

theorem State.leadOf_harness (s : State) {p : Nat} (h : 4 ≤ p) : s.leadOf p = (tget s.store.leads p).getD 0 :=
  if_neg (by omega)

/-- Settles O23: as O21, for the lead table. -/
theorem setLeadsWritesTheLeads : Obligations.SetLeadsWritesTheLeads := by
  intro tag items s hs hact hw h1 h2 hn hit
  have hlen : (le1 items.length ++ items.flatMap (fun it => le2 it.1 ++ le2 it.2)).length ≤ 1024 := by
    have := flatMap_four_length items (fun it => le2 it.1) (fun it => le2 it.2) (fun _ => rfl) (fun _ => rfl)
    simp only [List.length_append, le1_length, this]
    omega
  have hn' : ((items.map leadEntry).map (·.1)).Nodup := by rwa [map_leadEntry_fst]
  refine ⟨tputs s.store.leads (items.map leadEntry), _, rfl, ?_, fun it hmem => ?_, fun q hq => ?_⟩
  · exact exec_answered_store .setLeads tag _ s _ _ hs hlen
      (answered_eq (doSetLeads_ok hit (s := s.handed _ tag _) hact h1 h2 hn))
  · have hget : tget (tputs s.store.leads (items.map leadEntry)) it.1 = if it.2 = 0 then none else some it.2 :=
      tget_tputs_mem (it := leadEntry it) _ _ hw hn' (List.mem_map_of_mem hmem)
    rw [State.leadOf_harness _ (hit it hmem).1]
    show (tget (tputs s.store.leads (items.map leadEntry)) it.1).getD 0 = it.2
    rw [hget]
    split
    · next h0 => exact h0.symm
    · rfl
  · have hget : tget (tputs s.store.leads (items.map leadEntry)) q = tget s.store.leads q :=
      tget_tputs_other _ _ hw (by rwa [map_leadEntry_fst])
    simp only [State.leadOf, hget]

/-! ### READ_MAP and READ_LEADS (R6, R9) -/

theorem pointRange_some {first count : Nat} (h0 : first ≤ 4095) (h1 : 1 ≤ count) (h2 : count ≤ 128)
    (h3 : first + count ≤ 4096) : pointRange first count = some (List.range' first count) := by
  have h3' : first + count - 1 ≤ 4095 := by omega
  simp [pointRange, h0, h1, h2, h3']

theorem pointRange_none {first count : Nat} (h : 4095 < first ∨ count = 0 ∨ 128 < count ∨ 4096 < first + count) :
    pointRange first count = none := by
  simp only [pointRange, Bool.and_eq_true, decide_eq_true_eq]
  exact if_neg (by omega)

/-- Settles O22: the range is read, or refused. -/
theorem readMapAndReadLeadsReportTheTables : Obligations.ReadMapAndReadLeadsReportTheTables := by
  refine ⟨fun tag first count s hs hf hc => ⟨fun h0 h1 h2 h3 => ?_, fun hbad => ?_⟩,
    fun tag first count s hs hf hc => ⟨fun h0 h1 h2 h3 => ?_, fun hbad => ?_⟩⟩
  · refine exec_answered_unchanged .readMap tag _ s _ hs (by simp) (answered_eq ?_)
    simp only [le2, le1, List.cons_append, List.nil_append, doReadMap, u16_of first hf, byte_toNat count hc,
      pointRange_some h0 h1 h2 h3]
    rfl
  · refine exec_answered_unchanged .readMap tag _ s _ hs (by simp) (answered_eq ?_)
    simp only [le2, le1, List.cons_append, List.nil_append, doReadMap, u16_of first hf, byte_toNat count hc,
      pointRange_none hbad]
    rfl
  · refine exec_answered_unchanged .readLeads tag _ s _ hs (by simp) (answered_eq ?_)
    simp only [le2, le1, List.cons_append, List.nil_append, doReadLeads, u16_of first hf, byte_toNat count hc,
      pointRange_some h0 h1 h2 h3]
    rfl
  · refine exec_answered_unchanged .readLeads tag _ s _ hs (by simp) (answered_eq ?_)
    simp only [le2, le1, List.cons_append, List.nil_append, doReadLeads, u16_of first hf, byte_toNat count hc,
      pointRange_none hbad]
    rfl

end Sys2Proof.Machine
end

section
/-! PROOFS. Requests that replace or report settings: the card-link times, the roster, the relay image, the limits, the
HV set (02–04, 07). -/

namespace Sys2Proof.Machine

open Sys2Proof

/-! ### The place of the first bad value -/

section
variable {oks : List Bool} {k : Nat} (hk : oks[k]? = some false) (hj : ∀ j < k, oks[j]? = some true)

include hk in
theorem all_id_false : oks.all id = false :=
  List.all_eq_false.2 ⟨false, List.mem_of_getElem? hk, by decide⟩

include hk hj in
theorem badPlace_eq : badPlace oks = k := by
  obtain ⟨hlt, hget⟩ := List.getElem?_eq_some_iff.1 hk
  have : oks.findIdx? (fun b => !b) = some k := by
    refine List.findIdx?_eq_some_iff_getElem.2 ⟨hlt, by simp [hget], fun j hjk => ?_⟩
    have := hj j hjk
    rw [List.getElem?_eq_getElem (by omega), Option.some.injEq] at this
    simp [this]
  rw [badPlace, this, Option.getD_some]

end

/-! ### Requests that write one block -/

@[simp] theorem State.jobActive_handed (s : State) (k t : Byte) (p : List Byte) :
    (s.handed k t p).jobActive = s.jobActive := rfl

section
variable (r : Request) (tag : Byte) (p : List Byte) (s : State) (rep : List Byte) (hs : s.ready) (hp : p.length ≤ 1024)
include hs hp

theorem exec_answered_link (l : Link)
    (hc : carry r p (s.handed r.code tag p) = ({ s.handed r.code tag p with link := l }, some rep)) :
    exec (requestInstr r tag p) s = .next (State.replying { s with link := l } r.code tag p rep) :=
  exec_answered r tag p s { s.handed r.code tag p with link := l } rep hs hp hc rfl

theorem exec_answered_matrix (m : Matrix)
    (hc : carry r p (s.handed r.code tag p) = ({ s.handed r.code tag p with matrix := m }, some rep)) :
    exec (requestInstr r tag p) s = .next (State.replying { s with matrix := m } r.code tag p rep) :=
  exec_answered r tag p s { s.handed r.code tag p with matrix := m } rep hs hp hc rfl

theorem exec_answered_limits (l : Limits)
    (hc : carry r p (s.handed r.code tag p) = ({ s.handed r.code tag p with limits := l }, some rep)) :
    exec (requestInstr r tag p) s = .next (State.replying { s with limits := l } r.code tag p rep) :=
  exec_answered r tag p s { s.handed r.code tag p with limits := l } rep hs hp hc rfl

theorem exec_answered_hv (h : Hv)
    (hc : carry r p (s.handed r.code tag p) = ({ s.handed r.code tag p with hv := h }, some rep)) :
    exec (requestInstr r tag p) s = .next (State.replying { s with hv := h } r.code tag p rep) :=
  exec_answered r tag p s { s.handed r.code tag p with hv := h } rep hs hp hc rfl

end

/-! ### SET_CARD_LINK (R27) -/

/-- The ranges of the three values. -/
def cardLinkOks (t lv hv : Nat) : List Bool :=
  [decide (1 ≤ t), decide (1 ≤ lv) && decide (lv ≤ 50), decide (1 ≤ hv) && decide (hv ≤ 50)]

theorem doSetCardLink_eq {t lv hv : Nat} (ht : t ≤ 255) (hlv : lv ≤ 255) (hhv : hv ≤ 255) (u : State) :
    doSetCardLink (le1 t ++ le1 lv ++ le1 hv) u =
      if u.jobActive then (u, [0x01#8])
      else if (cardLinkOks t lv hv).all id then
        ({ u with link := { u.link with replyTimeout := t, lvSettle := lv, hvSettle := hv } }, [0x00#8])
      else (u, 0x03#8 :: le1 (badPlace (cardLinkOks t lv hv))) := by
  simp only [le1, List.cons_append, List.nil_append, doSetCardLink, byte_toNat t (by omega),
    byte_toNat lv (by omega), byte_toNat hv (by omega)]
  rfl

theorem cardLinkOks_all {t lv hv : Nat} :
    (cardLinkOks t lv hv).all id = true ↔ 1 ≤ t ∧ (1 ≤ lv ∧ lv ≤ 50) ∧ 1 ≤ hv ∧ hv ≤ 50 := by
  simp [cardLinkOks]

theorem badPlace_cardLinkOks {t lv hv : Nat} (h : ¬ (1 ≤ t ∧ (1 ≤ lv ∧ lv ≤ 50) ∧ 1 ≤ hv ∧ hv ≤ 50)) :
    le1 (badPlace (cardLinkOks t lv hv)) = [if t = 0 then 0#8 else if lv = 0 ∨ 50 < lv then 1#8 else 2#8] := by
  by_cases h0 : t = 0
  · rw [if_pos h0, badPlace_eq (k := 0) (by simp [cardLinkOks, h0]) (by simp)]
    rfl
  · have ht1 : 1 ≤ t := by omega
    rw [if_neg h0]
    by_cases hl : lv = 0 ∨ 50 < lv
    · rw [if_pos hl, badPlace_eq (k := 1) (by simp [cardLinkOks]; omega) (by simp [cardLinkOks, ht1])]
      rfl
    · have hl1 : 1 ≤ lv ∧ lv ≤ 50 := by omega
      rw [if_neg hl, badPlace_eq (k := 2) (by simp [cardLinkOks]; omega) (fun j hj => by
        obtain rfl | rfl : j = 0 ∨ j = 1 := by omega
        · simp [cardLinkOks, ht1]
        · simp [cardLinkOks, hl1])]
      rfl

/-- Settles O28: BUSY, the three values, or the place of the first bad one. -/
theorem setCardLinkStoresTheTimes : Obligations.SetCardLinkStoresTheTimes := by
  intro tag t lv hv s hs ht hlv hhv
  have hdo := doSetCardLink_eq ht hlv hhv
  refine ⟨fun h => ?_, fun h hok => ?_, fun h hbad => ?_⟩
  · refine exec_answered_unchanged .setCardLink tag _ s _ hs (by simp) (answered_eq ((hdo _).trans ?_))
    simp [h]
  · refine exec_answered_link .setCardLink tag _ s _ hs (by simp) _ (answered_eq ((hdo _).trans ?_))
    rw [State.jobActive_handed, h, cardLinkOks_all.2 hok]
    rfl
  · refine exec_answered_unchanged .setCardLink tag _ s _ hs (by simp) (answered_eq ((hdo _).trans ?_))
    rw [State.jobActive_handed, h, badPlace_cardLinkOks hbad, Bool.eq_false_iff.2 (mt cardLinkOks_all.1 hbad)]
    rfl

/-! ### The roster requests (R33, R34) -/

theorem zip_map_expected (l : List RosterEntry) (f : RosterEntry → CardKind) :
    (l.zip (l.map f)).map (fun x => { x.1 with expected := x.2 }) = l.map (fun e => { e with expected := f e }) := by
  induction l with
  | nil => rfl
  | cons e l ih => simp [ih]

theorem expectedOf_code {k : CardKind} (h : k ≠ .other) : expectedOf (BitVec.ofNat 8 k.code) = some k := by
  cases k with
  | other => exact absurd rfl h
  | none => rfl
  | lv128 => rfl
  | hv64 => rfl

theorem expectedOf_codes {ks : List CardKind} (h : ∀ k ∈ ks, k ≠ .other) :
    (ks.flatMap (fun k => le1 k.code)).map (fun b => (expectedOf b).getD .none) = ks ∧
      (ks.flatMap (fun k => le1 k.code)).all (fun b => (expectedOf b).isSome) = true := by
  induction ks with
  | nil => exact ⟨rfl, rfl⟩
  | cons k ks ih =>
    have hk := expectedOf_code (h k (List.mem_cons_self ..))
    obtain ⟨h1, h2⟩ := ih (fun q hq => h q (List.mem_cons_of_mem _ hq))
    simp only [List.flatMap_cons, le1, List.cons_append, List.nil_append, List.map_cons, List.all_cons, hk,
      Option.getD_some, Option.isSome_some, Bool.true_and]
    exact ⟨congrArg _ h1, h2⟩

theorem asExpected_eq (e : RosterEntry) :
    e.asExpected = if e.state = .absent ∨ e.kind = .other then .none else e.kind := by
  unfold RosterEntry.asExpected
  split <;> simp [*]

theorem doSetRoster_busy {s : State} (h : s.jobActive = true) {m : Byte} {ks : List Byte}
    (hl : ks.length = if m = 0#8 then 32 else 0) : doSetRoster (m :: ks) s = (s, [0x01#8]) := by
  unfold doSetRoster
  split at hl <;> simp [*, reply, Status.code]

theorem doSetRoster_list {s : State} (h : s.jobActive = false) {ks : List CardKind} (hlen : ks.length = 32)
    (hks : ∀ k ∈ ks, k ≠ .other) :
    doSetRoster (0x00#8 :: ks.flatMap (fun k => le1 k.code)) s = rosterOk (s.matrix.setExpected ks true) s := by
  obtain ⟨hmap, hall⟩ := expectedOf_codes hks
  have hl : (ks.flatMap (fun k => le1 k.code)).length = 32 := by simp [List.length_flatMap, hlen]
  simp only [doSetRoster, if_true, hl, ne_eq, not_true, if_false, h, hall, hmap]
  rfl

theorem doSetRoster_present {s : State} (h : s.jobActive = false) :
    doSetRoster [0x01#8] s = rosterOk (s.matrix.setExpected (s.matrix.roster.map RosterEntry.asExpected) true) s := by
  simp [doSetRoster, h]

theorem doSetRoster_unfreeze {s : State} (h : s.jobActive = false) :
    doSetRoster [0x02#8] s = rosterOk (s.matrix.setExpected (s.matrix.roster.map (fun _ => .none)) false) s := by
  simp [doSetRoster, h]

theorem setExpected_map (m : Matrix) (f : RosterEntry → CardKind) (b : Bool) :
    m.setExpected (m.roster.map f) b =
      { m with frozen := b, roster := m.roster.map (fun e => { e with expected := f e }) } := by
  rw [Matrix.setExpected, zip_map_expected]

/-- Settles O29: READ_ROSTER, a refusal, or one of the three modes. -/
theorem rosterRequestsFreezeAndReport : Obligations.RosterRequestsFreezeAndReport := by
  intro tag s hs _
  refine ⟨exec_answered_unchanged .readRoster tag [] s _ hs (by simp) rfl, fun hact p hp => ?_, fun hidle =>
    ⟨fun ks hlen hks => ⟨_, rfl, ?_⟩, ⟨_, rfl, ?_⟩, ⟨_, rfl, ?_⟩⟩⟩
  · simp only [List.mem_cons, List.not_mem_nil, or_false] at hp
    rcases hp with rfl | rfl | rfl
    · exact exec_answered_unchanged .setRoster tag _ s _ hs (by simp) (answered_eq (doSetRoster_busy (s := s.handed _ tag _) hact (by simp)))
    · exact exec_answered_unchanged .setRoster tag _ s _ hs (by simp) (answered_eq (doSetRoster_busy (s := s.handed _ tag _) hact (by simp)))
    · exact exec_answered_unchanged .setRoster tag _ s _ hs (by simp) (answered_eq (doSetRoster_busy (s := s.handed _ tag _) hact (by simp)))
  · exact exec_answered_matrix .setRoster tag _ s _ hs (by simp [List.length_flatMap, hlen]) _
      (answered_eq (doSetRoster_list (s := s.handed _ tag _) hidle hlen hks))
  · refine exec_answered_matrix .setRoster tag _ s _ hs (by simp) _
      (answered_eq ((doSetRoster_present (s := s.handed _ tag _) hidle).trans ?_))
    rw [setExpected_map, funext asExpected_eq]
    rfl
  · refine exec_answered_matrix .setRoster tag _ s _ hs (by simp) _
      (answered_eq ((doSetRoster_unfreeze (s := s.handed _ tag _) hidle).trans ?_))
    rw [setExpected_map]
    rfl

/-! ### READ_RELAYS (R56) -/

theorem channelRange_some {p c n : Nat} (h0 : p ≤ 32) (h1 : 1 ≤ n) (h2 : n ≤ 128)
    (h3 : c + n ≤ (if p = 0 then 4 else 128)) :
    channelRange p c n = some ((List.range' c n).map (fun k => ⟨p, k⟩)) := by
  simp [channelRange, h0, h1, h2, h3]

theorem channelRange_none {p c n : Nat}
    (h : 32 < p ∨ n = 0 ∨ 128 < n ∨ (if p = 0 then 4 else 128) < c + n) : channelRange p c n = none := by
  simp only [channelRange, Bool.and_eq_true, decide_eq_true_eq]
  exact if_neg (by omega)

theorem State.relayBytes_eq (s : State) (c : Chan) : s.relayBytes c = (match s.imageOf c with
    | none => [5#8]
    | some r => le1 r.code) ++ flagByte (decide (c ∈ s.matrix.blocked)) := by
  unfold State.relayBytes State.isBlocked
  rw [List.contains_eq_mem]
  cases s.imageOf c <;> rfl

theorem State.pointRelay_eq (s : State) (q : Nat) : s.pointRelay q = (match s.chanOf q with
    | none => [6#8, 0#8]
    | some c => (match s.imageOf c with
      | none => [5#8]
      | some r => le1 r.code) ++ flagByte (decide (c ∈ s.matrix.blocked))) := by
  unfold State.pointRelay
  cases s.chanOf q with
  | none => rfl
  | some c => exact s.relayBytes_eq c

/-- Settles O40: the two modes, each read or refused. -/
theorem readRelaysReportsTheImage : Obligations.ReadRelaysReportsTheImage := by
  intro tag x n s hs hx hn
  refine ⟨fun h0 h1 h2 h3 => ?_, fun hbad => ?_, fun p c hp hc => ⟨fun h0 h1 h2 h3 => ?_, fun hbad => ?_⟩⟩
  · refine exec_answered_unchanged .readRelays tag _ s _ hs (by simp) (answered_eq ?_)
    simp only [le2, le1, List.cons_append, List.nil_append, doReadRelays, u16_of x hx, byte_toNat n hn,
      pointRange_some h0 h1 h2 h3, if_true, funext (State.pointRelay_eq _)]
    rfl
  · refine exec_answered_unchanged .readRelays tag _ s _ hs (by simp) (answered_eq ?_)
    simp only [le2, le1, List.cons_append, List.nil_append, doReadRelays, u16_of x hx, byte_toNat n hn,
      pointRange_none hbad, if_true]
    rfl
  · refine exec_answered_unchanged .readRelays tag _ s _ hs (by simp) (answered_eq ?_)
    simp only [le1, List.cons_append, List.nil_append, doReadRelays, byte_toNat n hn, byte_toNat p hp, byte_toNat c hc,
      channelRange_some h0 h1 h2 h3, List.flatMap_map, funext (State.relayBytes_eq _)]
    rfl
  · refine exec_answered_unchanged .readRelays tag _ s _ hs (by simp) (answered_eq ?_)
    simp only [le1, List.cons_append, List.nil_append, doReadRelays, byte_toNat n hn, byte_toNat p hp, byte_toNat c hc,
      channelRange_none hbad]
    rfl

/-! ### SET_LIMITS and SET_HV (R68, R111) -/

theorem isCount_eq (n : Nat) : isCount n = decide (n ∈ [1, 2, 4, 8, 16]) := by
  simp [isCount, Bool.decide_or, beq_eq_decide, Bool.or_assoc]

theorem rangeOf_eq {r : Nat} (h : r < 256) : rangeOf (BitVec.ofNat 8 r) =
    if r = 1 then some .r100 else if r = 2 then some .r10 else if r = 3 then some .r1 else none := by
  have heq (k : Nat) (hk : k < 256) : (BitVec.ofNat 8 r = BitVec.ofNat 8 k) = (r = k) := by
    rw [← BitVec.toNat_inj, byte_toNat r h, byte_toNat k hk]
  simp only [rangeOf, heq 1 (by decide), heq 2 (by decide), heq 3 (by decide)]

theorem rangeOf_isSome {r : Nat} (h : r < 256) : (rangeOf (BitVec.ofNat 8 r)).isSome = decide (r ∈ [1, 2, 3]) := by
  rw [rangeOf_eq h]
  repeat' split
  all_goals simp [*]

theorem rangeOf_getD {r : Nat} (h : r ∈ [1, 2, 3]) :
    (rangeOf (BitVec.ofNat 8 r)).getD .r100 = if r = 1 then .r100 else if r = 2 then .r10 else .r1 := by
  simp only [List.mem_cons, List.not_mem_nil, or_false] at h
  rcases h with rfl | rfl | rfl <;> rfl

/-- The ranges of the limits (R68). -/
def limitsOks (pass opn iso n r w : Nat) : List Bool :=
  [decide (10 ≤ pass ∧ pass ≤ 1000000), decide (pass < opn ∧ opn ≤ 2000000), decide (100 ≤ iso ∧ iso ≤ 100000),
    decide (n ∈ [1, 2, 4, 8, 16]), decide (r ∈ [1, 2, 3]), decide (1 ≤ w ∧ w ≤ 100)]

/-- The payload of a SET_LIMITS. -/
def limitsPayload (pass opn iso n r w : Nat) : List Byte := le4 pass ++ le4 opn ++ le4 iso ++ le1 n ++ le1 r ++ le1 w

theorem doSetLimits_eq {pass opn iso n r w : Nat} (hpass : pass < 4294967296) (hopn : opn < 4294967296)
    (hiso : iso < 4294967296) (hn : n < 256) (hr : r < 256) (hw : w < 256) (u : State) :
    doSetLimits (limitsPayload pass opn iso n r w) u = if (limitsOks pass opn iso n r w).all id then
        ({ u with limits := ⟨pass, opn, iso, n, (rangeOf (BitVec.ofNat 8 r)).getD .r100, w⟩ }, [0x00#8])
      else (u, 0x03#8 :: le1 (badPlace (limitsOks pass opn iso n r w))) := by
  simp only [limitsPayload, le4, le1, List.cons_append, List.nil_append, doSetLimits, u32_of pass hpass,
    u32_of opn hopn, u32_of iso hiso, byte_toNat n hn, byte_toNat w hw, isCount_eq, rangeOf_isSome hr, limitsOks,
    Bool.decide_and]
  rfl

/-- The ranges of the HV set (R111); every arc limit is in range. -/
def hvOks (v rate d t a m b : Nat) : List Bool :=
  [decide (50 ≤ v ∧ v ≤ 1500 ∧ v % 10 = 0), decide (1 ≤ rate ∧ rate ≤ 50), decide (2 ≤ d ∧ d ≤ 6000),
    decide (10 ≤ t ∧ t ≤ 500), decide (10 ≤ a ∧ a ≤ 1000), true, decide (1 ≤ m ∧ m ≤ 2000), decide (1 ≤ b ∧ b ≤ 64)]

/-- The payload of a SET_HV. -/
def hvPayload (v rate d t a l m b : Nat) : List Byte :=
  le2 v ++ le1 rate ++ le2 d ++ le2 t ++ le2 a ++ le1 l ++ le2 m ++ le1 b

theorem doSetHv_eq {v rate d t a l m b : Nat} (hv : v < 65536) (hrate : rate < 256) (hd : d < 65536) (ht : t < 65536)
    (ha : a < 65536) (hl : l < 256) (hm : m < 65536) (hb : b < 256) (u : State) :
    doSetHv (hvPayload v rate d t a l m b) u = if (hvOks v rate d t a m b).all id then
        ({ u with hv := { u.hv with hvSet := ⟨v, rate, d, t, a, l, m, b⟩ } }, [0x00#8])
      else (u, 0x03#8 :: le1 (badPlace (hvOks v rate d t a m b))) := by
  simp only [hvPayload, le2, le1, List.cons_append, List.nil_append, doSetHv, u16_of v hv, u16_of d hd, u16_of t ht,
    u16_of a ha, u16_of m hm, byte_toNat rate hrate, byte_toNat l hl, byte_toNat b hb, hvOks, Bool.decide_and,
    Bool.and_assoc]
  rfl

theorem all_id_of_all {oks : List Bool} (h : ∀ b ∈ oks, b = true) : oks.all id = true := by simpa using h

/-- Settles O41: every value in range, or the place of the first that is not. -/
theorem setLimitsAndSetHvReplaceTheirSets : Obligations.SetLimitsAndSetHvReplaceTheirSets := by
  refine ⟨fun tag pass opn iso n r w s hs hpass hopn hiso hn hr hw => ⟨limitsPayload pass opn iso n r w,
      limitsOks pass opn iso n r w, rfl, rfl, fun hall => ?_, fun k hk hj => ?_⟩,
    fun tag v rate d t a l m b s hs hv hrate hd ht ha hl hm hb => ⟨hvPayload v rate d t a l m b,
      hvOks v rate d t a m b, rfl, rfl, fun hall => ?_, fun k hk hj => ?_⟩⟩
  · have hr3 : r ∈ [1, 2, 3] := of_decide_eq_true (hall _ (by simp [limitsOks]))
    refine exec_answered_limits .setLimits tag _ s _ hs (by simp [limitsPayload]) _
      (answered_eq ((doSetLimits_eq hpass hopn hiso hn hr hw _).trans ?_))
    rw [all_id_of_all hall, rangeOf_getD hr3]
    rfl
  · refine exec_answered_unchanged .setLimits tag _ s _ hs (by simp [limitsPayload])
      (answered_eq ((doSetLimits_eq hpass hopn hiso hn hr hw _).trans ?_))
    rw [all_id_false hk, badPlace_eq hk hj]
    rfl
  · refine exec_answered_hv .setHv tag _ s _ hs (by simp [hvPayload]) _
      (answered_eq ((doSetHv_eq hv hrate hd ht ha hl hm hb _).trans ?_))
    rw [all_id_of_all hall]
    rfl
  · refine exec_answered_unchanged .setHv tag _ s _ hs (by simp [hvPayload])
      (answered_eq ((doSetHv_eq hv hrate hd ht ha hl hm hb _).trans ?_))
    rw [all_id_false hk, badPlace_eq hk hj]
    rfl

end Sys2Proof.Machine
end

section
/-! PROOFS. The low-voltage measurement unit: MEASURE, STABILISE, and the conversions (4.1–4.6). -/

namespace Sys2Proof.Machine

open Sys2Proof

/-! ### The source -/

theorem Slot.sourceOk_iff {x : Slot} : x.sourceOk = true ↔ x = .empty ∨ ∃ t, x = .held t := by
  cases x <;> simp [Slot.sourceOk]

theorem State.sourceAllowed_of {s : State} (hr : s.hv.rail = .safe)
    (hs : s.matrix.slot = .empty ∨ ∃ t, s.matrix.slot = .held t) : s.sourceAllowed = true := by
  rw [State.sourceAllowed, Slot.sourceOk_iff.2 hs, hr]
  rfl

theorem State.sourceAllowed_not {s : State}
    (h : s.hv.rail ≠ .safe ∨ (s.matrix.slot ≠ .empty ∧ ∀ t, s.matrix.slot ≠ .held t)) : s.sourceAllowed = false := by
  rw [State.sourceAllowed, Bool.and_eq_false_iff]
  rcases h with h | ⟨h1, h2⟩
  · exact .inr (by simpa using h)
  · exact .inl (Bool.eq_false_iff.2 fun hok => (Slot.sourceOk_iff.1 hok).elim h1 fun ⟨t, ht⟩ => h2 t ht)

/-! ### A reply composed out of turn (R182; log 46) -/

/-- The examination of the head leaves no request waiting. -/
theorem State.dispatch_examineHead {s : State} (h : ∀ r ∈ s.host.slots, r.phase ≠ .waiting) :
    s.examineHead.dispatch = s.examineHead := by
  obtain ⟨_, hq⟩ := Quiet.examineHead s
  exact State.dispatch_idle _ (hq.notWaiting h)

/-- The reply of a timed request goes out, the head is examined, and nothing else waits. -/
theorem State.dispatch_composeTimed {s : State} {k t : Byte} {p : List Byte} (r : List Byte)
    (hs : s.host.slots = [⟨k, t, p, .carried⟩]) (ht : s.host.tx = none) :
    (s.composeTimed r).dispatch =
      State.examineHead (State.replying { s with host := { s.host with carried := none } } k t p r) := by
  rw [State.composeTimed, State.compose_carried s k t p r hs ht]
  exact State.dispatch_examineHead (by simp)

/-! ### MEASURE (R75, R76) -/

theorem isCount_iff {n : Nat} : isCount n = true ↔ n ∈ [1, 2, 4, 8, 16] := by
  simp [isCount_eq]

/-- The range codes that a MEASURE may carry, and what they stand for. -/
theorem rangeOf_byte {r : Byte} (h : r.toNat ∈ [0, 1, 2, 3]) :
    (r == 0#8 || (rangeOf r).isSome) = true ∧ ∀ g : CRange, (if r = 0#8 then g else (rangeOf r).getD .r100) =
      if r.toNat = 0 then g else if r.toNat = 1 then .r100 else if r.toNat = 2 then .r10 else .r1 := by
  simp only [List.mem_cons, List.not_mem_nil, or_false] at h
  have hb (k : Nat) (hk : k < 256) (h : r.toNat = k) : r = BitVec.ofNat 8 k := by
    rw [← BitVec.toNat_inj, h, byte_toNat k hk]
  rcases h with h | h | h | h
  · obtain rfl := hb 0 (by decide) h; exact ⟨rfl, fun _ => rfl⟩
  · obtain rfl := hb 1 (by decide) h; exact ⟨rfl, fun _ => rfl⟩
  · obtain rfl := hb 2 (by decide) h; exact ⟨rfl, fun _ => rfl⟩
  · obtain rfl := hb 3 (by decide) h; exact ⟨rfl, fun _ => rfl⟩

theorem byte_eq_iff {b : Byte} (k : Nat) (hk : k < 256) : b = BitVec.ofNat 8 k ↔ b.toNat = k := by
  rw [← BitVec.toNat_inj, byte_toNat k hk]

section
variable {m n r : Byte} (hm : m.toNat ∈ [1, 2]) (hn : n.toNat ∈ [0, 1, 2, 4, 8, 16]) (hr : r.toNat ∈ [0, 1, 2, 3])

include hm hn hr in
theorem measure_valid :
    (!(m == 1#8 || m == 2#8) || !(n == 0#8 || isCount n.toNat) || !(r == 0#8 || (rangeOf r).isSome)) = false := by
  have h1 : (m == 1#8 || m == 2#8) = true := by
    simp only [List.mem_cons, List.not_mem_nil, or_false] at hm
    simpa [byte_eq_iff 1 (by decide), byte_eq_iff 2 (by decide)] using hm
  have h2 : (n == 0#8 || isCount n.toNat) = true := by
    rw [List.mem_cons] at hn
    simpa only [Bool.or_eq_true, beq_iff_eq, isCount_iff, byte_eq_iff 0 (by decide)] using hn
  rw [h1, h2, (rangeOf_byte hr).1]
  rfl

variable {s : State} (hact : s.jobActive = false) (hslot : s.matrix.slot = .empty)
include hm hn hr hact hslot

theorem doMeasure_refused (h : s.onRail .source = [] ∨ s.onRail .ret = []) :
    doMeasure [m, n, r] s = (s, some [0x04#8]) := by
  have hempty : (decide (s.hv.rail ≠ .safe) || (s.onRail .source).isEmpty || (s.onRail .ret).isEmpty) = true := by
    rcases h with h | h <;> simp [h]
  have hbusy : (s.jobActive || !s.matrix.slot.isEmpty) = false := by rw [hact, hslot]; rfl
  simp only [doMeasure, hbusy, measure_valid hm hn hr, hempty]
  rfl

theorem doMeasure_begins (hrail : s.hv.rail = .safe) (h1 : s.onRail .source ≠ []) (h2 : s.onRail .ret ≠ []) :
    doMeasure [m, n, r] s = ({ s with
      host := { s.host with carried := some (.measure (if m = 1#8 then s.measurePair else none)) }
      queue := { s.queue with stallWait := false }
      lmu := s.lmu.start (s.measureReq m n r) .host }, none) := by
  have hempty : (decide (s.hv.rail ≠ .safe) || (s.onRail .source).isEmpty || (s.onRail .ret).isEmpty) = false := by
    simp [h1, h2, hrail]
  have hbusy : (s.jobActive || !s.matrix.slot.isEmpty) = false := by rw [hact, hslot]; rfl
  have hallowed : s.sourceAllowed = true := State.sourceAllowed_of hrail (.inl hslot)
  simp only [doMeasure, hbusy, measure_valid hm hn hr, hempty]
  refine congrArg (fun u => (u, none)) ?_
  exact if_pos hallowed

end

/-- The measurement a MEASURE starts, by its three codes. -/
theorem start_measureReq (m : Byte) {r : Byte} (n : Byte) (hr : r.toNat ∈ [0, 1, 2, 3]) (s : State) :
    s.lmu.start (s.measureReq m n r) .host = { s.lmu with
      phase := .stabilise
      mode := if m.toNat = 1 then .cont else .iso
      range := if m.toNat = 1 then (if r.toNat = 0 then s.limits.range else if r.toNat = 1 then .r100
        else if r.toNat = 2 then .r10 else .r1) else s.lmu.range
      n := if n.toNat = 0 then s.limits.n else n.toNat
      settle := s.limits.settle
      count := 0, codeSum := 0, vSum := 0, iSum := 0, rangeSteps := 0
      issuer := .host
      timer := some (if m.toNat = 1 then 2 else s.limits.settle)
      waiting := none } := by
  have hmode : ((if m.toNat = 1 then LmuMode.cont else .iso) = .cont) ↔ m.toNat = 1 := by
    by_cases h : m.toNat = 1 <;> simp [h]
  have hm1 : (m = 1#8) ↔ m.toNat = 1 := byte_eq_iff 1 (by decide)
  have hn0 : (n = 0#8) ↔ n.toNat = 0 := byte_eq_iff 0 (by decide)
  simp only [Lmu.start, State.measureReq, hm1, hmode, (rangeOf_byte hr).2, hn0]

/-- Settles O42: the request, the wait for the source, and the end of STABILISE. -/
theorem measurementBeginsAndStabilises : Obligations.MeasurementBeginsAndStabilises := by
  refine ⟨fun tag m n r s hs hact hslot hrail hm hn hr => ⟨fun hempty => ?_, fun h1 h2 => ?_⟩,
    fun q who s hw => ⟨fun hrail hslot => ?_, fun hno => ?_⟩, fun s hph => ?_⟩
  · exact exec_answered_unchanged .measure tag _ s _ hs (by simp)
      (doMeasure_refused (s := s.handed _ tag _) hm hn hr hact hslot hempty)
  · have hdo := doMeasure_begins (s := s.handed 0x19#8 tag [m, n, r]) hm hn hr hact hslot hrail h1 h2
    refine (exec_taken .measure tag [m, n, r] s _ hs (by simp) hdo rfl).trans (congrArg _ ?_)
    rw [start_measureReq m n hr (s.handed _ _ _)]
    simp only [byte_eq_iff (b := m) 1 (by decide)]
    rfl
  · show execLmuSourceOn s = _
    unfold execLmuSourceOn
    rw [hw]
    exact congrArg _ (if_pos (State.sourceAllowed_of hrail hslot))
  · show execLmuSourceOn s = _
    unfold execLmuSourceOn
    rw [hw]
    exact congrArg _ (if_neg (by rw [State.sourceAllowed_not hno]; decide))
  · exact congrArg Host.Outcome.next (if_pos hph)

/-! ### Conversions (R61–R67) -/

theorem Lmu.samples_of {l : Lmu} {m : LmuMode} (h1 : l.phase = .sample) (h2 : l.mode = m) : l.samples m = true := by
  simp [Lmu.samples, h1, h2]

theorem exec_contConversion {code : Word16} {s : State} (h1 : s.lmu.phase = .sample) (h2 : s.lmu.mode = .cont) :
    exec (.contConversion code) s = .next (s.lmuAfter (s.lmu.contCode code.toNat)).dispatch :=
  congrArg Host.Outcome.next (if_pos (Lmu.samples_of h1 h2))

theorem exec_isoConversion {v i : Nat} {s : State} (h1 : s.lmu.phase = .sample) (h2 : s.lmu.mode = .iso) :
    exec (.isoConversion v i) s = .next (s.lmuAfter (s.lmu.isoPair v i)).dispatch :=
  congrArg Host.Outcome.next (if_pos (Lmu.samples_of h1 h2))

/-- A conversion that ends nothing. -/
theorem State.lmuAfter_more {s : State} {x : Lmu × Option LmuResult} {l : Lmu} (hx : x = (l, none))
    (h : ∀ r ∈ s.host.slots, r.phase ≠ .waiting) : (s.lmuAfter x).dispatch = { s with lmu := l } := by
  subst hx
  exact State.dispatch_idle _ h

/-- A conversion that ends the measurement of a MEASURE. -/
theorem State.lmuAfter_host {s : State} {x : Lmu × Option LmuResult} {l : Lmu} {r : LmuResult} {tag : Byte}
    {p : List Byte} {pair : Option (Nat × Nat)} (hx : x = (l, some r)) (hl : l.issuer = .host)
    (hs : s.host.slots = [⟨0x19#8, tag, p, .carried⟩]) (hc : s.host.carried = some (.measure pair))
    (ht : s.host.tx = none) : (s.lmuAfter x).dispatch = State.examineHead (State.replying
      { s with lmu := l, host := { s.host with carried := none } } 0x19#8 tag p
      (State.measureReply { s with lmu := l } r)) := by
  subst hx
  have hm : State.measured { s with lmu := l } r =
      State.composeTimed { s with lmu := l } (State.measureReply { s with lmu := l } r) := by
    unfold State.measured
    rw [hl, hc]
  exact (congrArg State.dispatch hm).trans (State.dispatch_composeTimed (s := { s with lmu := l }) _ hs ht)

theorem Lmu.contCode_more {l : Lmu} {c : Nat} (hc : c ≠ 65535) (hn : l.count + 1 < l.n) :
    l.contCode c = ({ l with count := l.count + 1, codeSum := l.codeSum + c }, none) :=
  (if_neg hc).trans (if_neg (Nat.not_le.2 hn))

theorem Lmu.contCode_last {l : Lmu} {c : Nat} (hc : c ≠ 65535) (hn : l.n = l.count + 1) :
    l.contCode c = ({ l with phase := .idle, timer := none, count := l.n, codeSum := l.codeSum + c },
      some (.cont l.range l.rangeSteps l.n (meanOf (l.codeSum + c) l.n) (rawResistance (meanOf (l.codeSum + c) l.n) l.range))) := by
  refine (if_neg hc).trans ((if_pos (Nat.le_of_eq hn)).trans ?_)
  rw [Lmu.stop, hn]

theorem Lmu.contCode_down {l : Lmu} {c : Nat} (hc : c = 65535) (hr : l.range ≠ .r1) :
    l.contCode c = ({ l with
      phase := .stabilise, timer := some 2, range := if l.range = .r100 then .r10 else .r1
      rangeSteps := l.rangeSteps + 1, count := 0, codeSum := 0 }, none) := by
  unfold Lmu.contCode
  rw [if_pos hc]
  cases h : l.range with
  | r1 => exact absurd h hr
  | r100 => rfl
  | r10 => rfl

theorem Lmu.contCode_over {l : Lmu} {c : Nat} (hc : c = 65535) (hr : l.range = .r1) :
    l.contCode c = ({ l with phase := .idle, timer := none, count := 0, codeSum := 0 },
      some (.contOver l.rangeSteps)) := by
  have hlow : l.range.lower = none := hr ▸ rfl
  unfold Lmu.contCode
  rw [if_pos hc, hlow]
  rfl

theorem Lmu.isoPair_more {l : Lmu} {v i : Nat} (hn : l.count + 1 < l.n) : l.isoPair v i =
    ({ l with count := l.count + 1, vSum := l.vSum + min v 10000, iSum := l.iSum + min i 10000000 }, none) :=
  if_neg (Nat.not_le.2 hn)

theorem Lmu.isoPair_last {l : Lmu} {v i : Nat} (hn : l.n = l.count + 1) : l.isoPair v i =
    ({ l with
      phase := .idle, timer := none, count := l.n, vSum := l.vSum + min v 10000, iSum := l.iSum + min i 10000000 },
      some (.iso l.n (meanOf (l.vSum + min v 10000) l.n) (meanOf (l.iSum + min i 10000000) l.n)
        (isoResistance (meanOf (l.vSum + min v 10000) l.n) (meanOf (l.iSum + min i 10000000) l.n)))) := by
  refine (if_pos (Nat.le_of_eq hn)).trans ?_
  rw [Lmu.stop, hn]

/-- The byte of a band (R69, R179). -/
theorem bandOf_code (r pass opn : Nat) : le1 (bandOf (some r) pass opn).code =
    if r ≤ pass then [0x00#8] else if r < opn then [0x01#8] else [0x02#8] := by
  unfold bandOf
  dsimp only
  split
  · rfl
  · split <;> rfl

/-- Settles O43: by what each code does to the sums, and the reply of the last one. -/
theorem contConversionSumsStepsOrEnds : Obligations.ContConversionSumsStepsOrEnds := by
  intro code s hph hmode hw
  rw [exec_contConversion hph hmode]
  refine ⟨fun hc hn => ?_, fun hc hr => ?_, fun tag p pair hi hs hcar ht => ⟨fun hc hr => ?_, fun hc hn => ?_⟩⟩
  · rw [State.lmuAfter_more (Lmu.contCode_more hc hn) hw]
  · rw [State.lmuAfter_more (Lmu.contCode_down hc hr) hw]
  · rw [State.lmuAfter_host (Lmu.contCode_over hc hr) hi hs hcar ht]
    rfl
  · refine ⟨meanOf (s.lmu.codeSum + code.toNat) s.lmu.n, s.lmu.range.divisor,
      rawResistance (meanOf (s.lmu.codeSum + code.toNat) s.lmu.n) s.lmu.range, rfl, ?_, rfl, ?_⟩
    · cases s.lmu.range <;> rfl
    · rw [State.lmuAfter_host (Lmu.contCode_last hc hn) hi hs hcar ht]
      refine congrArg (fun b => Host.Outcome.next (State.examineHead (State.replying _ _ _ _ b))) ?_
      have hpair : State.carriedPair { s with lmu := { s.lmu with
          phase := .idle, timer := none, count := s.lmu.n, codeSum := s.lmu.codeSum + code.toNat } } = pair := by
        simp only [State.carriedPair, hcar]
      simp only [State.measureReply, hpair]
      cases pair with
      | none => simp only [bandOf_code, reply, overOr]; rfl
      | some ab => simp only [bandOf_code, reply, overOr, compensated]; rfl

/-- Settles O44: as O43, for the pairs of ISO mode. -/
theorem isoConversionSumsOrEnds : Obligations.IsoConversionSumsOrEnds := by
  intro v i s hph hmode hw
  rw [exec_isoConversion hph hmode]
  refine ⟨fun hn => ?_, fun tag p pair hi hs hcar ht hn => ?_⟩
  · rw [State.lmuAfter_more (Lmu.isoPair_more hn) hw]
  · refine ⟨meanOf (s.lmu.vSum + min v 10000) s.lmu.n, meanOf (s.lmu.iSum + min i 10000000) s.lmu.n, rfl, rfl, ?_⟩
    rw [State.lmuAfter_host (Lmu.isoPair_last hn) hi hs hcar ht]
    refine congrArg (fun b => Host.Outcome.next (State.examineHead (State.replying _ _ _ _ b))) ?_
    show reply .ok _ = _
    by_cases him : meanOf (s.lmu.iSum + min i 10000000) s.lmu.n = 0
    · rw [him, if_pos rfl]
      rfl
    · rw [if_neg him]
      rw [isoResistance_of_pos _ (Nat.pos_of_ne_zero him), isLeak]
      simp only [decide_eq_true_eq, reply, Status.code, overOr, le1]
      split <;> simp [*]

end Sys2Proof.Machine
end

section
/-! PROOFS. Taking records (10.2, 10.3): what the log and the side of the part that only reports become. -/

namespace Sys2Proof.Machine

open Sys2Proof

/-! ### What a quiet operation may change -/

/-- The parts of the state that records and events touch. -/
structure Side where
  store : Store
  log : Log
  printer : Printer
  host : HostLink
  events : Events

def State.side (s : State) : Side := ⟨s.store, s.log, s.printer, s.host, s.events⟩

def State.withSide (s : State) (x : Side) : State :=
  { s with store := x.store, log := x.log, printer := x.printer, host := x.host, events := x.events }

/-- A quiet operation changes that side alone. -/
theorem Quiet.eq_withSide {s t : State} (h : Quiet s t) : t = s.withSide t.side := by
  obtain ⟨hlink, hmatrix, hlmu, hlimits, href, hengine, hhv, hqueue, hpins, hpending, -, -, -, -, -, -, -, -⟩ := h
  cases s
  cases t
  simp only at hlink hmatrix hlmu hlimits href hengine hhv hqueue hpins hpending
  subst hlink hmatrix hlmu hlimits href hengine hhv hqueue hpins hpending
  rfl

/-! ### Records taken with a mark for the host -/

/-- The entries of records taken one after the other while reporting is on. -/
def stamped (printMark : Bool) : Nat → List RecData → List Entry
  | _, [] => []
  | n, d :: ds => ⟨n, printMark, true, d⟩ :: stamped printMark (nextSeqNum n) ds

@[simp] theorem stamped_data (b : Bool) (n : Nat) (ds : List RecData) : (stamped b n ds).map (·.data) = ds := by
  induction ds generalizing n with
  | nil => rfl
  | cons d ds ih => exact congrArg (d :: ·) (ih _)

theorem stamped_append (b : Bool) (n : Nat) (ds es : List RecData) :
    stamped b n (ds ++ es) = stamped b n ds ++ stamped b (nextSeqNum^[ds.length] n) es := by
  induction ds generalizing n with
  | nil => rfl
  | cons d ds ih => exact congrArg (_ :: ·) (ih _)

@[simp] theorem stamped_length (b : Bool) (n : Nat) (ds : List RecData) : (stamped b n ds).length = ds.length := by
  induction ds generalizing n with
  | nil => rfl
  | cons d ds ih => exact congrArg (· + 1) (ih _)

/-- The log of `t` is that of `s` with these records taken; the store and the formatter are the same. -/
structure Logged (s t : State) (ds : List RecData) : Prop where
  store : t.store = s.store
  printer : t.printer = s.printer
  reporting : t.log.reporting = s.log.reporting
  nextSeq : t.log.nextSeq = nextSeqNum^[ds.length] s.log.nextSeq
  entries : t.log.entries = s.log.entries ++ stamped (decide (s.printer.state ≠ .off)) s.log.nextSeq ds

theorem Logged.refl (s : State) : Logged s s [] := ⟨rfl, rfl, rfl, rfl, (List.append_nil _).symm⟩

theorem Logged.trans {s t u : State} {ds es : List RecData} (a : Logged s t ds) (b : Logged t u es) :
    Logged s u (ds ++ es) where
  store := b.store.trans a.store
  printer := b.printer.trans a.printer
  reporting := b.reporting.trans a.reporting
  nextSeq := by rw [b.nextSeq, a.nextSeq, List.length_append, Nat.add_comm, Function.iterate_add_apply]
  entries := by rw [b.entries, a.entries, a.printer, a.nextSeq, stamped_append, List.append_assoc]

theorem Logged.raise (s : State) (e : Event) : Logged s (s.raise e) [] :=
  ⟨s.raise_store e, s.raise_printer e, by rw [s.raise_log], by rw [s.raise_log]; rfl,
    by rw [s.raise_log]; exact (List.append_nil _).symm⟩

/-- The log after a record is taken: the notify timer apart, R156 and R157 say it all. -/
theorem State.take_log (s : State) (d : RecData) :
    ∃ t, (s.take d).log = { s.log.take s.printMarks d with notifyTimer := t } := by
  unfold State.take
  dsimp only
  split
  · unfold State.notifyTaken State.defectReady
    split
    · exact ⟨none, by rw [State.raise_log]; rfl⟩
    · split
      · exact ⟨_, rfl⟩
      · exact ⟨_, rfl⟩
  · exact ⟨_, rfl⟩

theorem Logged.take {s : State} (hr : s.log.reporting = true) (d : RecData) : Logged s (s.take d) [d] := by
  obtain ⟨t, ht⟩ := s.take_log d
  refine ⟨s.take_store d, s.take_printer d, ?_, ?_, ?_⟩
  · rw [ht]; rfl
  · rw [ht]; rfl
  · rw [ht]
    show (if s.printMarks || s.log.reporting then _ else _) = _
    rw [hr, Bool.or_true, if_pos rfl]
    rfl

theorem State.marks_of_reporting {s : State} (h : s.log.reporting = true) : s.marks = true := by
  rw [State.marks, h, Bool.or_true]

theorem State.offerSystem_taken {s : State} (h : s.marks = false ∨ s.log.entries.length < 256) (d : RecData) :
    s.offerSystem d = (s.take d, true) := by
  unfold State.offerSystem
  rw [if_neg]
  rcases h with h | h
  · simp [h]
  · simp [Log.free]
    omega

theorem State.offerSystem_dropped {s : State} (hm : s.marks = true) (h : 256 ≤ s.log.entries.length) (d : RecData) :
    s.offerSystem d = (State.raise { s with log := { s.log with dropped := min 65535 (s.log.dropped + 1) } } .recordLost,
      false) := by
  unfold State.offerSystem
  rw [if_pos]
  simp [hm, Log.free]
  omega

theorem State.offerTest_taken {s : State} (h : s.marks = false ∨ s.log.entries.length + 9 ≤ 256) (first : Bool)
    (d : RecData) : s.offerTest first d = (s.take d, true) := by
  unfold State.offerTest
  rw [if_neg]
  rcases h with h | h
  · simp [h]
  · have hfree : ¬ s.log.free < 9 := by unfold Log.free; omega
    simp [hfree]

theorem State.offerTest_refused {s : State} (hm : s.marks = true) (h : 256 < s.log.entries.length + 9) (first : Bool)
    (d : RecData) : s.offerTest first d = (if first then s.raise .logStall else s, false) := by
  have hfree : s.log.free < 9 := by unfold Log.free; omega
  unfold State.offerTest
  rw [if_pos]
  simp [hm, hfree]

/-- A formatter that is not IDLE leaves an appended record where it is (R170). -/
theorem State.printIdle_busy {s : State} (h : s.printer.state ≠ .idle) : s.printIdle = s := if_neg h

theorem State.appendSystem_taken {s : State} (hp : s.printer.state ≠ .idle) (h : s.log.entries.length < 256)
    (d : RecData) : s.appendSystem d = (s.take d, true) := by
  unfold State.appendSystem
  rw [State.offerSystem_taken (.inr h)]
  exact congrArg (·, true) (State.printIdle_busy (by rw [State.take_printer]; exact hp))

theorem State.appendTest_taken {s : State} (hp : s.printer.state ≠ .idle) (h : s.log.entries.length + 9 ≤ 256)
    (first : Bool) (d : RecData) : s.appendTest first d = (s.take d, true) := by
  unfold State.appendTest
  rw [State.offerTest_taken (.inr h)]
  exact congrArg (·, true) (State.printIdle_busy (by rw [State.take_printer]; exact hp))

/-- Whatever the log does with a system record, a formatter that is not IDLE and the store stay. -/
theorem State.appendSystem_rest {s : State} (hp : s.printer.state ≠ .idle) (d : RecData) :
    (s.appendSystem d).1.store = s.store ∧ (s.appendSystem d).1.printer = s.printer := by
  have hoff : (s.offerSystem d).1.store = s.store ∧ (s.offerSystem d).1.printer = s.printer := by
    unfold State.offerSystem
    split
    · exact ⟨State.raise_store _ _, State.raise_printer _ _⟩
    · exact ⟨s.take_store d, s.take_printer d⟩
  have hidle : (s.appendSystem d).1 = (s.offerSystem d).1 := State.printIdle_busy (ne_of_eq_of_ne (congrArg _ hoff.2) hp)
  rw [hidle]
  exact hoff

/-! ### The log takes, refuses or drops (R156–R160) -/

theorem State.take_entries_marks (s : State) (d : RecData) : (s.take d).log.entries = s.log.entries ++
    (if s.marks then [⟨s.log.nextSeq, s.printMarks, s.log.reporting, d⟩] else []) := by
  rw [s.take_entries d]
  show (if s.marks then _ else _) = _
  split
  · rfl
  · exact (List.append_nil _).symm

/-- What stands in the log after a record has been taken. -/
theorem State.take_numbers (s : State) (d : RecData) : (s.take d).log.nextSeq = nextSeqNum s.log.nextSeq ∧
    (s.take d).log.dropped = s.log.dropped ∧ (s.take d).log.reporting = s.log.reporting := by
  obtain ⟨t, ht⟩ := s.take_log d
  rw [ht]
  exact ⟨rfl, rfl, rfl⟩

/-- An offered record leaves the store and the formatter. -/
theorem State.offer_rest (s : State) (first : Bool) (d : RecData) :
    ((s.offerTest first d).1.store = s.store ∧ (s.offerTest first d).1.printer = s.printer) ∧
      (s.offerSystem d).1.store = s.store ∧ (s.offerSystem d).1.printer = s.printer := by
  unfold State.offerTest State.offerSystem
  refine ⟨?_, ?_⟩
  · split
    · split
      · exact ⟨s.raise_store _, s.raise_printer _⟩
      · exact ⟨rfl, rfl⟩
    · exact ⟨s.take_store d, s.take_printer d⟩
  · split
    · exact ⟨State.raise_store _ _, State.raise_printer _ _⟩
    · exact ⟨s.take_store d, s.take_printer d⟩

/-- An offered record that is taken: the state is that of the taking. -/
theorem State.offer_taken {s u : State} {first : Bool} {d : RecData}
    (h : s.offerTest first d = (u, true) ∨ s.offerSystem d = (u, true)) : u = s.take d := by
  unfold State.offerTest State.offerSystem at h
  rcases h with h | h
  · split at h
    · simp at h
    · exact (Prod.ext_iff.1 h).1.symm
  · split at h
    · simp at h
    · exact (Prod.ext_iff.1 h).1.symm

/-- Settles O57: the branches of the two offers, and what a taking and a quiet operation leave. -/
theorem logTakesRefusesOrDrops : Obligations.LogTakesRefusesOrDrops := by
  intro s d first
  have hmarks : (decide (s.printer.state ≠ .off) || s.log.reporting) = s.marks := rfl
  refine ⟨_, _, _, _, rfl, rfl, rfl, rfl, ?_, fun h => ?_, ?_, fun h => ?_, fun u hu => ?_⟩
  · rw [hmarks]
    cases hm : s.marks with
    | false => rw [State.offerTest_taken (.inl hm)]; rfl
    | true =>
      by_cases hl : s.log.entries.length + 9 ≤ 256
      · rw [State.offerTest_taken (.inr hl)]; simp [hl]
      · rw [State.offerTest_refused hm (by omega)]; simp [hl]
  · rw [hmarks, Bool.or_eq_false_iff] at h
    obtain ⟨hm, hl⟩ := h
    have hfull := of_decide_eq_false hl
    rw [State.offerTest_refused (by simpa using hm) (by omega)]
  · rw [hmarks]
    cases hm : s.marks with
    | false => rw [State.offerSystem_taken (.inl hm)]; rfl
    | true =>
      by_cases hl : s.log.entries.length < 256
      · rw [State.offerSystem_taken (.inr hl)]; simp [hl]
      · rw [State.offerSystem_dropped hm (by omega)]; simp [hl]
  · rw [hmarks, Bool.or_eq_false_iff] at h
    obtain ⟨hm, hl⟩ := h
    rw [State.offerSystem_dropped (by simpa using hm) (by simpa using hl)]
    exact ⟨State.raise_log _ _, State.raise_isPending _ .recordLost⟩
  · obtain ⟨htest, hsystem⟩ := s.offer_rest first d
    have hquiet : Quiet s u ∧ u.store = s.store ∧ u.printer = s.printer := by
      rcases hu with rfl | rfl
      · exact ⟨Quiet.offerTest s first d, htest⟩
      · exact ⟨Quiet.offerSystem s d, hsystem⟩
    obtain ⟨hq, hstore, hprinter⟩ := hquiet
    refine ⟨hq.matrix, hq.link, hq.hv, hq.lmu, hq.engine, hq.queue, hstore, hprinter, fun htaken => ?_⟩
    obtain rfl := State.offer_taken htaken
    obtain ⟨hseq, hdropped, hreporting⟩ := s.take_numbers d
    exact ⟨hseq, hdropped, hreporting, s.take_entries_marks d⟩

end Sys2Proof.Machine
end

section
/-! PROOFS. High-voltage steps: their start, the ramp and the samples (7.1–7.5). -/

namespace Sys2Proof.Machine

open Sys2Proof

/-! ### A step request (R113, R139) -/

theorem State.mayStep_of {s : State} (hr : s.hv.rail = .safe)
    (hs : s.matrix.slot = .empty ∨ ∃ t, s.matrix.slot = .held t) (hl : s.lmu.phase = .idle) : s.mayStep = true := by
  rw [State.mayStep, State.sourceAllowed_of hr hs, hl]
  rfl

theorem State.mayStep_not {s : State} (h : s.hv.rail ≠ .safe ∨
    (s.matrix.slot ≠ .empty ∧ ∀ t, s.matrix.slot ≠ .held t) ∨ s.lmu.phase ≠ .idle) : s.mayStep = false := by
  rw [State.mayStep, Bool.and_eq_false_iff]
  rcases h with h | h | h
  · exact .inl (State.sourceAllowed_not (.inl h))
  · exact .inl (State.sourceAllowed_not (.inr h))
  · exact .inr (by simpa using h)

/-- A cover that is not CLOSED resumes nothing. -/
theorem State.autoResume_open {s : State} (h : s.hv.coverClosed = false) : s.autoResume = s := by
  simp [State.autoResume, h]

/-- The INTERLOCK record of a suspension (R139). -/
def State.interlockRec (s : State) (c : RecCause) : RecData :=
  { kind := .interlock, system := true, tag := s.headTag, cause := some c, net := suspendNet s.engine.work }

/-- The state of a suspension once its record has been offered, before a job resumes by itself. -/
def State.suspending (s : State) (taken : Bool) : State :=
  let s2 := ((s.countSystem taken).raise .interlock).setJobState .suspended
  { s2 with engine := { s2.engine with phase := .between, isRepeat := true } }

theorem State.suspend_eq (s : State) (c : RecCause) : s.suspend c =
    ((s.appendSystem (s.interlockRec c)).1.suspending (s.appendSystem (s.interlockRec c)).2).autoResume := rfl

theorem State.countSystem_jobs (s : State) (taken : Bool) {j : Job} {r : List Job} (h : s.queue.jobs = j :: r) :
    (s.countSystem taken).queue.jobs = { j with systems := j.systems + taken.toNat } :: r := by
  unfold State.countSystem
  split
  · next ht => rw [State.setHead_jobs _ _ _ _ h, ht]; rfl
  · next ht => rw [h, Bool.eq_false_of_not_eq_true ht]; rfl

theorem State.countSystem_rest (s : State) (taken : Bool) : (s.countSystem taken).hv = s.hv ∧
    (s.countSystem taken).matrix = s.matrix ∧ (s.countSystem taken).lmu = s.lmu ∧ (s.countSystem taken).link = s.link ∧
    (s.countSystem taken).engine = s.engine := by
  unfold State.countSystem
  split <;> simp

/-- A suspension touches the engine, the head's record, the log and the event. -/
theorem State.suspending_facts (s : State) (taken : Bool) : (s.suspending taken).hv = s.hv ∧
    (s.suspending taken).matrix = s.matrix ∧ (s.suspending taken).lmu = s.lmu ∧ (s.suspending taken).link = s.link ∧
    (s.suspending taken).events.pending.getLsbD 1 = true ∧
    (s.suspending taken).engine = { s.engine with phase := .between, isRepeat := true } ∧
    ∀ j r, s.queue.jobs = j :: r → (s.suspending taken).queue.jobs =
      { j with state := .suspended, systems := j.systems + taken.toNat } :: r := by
  obtain ⟨hhv, hmatrix, hlmu, hlink, hengine⟩ := s.countSystem_rest taken
  have hq := Quiet.raise (s.countSystem taken) .interlock
  refine ⟨?_, ?_, ?_, ?_, ?_, ?_, fun j r hj => ?_⟩
  · exact (State.setHead_hv ..).trans (hq.hv.trans hhv)
  · exact (State.setHead_matrix ..).trans (hq.matrix.trans hmatrix)
  · exact (State.setHead_lmu ..).trans (hq.lmu.trans hlmu)
  · exact (State.setHead_link ..).trans (hq.link.trans hlink)
  · show (State.setHead _ _).events.pending.getLsbD 1 = true
    rw [State.setHead_events]
    exact State.raise_isPending _ .interlock
  · show ({ (State.setHead _ _).engine with phase := .between, isRepeat := true } : Engine) = _
    rw [State.setHead_engine, hq.engine, hengine]
  · exact State.setHead_jobs _ _ _ _ (hq.queue ▸ s.countSystem_jobs taken hj)

/-- Settles O46: the examination of a request, and the ticks. -/
theorem hvStepStartsAndRamps : Obligations.HvStepStartsAndRamps := by
  refine ⟨fun v s hv => ⟨fun hr hs hl => ⟨fun hcover => ?_, fun hcover => ?_⟩, fun hno => ?_⟩,
    fun v ms s hr hv ht => ⟨fun hlt => ?_, fun hle => ?_⟩⟩
  · show execStepRequestExamined s = _
    unfold execStepRequestExamined
    rw [hv]
    exact congrArg _ ((if_pos (State.mayStep_of hr hs hl)).trans (if_pos hcover))
  · have hexec : exec .stepRequestExamined s =
        .next (State.suspend { s with hv := { s.hv with request := none } } .openAtStart) := by
      show execStepRequestExamined s = _
      unfold execStepRequestExamined
      rw [hv]
      exact congrArg _ ((if_pos (State.mayStep_of hr hs hl)).trans (if_neg (by simp [hcover])))
    rw [State.suspend_eq] at hexec
    have hq := Quiet.appendSystem { s with hv := { s.hv with request := none } }
      (State.interlockRec { s with hv := { s.hv with request := none } } .openAtStart)
    generalize State.appendSystem { s with hv := { s.hv with request := none } } _ = x at hq hexec
    obtain ⟨hhv, hmatrix, hlmu, hlink, hpending, hengine, hjobs⟩ := x.1.suspending_facts x.2
    have hopen : (x.1.suspending x.2).hv.coverClosed = false := by rw [hhv, hq.hv]; exact hcover
    rw [State.autoResume_open hopen] at hexec
    exact ⟨_, hexec, hhv.trans hq.hv, hmatrix.trans hq.matrix, hlmu.trans hq.lmu, hlink.trans hq.link, hpending,
      hengine.trans (congrArg (fun e : Engine => { e with phase := .between, isRepeat := true }) hq.engine),
      fun j r hj => ⟨_, hjobs j r (by rw [hq.queue]; exact hj)⟩⟩
  · show execStepRequestExamined s = _
    unfold execStepRequestExamined
    rw [hv]
    exact congrArg _ (if_neg (by simp [State.mayStep_not hno]))
  · show execRampTick s = _
    unfold execRampTick
    rw [hv, ht]
    refine congrArg _ ((if_pos hr).trans (congrArg (fun h => { s with hv := h }) ?_))
    unfold Hv.tick
    rw [Nat.min_eq_left (Nat.le_of_lt hlt)]
    exact if_neg (Nat.ne_of_lt hlt)
  · show execRampTick s = _
    unfold execRampTick
    rw [hv, ht]
    refine congrArg _ ((if_pos hr).trans (congrArg (fun h => { s with hv := h }) ?_))
    unfold Hv.tick
    rw [Nat.min_eq_right hle]
    exact if_pos rfl

/-! ### Samples (R110, R115, R116, R122) -/

/-- The last 16 samples: the oldest leaves as the seventeenth arrives. -/
theorem history_append (l : List (Nat × Nat)) (x : Nat × Nat) : (l ++ [x]).drop (l.length + 1 - 16) =
    if l.length < 16 then l ++ [x] else (l ++ [x]).drop (l.length - 15) := by
  split
  · next h =>
    have h0 : l.length + 1 - 16 = 0 := by omega
    rw [h0, List.drop_zero]
  · next h =>
    have h0 : l.length + 1 - 16 = l.length - 15 := by omega
    rw [h0]

theorem Hv.rampSample_eq (h : Hv) (v : StepValues) (u i : Nat) : h.rampSample v u i =
    if v.trip * 10000 ≤ i then Hv.breakdown { h with prevI := some i } .trip u i else { h with prevI := some i } := by
  simp [Hv.rampSample, isTrip]

/-- A sample in DWELL before its examination: its arc counted, the history with it. -/
def Hv.dwelling (h : Hv) (v : StepValues) (u i : Nat) : Hv := { h with
  arcs := h.arcsAfter v i
  prevI := some i
  history := (h.history ++ [(u, i)]).drop (h.history.length + 1 - 16) }

theorem Hv.dwellSample_eq (h : Hv) (v : StepValues) (u i : Nat) : h.dwellSample v u i =
    if v.trip * 10000 ≤ i then (h.dwelling v u i).breakdown .trip u i
    else if u * 8 < v.setV * 70 then (h.dwelling v u i).breakdown .collapse u i
    else h.dwelling v u i := by
  simp [Hv.dwellSample, isTrip, isCollapse, Hv.dwelling]

theorem Hv.dischargeSample_eq (h : Hv) (u : Nat) : h.dischargeSample u = { h with
    holdTimer := if u < 300 then (if h.holdTimer.isSome then h.holdTimer else some 10) else none } := by
  unfold Hv.dischargeSample
  by_cases hu : u < 300
  · rw [if_pos hu, if_pos hu]
    split <;> rfl
  · rw [if_neg hu, if_neg hu]

/-- A sample in the two states that examine it. -/
theorem Hv.sample_ramp {h : Hv} {v : StepValues} (u0 i0 : Nat) (hr : h.rail = .ramp) (hv : h.values = some v) :
    h.sample u0 i0 = Hv.rampSample { h with presentV := min u0 16000, presentI := min i0 5000000 } v
      (min u0 16000) (min i0 5000000) := by
  unfold Hv.sample
  simp only [hr, hv]

theorem Hv.sample_dwell {h : Hv} {v : StepValues} (u0 i0 : Nat) (hr : h.rail = .dwell) (hv : h.values = some v) :
    h.sample u0 i0 = Hv.dwellSample { h with presentV := min u0 16000, presentI := min i0 5000000 } v
      (min u0 16000) (min i0 5000000) := by
  unfold Hv.sample
  simp only [hr, hv]

theorem Hv.sample_idle {h : Hv} (u0 i0 : Nat) (hr : h.rail = .safe ∨ h.rail = .fault) :
    h.sample u0 i0 = { h with presentV := min u0 16000, presentI := min i0 5000000 } := by
  unfold Hv.sample
  rcases hr with hr | hr <;> simp only [hr]

theorem Hv.sample_discharge {h : Hv} (u0 i0 : Nat) (hr : h.rail = .discharge) :
    h.sample u0 i0 = Hv.dischargeSample { h with presentV := min u0 16000, presentI := min i0 5000000 }
      (min u0 16000) := by
  unfold Hv.sample
  simp only [hr]

/-- Settles O47: the rail state decides what a sample is examined for. -/
theorem hvSampleIsExaminedByState : Obligations.HvSampleIsExaminedByState := by
  intro u0 i0 s
  have hexec {h : Hv} (hh : s.hv.sample u0 i0 = h) : exec (.hvSample u0 i0) s = .next { s with hv := h } := hh ▸ rfl
  refine ⟨_, _, _, rfl, rfl, rfl, fun hr => hexec (Hv.sample_idle u0 i0 hr), fun hr => hexec ?_, fun v hv =>
    ⟨_, _, _, rfl, rfl, fun _ _ => rfl, fun hr => ⟨fun hlt => hexec ?_, fun hle => hexec ?_⟩,
      fun hr => ⟨fun hlt hge => hexec ?_, fun hle => hexec ?_, fun hlt hcol => hexec ?_⟩⟩⟩
  · rw [Hv.sample_discharge u0 i0 hr, Hv.dischargeSample_eq]
  · rw [Hv.sample_ramp u0 i0 hr hv, Hv.rampSample_eq, if_neg (Nat.not_le.2 hlt)]
  · rw [Hv.sample_ramp u0 i0 hr hv, Hv.rampSample_eq, if_pos hle]
    rfl
  · rw [Hv.sample_dwell u0 i0 hr hv, Hv.dwellSample_eq, if_neg (Nat.not_le.2 hlt), if_neg (Nat.not_lt.2 hge),
      Hv.dwelling, history_append]
    rfl
  · rw [Hv.sample_dwell u0 i0 hr hv, Hv.dwellSample_eq, if_pos hle, Hv.dwelling, history_append]
    rfl
  · rw [Hv.sample_dwell u0 i0 hr hv, Hv.dwellSample_eq, if_neg (Nat.not_le.2 hlt), if_pos hcol, Hv.dwelling,
      history_append]
    rfl

end Sys2Proof.Machine
end

section
/-! PROOFS. The isolation search (5.5). -/

namespace Sys2Proof.Machine

open Sys2Proof

section
variable (member bad : Nat → Bool)

/-- The members of a run. -/
def Run.members (r : Run) : List Nat := (List.range' r.first r.count).filter member

/-- The bad members of a run. -/
def Run.culprits (r : Run) : List Nat := (r.members member).filter bad

/-- How many members a run has. -/
def Run.size (r : Run) : Nat := (r.members member).length

/-- The search ends, having resolved these members, and met an aggregate or not. -/
def Finds (o : SearchOut) (x : List Nat × Bool) : Prop := ∃ fuel, searchFrom member bad fuel o = some x

variable {member bad}

theorem Finds.over : Finds member bad .over ([], false) := ⟨1, rfl⟩

theorem Finds.test {q : Search} {x : List Nat × Bool}
    (h : Finds member bad (q.result (Run.size member) ((q.testing.members member).any bad)) x) :
    Finds member bad (.test q) x := by
  obtain ⟨fuel, h⟩ := h
  exact ⟨fuel + 1, h⟩

theorem Finds.resolve {q : Search} {l : List Nat} {b : Bool} (h : Finds member bad (q.goOn (Run.size member)) (l, b)) :
    Finds member bad (.resolve q) (q.g.members member ++ l, b) := by
  obtain ⟨fuel, h⟩ := h
  exact ⟨fuel + 1, congrArg (Option.map fun x : List Nat × Bool => (q.g.members member ++ x.1, x.2)) h⟩

/-! ### Halves -/

theorem Run.members_halves (r : Run) : r.members member = r.lower.members member ++ r.upper.members member := by
  have hsum : (r.count + 1) / 2 + (r.count - (r.count + 1) / 2) = r.count := by omega
  have hrange := List.range'_append_1 (s := r.first) (m := (r.count + 1) / 2) (n := r.count - (r.count + 1) / 2)
  rw [hsum] at hrange
  simp only [Run.members, Run.lower, Run.upper, ← List.filter_append, hrange]

theorem Run.culprits_halves (r : Run) :
    r.culprits member bad = r.lower.culprits member bad ++ r.upper.culprits member bad := by
  simp only [Run.culprits, r.members_halves, List.filter_append]

theorem Run.size_le (r : Run) : r.size member ≤ r.count :=
  (List.length_filter_le _ _).trans (Nat.le_of_eq List.length_range')

/-- A group passes when it has no bad member. -/
theorem Run.passes_iff {r : Run} : (r.members member).any bad = false ↔ r.culprits member bad = [] := by
  rw [Run.culprits, List.filter_eq_nil_iff, List.any_eq_false]

theorem Run.culprits_of_size_zero {r : Run} (h : r.size member = 0) : r.culprits member bad = [] := by
  rw [Run.culprits, List.eq_nil_of_length_eq_zero h, List.filter_nil]

theorem Run.fails_of {r : Run} (h : r.culprits member bad ≠ []) : (r.members member).any bad = true :=
  Bool.eq_true_of_not_eq_false (mt Run.passes_iff.1 h)

/-- The one member of a group that fails is bad. -/
theorem Run.culprits_single {r : Run} (h1 : r.size member = 1) (h : r.culprits member bad ≠ []) :
    r.culprits member bad = r.members member := by
  obtain ⟨p, hp⟩ := List.length_eq_one_iff.1 h1
  rw [Run.culprits, hp] at h ⊢
  by_cases hb : bad p <;> simp_all

/-! ### The search -/

/-- A group that has failed is searched to its end, and then the groups that wait: induction on the group's length. -/
theorem finds_examine (g : Run) (stack : List Run) (out : List Nat) (hbad : g.culprits member bad ≠ [])
    (hrest : ∀ g', Finds member bad (popNext (Run.size member) g' stack) (out, false)) :
    Finds member bad (examine (Run.size member) g stack) (g.culprits member bad ++ out, false) := by
  have h0 : g.size member ≠ 0 := fun h => hbad (Run.culprits_of_size_zero h)
  unfold examine
  rw [if_neg h0]
  split
  · next h1 =>
    rw [Run.culprits_single h1 hbad]
    exact Finds.resolve (hrest _)
  · next h1 =>
    have hcount : 2 ≤ g.count := by have := g.size_le (member := member); omega
    have hupper : g.upper.culprits member bad ≠ [] →
        Finds member bad (examine (Run.size member) g.upper stack) (g.upper.culprits member bad ++ out, false) :=
      fun h => finds_examine g.upper stack out h hrest
    have hpassed : g.lower.culprits member bad = [] →
        Finds member bad (lowerPassed (Run.size member) g stack) (g.culprits member bad ++ out, false) := by
      intro hlow
      rw [g.culprits_halves, hlow, List.nil_append] at hbad ⊢
      unfold lowerPassed
      rw [if_neg fun h => hbad (Run.culprits_of_size_zero h)]
      refine Finds.test ?_
      rw [Run.fails_of hbad]
      exact hupper hbad
    split
    · next hlow => exact hpassed (Run.culprits_of_size_zero hlow)
    · refine Finds.test ?_
      by_cases hlow : g.lower.culprits member bad = []
      · rw [Run.passes_iff.2 hlow]
        exact hpassed hlow
      · rw [Run.fails_of hlow, g.culprits_halves, List.append_assoc]
        refine finds_examine g.lower (g.upper :: stack) _ hlow fun g' => ?_
        unfold popNext
        split
        · next hz =>
          rw [Run.culprits_of_size_zero hz]
          exact hrest g'
        · refine Finds.test ?_
          by_cases hup : g.upper.culprits member bad = []
          · rw [Run.passes_iff.2 hup, hup]
            exact hrest g'
          · rw [Run.fails_of hup]
            exact hupper hup
termination_by g.count
decreasing_by
  · simp only [Run.upper]; omega
  · simp only [Run.lower]; omega

end

/-- Settles O56: the whole run fails, and nothing waits behind it. -/
theorem searchFindsEveryBadMember : Obligations.SearchFindsEveryBadMember := by
  intro member bad n hbad
  have hculprits : Run.culprits member bad ⟨0, n⟩ = (List.range n).filter (fun p => member p && bad p) := by
    rw [Run.culprits, Run.members, List.filter_filter, List.range_eq_range']
    exact List.filter_congr fun p _ => Bool.and_comm ..
  have hne : Run.culprits member bad ⟨0, n⟩ ≠ [] := by
    obtain ⟨p, hp, hm, hb⟩ := hbad
    rw [hculprits]
    exact List.ne_nil_of_mem (List.mem_filter.2 ⟨List.mem_range.2 hp, by simp [hm, hb]⟩)
  have hfinds := finds_examine ⟨0, n⟩ [] [] hne fun _ => Finds.over
  rwa [List.append_nil, hculprits] at hfinds

end Sys2Proof.Machine
end

section
/-! PROOFS. The checked read of a net (1.5.2, 1.5.3). -/

namespace Sys2Proof.Machine

open Sys2Proof

/-! ### The net table under writes that keep the numbers -/

theorem find_map_num {f : NetRec → NetRec} (hf : ∀ r, (f r).body.num = r.body.num) (n : Nat) (l : List NetRec) :
    (l.map f).find? (fun r => r.body.num == n) = (l.find? (fun r => r.body.num == n)).map f := by
  rw [List.find?_map]
  simp only [Function.comp_def, hf]

theorem State.findNet_num {s : State} {n : Nat} {r : NetRec} (h : s.findNet n = some r) : r.body.num = n := by
  simpa using List.find?_some h

/-- The mark of a read net. -/
theorem find_markCorrupt {s : State} {r : NetRec} (h : s.findNet r.body.num = some r) :
    (s.store.markCorrupt r.body.num).nets.find? (fun x => x.body.num == r.body.num) = some { r with corrupt := true } := by
  have hf : ∀ x : NetRec, (if x.body.num = r.body.num then { x with corrupt := true } else x).body.num = x.body.num :=
    fun x => by split <;> rfl
  refine (find_map_num hf _ _).trans ?_
  rw [show s.store.nets.find? (fun x => x.body.num == r.body.num) = some r from h, Option.map_some, if_pos rfl]

/-! ### The read (R17, R18) -/

section
variable {s : State} {c : ReadCause} {r : NetRec} (hr : s.findNet r.body.num = some r)
include hr

theorem State.readNetFor_corrupt (hc : r.corrupt = true) : s.readNetFor c r.body.num = (s, .corrupt) := by
  unfold State.readNetFor State.readNetWith
  rw [hr]
  exact if_pos hc

theorem State.readNetFor_sound (hc : r.corrupt = false) (hk : r.check = crc16 r.body.bytes) :
    s.readNetFor c r.body.num = (s, .contents r.body) := by
  unfold State.readNetFor State.readNetWith
  rw [hr]
  exact (if_neg (by simp [hc])).trans (if_pos (beq_iff_eq.2 hk))

/-- The net is marked. -/
def State.marked (s : State) (n : Nat) : State := { s with store := s.store.markCorrupt n }

/-- The net is marked, its record taken, its event raised. -/
def State.struck (s : State) (n : Nat) (d : RecData) : State := ((s.marked n).take d).raise .tableFault

theorem State.readNetFor_upset (hc : r.corrupt = false) (hk : r.check ≠ crc16 r.body.bytes)
    (hp : s.printer.state ≠ .idle) (hroom : s.log.entries.length < 256) : s.readNetFor c r.body.num =
      (s.struck r.body.num (tableFaultRec r.body.num c s.headTag), .upset true) := by
  have hoffer : State.offerSystem { s with store := s.store.markCorrupt r.body.num }
      (tableFaultRec r.body.num c s.headTag) = _ := State.offerSystem_taken (s := s.marked r.body.num) (.inr hroom) _
  have hidle := State.printIdle_busy (s := (s.marked r.body.num).take (tableFaultRec r.body.num c s.headTag))
    (by rw [State.take_printer]; exact hp)
  unfold State.readNetFor State.readNetWith
  rw [hr]
  refine (if_neg (by simp [hc])).trans ((if_neg (mt beq_iff_eq.1 hk)).trans ?_)
  dsimp only
  rw [hoffer]
  exact congrArg (fun t : State => (t.raise .tableFault, NetAnswer.upset true)) hidle

/-- What the first read of an upset net leaves. -/
theorem State.struck_facts (d : RecData) : (s.struck r.body.num d).store = s.store.markCorrupt r.body.num ∧
    (s.struck r.body.num d).findNet r.body.num = some { r with corrupt := true } ∧
    (s.struck r.body.num d).events.pending.getLsbD 3 = true ∧ (s.struck r.body.num d).log.entries = s.log.entries ++
      (if s.marks then [⟨s.log.nextSeq, s.printMarks, s.log.reporting, d⟩] else []) := by
  have hstore : (s.struck r.body.num d).store = s.store.markCorrupt r.body.num := by
    rw [State.struck, State.raise_store, State.take_store]
    rfl
  refine ⟨hstore, ?_, State.raise_isPending _ .tableFault, ?_⟩
  · rw [State.findNet, hstore]
    exact find_markCorrupt hr
  · rw [State.struck, State.raise_log]
    exact State.take_entries_marks (s.marked r.body.num) d

end

theorem State.findNet_upset_same {s : State} {n : Nat} {f : Word16} {r : NetRec} (h : s.findNet n = some r) :
    ∃ c : Word16, State.findNet { s with store := s.store.upset n f } n = some { r with check := c } ∧
      c ≠ crc16 r.body.bytes := by
  have hf : ∀ x : NetRec, (if x.body.num = n then
      { x with check := x.body.checkValue ^^^ (if f = 0#16 then 1#16 else f) } else x).body.num = x.body.num :=
    fun x => by split <;> rfl
  refine ⟨r.body.checkValue ^^^ (if f = 0#16 then 1#16 else f), ?_, fun hc => ?_⟩
  · refine (find_map_num hf n s.store.nets).trans ?_
    rw [show s.store.nets.find? (fun x => x.body.num == n) = some r from h, Option.map_some,
      if_pos (State.findNet_num h)]
  · have hzero : (if f = 0#16 then 1#16 else f) = 0#16 :=
      (BitVec.xor_right_inj _).1 (hc.trans (BitVec.xor_zero (x := r.body.checkValue)).symm)
    split at hzero
    · exact absurd hzero (by decide)
    · next h0 => exact h0 hzero

theorem State.findNet_upset_other {s : State} {n k : Nat} (f : Word16) (hk : k ≠ n) :
    State.findNet { s with store := s.store.upset n f } k = s.findNet k := by
  have hf : ∀ x : NetRec, (if x.body.num = n then
      { x with check := x.body.checkValue ^^^ (if f = 0#16 then 1#16 else f) } else x).body.num = x.body.num :=
    fun x => by split <;> rfl
  refine (find_map_num hf k s.store.nets).trans ?_
  show (s.findNet k).map _ = s.findNet k
  cases h : s.findNet k with
  | none => rfl
  | some r => rw [Option.map_some, if_neg (by rw [State.findNet_num h]; exact hk)]

/-- Settles O27: the strike, and the four outcomes of a read. -/
theorem upsetNetIsMarkedAtItsFirstRead : Obligations.UpsetNetIsMarkedAtItsFirstRead := by
  refine ⟨fun n f s => ⟨_, _, rfl, rfl, fun r h => State.findNet_upset_same h, fun k hk =>
    State.findNet_upset_other f hk⟩, fun s c r hr => ⟨State.readNetFor_corrupt hr, State.readNetFor_sound hr,
    fun hc hk hp hroom => ⟨_, State.readNetFor_upset hr hc hk hp hroom.2, ?_⟩⟩⟩
  obtain ⟨hstore, hfind, hpending, hentries⟩ := State.struck_facts hr (tableFaultRec r.body.num c s.headTag)
  have hmarks : s.marks = true := by
    rw [State.marks, State.printMarks]
    rcases hroom.1 with h | h <;> simp [h]
  refine ⟨hstore, hfind, hpending, ?_, State.readNetFor_corrupt (r := { r with corrupt := true }) hfind rfl⟩
  rw [hentries, if_pos hmarks]
  cases c <;> rfl

/-! ### READ_NET (R15) -/

/-- The reply of the one slot being carried out, whatever the path is doing: it goes out, or waits ready. -/
theorem State.compose_one {s : State} {k t : Byte} {p : List Byte} (hs : s.host.slots = [⟨k, t, p, .carried⟩])
    (r : List Byte) : ∃ (ph : SlotPhase) (tx : Option TxFrame), (ph = .ready r ∨ ph = .sending r) ∧ s.compose r =
      { s with host := { s.host with slots := [⟨k, t, p, ph⟩], tx := tx, carried := none } } := by
  cases ht : s.host.tx with
  | none => exact ⟨_, _, .inr rfl, State.compose_carried s k t p r hs ht⟩
  | some f => exact ⟨_, some f, .inl rfl, by simp [State.compose, State.txKick, hs, ht, RxSlot.answer]⟩

/-- A request that its block answers after raising events. -/
theorem exec_answered_raised (r : Request) (tag : Byte) (p : List Byte) (s u : State) (rep : List Byte) (hs : s.ready)
    (hp : p.length ≤ 1024) (hu : carry r p (s.handed r.code tag p) = (u, some rep))
    (hslots : u.host.slots = [⟨r.code, tag, p, .carried⟩]) :
    ∃ (ph : SlotPhase) (tx : Option TxFrame), (ph = .ready rep ∨ ph = .sending rep) ∧
      exec (requestInstr r tag p) s = .next { u with host := { u.host with
        slots := [⟨r.code, tag, p, ph⟩], tx := tx, carried := none } } := by
  obtain ⟨ph, tx, hph, hcompose⟩ := State.compose_one hslots rep
  refine ⟨ph, tx, hph, ?_⟩
  rw [exec_request, State.frame_ready s hs _ _ _ hp]
  simp only [carryOut, requestOf_code, hu]
  rw [hcompose]
  exact congrArg _ (State.handOver_noneWaiting _ 2 (by rcases hph with rfl | rfl <;> simp))

/-- The lowest stored net at or above a number is the first such in the table. -/
theorem find_next {l : List NetRec} (hw : tableWf (l.map (fun r => (r.body.num, ()))) = true) {n : Nat} {r : NetRec}
    (hr : r ∈ l) (hn : n ≤ r.body.num) (hmin : ∀ x ∈ l, n ≤ x.body.num → r.body.num ≤ x.body.num) :
    l.find? (fun x => decide (n ≤ x.body.num)) = some r := by
  induction l with
  | nil => simp at hr
  | cons x l ih =>
    obtain ⟨hhead, htail⟩ := (tableWf_cons _ _).1 hw
    have hlt : ∀ y ∈ l, x.body.num < y.body.num := fun y hy =>
      tableWf_head_lt _ x.body.num htail hhead (y.body.num, ()) (List.mem_map_of_mem hy)
    rcases List.mem_cons.1 hr with rfl | hr
    · simp [hn]
    · have hx : ¬ n ≤ x.body.num := fun hx => by
        have h1 := hmin x (List.mem_cons_self ..) hx
        have h2 := hlt r hr
        omega
      rw [List.find?_cons_of_neg (by simpa using hx)]
      exact ih htail hr fun y hy => hmin y (List.mem_cons_of_mem _ hy)

/-- A stored net is the one its number finds. -/
theorem State.findNet_of_mem {s : State} (hw : s.store.wf = true) {r : NetRec} (hr : r ∈ s.store.nets) :
    s.findNet r.body.num = some r := by
  cases h : s.findNet r.body.num with
  | none => exact absurd (List.find?_eq_none.1 h r hr) (by simp)
  | some q => rw [Store.net_unique hw (List.mem_of_find?_eq_some h) hr (State.findNet_num h)]

/-- The payload of a READ_NET and the net it names. -/
theorem doReadNet_eq {n : Nat} (hn : n < 65536) (mode : Byte) (s : State) : doReadNet (le2 n ++ [mode]) s =
    match selectNet s n mode with
    | none => (s, [0x03#8])
    | some none => (s, [0x07#8] ++ le2 s.store.nets.length)
    | some (some r) =>
      let x := s.readNetFor .read r.body.num
      match x.2 with
      | .contents body => (x.1, 0x00#8 :: netReply body s.store.nets.length)
      | .missing => (x.1, [0x07#8] ++ le2 s.store.nets.length)
      | .corrupt => (x.1, [0x09#8] ++ le2 r.body.num ++ le2 s.store.nets.length)
      | .upset _ => (x.1, [0x09#8] ++ le2 r.body.num ++ le2 s.store.nets.length) := by
  simp only [le2, List.cons_append, List.nil_append, doReadNet, u16_of n hn]
  rfl

/-- What READ_NET selects (R15). -/
def Selects (s : State) (mode : Byte) (n : Nat) (r : NetRec) : Prop :=
  (mode = 0x00#8 ∧ 1 ≤ n ∧ n ≤ 1024 ∧ s.findNet n = some r) ∨
    (mode = 0x01#8 ∧ n ≤ 1025 ∧ s.store.wf = true ∧ r ∈ s.store.nets ∧ n ≤ r.body.num ∧
      ∀ x ∈ s.store.nets, n ≤ x.body.num → r.body.num ≤ x.body.num)

theorem Selects.facts {s : State} {mode : Byte} {n : Nat} {r : NetRec} (h : Selects s mode n r) :
    n < 65536 ∧ selectNet s n mode = some (some r) ∧ s.findNet r.body.num = some r := by
  rcases h with ⟨rfl, h1, h2, hr⟩ | ⟨rfl, hn, hw, hr, hle, hmin⟩
  · have hnum := State.findNet_num hr
    exact ⟨by omega, by simp [selectNet, h1, h2, hr], hnum.symm ▸ hr⟩
  · have hnets : tableWf (s.store.nets.map (fun r => (r.body.num, ()))) = true := by
      simp only [Store.wf, Bool.and_eq_true] at hw
      exact hw.2
    exact ⟨by omega, by simp [selectNet, hn, find_next hnets hr hle hmin], State.findNet_of_mem hw hr⟩

/-- Settles O26: the net selected, by its three conditions, or none, or a value out of range. -/
theorem readNetAnswersTheContents : Obligations.ReadNetAnswersTheContents := by
  intro tag mode n s hs
  refine ⟨le2 n ++ [mode], Selects s mode n, rfl, fun r => Iff.rfl, fun r hsel hc hk => ?_, fun r hsel hc => ?_,
    fun r hsel hc hk hp hrep hroom => ?_, fun hnone => ?_, fun hn hbad => ?_⟩
  · obtain ⟨hn, hselect, hfind⟩ := hsel.facts
    have hread := State.readNetFor_sound (s := s.handed 0x0E#8 tag (le2 n ++ [mode])) (c := .read) hfind hc hk
    have hselect' : selectNet (s.handed 0x0E#8 tag (le2 n ++ [mode])) n mode = some (some r) := hselect
    refine exec_answered_unchanged .readNet tag _ s _ hs (by simp) (answered_eq ((doReadNet_eq hn mode _).trans ?_))
    simp only [Request.code, hselect', hread]
    rfl
  · obtain ⟨hn, hselect, hfind⟩ := hsel.facts
    have hread := State.readNetFor_corrupt (s := s.handed 0x0E#8 tag (le2 n ++ [mode])) (c := .read) hfind hc
    have hselect' : selectNet (s.handed 0x0E#8 tag (le2 n ++ [mode])) n mode = some (some r) := hselect
    refine exec_answered_unchanged .readNet tag _ s _ hs (by simp) (answered_eq ((doReadNet_eq hn mode _).trans ?_))
    simp only [Request.code, hselect', hread]
    rfl
  · obtain ⟨hn, hselect, hfind⟩ := hsel.facts
    have hread := State.readNetFor_upset (s := s.handed 0x0E#8 tag (le2 n ++ [mode])) (c := .read) hfind hc hk hp hroom
    have hselect' : selectNet (s.handed 0x0E#8 tag (le2 n ++ [mode])) n mode = some (some r) := hselect
    obtain ⟨hstore, hfound, hpending, hentries⟩ := State.struck_facts (s := s.handed 0x0E#8 tag (le2 n ++ [mode])) hfind
      (tableFaultRec r.body.num .read s.headTag)
    have hq := Quiet.readNetFor (s.handed 0x0E#8 tag (le2 n ++ [mode])) .read r.body.num
    rw [hread] at hq
    have hdo : doReadNet (le2 n ++ [mode]) (s.handed 0x0E#8 tag (le2 n ++ [mode])) =
        ((s.handed 0x0E#8 tag (le2 n ++ [mode])).struck r.body.num (tableFaultRec r.body.num .read s.headTag),
          [0x09#8] ++ le2 r.body.num ++ le2 s.store.nets.length) := by
      refine (doReadNet_eq hn mode _).trans ?_
      simp only [hselect', hread]
      rfl
    obtain ⟨ph, tx, hph, hexec⟩ := exec_answered_raised .readNet tag _ s _ _ hs (by simp) (answered_eq hdo)
      (hq.slots rfl)
    refine ⟨_, ph, _, rfl, hexec, hph, rfl, hstore, hfound, ?_, hpending, hq.queue, hq.engine, hq.matrix, hq.link, hq.hv,
      hq.lmu⟩
    have hmarks : (s.handed 0x0E#8 tag (le2 n ++ [mode])).marks = true := State.marks_of_reporting hrep
    rw [if_pos hmarks] at hentries
    exact (congrArg (List.map (·.data)) hentries).trans List.map_append
  · have hn : n < 65536 := by rcases hnone with ⟨-, -, h, -⟩ | ⟨-, h, -⟩ <;> omega
    have hselect : selectNet (s.handed 0x0E#8 tag (le2 n ++ [mode])) n mode = some none := by
      rcases hnone with ⟨rfl, h1, h2, hr⟩ | ⟨rfl, hn, hall⟩
      · have hr' : (s.handed 0x0E#8 tag (le2 n ++ [0x00#8])).findNet n = none := hr
        simp [selectNet, h1, h2, hr']
      · have hfind : s.store.nets.find? (fun r => decide (n ≤ r.body.num)) = none :=
          List.find?_eq_none.2 fun x hx => by simpa using hall x hx
        simp [selectNet, hn, State.handed, hfind]
    refine exec_answered_unchanged .readNet tag _ s _ hs (by simp) (answered_eq ((doReadNet_eq hn mode _).trans ?_))
    simp only [Request.code, hselect]
    rfl
  · have hselect : selectNet (s.handed 0x0E#8 tag (le2 n ++ [mode])) n mode = none := by
      rcases hbad with ⟨rfl, h⟩ | ⟨rfl, h⟩ | h
      · have : ¬ (1 ≤ n ∧ n ≤ 1024) := by omega
        simp [selectNet, this]
      · simp [selectNet, Nat.not_le.2 h]
      · have h0 : mode ≠ 0#8 := fun h0 => by simp [h0] at h
        have h1 : mode ≠ 1#8 := fun h1 => by simp [h1] at h
        simp [selectNet, h0, h1]
    refine exec_answered_unchanged .readNet tag _ s _ hs (by simp) (answered_eq ((doReadNet_eq hn mode _).trans ?_))
    simp only [Request.code, hselect]

end Sys2Proof.Machine
end

section
/-! PROOFS. The card link: the replies it accepts, enumeration up to its close, and the ACK to a SET (2.2–2.5, 3.4). -/

namespace Sys2Proof.Machine

open Sys2Proof

/-! ### Frames that are accepted (R21) -/

theorem Exchange.accepts_iff (e : Exchange) (f : CardFrame) : e.accepts f = true ↔
    f.crc = crc16 (frameBody f) ∧ f.toController = true ∧ e.sent.replyDue = some f.kind ∧
      e.sent.addrDue f.addr.toNat = true ∧ (e.sent.seqExempt = true ∨ f.seq = e.seq) ∧
      f.payload.length = e.sent.replyLength := by
  simp only [Exchange.accepts, Bool.and_eq_true, Bool.or_eq_true, beq_iff_eq, decide_eq_true_eq, and_assoc]

theorem State.accepted_none {s : State} {f : CardFrame} (h : ∀ e, s.link.exchange = some e → e.accepts f = false) :
    s.accepted f = none := by
  unfold State.accepted
  split
  · rfl
  · next e he => rw [h e he]; rfl

/-- Settles O32: each check by the kind of the exchange, and what a frame that is not accepted does. -/
theorem onlyTheReplyDueIsAccepted : Obligations.OnlyTheReplyDueIsAccepted := by
  refine ⟨fun e f => ?_, fun f s => ⟨rfl, fun hno => ?_⟩⟩
  · rw [e.accepts_iff f]
    have hkind (k : Byte) : (some k = some f.kind) ↔ f.kind = k := by rw [Option.some.injEq, eq_comm]
    cases e.sent <;>
      simp only [Sent.replyDue, Sent.addrDue, Sent.seqExempt, Sent.replyLength, hkind, beq_iff_eq, Bool.and_eq_true,
        decide_eq_true_eq, true_or, true_and, false_or, reduceCtorEq, false_and, and_false, and_assoc, Bool.false_eq_true]
  · have hnone := State.accepted_none hno
    refine ⟨?_, ?_, ?_, ?_, ?_⟩
    · show execIdentReceived f s = _
      rw [execIdentReceived, hnone]
    · show execSetAck f s = _
      rw [execSetAck, hnone]
    · show execAttnReplyReceived f s = _
      rw [execAttnReplyReceived, hnone]
    · show execAttnClearAck f s = _
      rw [execAttnClearAck, hnone]
    · show execStatusReplyReceived f s = _
      rw [execStatusReplyReceived, hnone]

section
variable {s : State} {f : CardFrame}

theorem exec_identReceived {a : Nat} (h : s.accepted f = some (.assign a)) :
    exec (.identReceived f) s = .next (s.identTaken a f.payload).dispatch := by
  show execIdentReceived f s = _
  rw [execIdentReceived, h]

theorem exec_setAck {p : Nat} {items : List (Nat × Rail)} (h : s.accepted f = some (.set p items)) :
    exec (.setAck f) s = .next (s.setAcked p items).dispatch := by
  show execSetAck f s = _
  rw [execSetAck, h]

theorem exec_attnReplyReceived (h : s.accepted f = some .attnQuery) :
    exec (.attnReplyReceived f) s = .next (s.attnReply f.addr.toNat f.payload).dispatch := by
  show execAttnReplyReceived f s = _
  rw [execAttnReplyReceived, h]

theorem exec_attnClearAck {p : Nat} (h : s.accepted f = some (.attnClear p)) :
    exec (.attnClearAck f) s = .next s.attentionOver.dispatch := by
  show execAttnClearAck f s = _
  rw [execAttnClearAck, h]

theorem exec_statusReplyReceived {p : Nat} (h : s.accepted f = some (.status p)) :
    exec (.statusReplyReceived f) s = .next (s.statusReply p f.payload).dispatch := by
  show execStatusReplyReceived f s = _
  rw [execStatusReplyReceived, h]

end

/-! ### Enumeration (R28, R29) -/

/-- While an enumeration runs nothing is handed over. -/
theorem State.dispatch_enumerating {s : State} (h : s.enumerating = true) : s.dispatch = s := by
  unfold State.dispatch State.handOver
  rw [if_pos (by simp [State.handOverBlocked, h])]

theorem State.enumerating_of {s : State} (h : s.link.enumPhase ≠ .idle) : s.enumerating = true := by
  unfold State.enumerating
  cases hp : s.link.enumPhase <;> simp_all

/-- A break that waits for the link begins with its end. -/
theorem State.attentionOver_waitLink {s : State} (h : s.link.enumPhase = .waitLink) : s.attentionOver =
    { s with link := { s.link with exchange := none, replyTimer := none, enumPhase := .linkBreak, discovered := [] } } := by
  unfold State.attentionOver State.linkFree
  rw [if_pos (by exact h)]
  rfl

theorem doEnumerate_nil {s : State} (hact : s.jobActive = false) (hslot : s.matrix.slot = .empty)
    (hrail : s.hv.rail = .safe) : doEnumerate [] s =
      (State.endWait (State.startEnum { s with host := { s.host with carried := some .enumerate } } true), none) := by
  simp [doEnumerate, hact, hslot, hrail, Slot.isEmpty]

/-! ### Sweeps (R41) -/

theorem mem_positions {p : Nat} : p ∈ positions ↔ 1 ≤ p ∧ p ≤ 32 := by
  simp only [positions, List.mem_range'_1]
  omega

theorem State.sweepFrom_end {s : State} {p : Nat} (h : ∀ r, p < r → r ≤ 32 → s.sweepable r = false) :
    s.sweepFrom p = State.attentionOver { s with link := { s.link with pollBlocked := true } } := by
  have hnone : positions.find? (fun q => decide (p < q) && s.sweepable q) = none := by
    rw [List.find?_eq_none]
    intro q hq
    by_cases hlt : p < q
    · simp [h q hlt (mem_positions.1 hq).2]
    · simp [hlt]
  rw [State.sweepFrom, hnone]

/-- The first element of a rising run that meets a test. -/
theorem find_range' {P : Nat → Bool} {q : Nat} : ∀ {n a : Nat}, a ≤ q → q < a + n → P q = true →
    (∀ r, a ≤ r → r < q → P r = false) → (List.range' a n).find? P = some q
  | 0, a, h1, h2, _, _ => by omega
  | n + 1, a, h1, h2, hq, hno => by
    rw [List.range'_succ]
    by_cases ha : a = q
    · subst ha
      exact List.find?_cons_of_pos hq
    · rw [List.find?_cons_of_neg (by simp [hno a le_rfl (by omega)])]
      exact find_range' (by omega) (by omega) hq fun r h3 h4 => hno r (by omega) h4

theorem State.sweepFrom_next {s : State} {p q : Nat} (h1 : p < q) (h2 : q ≤ 32) (hq : s.sweepable q = true)
    (h : ∀ r, p < r → r < q → s.sweepable r = false) : s.sweepFrom p = s.sendCard (.status q) := by
  have hfind : positions.find? (fun r => decide (p < r) && s.sweepable r) = some q := by
    refine find_range' (by omega) (by omega) (by simp [h1, hq]) fun r _ hr => ?_
    by_cases hlt : p < r
    · simp [h r hlt hr]
    · simp [hlt]
  rw [State.sweepFrom, hfind]

theorem discoveredOf_bytes (k b1 b2 b3 b4 r : Byte) : discoveredOf [k, b1, b2, b3, b4, r] =
    some ⟨if k = 0x01#8 then .lv128 else if k = 0x02#8 then .hv64 else .other,
      16777216 * b1.toNat + 65536 * b2.toNat + 256 * b3.toNat + b4.toNat, r.toNat⟩ := by
  have hserial : u32 b4 b3 b2 b1 = 16777216 * b1.toNat + 65536 * b2.toNat + 256 * b3.toNat + b4.toNat := by
    simp only [u32]
    omega
  simp only [discoveredOf, hserial, kindOf]

/-- An accepted IDENT below position 32 is entered and the next address assigned (R29). -/
theorem State.identTaken_next {s : State} {a : Nat} {p : List Byte} {d : Discovered} (hd : discoveredOf p = some d)
    (ha : a < 32) : s.identTaken a p = { s with link := { s.link with
      discovered := s.link.discovered ++ [d]
      exchange := some ⟨.assign (a + 1), false, false⟩
      replyTimer := some s.link.replyTimeout } } := by
  rw [State.identTaken, hd]
  exact if_neg (Nat.not_le.2 ha)

/-- Settles O30: the start in its two forms, the end of what it waited for, and the frames of the enumeration. -/
theorem enumerationBreaksAndAssigns : Obligations.EnumerationBreaksAndAssigns := by
  refine ⟨fun tag s hs hact hslot hrail hex => ?_, fun s hst hrail hact hslot hph hex => ?_,
    fun e s hact hslot hrail hex => ⟨fun tag hs => ?_, fun hst hph => ?_⟩,
    fun f p s hph => ⟨fun hf => ?_, fun ch hf hpl hno => ?_⟩, fun s hph => ?_,
    fun a k b1 b2 b3 b4 r f s hf ha hph hpl => ?_⟩
  · have hdo := doEnumerate_nil (s := s.handed 0x12#8 tag []) hact hslot hrail
    refine (exec_taken .enumerate tag [] s _ hs (by simp) hdo ?_).trans ?_
    · simp [State.startEnum, State.handed, hex, State.startBreak, State.endWait]
    · simp [State.startEnum, State.handed, hex, State.startBreak, State.endWait]
  · refine congrArg Host.Outcome.next ((if_pos ?_).trans ?_)
    · simp [hst, hrail, hact, hslot, Slot.isEmpty, State.enumerating, hph]
    · simp [State.startEnum, hex, State.startBreak]
  · have hdo := doEnumerate_nil (s := s.handed 0x12#8 tag []) hact hslot hrail
    refine (exec_taken .enumerate tag [] s _ hs (by simp) hdo ?_).trans ?_
    · simp [State.startEnum, State.handed, hex, State.endWait]
    · simp [State.startEnum, State.handed, hex, State.endWait]
  · refine congrArg Host.Outcome.next ((if_pos ?_).trans ?_)
    · simp [hst, hrail, hact, hslot, Slot.isEmpty, State.enumerating, hph]
    · simp [State.startEnum, hex]
  · rw [exec_attnClearAck hf, State.attentionOver_waitLink hph]
    exact congrArg _ (State.dispatch_enumerating (State.enumerating_of (by simp)))
  · rw [exec_statusReplyReceived hf, hpl]
    show Host.Outcome.next (State.dispatch (s.sweepFrom p)) = _
    rw [State.sweepFrom_end hno, State.attentionOver_waitLink (by exact hph)]
    exact congrArg _ (State.dispatch_enumerating (State.enumerating_of (by simp)))
  · exact congrArg Host.Outcome.next ((if_pos hph).trans rfl)
  · rw [exec_identReceived hf, hpl, State.identTaken_next (discoveredOf_bytes k b1 b2 b3 b4 r) ha]
    exact congrArg _ (State.dispatch_enumerating (State.enumerating_of (by
      show s.link.enumPhase ≠ _
      simp [hph])))

/-! ### Dealing with the positions of a plan (R47, R51) -/

/-- A position that a plan passes over: nothing to change, or not PRESENT where the plan does not ask for it. -/
def State.passes (s : State) (t : Taken) (q : Nat) : Prop :=
  s.changeList t q = [] ∨
    ((s.posn q).state ≠ .present ∧ (t.plan.body.skipsAbsent = true ∨ t.names q = false))

theorem State.dealFrom_pass {s : State} {t : Taken} {pos : Nat} (h : s.passes t pos) (fuel : Nat) (touched : List Nat) :
    State.dealFrom (fuel + 1) t pos touched s = State.dealFrom fuel t (pos + 1) touched s := by
  rcases h with h | ⟨h1, h2⟩
  · exact if_pos (by simp [h])
  · by_cases hc : s.changeList t pos = []
    · exact if_pos (by simp [hc])
    · exact (if_neg (by simpa using hc)).trans ((if_neg h1).trans (if_pos (by rcases h2 with h2 | h2 <;> simp [h2])))

theorem State.dealFrom_done {s : State} {t : Taken} {touched : List Nat} : ∀ {fuel pos : Nat},
    (∀ q, pos ≤ q → q < pos + fuel → s.passes t q) → State.dealFrom fuel t pos touched s = s.dealt t touched
  | 0, _, _ => rfl
  | fuel + 1, pos, h => by
    rw [State.dealFrom_pass (h pos le_rfl (by omega))]
    exact State.dealFrom_done fun q h1 h2 => h q (by omega) (by omega)

theorem State.dealFrom_sends {s : State} {t : Taken} {touched : List Nat} {q : Nat} (hc : s.changeList t q ≠ [])
    (hp : (s.posn q).state = .present) (hx : s.link.exchange = none) : ∀ {fuel pos : Nat}, pos ≤ q → q < pos + fuel →
      (∀ r, pos ≤ r → r < q → s.passes t r) → State.dealFrom fuel t pos touched s =
        ((s.setSlot (.sending t q touched)).sendCard (.set q (s.changeList t q)), none)
  | 0, _, h1, h2, _ => by omega
  | fuel + 1, pos, h1, h2, h => by
    by_cases hq : pos = q
    · subst hq
      refine (if_neg (by simpa using hc)).trans ((if_pos hp).trans (if_neg (by simp [hx])))
    · rw [State.dealFrom_pass (h pos le_rfl (by omega))]
      exact State.dealFrom_sends hc hp hx (by omega) (by omega) fun r h3 h4 => h r (by omega) h4

/-- The image after a SET: each listed channel of the position has its rail. -/
theorem tget_writeImage_find {p : Nat} {c : Chan} (hc : c.ch ≤ 127) : ∀ (items : List (Nat × Rail))
    (im : List (Nat × Rail)), (items.map (·.1)).Nodup → (∀ it ∈ items, it.1 ≤ 127) →
      tget (writeImage im p items) c.key = match items.find? (fun it => c.pos = p ∧ it.1 = c.ch) with
        | some it => some it.2
        | none => tget im c.key
  | [], _, _, _ => rfl
  | i :: l, im, hn, hi => by
    obtain ⟨hni, hnl⟩ := List.nodup_cons.1 hn
    have hib : i.1 ≤ 127 := hi i (List.mem_cons_self ..)
    have hkey : c.key = p * 128 + i.1 ↔ c.pos = p ∧ i.1 = c.ch := by
      unfold Chan.key
      omega
    have ih := tget_writeImage_find (p := p) hc l (tset im (p * 128 + i.1) i.2) hnl fun it h => hi it (List.mem_cons_of_mem _ h)
    refine ih.trans ?_
    rw [tget_tset]
    by_cases h : c.pos = p ∧ i.1 = c.ch
    · have hnone : l.find? (fun it => c.pos = p ∧ it.1 = c.ch) = none := List.find?_eq_none.2 fun it hit => by
        have hne : it.1 ≠ i.1 := fun he => hni (List.mem_map.2 ⟨it, hit, he⟩)
        simp only [decide_eq_true_eq]
        omega
      rw [hnone, if_pos (hkey.2 h), List.find?_cons_of_pos (by simpa using h)]
    · rw [if_neg (mt hkey.1 h), List.find?_cons_of_neg (by simpa using h)]

/-- An end of a plan's work on the link that leaves it in the slot reports nothing. -/
theorem delivered_reports_none (who : Issuer) (s : State) : State.delivered (reports who (s, none)) = s := rfl

/-- The state after the ACK to a SET, before the next position is dealt with. -/
def State.acked (s : State) (p : Nat) (items : List (Nat × Rail)) : State :=
  { s with
    link := { s.link with exchange := none, replyTimer := none }
    matrix := { s.matrix with image := writeImage s.matrix.image p items } }

theorem State.setAcked_sending {s : State} {t : Taken} {pos : Nat} {touched : List Nat} (p : Nat)
    (items : List (Nat × Rail)) (h : s.matrix.slot = .sending t pos touched) : s.setAcked p items =
      State.delivered (reports t.plan.issuer ((s.acked p items).dealRest t (p + 1) (touched ++ [p]))) := by
  have hslot : (s.acked p items).matrix.slot = .sending t pos touched := h
  show (match (s.acked p items).matrix.slot with
    | .sending t _ touched => State.delivered (reports t.plan.issuer ((s.acked p items).dealRest t (p + 1) (touched ++ [p])))
    | .empty => s.acked p items
    | .held _ => s.acked p items
    | .settling _ _ _ => s.acked p items) = _
  rw [hslot]

theorem State.dealt_touched {s : State} {t : Taken} {touched : List Nat} (h : touched ≠ []) :
    s.dealt t touched = (s.setSlot (.settling t touched ((touched.map s.settleOf).foldl max 0)), none) := by
  cases touched with
  | nil => exact absurd rfl h
  | cons _ _ => rfl

/-- Settles O33: the image, and what the positions behind the acknowledged one find. -/
theorem setAckAdvancesThePlan : Obligations.SetAckAdvancesThePlan := by
  intro p items t pos touched f s hf hslot hp hw
  refine ⟨writeImage s.matrix.image p items, s.acked p items, rfl, fun hn hi c hc =>
    tget_writeImage_find hc items _ hn hi, fun hnone => ?_, fun q h1 h2 hno hc hpres => ?_⟩
  · have hdeal : (s.acked p items).dealRest t (p + 1) (touched ++ [p]) = _ :=
      (State.dealFrom_done fun q h1 h2 => .inl (hnone q (by omega) (by omega))).trans (State.dealt_touched (by simp))
    rw [exec_setAck hf, State.setAcked_sending p items hslot, hdeal, delivered_reports_none]
    exact congrArg _ (State.dispatch_idle _ hw)
  · have hdeal : (s.acked p items).dealRest t (p + 1) (touched ++ [p]) = _ :=
      State.dealFrom_sends hc hpres rfl (by omega) (by omega) fun r h3 h4 => .inl (hno r (by omega) h4)
    rw [exec_setAck hf, State.setAcked_sending p items hslot, hdeal, delivered_reports_none]
    exact congrArg _ (State.dispatch_idle _ hw)

end Sys2Proof.Machine
end

section
/-! PROOFS. The close of an enumeration (2.5, 2.6). -/

namespace Sys2Proof.Machine

open Sys2Proof

/-! ### A reply that waits or goes out -/

/-- The one slot has its reply, ready or in transmission. -/
def State.Replied (s : State) (k t : Byte) (p r : List Byte) : Prop :=
  ∃ ph : SlotPhase, (ph = .ready r ∨ ph = .sending r) ∧ s.host.slots = [⟨k, t, p, ph⟩]

section
variable {s : State} {k t : Byte} {p r : List Byte}

theorem State.Replied.txKick (h : s.Replied k t p r) : s.txKick.Replied k t p r := by
  obtain ⟨ph, hph, hs⟩ := h
  cases htx : s.host.tx with
  | some f => rw [State.txKick_busy htx]; exact ⟨ph, hph, hs⟩
  | none =>
    rcases hph with rfl | rfl
    · have htake : takeReply s.host.slots = some ([⟨k, t, p, .sending r⟩], ⟨true, hostFrame (replyKind k) t r⟩) := by
        rw [hs]
        rfl
      rw [State.txKick_reply htx htake]
      exact ⟨_, .inr rfl, rfl⟩
    · have htake : takeReply s.host.slots = none := by rw [hs]; rfl
      exact ⟨_, .inr rfl, ((Quiet.txKick s).slots htake).trans hs⟩

theorem State.Replied.raise (h : s.Replied k t p r) (e : Event) : (s.raise e).Replied k t p r := by
  unfold State.raise
  dsimp only
  split
  · exact h
  · exact State.Replied.txKick h

theorem State.Replied.examineHead (h : s.Replied k t p r) : s.examineHead.Replied k t p r := by
  unfold State.examineHead
  split
  · split
    · exact h
    · exact State.Replied.raise (s := { s with queue := { s.queue with stallWait := true } }) h _
  · exact h

theorem State.Replied.compose (hs : s.host.slots = [⟨k, t, p, .carried⟩]) (r : List Byte) :
    (s.compose r).Replied k t p r := by
  obtain ⟨ph, tx, hph, h⟩ := State.compose_one hs r
  rw [h]
  exact ⟨ph, hph, rfl⟩

end

/-! ### The mismatches (R30, R31) -/

/-- The states of a run of mismatches differ on the side of the part that reports. -/
theorem Quiet.mismatches (l : List Nat) : ∀ s : State, Quiet s (l.foldl State.mismatch s) := by
  induction l with
  | nil => exact Quiet.refl
  | cons p l ih => exact fun s => ((Quiet.appendSystem _ _).trans (Quiet.raise _ _)).trans (ih (s.mismatch p))

theorem mismatches_pending {l : List Nat} (h : l ≠ []) : ∀ s : State,
    (l.foldl State.mismatch s).events.pending.getLsbD 6 = true := by
  cases l with
  | nil => exact absurd rfl h
  | cons p l => exact fun s => (Quiet.mismatches l (s.mismatch p)).raised 6 (State.raise_isPending _ .roster)

theorem Logged.mismatches (l : List Nat) : ∀ s : State, s.printer.state ≠ .idle → s.log.reporting = true →
    s.log.entries.length + l.length ≤ 256 →
    Logged s (l.foldl State.mismatch s) (l.map fun p => mismatchRec p (s.posn p)) := by
  induction l with
  | nil => exact fun s _ _ _ => Logged.refl s
  | cons p l ih =>
    intro s hp hr hroom
    rw [List.length_cons] at hroom
    have happend := State.appendSystem_taken hp (by omega) (mismatchRec p (s.posn p))
    have hstep : Logged s (s.mismatch p) [mismatchRec p (s.posn p)] := by
      rw [State.mismatch, happend]
      exact (Logged.take hr _).trans (Logged.raise _ _)
    have hposn (q : Nat) : (s.mismatch p).posn q = s.posn q := by
      have hmatrix : (s.mismatch p).matrix = s.matrix :=
        ((Quiet.appendSystem s _).trans (Quiet.raise _ _)).matrix
      rw [State.posn, hmatrix]
      rfl
    have hrest := ih (s.mismatch p) (by rw [hstep.printer]; exact hp) (by rw [hstep.reporting]; exact hr) (by
      rw [hstep.entries, List.length_append, stamped_length]
      simp
      omega)
    simp only [hposn] at hrest
    exact hstep.trans hrest

/-! ### The new roster and image (R30–R32) -/

/-- The kind found at a position. -/
def kindFound (disc : List Discovered) (p : Nat) : CardKind :=
  match disc[p - 1]? with
  | some d => d.kind
  | none => .none

/-- A position where the kind found is not the one due. -/
def State.badAt (s : State) (disc : List Discovered) (p : Nat) : Bool :=
  if s.matrix.frozen then decide ((s.posn p).expected ≠ kindFound disc p) else decide (kindFound disc p = .other)

/-- The roster entry that the enumeration gives a position. -/
def State.entryFor (s : State) (p : Nat) : RosterEntry :=
  (compareAt s.matrix.frozen (s.posn p) (s.link.discovered[p - 1]?)).1

theorem State.compareAt_bad (s : State) (p : Nat) :
    (compareAt s.matrix.frozen (s.posn p) (s.link.discovered[p - 1]?)).2 = s.badAt s.link.discovered p := by
  unfold compareAt State.badAt kindFound
  cases s.link.discovered[p - 1]? <;> cases s.matrix.frozen <;> simp

theorem State.entryFor_none {s : State} {p : Nat} (h : s.link.discovered[p - 1]? = none) :
    s.entryFor p = ⟨.absent, .none, 0, 0, (s.posn p).expected⟩ := by
  rw [State.entryFor, h]
  rfl

theorem State.entryFor_some {s : State} {p : Nat} {d : Discovered} (h : s.link.discovered[p - 1]? = some d) :
    s.entryFor p = ⟨if s.badAt s.link.discovered p then .mismatch else .present, d.kind, d.serial, d.revision,
      (s.posn p).expected⟩ := by
  rw [← State.compareAt_bad, State.entryFor, h]
  simp only [compareAt, RosterEntry.mk.injEq, and_true]
  cases s.matrix.frozen <;> simp

theorem State.entryFor_expected (s : State) (p : Nat) : (s.entryFor p).expected = (s.posn p).expected := by
  cases h : s.link.discovered[p - 1]? with
  | none => rw [State.entryFor_none h]
  | some d => rw [State.entryFor_some h]

theorem State.entryFor_kind (s : State) (p : Nat) : (s.entryFor p).kind = kindFound s.link.discovered p := by
  unfold kindFound
  cases h : s.link.discovered[p - 1]? with
  | none => rw [State.entryFor_none h]
  | some d => rw [State.entryFor_some h]

/-- The state with the new roster. -/
def State.rostered (s : State) : State :=
  { s with matrix := { s.matrix with roster := positions.map s.entryFor } }

/-- The state with the new roster and its image. -/
def State.enumerated (s : State) : State := s.rostered.setImage s.rostered.enumImage

theorem State.enumerated_posn {s : State} {p : Nat} (h1 : 1 ≤ p) (h2 : p ≤ 32) : s.enumerated.posn p = s.entryFor p := by
  show (positions.map s.entryFor).getD (p - 1) RosterEntry.empty = _
  have hget : positions[p - 1]? = some p := by
    rw [positions, List.getElem?_range' (by omega)]
    congr 1
    omega
  rw [List.getD_eq_getElem?_getD, List.getElem?_map, hget]
  rfl

theorem State.compareRoster_eq (s : State) : s.compareRoster =
    (positions.filter (s.badAt s.link.discovered)).foldl State.mismatch s.enumerated := by
  have hlist : (((positions.map fun p => (p, compareAt s.matrix.frozen (s.posn p) (s.link.discovered[p - 1]?))).filter
      (·.2.2)).map (·.1)) = positions.filter (s.badAt s.link.discovered) := by
    rw [List.filter_map, List.map_map]
    simp only [Function.comp_def, State.compareAt_bad, List.map_id']
  have hroster : (positions.map fun p => (p, compareAt s.matrix.frozen (s.posn p) (s.link.discovered[p - 1]?))).map
      (·.2.1) = positions.map s.entryFor := List.map_map
  rw [← hlist, List.foldl_map]
  unfold State.compareRoster
  dsimp only
  rw [hroster]
  rfl

/-- The image of a channel at the close (R32). -/
theorem State.enumImage_read {s : State} (hw : tableWf s.matrix.image = true) {c : Chan} (h1 : 1 ≤ c.pos)
    (h2 : c.pos ≤ 32) (hc : c.ch ≤ 127) : tget s.enumImage c.key =
      if (s.posn c.pos).state = .present ∧ c.ch < (s.posn c.pos).kind.channels then some .opn else none := by
  have hwf := s.enumImage_wf hw
  have hmem (v : Rail) : (c.key, v) ∈ s.enumImage ↔
      v = .opn ∧ (s.posn c.pos).state = .present ∧ c.ch < (s.posn c.pos).kind.channels := by
    have hlow : (c.key, v) ∉ s.matrix.image.filter (fun e => decide (e.1 < 128)) := fun h => by
      have hlt : c.pos * 128 + c.ch < 128 := of_decide_eq_true (List.mem_filter.1 h).2
      omega
    unfold State.enumImage
    rw [List.mem_append, or_iff_right hlow, List.mem_flatMap]
    constructor
    · rintro ⟨p, -, hp⟩
      split at hp
      · next hpres =>
        obtain ⟨k, hk, he⟩ := List.mem_map.1 hp
        rw [List.mem_range] at hk
        have hch := (s.posn p).kind.channels_le
        simp only [Prod.mk.injEq, Chan.key] at he
        obtain rfl : p = c.pos := by omega
        obtain rfl : k = c.ch := by omega
        exact ⟨he.2.symm, hpres, hk⟩
      · simp at hp
    · rintro ⟨rfl, hpres, hk⟩
      refine ⟨c.pos, mem_positions.2 ⟨h1, h2⟩, ?_⟩
      rw [if_pos hpres]
      exact List.mem_map.2 ⟨c.ch, List.mem_range.2 hk, rfl⟩
  split
  · next h => exact (tget_iff _ _ _ hwf).2 ((hmem _).2 ⟨rfl, h⟩)
  · next h => exact (tget_none_iff _ _ hwf).2 fun v hv => h ((hmem v).1 hv).2

/-- The reference channels keep their image values. -/
theorem State.enumImage_reference {s : State} (hw : tableWf s.matrix.image = true) {k : Nat} (hk : k < 128) :
    tget s.enumImage k = tget s.matrix.image k := by
  have hwf := s.enumImage_wf hw
  have hmem (v : Rail) : (k, v) ∈ s.enumImage ↔ (k, v) ∈ s.matrix.image := by
    have hhigh : (k, v) ∉ positions.flatMap (fun p => if (s.posn p).state = .present then
        (List.range (s.posn p).kind.channels).map (fun k => (p * 128 + k, Rail.opn)) else []) := fun h => by
      obtain ⟨p, hp, hm⟩ := List.mem_flatMap.1 h
      have hp1 := (mem_positions.1 hp).1
      split at hm
      · obtain ⟨j, -, he⟩ := List.mem_map.1 hm
        simp only [Prod.mk.injEq] at he
        omega
      · simp at hm
    rw [State.enumImage, List.mem_append, or_iff_left hhigh, List.mem_filter]
    simp [hk]
  cases h : tget s.matrix.image k with
  | none => exact (tget_none_iff _ _ hwf).2 fun v hv => (tget_none_iff _ _ hw).1 h v ((hmem v).1 hv)
  | some v => exact (tget_iff _ _ _ hwf).2 ((hmem v).2 (mem_of_tget _ _ _ h))

/-! ### The close (R32) -/

/-- The card link after an enumeration. -/
def Link.enumOver (l : Link) : Link :=
  { l with
    exchange := none, replyTimer := none, enumPhase := .idle, enumHost := false, discovered := []
    seqBits := List.replicate 32 false }

/-- The state before the head is examined. -/
def State.closing (s : State) : State :=
  let t := { s.compareRoster with link := s.link.enumOver }
  if s.link.enumHost then t.compose (reply .ok t.rosterBytes) else t

theorem State.compareRoster_quiet (s : State) : Quiet s.enumerated s.compareRoster := by
  rw [s.compareRoster_eq]
  exact Quiet.mismatches _ _

theorem State.closeEnum_eq (s : State) : s.closeEnum = s.closing.examineHead := by
  have hlink : s.compareRoster.link = s.link := s.compareRoster_quiet.link
  unfold State.closeEnum State.closing
  dsimp only
  rw [hlink]
  rfl

/-- Composing a reply changes the host link and lets its path take a frame. -/
theorem State.compose_quiet (s : State) (r : List Byte) : Quiet { s with host := { s.host with
    slots := s.host.slots.map (RxSlot.answer r), carried := none } } (s.compose r) := Quiet.txKick _

theorem State.compose_log (s : State) (r : List Byte) : (s.compose r).log = s.log := State.txKick_log _

theorem State.examineHead_log (s : State) : s.examineHead.log = s.log := by
  unfold State.examineHead
  split
  · split
    · rfl
    · exact State.raise_log _ _
  · rfl

theorem RxSlot.answer_notWaiting {r : RxSlot} (p : List Byte) (h : r.phase ≠ .waiting) :
    (r.answer p).phase ≠ .waiting := by
  unfold RxSlot.answer
  split
  · simp
  · exact h
  · exact h
  · exact h

/-- What is left of the state of an enumeration once it has closed. -/
structure Closed (s t : State) : Prop where
  link : t.link = s.link.enumOver
  matrix : t.matrix = s.enumerated.matrix
  hv : t.hv = s.hv
  lmu : t.lmu = s.lmu
  engine : t.engine = s.engine
  jobs : t.queue.jobs = s.queue.jobs
  log : t.log = s.compareRoster.log
  raised : ∀ n, s.compareRoster.events.pending.getLsbD n = true → t.events.pending.getLsbD n = true
  notWaiting : (∀ r ∈ s.host.slots, r.phase ≠ .waiting) → ∀ r ∈ t.host.slots, r.phase ≠ .waiting

theorem State.closing_closed (s : State) : Closed s s.closing := by
  have hq := s.compareRoster_quiet
  unfold State.closing
  dsimp only
  split
  · have hc := State.compose_quiet { s.compareRoster with link := s.link.enumOver }
      (reply .ok (State.rosterBytes { s.compareRoster with link := s.link.enumOver }))
    refine ⟨hc.link, hc.matrix.trans hq.matrix, hc.hv.trans hq.hv, hc.lmu.trans hq.lmu, hc.engine.trans hq.engine,
      (congrArg Queue.jobs hc.queue).trans (congrArg Queue.jobs hq.queue), State.compose_log _ _, hc.raised,
      fun h => hc.notWaiting fun r hr => ?_⟩
    obtain ⟨x, hx, rfl⟩ := List.mem_map.1 hr
    exact RxSlot.answer_notWaiting _ (hq.notWaiting h x hx)
  · exact ⟨rfl, hq.matrix, hq.hv, hq.lmu, hq.engine, congrArg Queue.jobs hq.queue, rfl, fun _ h => h, hq.notWaiting⟩

theorem State.closeEnum_closed (s : State) : Closed s s.closeEnum := by
  have hc := s.closing_closed
  obtain ⟨w, hq⟩ := Quiet.examineHead s.closing
  rw [s.closeEnum_eq]
  exact ⟨hq.link.trans hc.link, hq.matrix.trans hc.matrix, hq.hv.trans hc.hv, hq.lmu.trans hc.lmu,
    hq.engine.trans hc.engine, (congrArg Queue.jobs hq.queue).trans hc.jobs, (State.examineHead_log _).trans hc.log,
    fun n h => hq.raised n (hc.raised n h), fun h => hq.notWaiting (hc.notWaiting h)⟩

/-- The start-up enumeration answers nothing. -/
theorem State.closeEnum_unasked {s : State} (hh : s.link.enumHost = false) (hs : s.host.slots = []) :
    s.closeEnum.host.slots = [] := by
  have hslots : s.compareRoster.host.slots = [] := (s.compareRoster_quiet.slots (by
    show takeReply s.host.slots = none
    rw [hs]
    rfl)).trans hs
  obtain ⟨w, hq⟩ := Quiet.examineHead s.closing
  have hclosing : s.closing.host.slots = [] := by
    rw [State.closing, hh]
    exact hslots
  rw [s.closeEnum_eq]
  refine (hq.slots ?_).trans hclosing
  show takeReply s.closing.host.slots = none
  rw [hclosing]
  rfl

/-- An ENUMERATE is answered with the roster. -/
theorem State.closeEnum_asked {s : State} {tag : Byte} {p : List Byte} (hh : s.link.enumHost = true)
    (hs : s.host.slots = [⟨0x12#8, tag, p, .carried⟩]) :
    s.closeEnum.Replied 0x12#8 tag p (0x00#8 :: s.enumerated.rosterBytes) := by
  have hslots : s.compareRoster.host.slots = [⟨0x12#8, tag, p, .carried⟩] := (s.compareRoster_quiet.slots (by
    show takeReply s.host.slots = none
    rw [hs]
    rfl)).trans hs
  have hbytes : State.rosterBytes { s.compareRoster with link := s.link.enumOver } = s.enumerated.rosterBytes :=
    congrArg (fun m : Matrix => flagByte m.frozen ++ m.roster.flatMap (RosterEntry.bytes m.frozen))
      s.compareRoster_quiet.matrix
  rw [s.closeEnum_eq]
  refine State.Replied.examineHead ?_
  unfold State.closing
  dsimp only
  rw [if_pos hh, hbytes]
  exact State.Replied.compose (s := { s.compareRoster with link := s.link.enumOver }) hslots _

/-- The two events that close an enumeration, as one. -/
theorem exec_closes {i : Instr} {disc : List Discovered} {s : State}
    (h : (i = .cardReplyTimeout ∧ disc = s.link.discovered ∧
        ∃ a q rs ms, s.link.exchange = some ⟨.assign a, q, rs⟩ ∧ s.link.replyTimer = some ms) ∨
      (∃ f k b1 b2 b3 b4 r, i = .identReceived f ∧ s.accepted f = some (.assign 32) ∧
        f.payload = [k, b1, b2, b3, b4, r] ∧
        disc = s.link.discovered ++ [⟨if k = 0x01#8 then .lv128 else if k = 0x02#8 then .hv64 else .other,
          16777216 * b1.toNat + 65536 * b2.toNat + 256 * b3.toNat + b4.toNat, r.toNat⟩])) :
    ∃ l : Link, l.discovered = disc ∧ l.enumHost = s.link.enumHost ∧ l.enumOver = s.link.enumOver ∧
      exec i s = .next (State.closeEnum { s with link := l }).dispatch := by
  rcases h with ⟨rfl, rfl, a, q, rs, ms, he, ht⟩ | ⟨f, k, b1, b2, b3, b4, r, rfl, hf, hpl, rfl⟩
  · refine ⟨s.link, rfl, rfl, rfl, ?_⟩
    show execCardReplyTimeout s = _
    rw [execCardReplyTimeout, he, ht]
    rfl
  · refine ⟨{ s.link.endExchange with discovered := s.link.discovered ++ [_] }, rfl, rfl, rfl, ?_⟩
    rw [exec_identReceived hf, hpl, State.identTaken, discoveredOf_bytes]
    rfl

/-- Settles O31: the roster, the image, the records and the answer of the close. -/
theorem enumerationCloses : Obligations.EnumerationCloses := by
  intro i disc s hw hwait hi
  obtain ⟨l, hdisc, hhost, hover, hexec⟩ := exec_closes hi
  have hc := State.closeEnum_closed { s with link := l }
  have hbad (p : Nat) : State.badAt { s with link := l } disc p = s.badAt disc p := rfl
  have hposn {p : Nat} (h1 : 1 ≤ p) (h2 : p ≤ 32) :
      (State.closeEnum { s with link := l }).posn p = State.entryFor { s with link := l } p :=
    (congrArg (fun m : Matrix => m.roster.getD (p - 1) RosterEntry.empty) hc.matrix).trans (State.enumerated_posn h1 h2)
  have hmism := State.compareRoster_eq { s with link := l }
  rw [hdisc] at hmism
  rw [State.dispatch_idle _ (hc.notWaiting hwait)] at hexec
  refine ⟨_, kindFound disc, s.badAt disc, hexec, fun p => rfl, fun p => rfl, hc.link.trans hover,
    (congrArg Matrix.frozen hc.matrix).trans rfl, (congrArg Matrix.blocked hc.matrix).trans rfl, (congrArg Matrix.slot hc.matrix).trans rfl, hc.hv, hc.lmu,
    hc.engine, hc.jobs, fun p h1 h2 => ⟨fun hn => ?_, fun d hd => ?_⟩, fun c h1 h2 hch => ?_, fun k hk => ?_,
    fun p h1 h2 hb => ?_, fun hp hr hroom => ?_, fun hh hs => State.closeEnum_unasked (hhost.trans hh) hs,
    fun tag pl hh hs => ?_⟩
  · rw [hposn h1 h2]
    exact State.entryFor_none (by rw [← hdisc] at hn; exact hn)
  · rw [hposn h1 h2, State.entryFor_some (by rw [← hdisc] at hd; exact hd), hdisc]
    rfl
  · rw [hposn h1 h2, State.imageOf, hc.matrix]
    refine (State.enumImage_read (s := State.rostered { s with link := l }) hw h1 h2 hch).trans ?_
    rw [show (State.rostered { s with link := l }).posn c.pos = _ from State.enumerated_posn h1 h2]
  · rw [State.imageOf, hc.matrix]
    exact State.enumImage_reference (s := State.rostered { s with link := l }) hw (by simp [Chan.key]; omega)
  · refine hc.raised 6 ?_
    rw [hmism]
    exact mismatches_pending (List.ne_nil_of_mem (List.mem_filter.2 ⟨mem_positions.2 ⟨h1, h2⟩, hb⟩)) _
  · have hlog := Logged.mismatches (positions.filter (s.badAt disc)) (State.enumerated { s with link := l }) hp hr hroom
    rw [hc.log, hmism]
    refine (congrArg (List.map (·.data)) hlog.entries).trans ?_
    rw [List.map_append, stamped_data]
    refine congrArg (_ ++ ·) (List.map_congr_left fun p hpm => ?_)
    obtain ⟨h1, h2⟩ := mem_positions.1 (List.mem_filter.1 hpm).1
    rw [mismatchRec, State.enumerated_posn h1 h2, State.entryFor_expected, State.entryFor_kind, hdisc]
    rfl
  · obtain ⟨ph, hph, hslots⟩ := State.closeEnum_asked (s := { s with link := l }) (hhost.trans hh) hs
    refine ⟨_, ph, rfl, ?_, hslots⟩
    rw [hc.matrix]
    exact hph

end Sys2Proof.Machine
end

section
/-! PROOFS. Plans: how one is taken, refused nothing, and enters SENDING (3.2–3.4). -/

namespace Sys2Proof.Machine

open Sys2Proof

/-! ### What a plan is examined against -/

/-- The parts of the state that the examination and the sending of a plan read. -/
def State.switchView (s : State) : State :=
  { State.reset with
    matrix := s.matrix, link := s.link, hv := s.hv, store := { State.reset.store with map := s.store.map } }

section
variable {s u : State} (h : u.switchView = s.switchView)
include h

theorem State.stepTaken_view (ts : List (Nat × Rail)) : u.stepTaken ts = s.stepTaken ts := by
  show u.switchView.stepTaken ts = s.switchView.stepTaken ts
  rw [h]

theorem State.checkTarget_view (x : Nat × Rail) : u.checkTarget x = s.checkTarget x := by
  show u.switchView.checkTarget x = s.switchView.checkTarget x
  rw [h]

theorem State.sendsTo_view (ts : List (Nat × Rail)) (p : Nat) : u.sendsTo ts p ↔ s.sendsTo ts p := by
  show u.switchView.sendsTo ts p ↔ s.switchView.sendsTo ts p
  rw [h]

theorem State.unchangedBy_view (ts : List (Nat × Rail)) : u.unchangedBy ts ↔ s.unchangedBy ts := by
  show u.switchView.unchangedBy ts ↔ s.switchView.unchangedBy ts
  rw [h]

theorem State.refChanges_view (t : Taken) : u.refChanges t = s.refChanges t := by
  show u.switchView.refChanges t = s.switchView.refChanges t
  rw [h]

theorem State.changeList_view (t : Taken) (p : Nat) : u.changeList t p = s.changeList t p := by
  show u.switchView.changeList t p = s.switchView.changeList t p
  rw [h]

theorem State.planSent_view (t : Taken) (p : Nat) :
    (u.planSent t p).matrix = (s.planSent t p).matrix ∧ (u.planSent t p).link = (s.planSent t p).link := by
  show (u.switchView.planSent t p).matrix = (s.switchView.planSent t p).matrix ∧
    (u.switchView.planSent t p).link = (s.switchView.planSent t p).link
  rw [h]
  exact ⟨rfl, rfl⟩

end

theorem State.switchView_of {s u : State} (hm : u.matrix = s.matrix) (hl : u.link = s.link) (hh : u.hv = s.hv)
    (hmap : u.store.map = s.store.map) : u.switchView = s.switchView := by
  unfold State.switchView
  rw [hm, hl, hh, hmap]

/-! ### The switching of position 0 leaves the cards -/

theorem State.changeList_congr {s u : State} {p : Nat} (t : Taken) (hr : u.matrix.roster = s.matrix.roster)
    (hb : u.matrix.blocked = s.matrix.blocked) (hi : ∀ k, u.imageOf ⟨p, k⟩ = s.imageOf ⟨p, k⟩) :
    u.changeList t p = s.changeList t p := by
  have hposn (q : Nat) : u.posn q = s.posn q := by rw [State.posn, State.posn, hr]
  have hblocked (c : Chan) : u.isBlocked c = s.isBlocked c := by rw [State.isBlocked, State.isBlocked, hb]
  have hallowed (c : Chan) (r : Rail) : u.railAllowed c r = s.railAllowed c r := by
    cases r <;> simp only [State.railAllowed, hposn]
  simp only [State.changeList, hposn, hblocked, hallowed, hi]

theorem tget_writeReferences {s : State} {t : Taken} (im : List (Nat × Rail)) {k : Nat} (hk : 4 ≤ k) :
    tget (writeImage im 0 (s.refChanges t)) k = tget im k := by
  rcases tget_writeImage 0 (s.refChanges t) k im with h | ⟨it, hit, he, -⟩
  · exact h
  · have := s.refChanges_lt t it hit
    omega

/-- The positions that a plan counts as touched once its reference channels are switched. -/
def State.refTouched (s : State) (t : Taken) : List Nat := if s.refChanges t = [] then [] else [0]

/-- The state in which a plan's cards are dealt with: the source off, position 0 switched (R46, R47). -/
def State.switched (s : State) (t : Taken) (x : Slot) : State :=
  { s with
    lmu := s.lmu.sourceOff
    matrix := { s.matrix with image := writeImage s.matrix.image 0 (s.refChanges t), slot := x } }

theorem State.imageOf_switched (s : State) (t : Taken) (x : Slot) {c : Chan} (hc : 1 ≤ c.pos) :
    (s.switched t x).imageOf c = s.imageOf c := by
  refine tget_writeReferences _ ?_
  unfold Chan.key
  omega

theorem State.changeList_switched (s : State) (t t' : Taken) (x : Slot) {p : Nat} (hp : 1 ≤ p) :
    (s.switched t x).changeList t' p = s.changeList t' p :=
  State.changeList_congr t' rfl rfl fun _ => State.imageOf_switched s t x hp

theorem State.passes_switched (s : State) (t t' : Taken) (x : Slot) {p : Nat} (hp : 1 ≤ p) (h : s.passes t' p) :
    (s.switched t x).passes t' p := by
  unfold State.passes at h ⊢
  rw [State.changeList_switched s t t' x hp]
  exact h

/-! ### Entering SENDING (R46–R50) -/

theorem State.refTouched_eq (s : State) (t : Taken) :
    (if (State.refChanges { s with lmu := s.lmu.sourceOff } t).isEmpty then [] else [0]) = s.refTouched t := by
  show (if (s.refChanges t).isEmpty then [] else [0]) = s.refTouched t
  unfold State.refTouched
  simp only [List.isEmpty_iff]

theorem State.enterSending_cards {s : State} {t : Taken} (ht : t.plan.body.isAllOpen = false) : s.enterSending t =
    (s.switched t (.sending t 1 (s.refTouched t))).dealRest t 1 (s.refTouched t) := by
  unfold State.enterSending
  dsimp only
  rw [if_neg (by simp [ht]), s.refTouched_eq t]
  rfl

/-- The first card with a change is sent its SET. -/
theorem State.enterSending_sends {s : State} {t : Taken} {p : Nat} (ht : t.plan.body.isAllOpen = false) (h1 : 1 ≤ p)
    (h2 : p ≤ 32) (hpass : ∀ r, 1 ≤ r → r < p → s.passes t r) (hc : s.changeList t p ≠ [])
    (hp : (s.posn p).state = .present) (hx : s.link.exchange = none) : s.enterSending t = (s.planSent t p, none) := by
  have hchange := State.changeList_switched s t t (.sending t 1 (s.refTouched t)) h1
  have hdeal : State.dealRest (s.switched t (.sending t 1 (s.refTouched t))) t 1 (s.refTouched t) = _ :=
    State.dealFrom_sends (s := s.switched t (.sending t 1 (s.refTouched t))) (by rw [hchange]; exact hc) hp hx h1 (by omega)
      fun r h3 h4 => State.passes_switched s t t _ h3 (hpass r h3 h4)
  rw [State.enterSending_cards ht, hdeal, hchange]
  rfl

/-- No card has a change. -/
theorem State.enterSending_done {s : State} {t : Taken} (ht : t.plan.body.isAllOpen = false)
    (hpass : ∀ r, 1 ≤ r → r ≤ 32 → s.passes t r) :
    s.enterSending t = (s.switched t (.sending t 1 (s.refTouched t))).dealt t (s.refTouched t) := by
  rw [State.enterSending_cards ht]
  exact State.dealFrom_done fun q h1 h2 => State.passes_switched s t t _ h1 (hpass q h1 (by omega))

/-- Nothing at all to change: the plan is complete at once. -/
theorem State.enterSending_none {s : State} {t : Taken} (ht : t.plan.body.isAllOpen = false)
    (hpass : ∀ r, 1 ≤ r → r ≤ 32 → s.passes t r) (href : s.refChanges t = []) :
    s.enterSending t = (s.switched t .empty, some (.complete 0)) := by
  rw [State.enterSending_done ht hpass, State.refTouched, if_pos href]
  rfl

/-- Reference channels alone to change: the slot settles for 1 ms. -/
theorem State.enterSending_refs {s : State} {t : Taken} (ht : t.plan.body.isAllOpen = false)
    (hpass : ∀ r, 1 ≤ r → r ≤ 32 → s.passes t r) (href : s.refChanges t ≠ []) :
    s.enterSending t = (s.switched t (.settling t [0] 1), none) := by
  rw [State.enterSending_done ht hpass, State.refTouched, if_neg href]
  rfl

/-- The all-open plan sends ALL_OPEN on a free link. -/
theorem State.enterSending_allOpen {s : State} {who : Issuer} {cs : List (Chan × Rail)} (hx : s.link.exchange = none) :
    s.enterSending ⟨⟨.allOpen, who⟩, cs⟩ =
      ((s.switched ⟨⟨.allOpen, who⟩, cs⟩ (.sending ⟨⟨.allOpen, who⟩, cs⟩ 0 (s.refTouched ⟨⟨.allOpen, who⟩, cs⟩))).sendCard
        .allOpen, none) := by
  unfold State.enterSending
  dsimp only
  rw [s.refTouched_eq]
  refine (if_pos rfl).trans (congrArg (·, none) (if_neg ?_))
  show ¬ s.link.exchange.isSome = true
  rw [hx]
  simp

/-! ### Offering a plan (R43, R44) -/

theorem State.takePlan_targets {s : State} {ts : List (Nat × Rail)} (o : Bool) (who : Issuer)
    (h : ∀ x ∈ ts, s.checkTarget x = none) :
    s.takePlan ⟨.targets ts o, who⟩ = s.enterSlot ⟨⟨.targets ts o, who⟩, s.translate ts⟩ := by
  have hnone : s.planRefusal ts = none :=
    List.findSome?_eq_none_iff.2 fun x hx => by rw [h x hx]; rfl
  simp only [State.takePlan, hnone]

theorem State.enterSlot_safe {s : State} {t : Taken} (h : s.hv.rail = .safe) : s.enterSlot t = s.enterSending t :=
  if_pos h

theorem State.enterSlot_held {s : State} {t : Taken} (h : s.hv.rail ≠ .safe) :
    s.enterSlot t = (s.setSlot (.held t), none) := if_neg h

theorem State.offerPlan_free {s : State} {p : Plan} (h : s.matrix.slot = .empty) :
    s.offerPlan p = reports p.issuer (s.takePlan p) := if_pos (by rw [h]; rfl)

theorem Matrix.with_waiting_nil {m : Matrix} (h : m.waiting = []) : { m with waiting := [] } = m := by
  cases m
  simp only at h
  rw [h]

/-- An emptied slot with no plan waiting. -/
theorem reports_some {s : State} (h : s.matrix.waiting = []) (who : Issuer) (o : PlanOutcome) :
    reports who (s, some o) = (s, [⟨who, o⟩]) := by
  unfold reports
  dsimp only
  rw [h]
  show ({ s with matrix := { s.matrix with waiting := [] } }, _) = _
  rw [Matrix.with_waiting_nil h]
  rfl

end Sys2Proof.Machine
end

section
/-! PROOFS. MANUAL_SWITCH and UNBLOCK (3.7.1, 3.7.3). -/

namespace Sys2Proof.Machine

open Sys2Proof

/-! ### A request that offers a plan (R55, R58) -/

/-- A request that its block leaves to a later event, or has composed out of turn: nothing else waits. -/
theorem exec_later (r : Request) (tag : Byte) (p : List Byte) (s u : State) (hs : s.ready) (hp : p.length ≤ 1024)
    (hu : carry r p (s.handed r.code tag p) = (u, none)) (hw : ∀ x ∈ u.host.slots, x.phase ≠ .waiting) :
    exec (requestInstr r tag p) s = .next u := by
  rw [exec_request, State.frame_ready s hs _ _ _ hp]
  simp only [carryOut, requestOf_code, hu]
  exact congrArg _ (State.handOver_noneWaiting u 2 hw)

/-- The state while such a request is being carried out (R182). -/
def State.carrying (s : State) (k tag : Byte) (p : List Byte) (c : Carried) : State :=
  { s with
    host := { s.host with slots := [⟨k, tag, p, .carried⟩], carried := some c }
    queue := { s.queue with stallWait := false } }

theorem State.offerCarried_handed (s : State) (k tag : Byte) (p : List Byte) (c : Carried) (q : Plan) :
    (s.handed k tag p).offerCarried c q = State.delivered ((s.carrying k tag p c).offerPlan q) := rfl

theorem Matrix.with_slot_empty {m : Matrix} (h : m.slot = .empty) (im : List (Nat × Rail)) :
    { m with image := im, slot := .empty } = { m with image := im } := by
  cases m
  simp only at h
  rw [h]

theorem State.composeTimed_eq {s : State} {k t : Byte} {p : List Byte} (r : List Byte)
    (hs : s.host.slots = [⟨k, t, p, .carried⟩]) (ht : s.host.tx = none) : s.composeTimed r =
      State.examineHead (State.replying { s with host := { s.host with carried := none } } k t p r) := by
  rw [State.composeTimed, State.compose_carried s k t p r hs ht]
  rfl

section
variable {s : State} {k tag : Byte} {p : List Byte} {c : Carried} {q : Plan} {t : Taken} (hs : s.ready)
  (hslot : s.matrix.slot = .empty) (hrail : s.hv.rail = .safe) (hwait : s.matrix.waiting = [])
  (htake : (s.carrying k tag p c).takePlan q = (s.carrying k tag p c).enterSlot t) (ht : t.plan.body.isAllOpen = false)
include hslot hrail htake ht

/-- The first card with a change gets its SET while the request is being carried out. -/
theorem State.offerCarried_sends {n : Nat} (h1 : 1 ≤ n) (h2 : n ≤ 32) (hpass : ∀ r, 1 ≤ r → r < n → s.passes t r)
    (hc : s.changeList t n ≠ []) (hn : (s.posn n).state = .present) (hx : s.link.exchange = none) :
    (s.handed k tag p).offerCarried c q = (s.carrying k tag p c).planSent t n := by
  have hsend := State.enterSending_sends (s := s.carrying k tag p c) ht h1 h2 hpass hc hn hx
  rw [State.offerCarried_handed, State.offerPlan_free (s := s.carrying k tag p c) hslot, htake,
    State.enterSlot_safe (s := s.carrying k tag p c) hrail, hsend]
  rfl

/-- Reference channels alone to change: the slot settles while the request is being carried out. -/
theorem State.offerCarried_refs (hpass : ∀ r, 1 ≤ r → r ≤ 32 → s.passes t r) (href : s.refChanges t ≠ []) :
    (s.handed k tag p).offerCarried c q = (s.carrying k tag p c).switched t (.settling t [0] 1) := by
  have hsend := State.enterSending_refs (s := s.carrying k tag p c) ht hpass href
  rw [State.offerCarried_handed, State.offerPlan_free (s := s.carrying k tag p c) hslot, htake,
    State.enterSlot_safe (s := s.carrying k tag p c) hrail, hsend]
  rfl

include hwait in
/-- Nothing to change: the issuer is told at once. -/
theorem State.offerCarried_none (hpass : ∀ r, 1 ≤ r → r ≤ 32 → s.passes t r) (href : s.refChanges t = []) :
    (s.handed k tag p).offerCarried c q =
      ((s.carrying k tag p c).switched t .empty).deliver ⟨q.issuer, .complete 0⟩ := by
  have hsend := State.enterSending_none (s := s.carrying k tag p c) ht hpass href
  rw [State.offerCarried_handed, State.offerPlan_free (s := s.carrying k tag p c) hslot, htake,
    State.enterSlot_safe (s := s.carrying k tag p c) hrail, hsend,
    reports_some (s := (s.carrying k tag p c).switched t .empty) hwait]
  rfl

end

/-- The reply of a plan that had nothing to do. -/
theorem State.composeTimed_switched {s : State} (hs : s.ready) (hslot : s.matrix.slot = .empty) {k tag : Byte}
    {p : List Byte} (c : Carried) {t : Taken} (href : s.refChanges t = []) (r : List Byte) :
    ((s.carrying k tag p c).switched t .empty).composeTimed r = State.examineHead (State.replying
      { s with lmu := s.lmu.sourceOff, queue := { s.queue with stallWait := false } } k tag p r) := by
  obtain ⟨-, -, htx, hcar, -, -⟩ := hs
  refine (State.composeTimed_eq (s := (s.carrying k tag p c).switched t .empty) r rfl htx).trans ?_
  have hm : { s.matrix with image := writeImage s.matrix.image 0 (s.refChanges t), slot := Slot.empty } = s.matrix := by
    rw [href]
    exact Matrix.with_slot_empty hslot s.matrix.image
  show State.examineHead { s with
    host := { s.host with
      slots := [⟨k, tag, p, .sending r⟩], carried := none, tx := some ⟨true, hostFrame (replyKind k) tag r⟩ }
    lmu := s.lmu.sourceOff, queue := { s.queue with stallWait := false }
    matrix := { s.matrix with image := writeImage s.matrix.image 0 (s.refChanges t), slot := Slot.empty } } = _
  rw [hm, ← hcar]
  rfl

theorem State.examineHead_replying_notWaiting (s : State) (k tag : Byte) (p r : List Byte) :
    ∀ x ∈ (State.examineHead (s.replying k tag p r)).host.slots, x.phase ≠ .waiting := by
  obtain ⟨w, hq⟩ := Quiet.examineHead (s.replying k tag p r)
  exact hq.notWaiting (by simp [State.replying])

/-! ### MANUAL_SWITCH (R54, R55) -/

theorem railOf_code (r : Rail) : railOf (BitVec.ofNat 8 r.code) = some r := by cases r <;> rfl

/-- The fields of a MANUAL_SWITCH item. -/
def switchItem (it : Nat × Rail) : Nat × Byte := (it.1, BitVec.ofNat 8 it.2.code)

/-- The payload of a MANUAL_SWITCH. -/
def switchPayload (others : Bool) (items : List (Nat × Rail)) : List Byte :=
  flagByte others ++ le1 items.length ++ items.flatMap (fun it => le2 it.1 ++ le1 it.2.code)

section
variable {others : Bool} {items : List (Nat × Rail)} (hlen : items.length ≤ 128)
  (hpts : ∀ it ∈ items, it.1 ≤ 4095)

include hlen in
theorem switchPayload_length : (switchPayload others items).length ≤ 1024 := by
  have : (items.flatMap (fun it => le2 it.1 ++ le1 it.2.code)).length = 3 * items.length := by
    simp [List.length_flatMap, Nat.mul_comm]
  simp only [switchPayload, List.length_append, flagByte_length, le1_length, this]
  omega

include hlen hpts in
theorem counted_switchItems : counted items3 (le1 items.length ++ items.flatMap (fun it => le2 it.1 ++ le1 it.2.code)) =
    some (items.length, items.map switchItem) := by
  have h := items3_of (items.map switchItem) (fun x hx => by
    obtain ⟨it, hit, rfl⟩ := List.mem_map.1 hx
    have := hpts it hit
    show it.1 < 65536
    omega)
  rw [List.length_map, List.flatMap_map] at h
  rw [counted_le1 _ (by omega)]
  exact congrArg (Option.map fun x => (items.length, x)) h

theorem manualTargets_switchItem : manualTargets (items.map switchItem) = items := by
  rw [manualTargets, List.map_map]
  refine (List.map_congr_left fun it _ => ?_).trans (List.map_id _)
  simp only [Function.comp, switchItem, railOf_code, Option.getD_some, id]

variable (hn : (items.map (·.1)).Nodup) (hrails : ∀ it ∈ items, it.2 = .opn ∨ it.2 = .source ∨ it.2 = .ret)
  {s : State} (href : ∀ it ∈ items, it.1 < 4 → s.railAllowed ⟨0, it.1⟩ it.2 = true)
  (hfit : ∀ it ∈ items, 4 ≤ it.1 → ∃ c : Chan, s.chanOf it.1 = some c ∧ 1 ≤ c.pos ∧ s.reachable c = true ∧
    s.isBlocked c = false)

include hpts hn hrails href in
theorem manualBad_none : (items.map switchItem).any (manualBad s (items.map switchItem)) = false := by
  rw [List.any_eq_false]
  intro x hx
  obtain ⟨it, hit, rfl⟩ := List.mem_map.1 hx
  have hcount := countP_name (items := items.map switchItem)
    (by simpa [List.map_map, Function.comp_def, switchItem] using hn) it.1
  have hp : ¬ 4095 < it.1 := Nat.not_lt.2 (hpts it hit)
  have hallowed := href it hit
  rw [List.countP_map] at hcount
  rcases hrails it hit with hr | hr | hr
  · simp [manualBad, switchItem, hr, railOf_code, hp, hcount]
  · simpa [manualBad, switchItem, hr, railOf_code, hp, hcount] using hr ▸ hallowed
  · simpa [manualBad, switchItem, hr, railOf_code, hp, hcount] using hr ▸ hallowed

include hfit in
theorem manualUnfit_none : (items.map switchItem).any (manualUnfit s) = false := by
  rw [List.any_eq_false]
  intro x hx
  obtain ⟨it, hit, rfl⟩ := List.mem_map.1 hx
  by_cases h4 : 4 ≤ it.1
  · obtain ⟨c, hc, -, hreach, hblocked⟩ := hfit it hit h4
    simp [manualUnfit, switchItem, hc, hreach, hblocked]
  · simp [manualUnfit, switchItem, h4]

include hrails href hfit in
/-- An item that MANUAL_SWITCH accepts passes the checks of its plan (R44). -/
theorem checkTarget_manual : ∀ x ∈ items, s.checkTarget x = none := by
  intro it hit
  by_cases h4 : 4 ≤ it.1
  · obtain ⟨c, hc, hpos, hreach, hblocked⟩ := hfit it hit h4
    have hallowed : s.railAllowed c it.2 = true := by
      have hpos' : c.pos ≠ 0 := by omega
      rcases hrails it hit with h | h | h <;> simp [h, State.railAllowed, hpos']
    simp [State.checkTarget, hc, hreach, hblocked, hallowed]
  · have hc : s.chanOf it.1 = some ⟨0, it.1⟩ := if_pos (by omega)
    simp [State.checkTarget, hc, State.reachable, href it hit (by omega)]

include hlen hpts hn hrails href hfit in
/-- A well-formed MANUAL_SWITCH: refused by the job or the rail, or its plan is offered. -/
theorem doManualSwitch_eq (hne : items ≠ [] ∨ others = true) : doManualSwitch (switchPayload others items) s =
    if s.jobActive || !s.matrix.slot.isEmpty then (s, some [0x01#8])
    else if s.hv.rail ≠ .safe then (s, some [0x04#8])
    else (s.offerCarried .manual ⟨.targets items others, .manual⟩, none) := by
  obtain ⟨o, ho, hoNat⟩ := flagByte_eq_singleton others
  have hpayload : switchPayload others items =
      o :: (le1 items.length ++ items.flatMap (fun it => le2 it.1 ++ le1 it.2.code)) := by
    rw [switchPayload, ho, List.append_assoc]
    rfl
  have hflag : (o == 1#8) = others := by
    cases others <;> cases ho <;> rfl
  have hvalid : (decide (128 < items.length) || (items.length == 0 && o == 0#8) || decide (1 < o.toNat) ||
      (items.map switchItem).any (manualBad s (items.map switchItem))) = false := by
    have h128 : ¬ 128 < items.length := Nat.not_lt.2 hlen
    have hsome : (items.length == 0 && o == 0#8) = false := by
      rcases hne with h | rfl
      · simp [h]
      · cases ho
        simp
    have h1 : ¬ 1 < o.toNat := by rw [hoNat]; cases others <;> decide
    rw [manualBad_none hpts hn hrails href, hsome]
    simp [h128, h1]
  rw [hpayload, doManualSwitch, counted_switchItems hlen hpts]
  simp only [hvalid, manualUnfit_none hfit, manualTargets_switchItem, hflag]
  rfl

end

/-- Settles O38: the refusals, and the plan by what it finds to change. -/
theorem manualSwitchSendsItsPlan : Obligations.ManualSwitchSendsItsPlan := by
  intro tag others items s hs hlen hne hn hpts hrails href hfit
  have hdo := doManualSwitch_eq (s := s.handed 0x14#8 tag (switchPayload others items)) hlen hpts hn hrails href hfit hne
  have hp := switchPayload_length (others := others) hlen
  refine ⟨switchPayload others items, ⟨⟨.targets items others, .manual⟩, s.translate items⟩, rfl, rfl, fun hact => ?_,
    fun hact hslot hrail => ?_, fun hact hslot hrail hwait => ?_⟩
  · refine exec_answered_unchanged .manualSwitch tag _ s _ hs hp (hdo.trans (if_pos ?_))
    rw [State.jobActive_handed, hact]
    rfl
  · refine exec_answered_unchanged .manualSwitch tag _ s _ hs hp (hdo.trans ((if_neg ?_).trans (if_pos hrail)))
    rw [State.jobActive_handed, hact]
    show ¬ (false || !s.matrix.slot.isEmpty) = true
    rw [hslot]
    decide
  · have hoffer := hdo.trans ((if_neg (by
      rw [State.jobActive_handed, hact]
      show ¬ (false || !s.matrix.slot.isEmpty) = true
      rw [hslot]
      decide)).trans (if_neg (by
      show ¬ s.hv.rail ≠ .safe
      simp [hrail])))
    have htake : (s.carrying 0x14#8 tag (switchPayload others items) .manual).takePlan ⟨.targets items others, .manual⟩ = _ :=
      State.takePlan_targets others .manual (s := s.carrying 0x14#8 tag (switchPayload others items) .manual)
        (checkTarget_manual (s := s) hrails href hfit)
    have hchange {p : Nat} (h1 : 1 ≤ p) := State.changeList_switched s ⟨⟨.targets items others, .manual⟩, s.translate items⟩
      ⟨⟨.targets items others, .manual⟩, s.translate items⟩ s.matrix.slot h1
    refine ⟨_, _, rfl, rfl, fun hnone => ?_, fun p h1 h2 hno hc hpres hx => ?_⟩
    · have hpass (r : Nat) (h1 : 1 ≤ r) (h2 : r ≤ 32) : s.passes ⟨⟨.targets items others, .manual⟩, s.translate items⟩ r :=
        .inl ((hchange h1).symm.trans (hnone r h1 h2))
      refine ⟨fun htouched => ?_, fun htouched => ?_⟩
      · have hrefs : s.refChanges ⟨⟨.targets items others, .manual⟩, s.translate items⟩ = [] := by
          by_contra h
          rw [if_neg h] at htouched
          simp at htouched
        have hres := (State.offerCarried_none hslot hrail hwait htake rfl hpass hrefs).trans
          (State.composeTimed_switched hs hslot .manual hrefs [0x00#8, 0x00#8, 0x00#8])
        have hexec := exec_later .manualSwitch tag _ s _ hs hp (hoffer.trans (congrArg (·, none) hres))
          (State.examineHead_replying_notWaiting _ _ _ _ _)
        refine hexec.trans ?_
        rw [hrefs]
        rfl
      · have hrefs : s.refChanges ⟨⟨.targets items others, .manual⟩, s.translate items⟩ ≠ [] := fun h => by
          rw [if_pos h] at htouched
          simp at htouched
        have hres := State.offerCarried_refs hslot hrail htake rfl hpass hrefs
        exact exec_later .manualSwitch tag _ s _ hs hp (hoffer.trans (congrArg (·, none) hres))
          (by simp)
    · have hpass (r : Nat) (h1 : 1 ≤ r) (h2 : r < p) : s.passes ⟨⟨.targets items others, .manual⟩, s.translate items⟩ r :=
        .inl ((hchange h1).symm.trans (hno r h1 h2))
      have hcp := hchange h1
      have hres := State.offerCarried_sends hslot hrail htake rfl h1 h2 hpass (ne_of_eq_of_ne hcp.symm hc) hpres hx
      have hexec := exec_later .manualSwitch tag _ s _ hs hp (hoffer.trans (congrArg (·, none) hres))
        (by simp [State.planSent, State.carrying])
      refine hexec.trans (congrArg (fun l => Host.Outcome.next
        { (s.carrying 0x14#8 tag (switchPayload others items) .manual).planSent _ p with link := { s.link with
          seqBits := s.link.seqBits.set (p - 1) (!s.link.seqBit p)
          exchange := some ⟨.set p l, (s.link.seqBits.set (p - 1) (!s.link.seqBit p)).getD (p - 1) false, false⟩
          replyTimer := some s.link.replyTimeout } }) hcp.symm)

end Sys2Proof.Machine
end

section
/-! PROOFS. UNBLOCK (3.6, 3.7.3). -/

namespace Sys2Proof.Machine

open Sys2Proof

/-! ### The plan of an UNBLOCK (R58) -/

/-- The plan that opens the channels of an UNBLOCK, as it is taken. -/
def openings (cs : List Chan) : Taken := ⟨⟨.opens cs, .unblock⟩, cs.map (fun d => (d, .opn))⟩

theorem openings_targetOf (cs : List Chan) (c : Chan) :
    (openings cs).targetOf c = if c ∈ cs then some .opn else none := by
  unfold Taken.targetOf openings
  induction cs with
  | nil => rfl
  | cons d cs ih =>
    by_cases h : d = c
    · simp [h]
    · have hc : c ≠ d := fun e => h e.symm
      simp only [List.map_cons, List.find?_cons, List.mem_cons, hc, false_or]
      rw [show (d == c) = false by simpa using h]
      exact ih

theorem State.refChanges_openings (s : State) {cs : List Chan} (h : ∀ d ∈ cs, 1 ≤ d.pos) :
    s.refChanges (openings cs) = [] := by
  refine List.filterMap_eq_nil_iff.2 fun k _ => ?_
  have hk : (⟨0, k⟩ : Chan) ∉ cs := fun hm => absurd (h _ hm) (Nat.not_succ_le_zero 0)
  have hw : s.wanted (openings cs) ⟨0, k⟩ = none := by
    unfold State.wanted
    rw [openings_targetOf, if_neg hk]
    rfl
  simp only [hw]

theorem filterMap_range_single {α : Type} (m : Nat) (a : α) (n : Nat) :
    (List.range n).filterMap (fun k => if k = m then some a else none) = if m < n then [a] else [] := by
  induction n with
  | zero => rfl
  | succ n ih =>
    rw [List.range_succ, List.filterMap_append, ih]
    by_cases h : n = m
    · simp [h]
    · have hlt : m < n + 1 ↔ m < n := by omega
      simp [h, hlt]

/-- What an UNBLOCK of one channel sends to a position. -/
theorem State.changeList_openings_one (s : State) (c : Chan) (p : Nat) : s.changeList (openings [c]) p =
    if p = c.pos ∧ c.ch < (s.posn p).kind.channels ∧ s.imageOf c ≠ some .opn then [(c.ch, .opn)] else [] := by
  have hitem (k : Nat) : (match (openings [c]).targetOf ⟨p, k⟩ with
      | some r => if s.imageOf ⟨p, k⟩ = some r || !(s.railAllowed ⟨p, k⟩ r) then none else some (k, r)
      | none => if (openings [c]).plan.body.others && decide (s.imageOf ⟨p, k⟩ ≠ some .opn) && !(s.isBlocked ⟨p, k⟩)
          then some (k, .opn) else none) =
      if k = c.ch then (if p = c.pos ∧ s.imageOf c ≠ some .opn then some (c.ch, Rail.opn) else none) else none := by
    obtain ⟨pos, ch⟩ := c
    rw [openings_targetOf]
    by_cases hp : p = pos
    · by_cases hk : k = ch
      · subst hp hk
        by_cases hi : s.imageOf ⟨p, k⟩ = some .opn <;> simp [hi, State.railAllowed]
      · simp [hk, openings, PlanBody.others]
    · simp [hp, openings, PlanBody.others]
  unfold State.changeList
  refine (List.filterMap_congr fun k _ => hitem k).trans ?_
  by_cases h : p = c.pos ∧ s.imageOf c ≠ some .opn
  · have hiff : p = c.pos ∧ c.ch < (s.posn p).kind.channels ∧ s.imageOf c ≠ some .opn ↔
        c.ch < (s.posn p).kind.channels := ⟨fun hc => hc.2.1, fun hc => ⟨h.1, hc, h.2⟩⟩
    rw [if_pos h, filterMap_range_single, if_congr hiff rfl rfl]
  · have hno : ¬ (p = c.pos ∧ c.ch < (s.posn p).kind.channels ∧ s.imageOf c ≠ some .opn) :=
      fun hc => h ⟨hc.1, hc.2.2⟩
    rw [if_neg h, if_neg hno]
    exact List.filterMap_eq_nil_iff.2 fun _ _ => ite_self _

/-! ### UNBLOCK -/

/-- The state with channels out of the blocked set. -/
def State.unblocked (s : State) (cs : List Chan) : State :=
  { s with matrix := { s.matrix with blocked := s.matrix.blocked.filter (fun c => !(cs.contains c)) } }

theorem State.unblock_handed (s : State) (k tag : Byte) (p : List Byte) (cs : List Chan) :
    (s.handed k tag p).unblock cs =
      ((s.unblocked cs).handed k tag p).offerCarried (.unblock cs.length) ⟨.opens cs, .unblock⟩ := rfl

section
variable {tag : Byte} {p : List Byte} {s : State} {cs : List Chan} (hs : s.ready) (hp : p.length ≤ 1024)
  (hslot : s.matrix.slot = .empty) (hrail : s.hv.rail = .safe) (hpos : ∀ d ∈ cs, 1 ≤ d.pos)
  (hdo : doUnblock p (s.handed 0x16#8 tag p) = ((s.handed 0x16#8 tag p).unblock cs, none))
include hs hp hslot hrail hpos hdo

/-- With nothing to send the answer is COMPLETE, 0 positions, with the count removed. -/
theorem exec_unblock_none (hwait : s.matrix.waiting = [])
    (hpass : ∀ r, 1 ≤ r → r ≤ 32 → (s.unblocked cs).passes (openings cs) r) : exec (.unblock tag p) s =
      .next (State.examineHead (State.replying { s.unblocked cs with
        lmu := s.lmu.sourceOff, queue := { s.queue with stallWait := false } } 0x16#8 tag p
        ([0x00#8, 0x00#8, 0x00#8] ++ le2 cs.length))) := by
  have href := State.refChanges_openings (s.unblocked cs) hpos
  have hoffer := (State.offerCarried_none (s := s.unblocked cs) (k := 0x16#8) (tag := tag) (p := p)
    (c := .unblock cs.length) (q := ⟨.opens cs, .unblock⟩) (t := openings cs) hslot hrail hwait rfl rfl hpass href).trans
    (State.composeTimed_switched (s := s.unblocked cs) hs hslot (.unblock cs.length) href
      ([0x00#8, 0x00#8, 0x00#8] ++ le2 cs.length))
  exact exec_later .unblock tag p s _ hs hp (hdo.trans (congrArg (·, none) ((State.unblock_handed ..).trans hoffer)))
    (State.examineHead_replying_notWaiting _ _ _ _ _)

/-- The first card with a channel to open is sent its SET. -/
theorem exec_unblock_sends {n : Nat} (h1 : 1 ≤ n) (h2 : n ≤ 32)
    (hpass : ∀ r, 1 ≤ r → r < n → (s.unblocked cs).passes (openings cs) r)
    (hc : (s.unblocked cs).changeList (openings cs) n ≠ []) (hn : (s.posn n).state = .present)
    (hx : s.link.exchange = none) : exec (.unblock tag p) s =
      .next { s with
        host := { s.host with slots := [⟨0x16#8, tag, p, .carried⟩], carried := some (.unblock cs.length) }
        queue := { s.queue with stallWait := false }
        lmu := s.lmu.sourceOff
        matrix := { (s.unblocked cs).matrix with slot := .sending (openings cs) n [] }
        link := { s.link with
          seqBits := s.link.seqBits.set (n - 1) (!s.link.seqBit n)
          exchange := some ⟨.set n ((s.unblocked cs).changeList (openings cs) n),
            (s.link.seqBits.set (n - 1) (!s.link.seqBit n)).getD (n - 1) false, false⟩
          replyTimer := some s.link.replyTimeout } } := by
  have href := State.refChanges_openings (s.unblocked cs) hpos
  have hoffer := State.offerCarried_sends (s := s.unblocked cs) (k := 0x16#8) (tag := tag) (p := p)
    (c := .unblock cs.length) (q := ⟨.opens cs, .unblock⟩) (t := openings cs) hslot hrail rfl rfl h1 h2 hpass hc hn hx
  refine (exec_later .unblock tag p s _ hs hp (hdo.trans (congrArg (·, none) ((State.unblock_handed ..).trans hoffer)))
    (by simp [State.planSent, State.carrying])).trans ?_
  unfold State.planSent
  rw [show ((s.unblocked cs).carrying 0x16#8 tag p (.unblock cs.length)).refChanges (openings cs) = [] from href]
  rfl

end

section
variable {s : State} (hact : s.jobActive = false) (hslot : s.matrix.slot = .empty) (hrail : s.hv.rail = .safe)
  (tag : Byte)
include hact hslot hrail

theorem doUnblock_all (b : Byte) : doUnblock [b] (s.handed 0x16#8 tag [b]) =
    ((s.handed 0x16#8 tag [b]).unblock s.matrix.blocked, none) := by
  refine (if_neg ?_).trans (if_neg ?_)
  · rw [State.jobActive_handed, hact]
    show ¬ (false || !s.matrix.slot.isEmpty) = true
    rw [hslot]
    decide
  · show ¬ s.hv.rail ≠ .safe
    simp [hrail]

theorem doUnblock_one {c : Chan} (h1 : 1 ≤ c.pos) (h2 : c.pos ≤ 32) (h3 : c.ch ≤ 127) (p : List Byte)
    (hp : p = le1 c.pos ++ le1 c.ch) : doUnblock p (s.handed 0x16#8 tag p) =
      if s.isBlocked c then ((s.handed 0x16#8 tag p).unblock [c], none)
      else (s.handed 0x16#8 tag p, some (reply .notFound [])) := by
  have hq : (BitVec.ofNat 8 c.pos).toNat = c.pos := byte_toNat _ (by omega)
  have hch : (BitVec.ofNat 8 c.ch).toNat = c.ch := byte_toNat _ (by omega)
  have hb : (s.handed 0x16#8 tag p).isBlocked c = s.isBlocked c := rfl
  have hgate : ((s.handed 0x16#8 tag p).jobActive || !(s.handed 0x16#8 tag p).matrix.slot.isEmpty) = false := by
    rw [State.jobActive_handed, hact]
    show (false || !s.matrix.slot.isEmpty) = false
    rw [hslot]
    rfl
  have hsafe : (s.handed 0x16#8 tag p).hv.rail = .safe := hrail
  have hp2 : p = [BitVec.ofNat 8 c.pos, BitVec.ofNat 8 c.ch] := hp
  have hrange : (decide (c.pos = 0) || decide (32 < c.pos) || decide (127 < c.ch)) = false := by
    simp
    omega
  rw [hp2] at hgate hsafe hb ⊢
  unfold doUnblock
  simp only [hgate, hsafe, hq, hch, hrange, hb]
  cases s.isBlocked c <;> rfl

end

theorem filter_not_contains_one (l : List Chan) (c d : Chan) :
    d ∈ l.filter (fun x => !([c].contains x)) ↔ d ∈ l ∧ d ≠ c := by
  simp

theorem filter_not_contains_self (l : List Chan) : l.filter (fun x => !(l.contains x)) = [] := by
  simp

/-- Settles O39: one channel or all of them, by what the cards then have to change. -/
theorem unblockRemovesAndOpens : Obligations.UnblockRemovesAndOpens := by
  intro tag b c s hs hact hslot hrail hwait h1 h2 h3
  have hone := doUnblock_one hact hslot hrail tag h1 h2 h3 _ rfl
  have hposOne : ∀ d ∈ [c], 1 ≤ d.pos := fun d hd => (List.mem_singleton.1 hd) ▸ h1
  have hall := doUnblock_all hact hslot hrail tag b
  refine ⟨fun hb => ?_, fun hb hnone => ?_, fun hb hi hpres hch hx => ?_, fun hb => ?_, fun cs t hb hpos ht => ?_⟩
  · have hdo := hone.trans (if_neg (by simp [hb]))
    exact exec_answered_unchanged .unblock tag (le1 c.pos ++ le1 c.ch) s (reply .notFound []) hs (by simp) hdo
  · have hdo := hone.trans (if_pos hb)
    have hpass (r : Nat) (_ : 1 ≤ r) (_ : r ≤ 32) : (s.unblocked [c]).passes (openings [c]) r := by
      have hlist := State.changeList_openings_one (s.unblocked [c]) c r
      by_cases hr : r = c.pos ∧ c.ch < (s.posn r).kind.channels ∧ s.imageOf c ≠ some .opn
      · obtain ⟨rfl, hch, hi⟩ := hr
        exact .inr ⟨(hnone.resolve_left hi).resolve_right (not_not_intro hch), .inl rfl⟩
      · exact .inl (hlist.trans (if_neg hr))
    have hexec := exec_unblock_none hs (by simp) hslot hrail hposOne hdo hwait hpass
    rw [show [0x00#8, 0x00#8, 0x00#8] ++ le2 [c].length = [0x00#8, 0x00#8, 0x00#8, 0x01#8, 0x00#8] by simp [le2]] at hexec
    exact ⟨{ s.unblocked [c] with lmu := s.lmu.sourceOff, queue := { s.queue with stallWait := false } }, hexec,
      filter_not_contains_one _ c, rfl⟩
  · have hdo := hone.trans (if_pos hb)
    have hlist : (s.unblocked [c]).changeList (openings [c]) c.pos = [(c.ch, .opn)] :=
      (State.changeList_openings_one _ c c.pos).trans (if_pos ⟨rfl, hch, hi⟩)
    have hpass (r : Nat) (_ : 1 ≤ r) (hr : r < c.pos) : (s.unblocked [c]).passes (openings [c]) r :=
      .inl ((State.changeList_openings_one _ c r).trans (if_neg fun h => by omega))
    refine ⟨_, exec_unblock_sends hs (by simp) hslot hrail hposOne hdo h1 h2 hpass (by simp [hlist]) hpres hx,
      filter_not_contains_one _ c, rfl, ?_, rfl, rfl, rfl⟩
    rw [hlist]
  · have hempty : s.unblocked [] = s := by
      have hf : s.matrix.blocked.filter (fun c => !([].contains c)) = s.matrix.blocked := by simp [hb]
      unfold State.unblocked
      rw [hf]
    rw [hb] at hall
    have h := exec_unblock_none hs (by simp) hslot hrail (by simp) hall hwait fun r _ _ =>
      .inl (List.filterMap_eq_nil_iff.2 fun k _ => by
        rw [openings_targetOf]
        rfl)
    rw [hempty] at h
    exact h
  · subst ht hb
    have hview : (s.unblocked s.matrix.blocked).matrix = { s.matrix with blocked := [] } := by
      unfold State.unblocked
      rw [filter_not_contains_self]
    refine ⟨_, rfl, fun hnone => ?_, fun p hp1 hp2 hno hc hpres hx => ?_⟩
    · have hpass (r : Nat) (hr1 : 1 ≤ r) (hr2 : r ≤ 32) :
          (s.unblocked s.matrix.blocked).passes (openings s.matrix.blocked) r :=
        (hnone r hr1 hr2).imp id fun h => ⟨h, .inl rfl⟩
      have h := exec_unblock_none hs (by simp) hslot hrail hpos hall hwait hpass
      unfold State.unblocked at h
      rw [filter_not_contains_self] at h
      exact h
    · have hpass (r : Nat) (hr1 : 1 ≤ r) (hr2 : r < p) :
          (s.unblocked s.matrix.blocked).passes (openings s.matrix.blocked) r :=
        (hno r hr1 hr2).imp id fun h => ⟨h, .inl rfl⟩
      have h := exec_unblock_sends hs (by simp) hslot hrail hpos hall hp1 hp2 hpass hc hpres hx
      rw [hview] at h
      exact h

end Sys2Proof.Machine
end

section
/-! PROOFS. The requests of the job queue (9.1, 9.2, 9.6). -/

namespace Sys2Proof.Machine

open Sys2Proof

theorem exec_answered_queue (r : Request) (tag : Byte) (p : List Byte) (s : State) (rep : List Byte) (hs : s.ready)
    (hp : p.length ≤ 1024) (q : Queue)
    (hc : carry r p (s.handed r.code tag p) = ({ s.handed r.code tag p with queue := q }, some rep)) :
    exec (requestInstr r tag p) s = .next (State.replying { s with queue := q } r.code tag p rep) :=
  exec_answered r tag p s { s.handed r.code tag p with queue := q } rep hs hp hc rfl

/-! ### The examination of the head (R146) -/

theorem State.cond1_iff (s : State) : s.cond1 = true ↔ ∃ j rest, s.queue.jobs = j :: rest ∧ j.state = .queued := by
  unfold State.cond1 State.head
  cases s.queue.jobs with
  | nil => simp
  | cons j rest =>
    show decide (j.state = .queued) = true ↔ _
    simp

theorem State.cond4_iff (s : State) : s.cond4 = true ↔ s.link.startup = false ∧ s.enumerating = false := by
  simp [State.cond4]

theorem isTimedSwitch_iff (k : Byte) : isTimedSwitch k = true ↔ k ∈ [0x14#8, 0x16#8, 0x19#8] := by
  simp only [isTimedSwitch, Bool.or_eq_true, beq_iff_eq, or_assoc, List.mem_cons, List.not_mem_nil, or_false]
  exact Iff.rfl

theorem State.cond5_iff (s : State) : s.cond5 = true ↔
    ∀ r ∈ s.host.slots, r.phase = .carried → r.kind ∉ [0x14#8, 0x16#8, 0x19#8] := by
  have hopen (r : RxSlot) : r.timedOpen = true ↔ r.kind ∈ [0x14#8, 0x16#8, 0x19#8] ∧ r.phase = .carried := by
    rw [RxSlot.timedOpen, Bool.and_eq_true, isTimedSwitch_iff, beq_iff_eq]
  rw [State.cond5, Bool.not_eq_true', List.any_eq_false]
  exact forall₂_congr fun r _ => (not_congr (hopen r)).trans
    ⟨fun h hp hk => h ⟨hk, hp⟩, fun h hc => h hc.2 hc.1⟩

theorem State.spaceAlone_iff (s : State) : s.spaceAlone = true ↔
    (∃ j rest, s.queue.jobs = j :: rest ∧ j.state = .queued) ∧ s.queue.hold = false ∧ s.hv.rail ≠ .fault ∧
      s.link.startup = false ∧ s.enumerating = false ∧
      ∀ r ∈ s.host.slots, r.phase = .carried → r.kind ∉ [0x14#8, 0x16#8, 0x19#8] := by
  rw [State.spaceAlone, Bool.and_eq_true, Bool.and_eq_true, Bool.and_eq_true, Bool.and_eq_true, s.cond1_iff, s.cond4_iff,
    s.cond5_iff, State.cond2, State.cond3, Bool.not_eq_true', decide_eq_true_iff]
  tauto

theorem State.cond6_iff (s : State) : s.cond6 = true ↔ s.log.entries.length + 9 ≤ 256 := by
  unfold State.cond6 Log.free
  rw [decide_eq_true_iff]
  omega

theorem State.examineHead_other {s : State} (h : s.spaceAlone = false) : s.examineHead = s.endWait := if_neg (by simp [h])

theorem State.examineHead_space {s : State} (h : s.cond6 = true ∨ s.queue.stallWait = true) (hs : s.spaceAlone = true) :
    s.examineHead = s := (if_pos hs).trans (if_pos (by simpa using h))

/-- With a job active, or with the space there, the examination touches no more than the mark of the wait. -/
theorem State.examineHead_unstalled {s : State} (h : s.jobActive = true ∨ s.log.entries.length + 9 ≤ 256) :
    ∃ w, s.examineHead = { s with queue := { s.queue with stallWait := w } } := by
  cases hw : s.spaceAlone
  · exact ⟨false, State.examineHead_other hw⟩
  · have hspace : s.cond6 = true := by
      refine s.cond6_iff.2 (h.resolve_left fun hact => ?_)
      obtain ⟨⟨j, rest, hj, hq⟩, -⟩ := s.spaceAlone_iff.1 hw
      simp [State.jobActive, State.activeJob, State.head, hj, hq, JobState.active, Option.filter] at hact
    exact ⟨s.queue.stallWait, State.examineHead_space (.inl hspace) hw⟩

/-! ### SUBMIT_JOB (R145) -/

theorem isNetNum_of {n : Nat} (h : 1 ≤ n ∧ n ≤ 1024) : isNetNum n = true := by simp [isNetNum, h]

/-- The options of a job as SUBMIT_JOB carries them. -/
def optionBytes : JobSpec → List Byte
  | .check f l ph => le2 f ++ le2 l ++ le1 ph.code
  | .insulate f l loc auto => le2 f ++ le2 l ++ flagByte loc ++ flagByte auto
  | .learn hv => flagByte hv
  | .learnLeads c => le2 c
  | .refcheck => []

/-- The limits of the options (R145). -/
def optionsFit : JobSpec → Prop
  | .check f l _ => (1 ≤ f ∧ f ≤ 1024) ∧ 1 ≤ l ∧ l ≤ 1024
  | .insulate f l _ _ => (1 ≤ f ∧ f ≤ 1024) ∧ 1 ≤ l ∧ l ≤ 1024
  | .learn _ => True
  | .learnLeads c => c ≤ 4095
  | .refcheck => True

theorem parseOptions_bytes {j : JobSpec} (h : optionsFit j) :
    parseOptions (BitVec.ofNat 8 j.code) (optionBytes j) = some (some j) := by
  cases j with
  | check f l ph =>
    obtain ⟨hf, hl⟩ := h
    have hph : phasesOf (BitVec.ofNat 8 ph.code) = some ph := by cases ph <;> rfl
    simp only [parseOptions, optionBytes, JobSpec.code, le2, le1, List.cons_append, List.nil_append, if_true,
      u16_of f (by omega), u16_of l (by omega), hph, isNetNum_of hf, isNetNum_of hl]
    rfl
  | insulate f l loc auto =>
    obtain ⟨hf, hl⟩ := h
    have hparse : parseOptions 2#8 (le2 f ++ le2 l ++ flagByte loc ++ flagByte auto) =
        some (if isNetNum f && isNetNum l && isFlag (if loc then 1#8 else 0#8) && isFlag (if auto then 1#8 else 0#8) then
          some (.insulate f l ((if loc then 1#8 else 0#8) == 1#8) ((if auto then 1#8 else 0#8) == 1#8)) else none) := by
      simp only [parseOptions, le2, flagByte, List.cons_append, List.nil_append, u16_of f (by omega), u16_of l (by omega)]
      rfl
    refine hparse.trans ?_
    rw [isNetNum_of hf, isNetNum_of hl]
    cases loc <;> cases auto <;> rfl
  | learn hv => cases hv <;> rfl
  | learnLeads c =>
    have hc : c ≤ 4095 := h
    have hparse : parseOptions 4#8 (le2 c) = some (if c ≤ 4095 then some (.learnLeads c) else none) := by
      simp only [parseOptions, le2, u16_of c (by omega)]
      rfl
    exact hparse.trans (by rw [if_pos hc])
  | refcheck => rfl

theorem JobSpec.code_range (j : JobSpec) : 1 ≤ j.code ∧ j.code ≤ 5 := by cases j <;> simp [JobSpec.code]

/-- A well-formed SUBMIT_JOB with a tag: FULL, CONFLICT, or the job joins the queue. -/
theorem doSubmitJob_eq {j : JobSpec} (hj : optionsFit j) {t : Byte} (ht : 1 ≤ t.toNat) (s : State) :
    doSubmitJob (BitVec.ofNat 8 j.code :: t :: optionBytes j) s =
      if 8 ≤ s.queue.jobs.length then (s, reply .full [])
      else if s.queue.jobs.any (fun q => q.tag == t.toNat) then (s, reply .conflict [])
      else (State.examineHead { s with queue := { s.queue with jobs := s.queue.jobs ++ [Job.fresh t.toNat j] } },
        reply .ok (le1 s.queue.jobs.length)) := by
  obtain ⟨h1, h5⟩ := j.code_range
  have hcode : (BitVec.ofNat 8 j.code).toNat = j.code := byte_toNat _ (by omega)
  have hrange : (decide (j.code = 0) || decide (5 < j.code)) = false := by
    simp
    omega
  have hok : ¬ t.toNat = 0 := by omega
  simp only [doSubmitJob, hcode, hrange, parseOptions_bytes hj, if_neg hok]
  rfl

theorem optionBytes_length (j : JobSpec) : (optionBytes j).length ≤ 6 := by
  cases j <;> simp [optionBytes]

theorem exec_submitJob {j : JobSpec} (hj : optionsFit j) {tag t : Byte} (ht : 1 ≤ t.toNat) {s : State} (hs : s.ready)
    (p : List Byte) (hp : p = BitVec.ofNat 8 j.code :: t :: optionBytes j) :
    (8 ≤ s.queue.jobs.length → exec (.submitJob tag p) s = .next (s.replying 0x20#8 tag p [0x02#8])) ∧
    (s.queue.jobs.length < 8 → (∃ q ∈ s.queue.jobs, q.tag = t.toNat) →
      exec (.submitJob tag p) s = .next (s.replying 0x20#8 tag p [0x08#8])) ∧
    (s.queue.jobs.length < 8 → (∀ q ∈ s.queue.jobs, q.tag ≠ t.toNat) →
      (s.jobActive = true ∨ s.log.entries.length + 9 ≤ 256) →
      ∃ w : Bool, exec (.submitJob tag p) s = .next (State.replying
        { s with queue := { s.queue with
          jobs := s.queue.jobs ++ [⟨t.toNat, j, .queued, none, false, none, 0, 0, 0, 0, 0⟩], stallWait := w } }
        0x20#8 tag p ([0x00#8] ++ le1 s.queue.jobs.length))) := by
  have hdo : doSubmitJob p (s.handed 0x20#8 tag p) = _ :=
    (congrArg (doSubmitJob · (s.handed 0x20#8 tag p)) hp).trans (doSubmitJob_eq hj ht (s.handed 0x20#8 tag p))
  have hlen : p.length ≤ 1024 := by
    have := optionBytes_length j
    rw [hp]
    simp only [List.length_cons]
    omega
  refine ⟨fun hfull => ?_, fun hroom hdup => ?_, fun hroom hno hspace => ?_⟩
  · exact exec_answered_unchanged .submitJob tag p s [0x02#8] hs hlen (answered_eq (hdo.trans (if_pos hfull)))
  · have hany : s.queue.jobs.any (fun q => q.tag == t.toNat) = true := by
      obtain ⟨q, hq, he⟩ := hdup
      exact List.any_eq_true.2 ⟨q, hq, beq_iff_eq.2 he⟩
    exact exec_answered_unchanged .submitJob tag p s [0x08#8] hs hlen
      (answered_eq (hdo.trans ((if_neg (Nat.not_le.2 hroom)).trans (if_pos hany))))
  · have hany : ¬ s.queue.jobs.any (fun q => q.tag == t.toNat) = true := by
      rw [List.any_eq_true]
      rintro ⟨q, hq, he⟩
      exact hno q hq (beq_iff_eq.1 he)
    have hres := hdo.trans ((if_neg (Nat.not_le.2 hroom)).trans (if_neg hany))
    have hstill : State.jobActive { s.handed 0x20#8 tag p with
        queue := { s.queue with jobs := s.queue.jobs ++ [Job.fresh t.toNat j] } } = true ∨
        s.log.entries.length + 9 ≤ 256 := by
      refine hspace.imp_left fun hact => ?_
      unfold State.jobActive State.activeJob State.head at hact ⊢
      show (((s.queue.jobs ++ [Job.fresh t.toNat j]).head?).filter _).isSome = true
      cases hjobs : s.queue.jobs with
      | nil => simp [hjobs] at hact
      | cons a rest =>
        rw [hjobs] at hact
        exact hact
    obtain ⟨w, hw⟩ := State.examineHead_unstalled (s := { s.handed 0x20#8 tag p with
        queue := { s.queue with jobs := s.queue.jobs ++ [Job.fresh t.toNat j] } }) hstill
    exact ⟨w, exec_answered_queue .submitJob tag p s _ hs hlen _ (answered_eq (hres.trans (congrArg (·, _) hw)))⟩

/-! ### READ_QUEUE (R154) -/

theorem State.waitCause_eq (s : State) : s.waitCause =
    if s.queue.hold then [0x00#8]
    else if s.hv.rail = .fault then [0x01#8]
    else if s.link.startup = true ∨ s.link.enumPhase ≠ .idle then [0x02#8]
    else if 256 < s.log.entries.length + 9 then [0x03#8]
    else [] := by
  have h4 : (!s.cond4) = true ↔ s.link.startup = true ∨ s.link.enumPhase ≠ .idle := by
    simp [State.cond4, State.enumerating, or_iff_not_imp_left]
  have h6 : (!s.cond6) = true ↔ 256 < s.log.entries.length + 9 := by
    rw [Bool.not_eq_true', ← Bool.not_eq_true, s.cond6_iff]
    omega
  have h3 : (!s.cond3) = true ↔ s.hv.rail = .fault := by simp [State.cond3]
  unfold State.waitCause
  simp only [h3, h4, h6, State.cond2, Bool.not_not]
  rfl

theorem headReport_eq (s : State) : s.headReport = (match s.queue.jobs with
    | [] => []
    | j :: _ => match j.state with
      | .queued =>
        if s.queue.hold then [0x00#8]
        else if s.hv.rail = .fault then [0x01#8]
        else if s.link.startup = true ∨ s.link.enumPhase ≠ .idle then [0x02#8]
        else if 256 < s.log.entries.length + 9 then [0x03#8]
        else []
      | .ending => (match j.ended with
        | some c => le1 c.reason.code
        | none => [0x00#8])
      | .running => []
      | .logWait => []
      | .suspended => []) := by
  unfold State.headReport State.head
  cases s.queue.jobs with
  | nil => rfl
  | cons j rest =>
    obtain ⟨tag, spec, state, snapshot, flagU, ended, tests, systems, steps, nets, extra⟩ := j
    cases state with
    | queued => exact s.waitCause_eq
    | ending => cases ended <;> rfl
    | running => rfl
    | logWait => rfl
    | suspended => rfl

/-- Settles O51: the examination of the head by its conditions, then each request. -/
theorem queueRequestsKeepTheQueue : Obligations.QueueRequestsKeepTheQueue := by
  refine ⟨fun s => ⟨s.spaceAlone = true, s.spaceAlone_iff, fun hw => ?_, fun hw hspace => ?_, fun hw hfull hmark => ?_⟩,
    fun tag t j s hs ht hj => ?_, fun tag s hs => ⟨?_, fun hspace => ?_, ?_⟩⟩
  · exact State.examineHead_other (by simpa using hw)
  · exact State.examineHead_space (hspace.imp_left s.cond6_iff.2) hw
  · have h6 : s.cond6 = false := by
      rw [← Bool.not_eq_true, s.cond6_iff]
      omega
    exact (if_pos hw).trans (if_neg (by simp [h6, hmark]))
  · refine ⟨_, rfl, exec_submitJob (j := j) ?_ ht hs _ ?_⟩
    · cases j <;> exact hj
    · cases j with
      | check f l ph => cases ph <;> rfl
      | _ => rfl
  · exact exec_answered_queue .holdQueue tag [] s [0x00#8, 0x01#8] hs (by simp) _ rfl
  · obtain ⟨w, hw⟩ := State.examineHead_unstalled (s := { s.handed 0x23#8 tag [] with
      queue := { s.queue with hold := false } }) hspace
    exact ⟨w, exec_answered_queue .releaseQueue tag [] s [0x00#8, 0x00#8] hs (by simp) _
      (congrArg (fun u => (u, some [0x00#8, 0x00#8])) hw)⟩
  · refine exec_answered_unchanged .readQueue tag [] s _ hs (by simp) (answered_eq (x := doReadQueue [] _) ?_)
    exact congrArg (fun h => (s.handed 0x24#8 tag [], [0x00#8] ++ flagByte s.queue.hold ++ le1 s.queue.jobs.length ++
      s.queue.jobs.flatMap (fun j => le1 j.tag ++ le1 j.spec.code ++ le1 j.state.code) ++ h)) (headReport_eq _)

end Sys2Proof.Machine
end

section
/-! PROOFS. The all-open plan and the end of a job (3.4, 9.5). -/

namespace Sys2Proof.Machine

open Sys2Proof

/-! ### The reference channels of a plan (R47, R49) -/

theorem State.mem_refChanges {s : State} {t : Taken} {it : Nat × Rail} : it ∈ s.refChanges t ↔
    it.1 < 4 ∧ s.wanted t ⟨0, it.1⟩ = some it.2 ∧ s.imageOf ⟨0, it.1⟩ ≠ some it.2 := by
  unfold State.refChanges
  rw [List.mem_filterMap]
  constructor
  · rintro ⟨k, hk, h⟩
    split at h
    · next r hr =>
      split at h
      · cases h
      · next hne =>
        cases h
        exact ⟨List.mem_range.1 hk, hr, hne⟩
    · cases h
  · rintro ⟨hk, hr, hne⟩
    refine ⟨it.1, List.mem_range.2 hk, ?_⟩
    rw [hr]
    exact if_neg hne

theorem State.refChanges_nodup (s : State) (t : Taken) : ((s.refChanges t).map (·.1)).Nodup := by
  have hlt : (s.refChanges t).Pairwise (fun a b => a.1 < b.1) := by
    refine List.Pairwise.filterMap _ (fun a b hab x hx y hy => ?_) List.pairwise_lt_range
    have hkey {k : Nat} {z : Nat × Rail} (h : (match s.wanted t ⟨0, k⟩ with
        | some r => if s.imageOf ⟨0, k⟩ = some r then none else some (k, r)
        | none => none) = some z) : z.1 = k := by
      split at h
      · split at h
        · cases h
        · cases h; rfl
      · cases h
    rw [hkey hx, hkey hy]
    exact hab
  exact List.pairwise_map.2 (hlt.imp fun h => Nat.ne_of_lt h)

/-- A reference channel has its target once a plan has switched position 0. -/
theorem State.imageOf_switched_ref (s : State) (t : Taken) (x : Slot) {k : Nat} (hk : k < 4) :
    (s.switched t x).imageOf ⟨0, k⟩ = (s.wanted t ⟨0, k⟩).or (s.imageOf ⟨0, k⟩) := by
  have hread := tget_writeImage_find (p := 0) (c := ⟨0, k⟩) (show k ≤ 127 by omega) (s.refChanges t) s.matrix.image
    (s.refChanges_nodup t) fun it hit => by
      have := (State.mem_refChanges.1 hit).1
      omega
  refine hread.trans ?_
  cases hf : (s.refChanges t).find? (fun it => (0 : Nat) = 0 ∧ it.1 = k) with
  | some it =>
    obtain ⟨-, hw, -⟩ := State.mem_refChanges.1 (List.mem_of_find?_eq_some hf)
    have hkey : it.1 = k := by simpa using List.find?_some hf
    rw [hkey] at hw
    rw [hw]
    rfl
  | none =>
    cases hw : s.wanted t ⟨0, k⟩ with
    | none => rfl
    | some r =>
      by_contra hne
      have hmem : (k, r) ∈ s.refChanges t := State.mem_refChanges.2 ⟨hk, hw, hne⟩
      exact absurd (List.find?_eq_none.1 hf _ hmem) (by simp)

/-- The all-open plan as it is taken. -/
def allOpenTaken (who : Issuer) : Taken := ⟨⟨.allOpen, who⟩, []⟩

theorem State.wanted_allOpen (s : State) (who : Issuer) (c : Chan) :
    s.wanted (allOpenTaken who) c = if s.isBlocked c then none else some .opn := by
  show (if true && !(s.isBlocked c) then some Rail.opn else none) = _
  cases s.isBlocked c <;> rfl

/-- The all-open plan SENDING its ALL_OPEN (R49). -/
def State.opening (s : State) (who : Issuer) : State :=
  (s.switched (allOpenTaken who) (.sending (allOpenTaken who) 0 (s.refTouched (allOpenTaken who)))).sendCard .allOpen

theorem State.opening_reference (s : State) (who : Issuer) {k : Nat} (hk : k ≤ 3) (hb : s.isBlocked ⟨0, k⟩ = false) :
    (s.opening who).imageOf ⟨0, k⟩ = some .opn := by
  refine (s.imageOf_switched_ref (allOpenTaken who) _ (by omega)).trans ?_
  rw [s.wanted_allOpen, hb]
  rfl

theorem State.opening_card (s : State) (who : Issuer) {c : Chan} (hc : 1 ≤ c.pos) :
    (s.opening who).imageOf c = s.imageOf c := State.imageOf_switched s _ _ hc

theorem Lmu.sourceOff_phase (l : Lmu) : l.sourceOff.phase = .idle := by
  unfold Lmu.sourceOff
  cases h : l.phase with
  | idle => exact h
  | stabilise => rfl
  | sample => rfl

/-- ALL_OPEN at one position. -/
def State.allOpenAt (s : State) (im : List (Nat × Rail)) (p : Nat) : List (Nat × Rail) :=
  if (s.posn p).state = .present then
    rewritePos im p (fun k old =>
      if decide (k < (s.posn p).kind.channels) && !(s.isBlocked ⟨p, k⟩) then some .opn else old)
  else im

theorem State.allOpenImage_eq (s : State) : s.allOpenImage = positions.foldl s.allOpenAt s.matrix.image := rfl

theorem State.allOpenAt_read (s : State) (p : Nat) {im : List (Nat × Rail)} (hi : tableWf im = true) {c : Chan}
    (hc : c.ch ≤ 127) : tableWf (s.allOpenAt im p) = true ∧ tget (s.allOpenAt im p) c.key =
      if c.pos = p ∧ (s.posn c.pos).state = .present ∧ c.ch < (s.posn c.pos).kind.channels ∧ s.isBlocked c = false
        then some .opn else tget im c.key := by
  unfold State.allOpenAt
  by_cases hp : (s.posn p).state = .present
  · rw [if_pos hp]
    refine ⟨rewritePos_wf _ _ _ hi, (rewritePos_read im p _ hi c hc).trans ?_⟩
    by_cases hcp : c.pos = p
    · subst hcp
      simp [hp]
    · simp [hcp]
  · rw [if_neg hp]
    refine ⟨hi, (if_neg ?_).symm⟩
    rintro ⟨rfl, h, -⟩
    exact hp h

theorem State.allOpenFold_read (s : State) {c : Chan} (hc : c.ch ≤ 127) (l : List Nat) : ∀ {im : List (Nat × Rail)},
    tableWf im = true → tget (l.foldl s.allOpenAt im) c.key =
      if c.pos ∈ l ∧ (s.posn c.pos).state = .present ∧ c.ch < (s.posn c.pos).kind.channels ∧ s.isBlocked c = false
        then some .opn else tget im c.key := by
  induction l with
  | nil => intro im _; simp
  | cons p l ih =>
    intro im hi
    obtain ⟨hwf, hread⟩ := s.allOpenAt_read p hi hc
    rw [List.foldl_cons, ih hwf, hread]
    by_cases hq : (s.posn c.pos).state = .present ∧ c.ch < (s.posn c.pos).kind.channels ∧ s.isBlocked c = false
    · by_cases hp : c.pos = p
      · have hmem : c.pos ∈ p :: l := hp ▸ List.mem_cons_self ..
        exact ((if_congr Iff.rfl rfl (if_pos ⟨hp, hq⟩)).trans (ite_self _)).trans (if_pos ⟨hmem, hq⟩).symm
      · have hmem : c.pos ∈ p :: l ↔ c.pos ∈ l := by rw [List.mem_cons, or_iff_right hp]
        exact if_congr (and_congr_left fun _ => hmem.symm) rfl (if_neg fun h => hp h.1)
    · rw [if_neg fun h => hq h.2, if_neg fun h => hq h.2, if_neg fun h => hq h.2]

/-- The image after ALL_OPEN, channel by channel. -/
theorem State.allOpenImage_tget (s : State) (hw : tableWf s.matrix.image = true) (c : Chan) (hc : c.ch ≤ 127) :
    tget s.allOpenImage c.key = if 1 ≤ c.pos ∧ c.pos ≤ 32 ∧ (s.posn c.pos).state = .present ∧
      c.ch < (s.posn c.pos).kind.channels ∧ s.isBlocked c = false then some .opn else s.imageOf c := by
  rw [s.allOpenImage_eq, s.allOpenFold_read hc positions hw]
  refine if_congr ?_ rfl rfl
  rw [mem_positions, and_assoc]

/-! ### The end of a job (R149, R150) -/

theorem State.setHead_eq {s : State} {j : Job} {r : List Job} (h : s.queue.jobs = j :: r) (f : Job → Job) :
    s.setHead f = { s with queue := { s.queue with jobs := f j :: r } } := by
  unfold State.setHead
  rw [h]

/-- The engine has let go of its job, which is ENDING. -/
def State.ending (s : State) (c : EndCause) : State :=
  { s.setHead (fun j => { j with
      state := .ending, ended := some c, steps := s.engine.steps, nets := s.engine.nets, extra := s.engine.extra }) with
    engine := Engine.reset }

theorem State.ending_eq {s : State} {j : Job} {r : List Job} (h : s.queue.jobs = j :: r) (c : EndCause) : s.ending c =
    { s with
      queue := { s.queue with jobs := { j with
        state := .ending, ended := some c
        steps := s.engine.steps, nets := s.engine.nets, extra := s.engine.extra } :: r }
      engine := Engine.reset } := by
  unfold State.ending
  rw [State.setHead_eq h]

section
variable (s : State) (c : EndCause)
@[simp] theorem State.ending_matrix : (s.ending c).matrix = s.matrix := State.setHead_matrix _ _
@[simp] theorem State.ending_link : (s.ending c).link = s.link := State.setHead_link _ _
@[simp] theorem State.ending_hv : (s.ending c).hv = s.hv := State.setHead_hv _ _
@[simp] theorem State.ending_lmu : (s.ending c).lmu = s.lmu := State.setHead_lmu _ _
@[simp] theorem State.ending_host : (s.ending c).host = s.host := State.setHead_host _ _
@[simp] theorem State.ending_store : (s.ending c).store = s.store := State.setHead_store _ _
@[simp] theorem State.ending_log : (s.ending c).log = s.log := State.setHead_log _ _
@[simp] theorem State.ending_events : (s.ending c).events = s.events := State.setHead_events _ _
@[simp] theorem State.ending_reference : (s.ending c).reference = s.reference := State.setHead_reference _ _
@[simp] theorem State.ending_printer : (s.ending c).printer = s.printer := State.setHead_printer _ _
@[simp] theorem State.ending_engine : (s.ending c).engine = Engine.reset := rfl
end

theorem State.endJob_eq (s : State) (c : EndCause) : s.endJob c =
    if ((s.ending c).offerPlan ⟨.allOpen, .jobEnd⟩).1.hv.rail = .fault
      then ((s.ending c).offerPlan ⟨.allOpen, .jobEnd⟩).1.finishJob
      else ((s.ending c).offerPlan ⟨.allOpen, .jobEnd⟩).1 := rfl

/-- The all-open plan of the end goes out at once. -/
theorem State.endJob_opens {s : State} (c : EndCause) (hslot : s.matrix.slot = .empty) (hrail : s.hv.rail = .safe)
    (hx : s.link.exchange = none) : s.endJob c = (s.ending c).opening .jobEnd := by
  have hoffer : (s.ending c).offerPlan ⟨.allOpen, .jobEnd⟩ = ((s.ending c).opening .jobEnd, []) := by
    rw [State.offerPlan_free (s := s.ending c) (by simp [hslot])]
    show reports _ ((s.ending c).enterSlot (allOpenTaken .jobEnd)) = _
    rw [State.enterSlot_safe (s := s.ending c) (by simp [hrail])]
    refine (congrArg _ (State.enterSending_allOpen (s := s.ending c) (who := .jobEnd) (cs := []) (by simp [hx]))).trans ?_
    rfl
  rw [State.endJob_eq, hoffer]
  refine if_neg ?_
  show ¬ (s.ending c).hv.rail = .fault
  simp [hrail]

theorem State.offerPlan_held {s : State} (hslot : s.matrix.slot = .empty) (hrail : s.hv.rail ≠ .safe) (who : Issuer) :
    s.offerPlan ⟨.allOpen, who⟩ = (s.setSlot (.held (allOpenTaken who)), []) := by
  rw [State.offerPlan_free hslot]
  show reports _ (s.enterSlot (allOpenTaken who)) = _
  rw [State.enterSlot_held hrail]
  rfl

/-- With the rail not SAFE it is HELD. -/
theorem State.endJob_held {s : State} (c : EndCause) (hslot : s.matrix.slot = .empty) (hrail : s.hv.rail ≠ .safe)
    (hf : s.hv.rail ≠ .fault) : s.endJob c = (s.ending c).setSlot (.held (allOpenTaken .jobEnd)) := by
  rw [State.endJob_eq, State.offerPlan_held (s := s.ending c) (by simp [hslot]) (by simp [hrail])]
  refine if_neg ?_
  show ¬ (s.ending c).hv.rail = .fault
  simp [hf]

/-- Behind another plan it waits. -/
theorem State.endJob_waits {s : State} (c : EndCause) (hslot : s.matrix.slot ≠ .empty) (hf : s.hv.rail ≠ .fault) :
    s.endJob c = { s.ending c with matrix := { s.matrix with waiting := s.matrix.waiting ++ [⟨.allOpen, .jobEnd⟩] } } := by
  have hoffer : (s.ending c).offerPlan ⟨.allOpen, .jobEnd⟩ = ({ s.ending c with
      matrix := { (s.ending c).matrix with waiting := (s.ending c).matrix.waiting ++ [⟨.allOpen, .jobEnd⟩] } }, []) := by
    refine if_neg ?_
    rw [State.ending_matrix]
    cases h : s.matrix.slot <;> simp [Slot.isEmpty, h] at hslot ⊢
  rw [State.endJob_eq, hoffer]
  refine (if_neg ?_).trans ?_
  · show ¬ (s.ending c).hv.rail = .fault
    simp [hf]
  · rw [State.ending_matrix]

/-! ### JOB_END (R150, R151) -/

theorem State.examineHead_fault {s : State} (h : s.hv.rail = .fault) : s.examineHead = s.endWait :=
  State.examineHead_other (Bool.eq_false_iff.2 fun hw => (s.spaceAlone_iff.1 hw).2.2.1 h)

theorem Logged.data {s t : State} {ds : List RecData} (h : Logged s t ds) :
    t.log.entries.map (·.data) = s.log.entries.map (·.data) ++ ds := by
  rw [h.entries, List.map_append, stamped_data]

/-- The job at the head has left, its JOB_END taken by the log. -/
structure Finished (s t : State) (j : Job) (c : EndCause) : Prop where
  logged : Logged s t [jobEndRec j c]
  engine : t.engine = Engine.reset
  matrix : t.matrix = s.matrix.orphanEnd
  link : t.link = s.link
  lmu : t.lmu = s.lmu
  reference : t.reference = s.reference
  hv : t.hv = s.hv
  queue : t.queue = { s.queue with jobs := s.queue.jobs.tail, stallWait := t.queue.stallWait }
  unstalled : s.hv.rail = .fault → t.queue.stallWait = false
  raised : ∀ n, s.events.pending.getLsbD n = true → t.events.pending.getLsbD n = true
  event : t.events.isPending (endEvent c.reason) = true
  notWaiting : (∀ r ∈ s.host.slots, r.phase ≠ .waiting) → ∀ r ∈ t.host.slots, r.phase ≠ .waiting

theorem Logged.ofQueue {s t : State} {q : Queue} {ds : List RecData} (h : Logged { s with queue := q } t ds) :
    Logged s t ds := ⟨h.store, h.printer, h.reporting, h.nextSeq, h.entries⟩

theorem Logged.examineHead (s : State) : Logged s s.examineHead [] := by
  unfold State.examineHead
  split
  · split
    · exact Logged.refl s
    · exact Logged.ofQueue (Logged.raise { s with queue := { s.queue with stallWait := true } } .logStall)
  · exact Logged.ofQueue (Logged.refl { s with queue := { s.queue with stallWait := false } })

theorem Logged.appendSystem {s : State} (hp : s.printer.state ≠ .idle) (hr : s.log.reporting = true)
    (hlen : s.log.entries.length < 256) (d : RecData) : Logged s (s.appendSystem d).1 [d] := by
  rw [State.appendSystem_taken hp hlen]
  exact Logged.take hr d

theorem State.finishJob_finished {s : State} {j : Job} {rest : List Job} {c : EndCause} (hj : s.queue.jobs = j :: rest)
    (hc : j.ended = some c) (hp : s.printer.state ≠ .idle) (hr : s.log.reporting = true)
    (hlen : s.log.entries.length < 256) : Finished s s.finishJob j c := by
  have hfin : s.finishJob = (((s.appendSystem (jobEndRec j c)).1.raise (endEvent c.reason)).dropHead).examineHead := by
    unfold State.finishJob State.head
    rw [hj]
    simp only [List.head?_cons, hc, Option.getD_some]
  have hq := (Quiet.appendSystem s (jobEndRec j c)).trans (Quiet.raise _ (endEvent c.reason))
  have hlog := (Logged.appendSystem hp hr hlen (jobEndRec j c)).trans (Logged.raise _ (endEvent c.reason))
  have hev : ((s.appendSystem (jobEndRec j c)).1.raise (endEvent c.reason)).events.isPending (endEvent c.reason) = true :=
    State.raise_isPending _ _
  rw [hfin]
  generalize (s.appendSystem (jobEndRec j c)).1.raise (endEvent c.reason) = u at hq hlog hev
  obtain ⟨w, hw⟩ := Quiet.examineHead u.dropHead
  have hlast : Logged s u.dropHead.examineHead ([jobEndRec j c] ++ [] ++ []) :=
    Logged.trans (t := u.dropHead) ⟨hlog.store, hlog.printer, hlog.reporting, hlog.nextSeq, hlog.entries⟩
      (Logged.examineHead _)
  refine ⟨hlast, hw.engine, ?_, hw.link.trans hq.link, hw.lmu.trans hq.lmu, hw.reference.trans hq.reference,
    hw.hv.trans hq.hv, ?_, fun hf => ?_, fun n hn => hw.raised n (hq.raised n hn), ?_, fun hn => hw.notWaiting (hq.notWaiting hn)⟩
  · exact hw.matrix.trans (congrArg Matrix.orphanEnd hq.matrix)
  · rw [hw.queue]
    show { u.queue with jobs := u.queue.jobs.tail, stallWait := w } = _
    rw [hq.queue]
  · rw [State.examineHead_fault (s := u.dropHead) (hq.hv ▸ hf)]
    rfl
  · rw [Events.isPending] at hev ⊢
    exact hw.raised _ hev

end Sys2Proof.Machine
end

section
/-! PROOFS. A plan from HELD to the end of its settle time (3.3, 3.4). -/

namespace Sys2Proof.Machine

open Sys2Proof

theorem exec_heldPlanSending (s : State) : exec .heldPlanSending s = .next s.heldGoes.dispatch := rfl

theorem exec_settleExpiry (s : State) : exec .settleExpiry s = .next s.settleDone.dispatch := rfl

theorem State.heldGoes_unsafe {s : State} (h : s.hv.rail ≠ .safe) : s.heldGoes = s := by
  unfold State.heldGoes
  split
  · exact if_neg h
  · rfl
  · rfl
  · rfl

theorem State.heldGoes_allOpen {s : State} {who : Issuer} (hrail : s.hv.rail = .safe)
    (hslot : s.matrix.slot = .held (allOpenTaken who)) (hx : s.link.exchange = none) : s.heldGoes = s.opening who := by
  have hsend : s.enterSending (allOpenTaken who) = (s.opening who, none) :=
    State.enterSending_allOpen (who := who) (cs := []) hx
  unfold State.heldGoes
  rw [hslot]
  show (if s.hv.rail = .safe then State.delivered (reports who (s.enterSending (allOpenTaken who))) else s) = _
  rw [if_pos hrail, hsend]
  rfl

/-- With ALL_OPEN's last byte the slot settles. -/
theorem State.allOpenDone_sending {s : State} {t : Taken} {pos : Nat} {touched : List Nat}
    (hslot : s.matrix.slot = .sending t pos touched) : s.allOpenDone = { s with
      link := { s.link with exchange := none, replyTimer := none }
      matrix := { s.matrix with
        image := s.allOpenImage
        slot := .settling t s.allOpenTouched ((s.allOpenTouched.map s.settleOf).foldl max 0) } } := by
  unfold State.allOpenDone
  dsimp only
  rw [hslot]
  rfl

/-- At the end of the settle time the issuer is told. -/
theorem State.settleDone_deliver {s : State} {t : Taken} {touched : List Nat} {ms : Nat}
    (hslot : s.matrix.slot = .settling t touched ms) (hwait : s.matrix.waiting = []) :
    s.settleDone = (s.setSlot .empty).deliver ⟨t.plan.issuer, .complete touched.length⟩ := by
  unfold State.settleDone
  rw [hslot]
  show State.delivered (reports t.plan.issuer (s.setSlot .empty, some (.complete touched.length))) = _
  rw [reports_some (s := s.setSlot .empty) hwait]
  rfl

/-- The plan of a step complete with no abort: its measurement is requested. -/
theorem State.onPlan_lmu {s : State} {b : PlanBody} {m : MeasReq} (n : Nat) (ha : s.engine.abort = none)
    (hh : s.engine.inHand = some ⟨b, .lmu m⟩) (hok : s.sourceAllowed = true) : s.onPlan (.complete n) =
      { s with engine := { s.engine with phase := .measure }, lmu := s.lmu.start m .engine } := by
  unfold State.onPlan
  simp only [ha, hh]
  exact if_pos hok

theorem State.onPlan_hv {s : State} {b : PlanBody} {v : StepValues} (n : Nat) (ha : s.engine.abort = none)
    (hh : s.engine.inHand = some ⟨b, .hv v⟩) : s.onPlan (.complete n) =
      { s with engine := { s.engine with phase := .hvStep }, hv := { s.hv with request := some v } } := by
  unfold State.onPlan
  simp only [ha, hh]
  rfl

theorem State.onPlan_abort {s : State} {c : EndCause} (n : Nat) (ha : s.engine.abort = some c) :
    s.onPlan (.complete n) = s.endJob c := by
  unfold State.onPlan
  simp only [ha]

theorem Matrix.orphanEnd_empty {m : Matrix} (hslot : m.slot = .empty) (hwait : m.waiting = []) : m.orphanEnd = m := by
  obtain ⟨roster, frozen, image, slot, waiting, blocked⟩ := m
  simp only at hslot hwait
  subst hslot hwait
  rfl

/-- Settles O34: HELD, ALL_OPEN, its last byte, and the end of the settle time for each issuer. -/
theorem allOpenPlanRunsToItsEnd : Obligations.AllOpenPlanRunsToItsEnd := by
  refine ⟨fun s hrail hw => ?_, fun who s hrail hslot hx hw hb => ?_, fun t pos touched q rs s hslot hx hwf hw => ?_,
    fun t touched ms s hslot hwait hw => ⟨s.setSlot .empty, rfl, fun hwho => ?_, fun tag p hwho hslots htx => ?_,
      fun tag p n hwho hslots htx hcar => ?_, fun hwho hrail => ⟨fun b m ha hh => ?_, fun b v ha hh => ?_,
        fun c j rest ha hj hx => ?_⟩, fun j rest c hwho hj hc hp hr hlen => ?_⟩⟩
  · rw [exec_heldPlanSending, State.heldGoes_unsafe hrail]
    exact congrArg _ (State.dispatch_idle s hw)
  · refine ⟨s.opening who, ?_, ⟨_, rfl⟩, rfl, s.lmu.sourceOff_phase, fun k hk => s.opening_reference who hk (hb k),
      fun c hc => s.opening_card who hc, rfl, rfl, rfl, rfl, rfl, rfl⟩
    rw [exec_heldPlanSending, State.heldGoes_allOpen hrail hslot hx]
    exact congrArg _ (State.dispatch_idle _ hw)
  · refine ⟨s.allOpenImage, _, rfl, ?_, fun c hc => s.allOpenImage_tget hwf c hc⟩
    show Host.Outcome.next (if s.link.exchange.map (·.sent) = some .allOpen then s.allOpenDone.dispatch else s) = _
    rw [if_pos (by rw [hx]; rfl), State.allOpenDone_sending hslot]
    exact congrArg _ (State.dispatch_idle _ hw)
  · rw [exec_settleExpiry, State.settleDone_deliver hslot hwait, hwho]
    exact congrArg _ (State.dispatch_idle _ hw)
  · have hreply : (s.setSlot .empty).deliver ⟨.manual, .complete touched.length⟩ = _ :=
      State.composeTimed_eq (s := s.setSlot .empty) ([0x00#8, 0x00#8] ++ le1 touched.length) hslots htx
    rw [exec_settleExpiry, State.settleDone_deliver hslot hwait, hwho, hreply]
    exact congrArg _ (State.dispatch_idle _ (State.examineHead_replying_notWaiting _ _ _ _ _))
  · have hbytes : planReply (.complete touched.length) (s.setSlot .empty).removedBytes =
        [0x00#8, 0x00#8] ++ le1 touched.length ++ le2 n := by
      have : (s.setSlot .empty).removedBytes = le2 n := by
        unfold State.removedBytes
        show (match s.host.carried with
          | some (.unblock n) => le2 n
          | some .enumerate => []
          | some .manual => []
          | some (.measure _) => []
          | none => []) = _
        rw [hcar]
      rw [this]
      rfl
    have hreply : (s.setSlot .empty).deliver ⟨.unblock, .complete touched.length⟩ = _ :=
      (congrArg (s.setSlot .empty).composeTimed hbytes).trans
        (State.composeTimed_eq (s := s.setSlot .empty) _ hslots htx)
    rw [exec_settleExpiry, State.settleDone_deliver hslot hwait, hwho, hreply]
    exact congrArg _ (State.dispatch_idle _ (State.examineHead_replying_notWaiting _ _ _ _ _))
  · have hplan : (s.setSlot .empty).deliver ⟨.engine, .complete touched.length⟩ = _ :=
      State.onPlan_lmu touched.length ha hh (State.sourceAllowed_of hrail (.inl rfl))
    rw [exec_settleExpiry, State.settleDone_deliver hslot hwait, hwho, hplan]
    exact congrArg _ (State.dispatch_idle _ hw)
  · have hplan : (s.setSlot .empty).deliver ⟨.engine, .complete touched.length⟩ = _ :=
      State.onPlan_hv touched.length ha hh
    rw [exec_settleExpiry, State.settleDone_deliver hslot hwait, hwho, hplan]
    exact congrArg _ (State.dispatch_idle _ hw)
  · have hplan : (s.setSlot .empty).deliver ⟨.engine, .complete touched.length⟩ = ((s.setSlot .empty).ending c).opening .jobEnd :=
      (State.onPlan_abort (s := s.setSlot .empty) touched.length ha).trans
        (State.endJob_opens (s := s.setSlot .empty) c rfl hrail hx)
    have hend := State.ending_eq (s := s.setSlot .empty) hj c
    rw [exec_settleExpiry, State.settleDone_deliver hslot hwait, hwho, hplan, hend]
    exact ⟨_, congrArg _ (State.dispatch_idle _ hw), rfl, rfl, ⟨_, rfl⟩, rfl, rfl, rfl, rfl⟩
  · have hplan : (s.setSlot .empty).deliver ⟨.jobEnd, .complete touched.length⟩ = (s.setSlot .empty).finishJob := rfl
    have hfin := State.finishJob_finished (s := s.setSlot .empty) hj hc hp hr hlen
    refine ⟨_, ?_, ?_, ?_, hfin.logged.entries, ?_, ?_, hfin.hv, hfin.lmu, hfin.link, hfin.logged.store, hfin.reference⟩
    · rw [exec_settleExpiry, State.settleDone_deliver hslot hwait, hwho, hplan]
      exact congrArg _ (State.dispatch_idle _ (hfin.notWaiting hw))
    · exact (congrArg Queue.jobs hfin.queue).trans (congrArg List.tail hj)
    · exact (congrArg Queue.hold hfin.queue).trans rfl
    · have h := hfin.event
      unfold Events.isPending endEvent at h
      split
      · next hc => rwa [if_pos hc] at h
      · next hc => rwa [if_neg hc] at h
    · exact hfin.matrix.trans (Matrix.orphanEnd_empty rfl hwait)

end Sys2Proof.Machine
end

section
/-! PROOFS. The end of a discharge (7.5): SAFE, or FAULT and the end of the active job. -/

namespace Sys2Proof.Machine

open Sys2Proof

/-! ### The rail in FAULT (R124) -/

/-- The rail in FAULT with nothing kept of a step, and the queue as it becomes. -/
def State.faulted (s : State) (q : Queue) : State :=
  { s with
    hv := Hv.dropStep { s.hv with rail := .fault, holdTimer := none, limitTimer := none }
    queue := q }

/-- What FAULT gives beside the record and the event, as one state and its side. -/
structure RailFaulted (s t : State) (q : Queue) : Prop where
  eq : t = (s.faulted q).withSide t.side
  event : t.events.pending.getLsbD 0 = true
  logged : s.printer.state ≠ .idle → s.log.reporting = true → s.log.entries.length < 256 → Logged s t [s.hvFaultRec]

/-- The rail in FAULT, its record not yet offered. -/
def State.faulting (s : State) : State :=
  { s with hv := { s.hv with rail := .fault, holdTimer := none, limitTimer := none } }

def State.stepDropped (s : State) : State := { s with hv := s.hv.dropStep }

theorem State.railFault_eq (s : State) : s.railFault = (State.raise (if s.jobActive
    then (s.faulting.appendSystem s.hvFaultRec).1.countSystem (s.faulting.appendSystem s.hvFaultRec).2
    else (s.faulting.appendSystem s.hvFaultRec).1) .hvFault).stepDropped := rfl

theorem RailFaulted.of {s u : State} {q : Queue} (hu : ∃ x, u = ({ s.faulting with queue := q } : State).withSide x)
    (hlog : s.printer.state ≠ .idle → s.log.reporting = true → s.log.entries.length < 256 →
      Logged s.faulting u [s.hvFaultRec]) : RailFaulted s (u.raise .hvFault).stepDropped q := by
  have hq := Quiet.raise u .hvFault
  obtain ⟨x, rfl⟩ := hu
  refine ⟨?_, State.raise_isPending _ .hvFault, fun hp hr hlen => ?_⟩
  · conv_lhs => rw [State.stepDropped, hq.eq_withSide]
    rfl
  · have h := (hlog hp hr hlen).trans (Logged.raise _ .hvFault)
    exact ⟨h.store, h.printer, h.reporting, h.nextSeq, h.entries⟩

theorem Quiet.exists_withSide {s t : State} (h : Quiet s t) : ∃ x, t = s.withSide x := ⟨_, h.eq_withSide⟩

theorem State.railFault_idle {s : State} (h : s.jobActive = false) : RailFaulted s s.railFault s.queue := by
  rw [s.railFault_eq, if_neg (by simp [h])]
  exact RailFaulted.of (Quiet.appendSystem s.faulting s.hvFaultRec).exists_withSide fun hp hr hlen =>
    Logged.appendSystem (s := s.faulting) hp hr hlen s.hvFaultRec

/-- The queue once a system record of the active job has been taken. -/
def Queue.counted (q : Queue) (j : Job) (rest : List Job) : Queue :=
  { q with jobs := { j with systems := j.systems + 1 } :: rest }

theorem State.countSystem_true {s : State} {j : Job} {rest : List Job} (hj : s.queue.jobs = j :: rest) :
    s.countSystem true = { s with queue := s.queue.counted j rest } := State.setHead_eq hj _

theorem State.jobActive_of {s : State} {j : Job} {rest : List Job} (hj : s.queue.jobs = j :: rest)
    (hact : j.state.active = true) : s.activeJob = some j := by
  unfold State.activeJob State.head
  rw [hj]
  exact if_pos hact

theorem State.railFault_active {s : State} {j : Job} {rest : List Job} (hj : s.queue.jobs = j :: rest)
    (hact : j.state.active = true) (hp : s.printer.state ≠ .idle) (hlen : s.log.entries.length < 256) :
    RailFaulted s s.railFault (s.queue.counted j rest) := by
  have hactive : s.jobActive = true := by rw [State.jobActive, State.jobActive_of hj hact]; rfl
  have htaken := State.appendSystem_taken (s := s.faulting) hp hlen s.hvFaultRec
  have hq := Quiet.take s.faulting s.hvFaultRec
  have hcount : (s.faulting.take s.hvFaultRec).countSystem true =
      { s.faulting.take s.hvFaultRec with queue := s.queue.counted j rest } := by
    rw [State.countSystem_true ((congrArg Queue.jobs hq.queue).trans hj), hq.queue]
    rfl
  rw [s.railFault_eq, if_pos hactive, htaken, hcount]
  obtain ⟨x, hx⟩ := hq.exists_withSide
  refine RailFaulted.of ⟨x, by rw [hx]; rfl⟩ fun _ hr _ => ?_
  have h := Logged.take (s := s.faulting) hr s.hvFaultRec
  exact ⟨h.store, h.printer, h.reporting, h.nextSeq, h.entries⟩

/-! ### The end of the active job with the rail in FAULT (R142, R150) -/

theorem State.endJob_fault {s : State} (c : EndCause) (hslot : s.matrix.slot = .empty) (hf : s.hv.rail = .fault) :
    s.endJob c = ((s.ending c).setSlot (.held (allOpenTaken .jobEnd))).finishJob := by
  rw [State.endJob_eq, State.offerPlan_held (s := s.ending c) (by simp [hslot]) (by simp [hf])]
  refine if_pos ?_
  show (s.ending c).hv.rail = .fault
  simp [hf]

theorem State.abortActive_releasing {s : State} {j : Job} {rest : List Job} (c : EndCause) (hj : s.queue.jobs = j :: rest)
    (hst : j.state = .suspended ∨ j.state = .logWait) : s.abortActive c = s.endJob c := by
  have hact : j.state.active = true := by rcases hst with h | h <;> rw [h] <;> rfl
  unfold State.abortActive
  rw [State.jobActive_of hj hact]
  rcases hst with h | h <;> simp only [h]

theorem State.abortActive_running {s : State} {j : Job} {rest : List Job} (c : EndCause) (hj : s.queue.jobs = j :: rest)
    (hst : j.state = .running) (ha : s.engine.abort = none) : s.abortActive c = s.abortRunning c := by
  have hact : j.state.active = true := by rw [hst]; rfl
  unfold State.abortActive
  rw [State.jobActive_of hj hact]
  simp only [hst, ha]
  rfl

theorem State.abortRunning_hvStep {s : State} (c : EndCause) (h : s.engine.phase = .hvStep) :
    s.abortRunning c = State.endJob { s with hv := s.hv.stopOrder } c := by
  unfold State.abortRunning
  rw [h]

theorem State.endWait_of {s : State} (h : s.queue.stallWait = false) : s.endWait = s := by
  obtain ⟨store, link, matrix, lmu, limits, reference, engine, hv, queue, log, printer, host, events, pins, pending⟩ := s
  obtain ⟨jobs, hold, stallWait⟩ := queue
  simp only at h
  subst h
  rfl

theorem State.limitDone_ending {s : State} (h : s.railFault.endingHeld = true) : s.limitDone = s.railFault.finishJob :=
  if_pos h

theorem State.limitDone_else {s : State} (h : s.railFault.endingHeld = false) :
    s.limitDone = State.examineHead (s.railFault.abortActive ⟨.abortedHvFault, .nothing⟩) := if_neg (by simp [h])

/-- The state in which the job that FAULT ends leaves the queue. -/
def State.leaving (s : State) (j : Job) (rest : List Job) (e : Engine) : State :=
  { s with
    hv := Hv.dropStep { s.hv with rail := .fault, holdTimer := none, limitTimer := none }
    matrix := { s.matrix with slot := .held (allOpenTaken .jobEnd) }
    engine := e
    queue := { s.queue with jobs := j :: rest } }

/-- A job that has not ended ends ABORTED_HV_FAULT at once. -/
theorem State.limitDone_aborts {s : State} {j : Job} {rest : List Job}
    (hslot : s.matrix.slot = .empty)
    (hst : (j.state = .running ∧ s.engine.phase = .hvStep ∧ s.engine.abort = none) ∨ j.state = .suspended ∨
      j.state = .logWait) (hf : RailFaulted s s.railFault (s.queue.counted j rest)) :
    ∃ y, s.railFault.side = y ∧ s.limitDone = (((s.leaving { j with
      state := .ending, ended := some ⟨.abortedHvFault, .nothing⟩, systems := j.systems + 1
      steps := s.engine.steps, nets := s.engine.nets, extra := s.engine.extra } rest Engine.reset).withSide
        y).finishJob).examineHead := by
  refine ⟨_, rfl, ?_⟩
  have hu := hf.eq
  generalize s.railFault.side = y at hu
  have hnot : s.railFault.endingHeld = false := by
    have hact : ({ j with systems := j.systems + 1 } : Job).state.active = true := by
      rcases hst with h | h | h
      · rw [h.1]; rfl
      · rw [h]; rfl
      · rw [h]; rfl
    rw [hu]
    unfold State.endingHeld
    rw [State.jobActive_of (s := (s.faulted (s.queue.counted j rest)).withSide y) (j := { j with systems := j.systems + 1 })
      (rest := rest) rfl hact]
    rcases hst with h | h | h
    · simp [h.1]
    · simp [h]
    · simp [h]
  have hend : s.railFault.abortActive ⟨.abortedHvFault, .nothing⟩ =
      State.endJob ((s.faulted (s.queue.counted j rest)).withSide y) ⟨.abortedHvFault, .nothing⟩ := by
    rw [hu]
    rcases hst with ⟨h, hphase, ha⟩ | h
    · rw [State.abortActive_running (s := (s.faulted (s.queue.counted j rest)).withSide y) _
        (j := { j with systems := j.systems + 1 }) (rest := rest) rfl h ha, State.abortRunning_hvStep (s := (s.faulted (s.queue.counted j rest)).withSide y) _ hphase]
      rfl
    · exact State.abortActive_releasing (s := (s.faulted (s.queue.counted j rest)).withSide y) _
        (j := { j with systems := j.systems + 1 }) (rest := rest) rfl h
  rw [State.limitDone_else hnot, hend, State.endJob_fault (s := (s.faulted (s.queue.counted j rest)).withSide y) _ hslot rfl,
    State.ending_eq (s := (s.faulted (s.queue.counted j rest)).withSide y) (j := { j with systems := j.systems + 1 })
      (r := rest) rfl]
  rfl

/-- A job that is ENDING already completes its end. -/
theorem State.limitDone_ends {s : State} {j : Job} {rest : List Job}
    (hslot : s.matrix.slot = .held (allOpenTaken .jobEnd)) (hst : j.state = .ending)
    (hf : RailFaulted s s.railFault (s.queue.counted j rest)) :
    ∃ y, s.railFault.side = y ∧ s.limitDone =
      ((s.leaving { j with systems := j.systems + 1 } rest s.engine).withSide y).finishJob := by
  refine ⟨_, rfl, ?_⟩
  have hu := hf.eq
  generalize s.railFault.side = y at hu
  have hheld : s.railFault.endingHeld = true := by
    have hact : ({ j with systems := j.systems + 1 } : Job).state.active = true := by
      show j.state.active = true
      rw [hst]
      rfl
    rw [hu]
    unfold State.endingHeld
    rw [State.jobActive_of (s := (s.faulted (s.queue.counted j rest)).withSide y) (j := { j with systems := j.systems + 1 })
      (rest := rest) rfl hact]
    show (decide (j.state = .ending) && (((match s.matrix.slot with
      | .held t => decide (t.plan.issuer = .jobEnd)
      | .empty => false
      | .sending _ _ _ => false
      | .settling _ _ _ => false)) || _)) = true
    rw [hst, hslot]
    rfl
  have hleave : (s.faulted (s.queue.counted j rest)).withSide y =
      (s.leaving { j with systems := j.systems + 1 } rest s.engine).withSide y := by
    have hm : s.matrix = { s.matrix with slot := .held (allOpenTaken .jobEnd) } := by rw [← hslot]
    show ({ s.faulted (s.queue.counted j rest) with matrix := s.matrix } : State).withSide y = _
    rw [hm]
    rfl
  rw [State.limitDone_ending hheld, hu, hleave]

/-- What is left once the job has left with the rail in FAULT. -/
theorem State.leaving_finished {s : State} {j : Job} {rest : List Job} {c : EndCause} {e : Engine} {d : RecData} {y : Side}
    {u : State} (hu : u.side = y) (hlog : Logged s u [d]) (hev : u.events.pending.getLsbD 0 = true)
    (hended : j.ended = some c) (hp : s.printer.state ≠ .idle) (hr : s.log.reporting = true)
    (hlen : s.log.entries.length + 2 ≤ 256) (hwait : s.matrix.waiting = []) :
    ∃ t, ((s.leaving j rest e).withSide y).finishJob = t ∧ t.examineHead = t ∧
      t.hv = (s.leaving j rest e).hv ∧ t.matrix = { s.matrix with slot := .held ⟨⟨.allOpen, .nobody⟩, []⟩ } ∧
      t.engine = Engine.reset ∧ t.queue = { s.queue with jobs := rest, stallWait := false } ∧ t.link = s.link ∧
      t.lmu = s.lmu ∧ t.store = s.store ∧ t.reference = s.reference ∧ t.events.pending.getLsbD 0 = true ∧
      t.events.pending.getLsbD (if c.reason = .complete then 10 else 7) = true ∧
      t.log.entries.map (·.data) = s.log.entries.map (·.data) ++ [d, jobEndRec j c] := by
  subst hu
  have hlog' : Logged s ((s.leaving j rest e).withSide u.side) [d] :=
    ⟨hlog.store, hlog.printer, hlog.reporting, hlog.nextSeq, hlog.entries⟩
  have hfin := State.finishJob_finished (s := (s.leaving j rest e).withSide u.side) (j := j) (rest := rest) rfl hended
    (ne_of_eq_of_ne (congrArg _ hlog'.printer) hp) (hlog'.reporting.trans hr) (by
      rw [hlog'.entries, List.length_append, stamped_length, List.length_singleton]
      omega)
  refine ⟨_, rfl, ?_, hfin.hv, ?_, hfin.engine, ?_, hfin.link, hfin.lmu, hfin.logged.store.trans hlog'.store,
    hfin.reference, hfin.raised 0 hev, ?_, (hlog'.trans hfin.logged).data⟩
  · rw [State.examineHead_fault (by rw [hfin.hv]; rfl), State.endWait_of (hfin.unstalled rfl)]
  · refine hfin.matrix.trans ?_
    unfold Matrix.orphanEnd
    show ({ s.matrix with slot := _, waiting := s.matrix.waiting.map Plan.orphanIf } : Matrix) = _
    rw [hwait]
    conv_rhs => rw [← Matrix.with_waiting_nil hwait]
    rfl
  · rw [hfin.queue, hfin.unstalled rfl]
    rfl
  · have h := hfin.event
    unfold Events.isPending endEvent at h
    split
    · next hc => rwa [if_pos hc] at h
    · next hc => rwa [if_neg hc] at h

theorem State.hvFaultRec_active {s : State} {j : Job} {rest : List Job} (hj : s.queue.jobs = j :: rest)
    (hact : j.state.active = true) : s.hvFaultRec =
      { kind := .hvFault, system := true, tag := some j.tag, value := some ⟨.dV, some s.hv.presentV⟩
        second := some ⟨.nA, some s.hv.presentI⟩, cause := some (.discharge s.hv.cause) } := by
  unfold State.hvFaultRec
  rw [State.jobActive_of hj hact]
  rfl

/-- Settles O49: SAFE with and without a held result, FAULT with and without a job, and CLEAR_HV_FAULT. -/
theorem dischargeEndsInSafeOrFault : Obligations.DischargeEndsInSafeOrFault := by
  refine ⟨fun ms s hrail hhold hheld => ?_, fun ms r s hrail hhold hheld => ?_, fun ms s hrail hlim hact => ?_,
    fun ms j rest c counts s hrail hlim hj hwait hp hr hlen hcase => ?_, fun tag s hs => ⟨fun hrail hv hhead => ?_, fun h => ?_⟩⟩
  · refine congrArg Host.Outcome.next ((if_pos ⟨hrail, by simp [hhold]⟩).trans ?_)
    unfold State.holdDone
    simp only [show s.hv.enterSafe.held = none from hheld]
    rfl
  · refine congrArg Host.Outcome.next ((if_pos ⟨hrail, by simp [hhold]⟩).trans ?_)
    unfold State.holdDone
    simp only [show s.hv.enterSafe.held = some r from hheld]
    rfl
  · have hf := State.railFault_idle hact
    have hu := hf.eq
    have htag : s.activeJob = none := Option.not_isSome_iff_eq_none.1 (by simpa [State.jobActive] using hact)
    have hnone : s.railFault.activeJob = none := by
      rw [hu]
      exact htag
    have hdone : s.limitDone = s.railFault.examineHead := by
      rw [State.limitDone_else (by simp [State.endingHeld, hnone])]
      unfold State.abortActive
      rw [hnone]
    obtain ⟨w, hq⟩ := Quiet.examineHead s.railFault
    have hlog := Logged.examineHead s.railFault
    refine ⟨s.railFault.examineHead, congrArg Host.Outcome.next ((if_pos ⟨hrail, by simp [hlim]⟩).trans hdone), ?_, ?_, ?_,
      ?_, ?_, ?_, hq.raised 0 hf.event, fun hp hr hlen => ?_⟩
    · exact hq.hv.trans (by rw [hu]; rfl)
    · exact hq.matrix.trans (by rw [hu]; rfl)
    · exact hq.link.trans (by rw [hu]; rfl)
    · exact hq.lmu.trans (by rw [hu]; rfl)
    · exact hq.engine.trans (by rw [hu]; rfl)
    · exact (congrArg Queue.jobs hq.queue).trans (by rw [hu]; rfl)
    · refine ((hf.logged hp hr hlen).trans hlog).entries.trans ?_
      unfold State.hvFaultRec
      rw [htag]
      rfl
  · have hlimit : exec .dischargeLimit s = .next s.limitDone :=
      congrArg Host.Outcome.next (if_pos ⟨hrail, by simp [hlim]⟩)
    have hact : j.state.active = true := by
      rcases hcase with ⟨-, -, -, h | h | h⟩ | ⟨-, h, -⟩
      · rw [h.1]; rfl
      · rw [h]; rfl
      · rw [h]; rfl
      · rw [h]; rfl
    have hf := State.railFault_active hj hact hp (by omega)
    have hlog := hf.logged hp hr (by omega)
    rw [State.hvFaultRec_active hj hact] at hlog
    rcases hcase with ⟨hslot, rfl, rfl, hst⟩ | ⟨hslot, hst, hended, rfl⟩
    · obtain ⟨y, hy, hdone⟩ := State.limitDone_aborts hslot hst hf
      obtain ⟨t, ht, hexam, hfacts⟩ := State.leaving_finished (e := Engine.reset) (rest := rest) (j := { j with
        state := .ending, ended := some ⟨.abortedHvFault, .nothing⟩, systems := j.systems + 1
        steps := s.engine.steps, nets := s.engine.nets, extra := s.engine.extra }) hy hlog hf.event rfl hp hr hlen hwait
      rw [ht, hexam] at hdone
      exact ⟨t, hlimit.trans (congrArg _ hdone), hfacts⟩
    · obtain ⟨y, hy, hdone⟩ := State.limitDone_ends hslot hst hf
      obtain ⟨t, ht, -, hfacts⟩ := State.leaving_finished (e := s.engine) (rest := rest)
        (j := { j with systems := j.systems + 1 }) hy hlog hf.event hended hp hr hlen hwait
      rw [ht] at hdone
      exact ⟨t, hlimit.trans (congrArg _ hdone), hfacts⟩
  · have hnone : (s.handed 0x1D#8 tag []).queue.jobs = [] := List.head?_eq_none_iff.1 hhead
    have hdo : doClearHvFault [] (s.handed 0x1D#8 tag []) = (State.endWait { s.handed 0x1D#8 tag [] with
        hv := s.hv.enterSafe }, [0x00#8] ++ le2 s.hv.presentV) := by
      refine (if_neg (not_not_intro hrail)).trans ((if_neg (Nat.not_le.2 hv)).trans ?_)
      exact congrArg (fun u : State => (u, [0x00#8] ++ le2 s.hv.presentV))
        (State.examineHead_nil (s := { s.handed 0x1D#8 tag [] with hv := s.hv.enterSafe }) hnone)
    exact exec_answered .clearHvFault tag [] s (State.endWait { s.handed 0x1D#8 tag [] with hv := s.hv.enterSafe })
      ([0x00#8] ++ le2 s.hv.presentV) hs (by simp) (congrArg answered hdo) rfl
  · have hdo : doClearHvFault [] (s.handed 0x1D#8 tag []) =
        (s.handed 0x1D#8 tag [], [0x04#8] ++ le1 s.hv.rail.code ++ le2 s.hv.presentV) := by
      by_cases hrail : s.hv.rail = .fault
      · exact (if_neg (not_not_intro hrail)).trans (if_pos (h.resolve_left (not_not_intro hrail)))
      · exact if_pos hrail
    exact exec_answered_unchanged .clearHvFault tag [] s _ hs (by simp) (answered_eq hdo)

end Sys2Proof.Machine
end

section
/-! PROOFS. A step's plan (5.2, 7.4): how it is offered, and the cover that interrupts and resumes a step. -/

namespace Sys2Proof.Machine

open Sys2Proof

/-! ### A step's plan -/

/-- The engine with a step in hand whose plan is about to be offered (R81). -/
def State.stepping (s : State) (h : StepInHand) (again : Bool) : State :=
  s.setEngine { s.engine with phase := .plan, inHand := some h, isRepeat := again, ctl := .wait }

theorem State.offerInHand_eq (s : State) (h : StepInHand) (again : Bool) : s.offerInHand h again =
    ((s.stepping h again).offerPlan ⟨h.body, .engine⟩).1.engineReports
      ((s.stepping h again).offerPlan ⟨h.body, .engine⟩).2 := rfl

section
variable {s : State} {ts : List (Nat × Rail)} {req : StepReq} (again : Bool) (hrail : s.hv.rail = .safe)
  (hslot : s.matrix.slot = .empty) (hok : ∀ x ∈ ts, s.checkTarget x = none)
include hrail hslot hok

theorem State.offerPlan_step : (s.stepping ⟨.targets ts true, req⟩ again).offerPlan ⟨.targets ts true, .engine⟩ =
    reports .engine ((s.stepping ⟨.targets ts true, req⟩ again).enterSending (s.stepTaken ts)) := by
  rw [State.offerPlan_free (s := s.stepping ⟨.targets ts true, req⟩ again) hslot,
    State.takePlan_targets true .engine (s := s.stepping ⟨.targets ts true, req⟩ again) hok,
    State.enterSlot_safe (s := s.stepping ⟨.targets ts true, req⟩ again) hrail]
  rfl

/-- The first card with a change is sent its SET. -/
theorem State.offerInHand_sends {p : Nat} (hs : s.sendsTo ts p) : s.offerInHand ⟨.targets ts true, req⟩ again =
    (s.stepping ⟨.targets ts true, req⟩ again).planSent (s.stepTaken ts) p := by
  obtain ⟨-, -, hx, -, h1, h2, hno, hc, hp⟩ := hs
  have hsend : (s.stepping ⟨.targets ts true, req⟩ again).enterSending (s.stepTaken ts) = _ :=
    State.enterSending_sends (s := s.stepping ⟨.targets ts true, req⟩ again) rfl h1 h2
      (fun r h3 h4 => .inl (hno r h3 h4)) hc hp hx
  rw [State.offerInHand_eq, State.offerPlan_step again hrail hslot hok, hsend]
  rfl

/-- Reference channels alone to change: the slot settles. -/
theorem State.offerInHand_refs (hno : ∀ r, 1 ≤ r → r ≤ 32 → s.changeList (s.stepTaken ts) r = [])
    (href : s.refChanges (s.stepTaken ts) ≠ []) : s.offerInHand ⟨.targets ts true, req⟩ again =
      (s.stepping ⟨.targets ts true, req⟩ again).switched (s.stepTaken ts) (.settling (s.stepTaken ts) [0] 1) := by
  have hsend : (s.stepping ⟨.targets ts true, req⟩ again).enterSending (s.stepTaken ts) = _ :=
    State.enterSending_refs (s := s.stepping ⟨.targets ts true, req⟩ again) rfl
      (fun r h3 h4 => .inl (hno r h3 h4)) href
  rw [State.offerInHand_eq, State.offerPlan_step again hrail hslot hok, hsend]
  rfl

end

/-- Nothing to change: the step of the high-voltage unit is requested at once. -/
theorem State.offerInHand_unchanged {s : State} {ts : List (Nat × Rail)} {v : StepValues} (again : Bool)
    (hs : s.unchangedBy ts) (ha : s.engine.abort = none) : s.offerInHand ⟨.targets ts true, .hv v⟩ again =
      { s with
        engine := { s.engine with
          phase := .hvStep, inHand := some ⟨.targets ts true, .hv v⟩, isRepeat := again, ctl := .wait }
        lmu := s.lmu.sourceOff
        hv := { s.hv with request := some v } } := by
  obtain ⟨hrail, hslot, hwait, hok, href, hno⟩ := hs
  let u := s.stepping ⟨.targets ts true, .hv v⟩ again
  have hsend : u.enterSending (s.stepTaken ts) = (u.switched (s.stepTaken ts) .empty, some (.complete 0)) :=
    State.enterSending_none (s := u) rfl (fun r h3 h4 => .inl (hno r h3 h4)) href
  have hsame : u.switched (s.stepTaken ts) .empty = { u with lmu := s.lmu.sourceOff } := by
    have hm : ({ s.matrix with image := writeImage s.matrix.image 0 (s.refChanges (s.stepTaken ts)), slot := .empty } :
        Matrix) = s.matrix := by
      rw [href]
      exact Matrix.with_slot_empty hslot s.matrix.image
    show ({ u with
      lmu := s.lmu.sourceOff
      matrix := { s.matrix with image := writeImage s.matrix.image 0 (s.refChanges (s.stepTaken ts)), slot := .empty } } :
        State) = _
    rw [hm]
    rfl
  have hoffer : u.offerPlan ⟨.targets ts true, .engine⟩ =
      ({ u with lmu := s.lmu.sourceOff }, [⟨.engine, .complete 0⟩]) := by
    rw [State.offerPlan_step again hrail hslot hok, hsend, hsame, reports_some (s := { u with lmu := s.lmu.sourceOff }) hwait]
  rw [State.offerInHand_eq, hoffer]
  exact State.onPlan_hv (s := { u with lmu := s.lmu.sourceOff }) 0 ha rfl

/-! ### Resumption (R141) -/

theorem State.resumeJob_eq {s : State} {h : StepInHand} (hh : s.engine.inHand = some h) :
    s.resumeJob = (s.setJobState .running).offerInHand h true := by
  unfold State.resumeJob
  rw [hh]

theorem State.setJobState_eq {s : State} {j : Job} {rest : List Job} (hj : s.queue.jobs = j :: rest) (st : JobState) :
    s.setJobState st = { s with queue := { s.queue with jobs := { j with state := st } :: rest } } :=
  State.setHead_eq hj _

theorem State.suspended_of {s : State} {j : Job} {rest : List Job} (hj : s.queue.jobs = j :: rest)
    (hst : j.state = .suspended) : s.suspended = true := by
  have hact : j.state.active = true := by rw [hst]; rfl
  unfold State.suspended
  rw [State.jobActive_of hj hact]
  simp [hst]

/-- A suspended job back to RUNNING, its step requested at once with the relays as they are. -/
theorem State.resumeJob_unchanged {s : State} {ts : List (Nat × Rail)} {v : StepValues} {j : Job} {rest : List Job}
    (hj : s.queue.jobs = j :: rest) (hh : s.engine.inHand = some ⟨.targets ts true, .hv v⟩)
    (ha : s.engine.abort = none) (hs : s.unchangedBy ts) : s.resumeJob =
      { s with
        queue := { s.queue with jobs := { j with state := .running } :: rest }
        engine := { s.engine with phase := .hvStep, isRepeat := true, ctl := .wait }
        lmu := s.lmu.sourceOff
        hv := { s.hv with request := some v } } := by
  rw [State.resumeJob_eq hh, State.setJobState_eq hj .running, State.offerInHand_unchanged
    (s := { s with queue := { s.queue with jobs := { j with state := .running } :: rest } }) true hs ha, ← hh]

theorem State.autoResume_unchanged {s : State} {ts : List (Nat × Rail)} {v : StepValues} {j : Job} {rest : List Job}
    (hj : s.queue.jobs = j :: rest) (hst : j.state = .suspended) (hauto : autoResumes s.engine.work = true)
    (hc : s.hv.coverClosed = true) (hh : s.engine.inHand = some ⟨.targets ts true, .hv v⟩)
    (ha : s.engine.abort = none) (hs : s.unchangedBy ts) : s.autoResume =
      { s with
        queue := { s.queue with jobs := { j with state := .running } :: rest }
        engine := { s.engine with phase := .hvStep, isRepeat := true, ctl := .wait }
        lmu := s.lmu.sourceOff
        hv := { s.hv with request := some v } } :=
  (if_pos (by rw [State.suspended_of hj hst, hauto, hc]; rfl)).trans (State.resumeJob_unchanged hj hh ha hs)

theorem State.autoResume_manual {s : State} (h : autoResumes s.engine.work = false) : s.autoResume = s := if_neg (by simp [h])

/-! ### The cover (R120, R139) -/

theorem exec_coverDebounced {s : State} {ms : Nat} (h : s.hv.debounce = some ms) :
    exec .coverDebounced s = .next s.coverSettled := congrArg Host.Outcome.next (if_pos (by simp [h]))

/-- The state of a suspended job. -/
def State.suspendedJob (s : State) (j : Job) (rest : List Job) : State :=
  { s with
    queue := { s.queue with jobs := { j with state := .suspended, systems := j.systems + 1 } :: rest }
    engine := { s.engine with phase := .between, isRepeat := true } }

/-- A suspension whose record the log takes: the state of the job, and the side. -/
theorem State.suspend_taken {s : State} {j : Job} {rest : List Job} (c : RecCause) (hj : s.queue.jobs = j :: rest)
    (hp : s.printer.state ≠ .idle) (hr : s.log.reporting = true) (hlen : s.log.entries.length < 256) :
    ∃ y, s.suspend c = ((s.suspendedJob j rest).withSide y).autoResume ∧ y.events.pending.getLsbD 1 = true ∧
      Logged s (s.withSide y) [s.interlockRec c] := by
  let q : Queue := s.queue.counted j rest
  let u := s.take (s.interlockRec c)
  have hq := Quiet.take s (s.interlockRec c)
  have hcount : u.countSystem true = { u with queue := q } := by
    rw [State.countSystem_true ((congrArg Queue.jobs hq.queue).trans hj), hq.queue]
  have hraised := Quiet.raise { u with queue := q } .interlock
  have hlog : Logged s (State.raise { u with queue := q } .interlock) [s.interlockRec c] := by
    have h := Logged.take hr (s.interlockRec c)
    exact Logged.trans (t := { u with queue := q }) ⟨h.store, h.printer, h.reporting, h.nextSeq, h.entries⟩
      (Logged.raise _ .interlock)
  have hevent := State.raise_isPending { u with queue := q } .interlock
  obtain ⟨x, hx⟩ := hq.exists_withSide
  obtain ⟨y, hy⟩ := hraised.exists_withSide
  have hu : State.raise { u with queue := q } .interlock = ({ s with queue := q } : State).withSide y := by
    rw [hy, show u = s.withSide x from hx]
    rfl
  have hstate : (u.suspending true) = (s.suspendedJob j rest).withSide y := by
    have hjobs : (({ s with queue := q } : State).withSide y).queue.jobs = { j with systems := j.systems + 1 } :: rest := rfl
    unfold State.suspending
    dsimp only
    rw [hcount, hu, State.setJobState_eq hjobs]
    rfl
  rw [hu] at hlog hevent
  refine ⟨y, ?_, hevent, ⟨hlog.store, hlog.printer, hlog.reporting, hlog.nextSeq, hlog.entries⟩⟩
  rw [State.suspend_eq, State.appendSystem_taken hp hlen, ← hstate]

/-- The end of a hold with an INTERRUPTED step. -/
theorem exec_safeHoldExpiry_interrupted {s : State} {ms : Nat} {r : HeldResult} (hrail : s.hv.rail = .discharge)
    (hhold : s.hv.holdTimer = some ms) (hheld : s.hv.held = some r) (hv : r.verdict = .interrupted)
    (hphase : s.engine.phase = .hvStep) : exec .safeHoldExpiry s = .next (State.suspend { s with
      hv := { s.hv with rail := .safe, holdTimer := none, limitTimer := none, held := none, values := none } }
      .openedDuringStep) := by
  refine congrArg Host.Outcome.next ((if_pos ⟨hrail, by simp [hhold]⟩).trans ?_)
  unfold State.holdDone
  simp only [show s.hv.enterSafe.held = some r from hheld]
  exact (if_pos hphase).trans (if_pos hv)

theorem State.interlockRec_eq {s : State} {j : Job} {rest : List Job} (c : RecCause) (hj : s.queue.jobs = j :: rest) :
    s.interlockRec c =
      { kind := .interlock, system := true, tag := some j.tag, cause := some c, net := suspendNet s.engine.work } := by
  unfold State.interlockRec State.headTag State.head
  rw [hj]
  rfl

/-- A resumption asks no more of the high-voltage unit than a SAFE rail. -/
theorem State.unchangedBy_of {s u : State} {ts : List (Nat × Rail)} (hm : u.matrix = s.matrix)
    (hmap : u.store.map = s.store.map) (hr : u.hv.rail = s.hv.rail) (h : s.unchangedBy ts) : u.unchangedBy ts := by
  let v : State := { s with hv := u.hv, link := u.link }
  have hv : v.unchangedBy ts := by
    unfold State.unchangedBy at h ⊢
    exact ⟨hr.trans h.1, h.2⟩
  exact (State.unchangedBy_view (State.switchView_of (s := v) hm rfl rfl hmap) ts).2 hv

/-- Settles O50: the input, the debounce, a resumption at once and one at the end of the hold. -/
theorem coverIsDebouncedAndInterrupts : Obligations.CoverIsDebouncedAndInterrupts := by
  refine ⟨fun closed s => ⟨fun h => ?_, fun h => ?_⟩, fun ms s hdeb => ⟨fun h => ?_, fun h1 h2 hs => ?_,
    fun h1 h2 => ⟨fun hrail => ?_, fun hr1 hr2 => ?_⟩⟩, fun ms ts v j rest s hdeb h1 h2 hj hst => ⟨fun w hw ha => ?_,
      fun hwork hh ha hun => ?_⟩,
    fun ms r ts v j rest s hrail hhold hheld hv hphase hj hst hp hr hlen => ?_⟩
  · exact congrArg Host.Outcome.next (if_pos h)
  · exact congrArg Host.Outcome.next (if_neg h)
  · rw [exec_coverDebounced hdeb]
    refine congrArg _ ((if_pos h).trans ?_)
    rw [h]
  · rw [exec_coverDebounced hdeb]
    refine congrArg _ ((if_neg (by rw [h1, h2]; decide)).trans ((if_pos h1).trans ?_))
    refine (if_neg ?_).trans (by rw [h1])
    show ¬ (s.suspended && _ && _) = true
    rw [hs]
    exact Bool.false_ne_true
  · rw [exec_coverDebounced hdeb]
    refine congrArg _ ((if_neg (by rw [h1, h2]; decide)).trans ((if_neg (by rw [h1]; decide)).trans ?_))
    rcases hrail with h | h <;> simp only [h, h1] <;> rfl
  · rw [exec_coverDebounced hdeb]
    refine congrArg _ ((if_neg (by rw [h1, h2]; decide)).trans ((if_neg (by rw [h1]; decide)).trans ?_))
    cases h : s.hv.rail
    case ramp => exact absurd h hr1
    case dwell => exact absurd h hr2
    all_goals rw [h1]
  · rw [exec_coverDebounced hdeb]
    refine congrArg _ ((if_neg (by rw [h1, h2]; decide)).trans ((if_pos h1).trans ?_))
    refine (State.autoResume_manual (s := { s with hv := { s.hv with debounce := none, coverClosed := s.pins.coverClosed } })
      (by rw [hw]; exact ha)).trans (by rw [h1])
  · have hauto : autoResumes s.engine.work = true := by
      rcases hwork with ⟨w, hw, h⟩ | ⟨b, hw⟩
      · rw [hw]; exact h
      · rw [hw]; rfl
    rw [exec_coverDebounced hdeb]
    refine congrArg _ ((if_neg (by rw [h1, h2]; decide)).trans ((if_pos h1).trans ?_))
    refine (State.autoResume_unchanged (s := { s with hv := { s.hv with debounce := none, coverClosed := s.pins.coverClosed } })
      hj hst hauto h1 hh ha hun).trans ?_
    rw [h1]
  · let H : Hv := { s.hv with rail := .safe, holdTimer := none, limitTimer := none, held := none, values := none }
    obtain ⟨y, hy, hev, hlog⟩ := State.suspend_taken (s := { s with hv := H }) .openedDuringStep hj hp hr hlen
    have hexec := (exec_safeHoldExpiry_interrupted hrail hhold hheld hv hphase).trans (congrArg _ hy)
    let T : State := (State.suspendedJob { s with hv := H } j rest).withSide y
    have hauto : autoResumes s.engine.work = (match s.engine.work with
        | .insulate w => w.auto
        | .refHv _ => true
        | _ => false) := by
      cases s.engine.work <;> rfl
    have hnet : suspendNet s.engine.work = (match s.engine.work with
        | .insulate w => if w.stage = .offset then none else some w.num
        | _ => none) := by
      cases s.engine.work with
      | insulate w => cases hw : w.stage <;> simp [suspendNet, hw]
      | _ => rfl
    have hstay (h : s.hv.coverClosed = false ∨ autoResumes s.engine.work = false) : T.autoResume = T := by
      rcases h with h | h
      · exact State.autoResume_open h
      · exact State.autoResume_manual h
    have hgo (hc : s.hv.coverClosed = true) (ha : autoResumes s.engine.work = true)
        (hh : s.engine.inHand = some ⟨.targets ts true, .hv v⟩) (hab : s.engine.abort = none)
        (hun : State.unchangedBy { s with hv := { s.hv with rail := .safe } } ts) : T.autoResume = _ :=
      State.autoResume_unchanged (s := T) (j := { j with state := .suspended, systems := j.systems + 1 }) (rest := rest)
        rfl rfl ha hc hh hab (State.unchangedBy_of
          (s := { s with hv := { s.hv with rail := .safe } }) rfl (congrArg Store.map hlog.store) rfl hun)
    rw [State.interlockRec_eq (s := { s with hv := H }) _ hj, show suspendNet _ = _ from hnet] at hlog
    refine ⟨T.autoResume, autoResumes s.engine.work, hexec, hauto, fun hcase => ?_, fun hcase => ?_,
      fun hc ha hh hab hun => ?_⟩
    · have hside : T.autoResume.log = y.log ∧ T.autoResume.events = y.events ∧ T.autoResume.store = y.store ∧
          T.autoResume.link = s.link ∧ T.autoResume.reference = s.reference := by
        by_cases hst : s.hv.coverClosed = false ∨ autoResumes s.engine.work = false
        · rw [hstay hst]
          exact ⟨rfl, rfl, rfl, rfl, rfl⟩
        · rw [not_or, Bool.not_eq_false, Bool.not_eq_false] at hst
          obtain ⟨hh, hab, hun⟩ := (hcase.resolve_left (by simp [hst.1])).resolve_left (by simp [hst.2])
          rw [hgo hst.1 hst.2 hh hab hun]
          exact ⟨rfl, rfl, rfl, rfl, rfl⟩
      obtain ⟨h1, h2, h3, h4, h5⟩ := hside
      rw [h1, h2, h3, h4, h5]
      exact ⟨hlog.entries, hev, hlog.store, rfl, rfl⟩
    · rw [hstay hcase]
      exact ⟨rfl, rfl, rfl, rfl, rfl⟩
    · rw [hgo hc ha hh hab hun]
      exact ⟨rfl, rfl, rfl, rfl, rfl⟩

end Sys2Proof.Machine
end

section
/-! PROOFS. ABORT_JOB and RESUME (9.6, 8.6). -/

namespace Sys2Proof.Machine

open Sys2Proof

/-! ### The removal of a QUEUED job (R152) -/

/-- The state a QUEUED job has left, its two records taken. -/
def State.unqueued (s : State) (j : Job) : State :=
  { s with queue := { s.queue with
    jobs := s.queue.jobs.filter (fun q => q.tag != j.tag)
    stallWait := if s.head.map (·.tag) = some j.tag then false else s.queue.stallWait } }

theorem State.removeQueued_taken {s : State} (j : Job) (hp : s.printer.state ≠ .idle) (hr : s.log.reporting = true)
    (hlen : s.log.entries.length + 2 ≤ 256) : ∃ y, s.removeQueued j = ((s.unqueued j).withSide y).examineHead ∧
      Logged s (s.withSide y) [jobStartRec j true false, jobEndZero j ⟨.abortedHost, .nothing⟩] ∧
      y.events.pending.getLsbD 7 = true ∧ (takeReply s.host.slots = none → y.host.slots = s.host.slots) := by
  let a := (s.appendSystem (jobStartRec j true false)).1
  let b := (a.appendSystem (jobEndZero j ⟨.abortedHost, .nothing⟩)).1
  have hloga : Logged s a [jobStartRec j true false] := Logged.appendSystem hp hr (by omega) _
  have hlogb : Logged a b [jobEndZero j ⟨.abortedHost, .nothing⟩] :=
    Logged.appendSystem (ne_of_eq_of_ne (congrArg _ hloga.printer) hp) (hloga.reporting.trans hr) (by
      rw [hloga.entries, List.length_append, stamped_length, List.length_singleton]
      omega) _
  have hq := ((Quiet.appendSystem s (jobStartRec j true false)).trans
    (Quiet.appendSystem a (jobEndZero j ⟨.abortedHost, .nothing⟩))).trans (Quiet.raise b .jobAborted)
  have hlog := (hloga.trans hlogb).trans (Logged.raise b .jobAborted)
  have hev : (b.raise .jobAborted).events.isPending .jobAborted = true := State.raise_isPending _ _
  have hrem : s.removeQueued j = State.examineHead (if s.head.map (·.tag) = some j.tag
      then State.endWait { b.raise .jobAborted with queue := { (b.raise .jobAborted).queue with
        jobs := (b.raise .jobAborted).queue.jobs.filter (fun q => q.tag != j.tag) } }
      else { b.raise .jobAborted with queue := { (b.raise .jobAborted).queue with
        jobs := (b.raise .jobAborted).queue.jobs.filter (fun q => q.tag != j.tag) } }) := rfl
  have hslots := hq.slots
  obtain ⟨y, hy⟩ := hq.exists_withSide
  rw [hy] at hrem hlog hev hslots
  refine ⟨y, hrem.trans (congrArg State.examineHead ?_), hlog, hev, hslots⟩
  unfold State.unqueued
  split <;> rfl

/-- A head that waits for log space alone. -/
theorem State.examineHead_stalls {s : State} (h : s.spaceAlone = true) (hlen : 256 < s.log.entries.length + 9)
    (hw : s.queue.stallWait = false) :
    s.examineHead = State.raise { s with queue := { s.queue with stallWait := true } } .logStall := by
  have h6 : s.cond6 = false := by
    rw [← Bool.not_eq_true, s.cond6_iff]
    omega
  exact (if_pos h).trans (if_neg (by simp [h6, hw]))

/-! ### ABORT_JOB by the state it finds -/

theorem doAbortJob_found {s : State} {t : Byte} {j : Job} (ht : 1 ≤ t.toNat)
    (hj : s.queue.jobs.find? (fun q => q.tag == t.toNat) = some j) :
    doAbortJob [t] s = (s.abortJob j, reply .ok (le1 j.state.code)) := by
  refine (if_neg (by omega)).trans ?_
  rw [hj]

theorem find_head {j : Job} {rest : List Job} {t : Nat} (h : j.tag = t) :
    (j :: rest).find? (fun q => q.tag == t) = some j := List.find?_cons_of_pos (by simpa using h)

section
variable {tag t : Byte} {s : State} {j : Job} {rest : List Job} (hs : s.ready) (ht : 1 ≤ t.toNat)
  (hj : s.queue.jobs = j :: rest) (htag : j.tag = t.toNat)
include hs ht hj htag

/-- An abort of the head that leaves the transmit path to its reply. -/
theorem exec_abortJob {u : State} (hu : (s.handed 0x21#8 tag [t]).abortJob j = u)
    (hh : u.host = (s.handed 0x21#8 tag [t]).host) :
    exec (.abortJob tag [t]) s = .next (u.replying 0x21#8 tag [t] ([0x00#8] ++ le1 j.state.code)) := by
  have hfind : (s.handed 0x21#8 tag [t]).queue.jobs.find? (fun q => q.tag == t.toNat) = some j := by
    show s.queue.jobs.find? _ = _
    rw [hj]
    exact find_head htag
  exact exec_answered .abortJob tag [t] s u _ hs (by simp)
    (congrArg answered ((doAbortJob_found ht hfind).trans (congrArg (·, _) hu))) hh

/-- The all-open plan of the aborted job goes out. -/
theorem exec_abortJob_opens {l0 : Lmu} {h0 : Hv} (hu : (s.handed 0x21#8 tag [t]).abortJob j =
      State.endJob { s.handed 0x21#8 tag [t] with lmu := l0, hv := h0 } ⟨.abortedHost, .nothing⟩)
    (hslot : s.matrix.slot = .empty) (hrail : h0.rail = .safe) (hx : s.link.exchange = none) :
    ∃ (l : Lmu) (im : List (Nat × Rail)) (touched : List Nat),
      l.phase = .idle ∧ (∀ c : Chan, 1 ≤ c.pos → tget im c.key = s.imageOf c) ∧
      (∀ k, k ≤ 3 → s.isBlocked ⟨0, k⟩ = false → tget im k = some .opn) ∧
      exec (.abortJob tag [t]) s = .next (State.replying { s with
        queue := { s.queue with jobs := { j with
          state := .ending, ended := some ⟨.abortedHost, .nothing⟩
          steps := s.engine.steps, nets := s.engine.nets, extra := s.engine.extra } :: rest }
        engine := Engine.reset, lmu := l, hv := h0
        matrix := { s.matrix with image := im, slot := .sending ⟨⟨.allOpen, .jobEnd⟩, []⟩ 0 touched }
        link := { s.link with exchange := some ⟨.allOpen, false, false⟩, replyTimer := none } }
        0x21#8 tag [t] ([0x00#8] ++ le1 j.state.code)) := by
  let a : State := { s.handed 0x21#8 tag [t] with lmu := l0, hv := h0 }
  have hopen : a.endJob ⟨.abortedHost, .nothing⟩ = (a.ending ⟨.abortedHost, .nothing⟩).opening .jobEnd :=
    State.endJob_opens _ hslot hrail hx
  rw [State.ending_eq (s := a) hj] at hopen
  have hexec := exec_abortJob hs ht hj htag (hu.trans hopen) rfl
  refine ⟨l0.sourceOff, writeImage s.matrix.image 0 (s.refChanges (allOpenTaken .jobEnd)),
    s.refTouched (allOpenTaken .jobEnd), l0.sourceOff_phase, fun c hc => ?_, fun k hk hb => ?_, hexec⟩
  · exact State.opening_card { s with lmu := l0 } .jobEnd hc
  · exact (congrArg (tget _) (show k = Chan.key ⟨0, k⟩ by simp [Chan.key])).trans
      (State.opening_reference { s with lmu := l0 } .jobEnd hk hb)

end

theorem State.abortJob_queued {s : State} {j : Job} (h : j.state = .queued) : s.abortJob j = s.removeQueued j := by
  unfold State.abortJob
  rw [h]

theorem State.abortJob_active {s : State} {j : Job} (h : j.state = .running ∨ j.state = .logWait ∨ j.state = .suspended) :
    s.abortJob j = s.abortActive ⟨.abortedHost, .nothing⟩ := by
  unfold State.abortJob
  rcases h with h | h | h <;> rw [h]

/-- The reason of an abort by the host (R152). -/
def byHost : EndCause := ⟨.abortedHost, .nothing⟩

theorem State.abortJob_running {s : State} {j : Job} {rest : List Job} (hj : s.queue.jobs = j :: rest)
    (hst : j.state = .running) (ha : s.engine.abort = none) : s.abortJob j = s.abortRunning byHost :=
  (State.abortJob_active (.inl hst)).trans (State.abortActive_running byHost hj hst ha)

theorem State.abortJob_releasing {s : State} {j : Job} {rest : List Job} (hj : s.queue.jobs = j :: rest)
    (hst : j.state = .logWait ∨ j.state = .suspended) : s.abortJob j = s.endJob byHost :=
  (State.abortJob_active (.inr hst)).trans (State.abortActive_releasing byHost hj hst.symm)

theorem State.abortRunning_measure {s : State} (c : EndCause) (h : s.engine.phase = .measure) :
    s.abortRunning c = State.endJob { s with lmu := s.lmu.discard } c := by
  unfold State.abortRunning
  rw [h]

theorem waits_engine_iff (l : List Plan) : l.any Plan.isEngine = true ↔ ∃ q ∈ l, q.issuer = .engine := by
  simp [Plan.isEngine]

theorem State.abortRunning_plan {s : State} (c : EndCause) (h : s.engine.phase = .plan)
    (hno : ∀ q ∈ s.matrix.waiting, q.issuer ≠ .engine) :
    s.abortRunning c = { s with engine := { s.engine with abort := some c } } := by
  unfold State.abortRunning
  rw [h]
  refine if_neg fun hw => ?_
  obtain ⟨q, hq, he⟩ := (waits_engine_iff _).1 hw
  exact hno q hq he

theorem State.abortRunning_waiting {s : State} (c : EndCause) (h : s.engine.phase = .plan)
    (hw : ∃ q ∈ s.matrix.waiting, q.issuer = .engine) : s.abortRunning c =
      State.endJob { s with matrix := { s.matrix with waiting := s.matrix.waiting.filter (fun p => !p.isEngine) } } c := by
  unfold State.abortRunning
  rw [h]
  exact if_pos ((waits_engine_iff _).2 hw)

theorem State.abortRunning_driven {s : State} (c : EndCause) (h : s.engine.phase = .hvStep)
    (hslot : s.matrix.slot = .empty) (hrail : s.hv.stopOrder.rail = .discharge) : s.abortRunning c =
      (State.ending { s with hv := s.hv.stopOrder } c).setSlot (.held (allOpenTaken .jobEnd)) := by
  rw [State.abortRunning_hvStep c h]
  exact State.endJob_held (s := { s with hv := s.hv.stopOrder }) c hslot (by simp [hrail]) (by simp [hrail])

/-! ### RESUME -/

theorem State.stepping_same {s : State} {h : StepInHand} (hh : s.engine.inHand = some h) (again : Bool) :
    s.stepping h again = { s with engine := { s.engine with phase := .plan, isRepeat := again, ctl := .wait } } := by
  unfold State.stepping
  rw [← hh]
  rfl

theorem State.suspended_not {s : State} (h : ∀ j rest, s.queue.jobs = j :: rest → j.state ≠ .suspended) :
    s.suspended = false := by
  unfold State.suspended State.activeJob State.head
  cases hj : s.queue.jobs with
  | nil => rfl
  | cons j rest =>
    show ((Option.filter (fun j => j.state.active) (some j)).map _).getD false = false
    by_cases hact : j.state.active = true
    · simp [Option.filter, hact, h j rest hj]
    · simp [Option.filter, hact]

/-- Settles O52: ABORT_JOB by the state of the job it names, and RESUME by what its plan finds. -/
theorem abortAndResumeReachTheJob : Obligations.AbortAndResumeReachTheJob := by
  refine ⟨fun tag t s hs ht => ⟨fun hno => ?_, fun j hmem htag hst huniq hp hr hlen => ?_, fun j rest hj htag => ?_⟩,
    fun tag s hs => ⟨fun h => ?_, fun j rest ts v hj hst hc hh ha => ?_⟩⟩
  · have hfind : (s.handed 0x21#8 tag [t]).queue.jobs.find? (fun q => q.tag == t.toNat) = none :=
      List.find?_eq_none.2 fun q hq => by simpa using hno q hq
    refine exec_answered_unchanged .abortJob tag [t] s [0x07#8] hs (by simp) (answered_eq (x := doAbortJob [t] (s.handed 0x21#8 tag [t])) ?_)
    refine (if_neg (by omega)).trans ?_
    rw [hfind]
    rfl
  · let H := s.handed 0x21#8 tag [t]
    have hfind : H.queue.jobs.find? (fun q => q.tag == t.toNat) = some j := by
      cases hf : H.queue.jobs.find? (fun q => q.tag == t.toNat) with
      | none => exact absurd (List.find?_eq_none.1 hf j hmem) (by simp [htag])
      | some q => rw [huniq q (List.mem_of_find?_eq_some hf) (by simpa using List.find?_some hf)]
    obtain ⟨y, hrem, hlog, hev, hslots⟩ := State.removeQueued_taken (s := H) j hp hr hlen
    obtain ⟨w, hq⟩ := Quiet.examineHead ((H.unqueued j).withSide y)
    have hkeep := Logged.examineHead ((H.unqueued j).withSide y)
    have hlogs : Logged H ((H.unqueued j).withSide y) _ :=
      ⟨hlog.store, hlog.printer, hlog.reporting, hlog.nextSeq, hlog.entries⟩
    have hslots' : (((H.unqueued j).withSide y).examineHead).host.slots = [⟨0x21#8, tag, [t], .carried⟩] := by
      have h0 : y.host.slots = [⟨0x21#8, tag, [t], .carried⟩] := hslots rfl
      refine (hq.slots ?_).trans h0
      show takeReply y.host.slots = none
      rw [h0]
      rfl
    have hdo : doAbortJob [t] H = (((H.unqueued j).withSide y).examineHead, [0x00#8, 0x00#8]) := by
      rw [doAbortJob_found ht hfind, State.abortJob_queued hst, hrem, hst]
      rfl
    obtain ⟨ph, tx, hph, hexec⟩ := exec_answered_raised .abortJob tag [t] s _ _ hs (by simp) (congrArg answered hdo) hslots'
    have hfilter : s.queue.jobs.filter (fun q => q.tag != j.tag) = s.queue.jobs.filter (fun q => decide (q.tag ≠ t.toNat)) :=
      List.filter_congr fun q _ => by rw [htag]; simp [bne, Bool.beq_eq_decide_eq]
    refine ⟨_, ph, w, hexec, hph, rfl, ?_, ?_, hq.raised 7 hev, hq.engine, hq.matrix, hq.lmu, hq.hv, ?_, hq.link,
      fun h rest hj hne hqd hhold hrail hstart hw hfull => ?_⟩
    · refine hq.queue.trans ?_
      rw [← hfilter]
      rfl
    · exact (hlogs.trans hkeep).data
    · exact hkeep.store.trans hlog.store
    · have hjobs : (H.unqueued j).queue.jobs = h :: rest.filter (fun q => q.tag != j.tag) := by
        show s.queue.jobs.filter _ = _
        rw [hj, List.filter_cons_of_pos (by simpa [htag] using hne)]
      have hmark : (H.unqueued j).queue.stallWait = false := by
        have hhead : ¬ H.head.map (·.tag) = some j.tag := by
          show ¬ s.queue.jobs.head?.map (·.tag) = some j.tag
          rw [hj]
          simpa [htag] using hne
        exact (if_neg hhead).trans hw
      have hspace : ((H.unqueued j).withSide y).spaceAlone = true :=
        (State.spaceAlone_iff _).2 ⟨⟨h, _, hjobs, hqd⟩, hhold, hrail, hstart, hs.2.2.2.2.1, fun r hr hc => by
          have hrs : r ∈ y.host.slots := hr
          rw [hslots rfl] at hrs
          rw [List.mem_singleton.1 hrs]
          exact (by decide : (0x21#8 : Byte) ∉ [0x14#8, 0x16#8, 0x19#8])⟩
      have hfullness : 256 < ((H.unqueued j).withSide y).log.entries.length + 9 := by
        have := congrArg List.length hlogs.entries
        rw [List.length_append, stamped_length] at this
        rw [this]
        show 256 < s.log.entries.length + 2 + 9
        omega
      have hstall := State.examineHead_stalls hspace hfullness hmark
      refine ⟨?_, ?_⟩
      · have h1 := congrArg Queue.stallWait hq.queue
        rw [hstall, (Quiet.raise _ .logStall).queue] at h1
        exact h1.symm
      · show ((H.unqueued j).withSide y).examineHead.events.pending.getLsbD 5 = true
        rw [hstall]
        exact State.raise_isPending _ .logStall
  · refine ⟨_, rfl, fun hst => ?_, fun hst hphase ha => ⟨fun hno => ?_, fun hw hslot hf => ?_⟩, fun hst hslot hrail hx => ?_,
      fun hst hphase ha hslot hrail => ?_, fun hst hphase ha hslot => ⟨_, rfl, fun hrail => ?_, fun hrail hx => ?_⟩⟩
    · have hend : (s.handed 0x21#8 tag [t]).abortJob j = s.handed 0x21#8 tag [t] := by
        unfold State.abortJob
        rw [hst]
      have hexec := exec_abortJob hs ht hj htag hend rfl
      rw [hst] at hexec
      exact hexec
    · have hab := (State.abortJob_running (s := s.handed 0x21#8 tag [t]) hj hst ha).trans
        (State.abortRunning_plan (s := s.handed 0x21#8 tag [t]) byHost hphase hno)
      have hexec := exec_abortJob hs ht hj htag hab rfl
      rw [hst] at hexec
      exact hexec
    · have hwait := State.endJob_waits (s := { s.handed 0x21#8 tag [t] with
        matrix := { s.matrix with waiting := s.matrix.waiting.filter (fun p => !p.isEngine) } }) byHost hslot hf
      have hfilter : s.matrix.waiting.filter (fun p => !p.isEngine) =
          s.matrix.waiting.filter (fun q => decide (q.issuer ≠ .engine)) :=
        List.filter_congr fun q _ => by simp [Plan.isEngine]
      rw [hfilter, State.ending_eq (s := { s.handed 0x21#8 tag [t] with matrix := { s.matrix with
        waiting := s.matrix.waiting.filter (fun q => decide (q.issuer ≠ .engine)) } }) hj, ← hfilter] at hwait
      have hab := (State.abortJob_running (s := s.handed 0x21#8 tag [t]) hj hst ha).trans
        ((State.abortRunning_waiting (s := s.handed 0x21#8 tag [t]) byHost hphase hw).trans hwait)
      have hexec := exec_abortJob hs ht hj htag hab rfl
      rw [hst, hfilter] at hexec
      exact hexec
    · rcases hst with ⟨hst, hphase, ha⟩ | hst
      · exact exec_abortJob_opens hs ht hj htag (l0 := s.lmu.discard) (h0 := s.hv)
          ((State.abortJob_running (s := s.handed 0x21#8 tag [t]) hj hst ha).trans
            (State.abortRunning_measure (s := s.handed 0x21#8 tag [t]) byHost hphase)) hslot hrail hx
      · exact exec_abortJob_opens hs ht hj htag (l0 := s.lmu) (h0 := s.hv)
          (State.abortJob_releasing (s := s.handed 0x21#8 tag [t]) hj hst) hslot hrail hx
    · have hstop : s.hv.stopOrder = s.hv.dropStep.enterDischarge .stop := by
        unfold Hv.stopOrder
        rcases hrail with h | h <;> rw [h]
      have hheld := State.abortRunning_driven (s := s.handed 0x21#8 tag [t]) byHost hphase hslot
        (by show s.hv.stopOrder.rail = _; rw [hstop]; rfl)
      rw [State.ending_eq (s := { s.handed 0x21#8 tag [t] with hv := (s.handed 0x21#8 tag [t]).hv.stopOrder }) hj] at hheld
      have hexec := exec_abortJob hs ht hj htag
        ((State.abortJob_running (s := s.handed 0x21#8 tag [t]) hj hst ha).trans hheld) rfl
      rw [hst, show (s.handed 0x21#8 tag [t]).hv.stopOrder = _ from hstop] at hexec
      exact hexec
    · have hstop : s.hv.stopOrder = s.hv.dropStep := by
        unfold Hv.stopOrder
        rw [hrail]
      have hheld := State.abortRunning_driven (s := s.handed 0x21#8 tag [t]) byHost hphase hslot
        (by show s.hv.stopOrder.rail = _; rw [hstop]; exact hrail)
      rw [State.ending_eq (s := { s.handed 0x21#8 tag [t] with hv := (s.handed 0x21#8 tag [t]).hv.stopOrder }) hj] at hheld
      have hexec := exec_abortJob hs ht hj htag
        ((State.abortJob_running (s := s.handed 0x21#8 tag [t]) hj hst ha).trans hheld) rfl
      rw [hst, show (s.handed 0x21#8 tag [t]).hv.stopOrder = _ from hstop] at hexec
      exact hexec
    · have hstop : s.hv.stopOrder = s.hv.dropStep := by
        unfold Hv.stopOrder
        rw [hrail]
      have hab : (s.handed 0x21#8 tag [t]).abortRunning byHost =
          State.endJob { s.handed 0x21#8 tag [t] with hv := s.hv.dropStep } byHost :=
        (State.abortRunning_hvStep (s := s.handed 0x21#8 tag [t]) byHost hphase).trans
          (congrArg (fun h => State.endJob { s.handed 0x21#8 tag [t] with hv := h } byHost) hstop)
      have hexec := exec_abortJob_opens hs ht hj htag (l0 := s.lmu) (h0 := s.hv.dropStep)
        ((State.abortJob_running (s := s.handed 0x21#8 tag [t]) hj hst ha).trans hab) hslot hrail hx
      rw [hst] at hexec
      exact hexec
  · have hno : (!(s.handed 0x25#8 tag []).suspended || !(s.handed 0x25#8 tag []).hv.coverClosed) = true := by
      rcases h with h | h
      · rw [State.suspended_not (s := s.handed 0x25#8 tag []) h]
        rfl
      · rw [show (s.handed 0x25#8 tag []).hv.coverClosed = false from h]
        simp
    exact exec_answered_unchanged .resume tag [] s [0x04#8] hs (by simp) (answered_eq (x := doResume [] _) (if_pos hno))
  · let H := s.handed 0x25#8 tag []
    have hdo : doResume [] H = (H.resumeJob, [0x00#8]) :=
      if_neg (by
        rw [State.suspended_of (s := H) hj hst, show H.hv.coverClosed = true from hc]
        decide)
    have hanswer {u : State} (hu : H.resumeJob = u) (hh : u.host = H.host) :
        exec (.resume tag []) s = .next (u.replying 0x25#8 tag [] [0x00#8]) :=
      exec_answered .resume tag [] s u [0x00#8] hs (by simp) (congrArg answered (hdo.trans (congrArg (·, _) hu))) hh
    let M : State := { H with queue := { s.queue with jobs := { j with state := .running } :: rest } }
    have hresume : H.resumeJob = M.offerInHand ⟨.targets ts true, .hv v⟩ true := by
      rw [State.resumeJob_eq (s := H) hh, State.setJobState_eq (s := H) hj]
      rfl
    have hsame := State.stepping_same (s := M) hh true
    refine ⟨_, rfl, fun hun => ?_, fun hrail hslot hok hno href => ?_, fun p hsend => ?_⟩
    · have hexec := hanswer (State.resumeJob_unchanged (s := H) hj hh ha hun) rfl
      exact hexec
    · have hoffer := hresume.trans (State.offerInHand_refs (s := M) true hrail hslot hok hno href)
      rw [hsame] at hoffer
      have hexec := hanswer hoffer rfl
      exact hexec
    · have hoffer := hresume.trans (State.offerInHand_sends (s := M) true hsend.1 hsend.2.1 hsend.2.2.2.1 hsend)
      rw [hsame] at hoffer
      have hexec := hanswer hoffer rfl
      exact hexec

end Sys2Proof.Machine
end

section
/-! PROOFS. The loss of a position (2.4). -/

namespace Sys2Proof.Machine

open Sys2Proof

/-- What the log took is told by the store, the formatter and the log alone. -/
theorem Logged.congr {s t u v : State} {ds : List RecData} (h : Logged s t ds)
    (hu : (u.store, u.printer, u.log) = (s.store, s.printer, s.log))
    (hv : (v.store, v.printer, v.log) = (t.store, t.printer, t.log)) : Logged u v ds := by
  simp only [Prod.mk.injEq] at hu hv
  obtain ⟨hu1, hu2, hu3⟩ := hu
  obtain ⟨hv1, hv2, hv3⟩ := hv
  refine ⟨?_, ?_, ?_, ?_, ?_⟩
  · rw [hu1, hv1]; exact h.store
  · rw [hu2, hv2]; exact h.printer
  · rw [hu3, hv3]; exact h.reporting
  · rw [hu3, hv3]; exact h.nextSeq
  · rw [hu2, hu3, hv3]; exact h.entries

/-! ### A change of a position that is reported with a record and the CARD event -/

/-- The matrix changed, a system record offered, and CARD raised with its cause and position (R26, R38). -/
def State.reported (s : State) (m : Matrix) (d : RecData) (c : CardCause) (p : Nat) : State :=
  ((State.appendSystem { s with matrix := m } d).1).raiseCard c p

/-- What a report leaves beside the matrix. -/
structure Reported (s : State) (d : RecData) (c : CardCause) (p : Nat) (y : Side) : Prop where
  event : y.events.pending.getLsbD 2 = true
  card : y.events.card = s.events.card.enter c p
  carried : y.host.carried = s.host.carried
  slots : takeReply s.host.slots = none → y.host.slots = s.host.slots
  notWaiting : (∀ r ∈ s.host.slots, r.phase ≠ .waiting) → ∀ r ∈ y.host.slots, r.phase ≠ .waiting
  store : s.printer.state ≠ .idle → y.store = s.store
  printer : s.printer.state ≠ .idle → y.printer = s.printer
  logged : s.printer.state ≠ .idle → s.log.reporting = true → s.log.entries.length < 256 → Logged s (s.withSide y) [d]

theorem State.reported_eq (s : State) (m : Matrix) (d : RecData) (c : CardCause) (p : Nat) :
    ∃ y, s.reported m d c p = ({ s with matrix := m } : State).withSide y ∧ Reported s d c p y := by
  let a := (State.appendSystem { s with matrix := m } d).1
  have ha := Quiet.appendSystem { s with matrix := m } d
  have hb := Quiet.raiseCard a c p
  have hev := State.raiseCard_isPending a c p
  have hcard : (a.raiseCard c p).events.card = s.events.card.enter c p := hb.card.trans (congrArg (·.enter c p) ha.card)
  have hrest (hp : s.printer.state ≠ .idle) : (a.raiseCard c p).store = s.store ∧ (a.raiseCard c p).printer = s.printer := by
    have h := State.appendSystem_rest (s := { s with matrix := m }) hp d
    exact ⟨(State.raise_store _ _).trans h.1, (State.raise_printer _ _).trans h.2⟩
  have hlog (hp : s.printer.state ≠ .idle) (hr : s.log.reporting = true) (hlen : s.log.entries.length < 256) :
      Logged s (a.raiseCard c p) [d] := by
    have h : Logged s a [d] := (Logged.appendSystem (s := { s with matrix := m }) hp hr hlen d).congr rfl rfl
    exact h.trans ((Logged.raise { a with events := { a.events with card := a.events.card.enter c p } } .card).congr rfl rfl)
  have hslots (ht : takeReply s.host.slots = none) : (a.raiseCard c p).host.slots = s.host.slots := by
    have h := ha.slots ht
    exact (hb.slots (by rw [show _ = _ from h]; exact ht)).trans h
  have hwaits (hw : ∀ r ∈ s.host.slots, r.phase ≠ .waiting) : ∀ r ∈ (a.raiseCard c p).host.slots, r.phase ≠ .waiting :=
    hb.notWaiting (ha.notWaiting hw)
  have hcarried : (a.raiseCard c p).host.carried = s.host.carried := hb.carried.trans ha.carried
  obtain ⟨x, hx⟩ := ha.exists_withSide
  obtain ⟨y, hy⟩ := hb.exists_withSide
  have heq : a.raiseCard c p = ({ s with matrix := m } : State).withSide y := by
    rw [hy]
    rw [show a = _ from hx]
    rfl
  rw [heq] at hev hcard hrest hlog hslots hwaits hcarried
  refine ⟨y, heq, hev, hcard, hcarried, hslots, hwaits, fun hp => (hrest hp).1, fun hp => (hrest hp).2,
    fun hp hr hlen => (hlog hp hr hlen).congr rfl rfl⟩

/-! ### Roster entries -/

theorem State.posn_setPosn (s : State) {p r : Nat} (e : RosterEntry) (hp1 : 1 ≤ p) (hp2 : p ≤ 32)
    (hlen : s.matrix.roster.length = 32) : (s.matrix.roster.set (p - 1) e).getD (r - 1) RosterEntry.empty =
      if r - 1 = p - 1 then e else s.posn r := by
  unfold State.posn
  rw [List.getD_eq_getElem?_getD, List.getElem?_set, List.getD_eq_getElem?_getD]
  by_cases h : p - 1 = r - 1
  · rw [if_pos h, if_pos (by omega), if_pos h.symm]
    rfl
  · rw [if_neg h, if_neg (fun he => h he.symm)]

theorem rewritePos_unknown {im : List (Nat × Rail)} (p : Nat) (v : Option Rail) (hw : tableWf im = true) (c : Chan)
    (hc : c.ch ≤ 127) : tget (rewritePos im p fun _ _ => v) c.key = if c.pos = p then v else tget im c.key :=
  rewritePos_read im p _ hw c hc

/-! ### The loss (R26) -/

/-- The matrix of a lost position. -/
def State.lostMatrix (s : State) (p : Nat) : Matrix :=
  { s.matrix.setPosn p { s.posn p with state := .lost } with
    image := rewritePos s.matrix.image p (fun _ _ => none) }

/-- The CARD_LOST record with the frame that failed. -/
def cardLostRec (p code : Nat) : RecData :=
  { kind := .cardLost, system := true, position := some p, cause := some (.frame code) }

theorem State.markLost_eq (s : State) (p code : Nat) :
    s.markLost p code = s.reported (s.lostMatrix p) (cardLostRec p code) .lost p := rfl

theorem State.abortActive_none {s : State} (h : s.jobActive = false) (c : EndCause) : s.abortActive c = s := by
  have hnone : s.activeJob = none := Option.not_isSome_iff_eq_none.1 (by simpa [State.jobActive] using h)
  unfold State.abortActive
  rw [hnone]

theorem exec_cardReplyTimeout {s : State} {e : Exchange} {ms : Nat} (hx : s.link.exchange = some e)
    (ht : s.link.replyTimer = some ms) : exec .cardReplyTimeout s = .next (s.replyTimeout e).dispatch := by
  show execCardReplyTimeout s = _
  rw [execCardReplyTimeout, hx, ht]

theorem State.replyTimeout_first {s : State} {e : Exchange} (hr : e.resent = false) (ha : ∀ a, e.sent ≠ .assign a)
    (ho : e.sent ≠ .allOpen) : s.replyTimeout e = { s with link := s.link.resend e } := by
  obtain ⟨sent, seq, resent⟩ := e
  simp only at hr ha ho
  subst hr
  cases sent with
  | assign a => exact absurd rfl (ha a)
  | allOpen => exact absurd rfl ho
  | _ => rfl

/-- An attention exchange that ends with nothing waiting for the link. -/
theorem State.attentionOver_idle {s : State} (h : s.link.enumPhase = .idle) (hslot : s.matrix.slot = .empty) :
    s.attentionOver = { s with link := { s.link with exchange := none, replyTimer := none } } := by
  unfold State.attentionOver State.linkFree
  rw [if_neg (by show ¬ s.link.enumPhase = .waitLink; rw [h]; decide)]
  show State.delivered (match s.matrix.slot with
    | .sending t pos touched => _
    | .empty => _
    | .held _ => _
    | .settling _ _ _ => _) = _
  rw [hslot]
  rfl

/-- A SET that fails, told to the issuer of its plan. -/
theorem State.setLost_sending {s : State} {t : Taken} {pos : Nat} {touched : List Nat} (p : Nat) {u : State}
    (hu : (s.markLost p 2).abortActive (lostCause p) = u) (hslot : u.matrix.slot = .sending t pos touched)
    (hwait : u.matrix.waiting = []) : s.setLost p =
      (({ u with link := { u.link with exchange := none, replyTimer := none } } : State).setSlot .empty).deliver
        ⟨t.plan.issuer, .failed true p⟩ := by
  unfold State.setLost
  dsimp only
  rw [hu]
  show (match u.matrix.slot.issuer with
    | none => _
    | some who => State.delivered (reports who (_, _))) = _
  rw [hslot]
  exact congrArg State.delivered (reports_some (s := ({ u with
    link := { u.link with exchange := none, replyTimer := none } } : State).setSlot .empty) hwait _ _)

/-- Settles O35: the first expiry, then the second of a SET, of an attention exchange, of a query, and in a job. -/
theorem replyTimerResendsOnceThenLoses : Obligations.ReplyTimerResendsOnceThenLoses := by
  refine ⟨fun e ms s hx ht hr ha ho hw => ?_, ?_, ?_, ?_, ?_⟩
  · rw [exec_cardReplyTimeout hx ht, State.replyTimeout_first hr ha ho]
    exact congrArg _ (State.dispatch_idle _ hw)
  · intro p items q ms t pos touched tag pl s hp1 hp2 hlen hwf hx ht hact hph hslot hwho hwait hslots
    obtain ⟨y, hy, hrep⟩ := s.reported_eq (s.lostMatrix p) (cardLostRec p 2) .lost p
    let u : State := ({ s with matrix := s.lostMatrix p } : State).withSide y
    have hu : (s.markLost p 2).abortActive (lostCause p) = u := by
      rw [s.markLost_eq, hy]
      exact State.abortActive_none (s := u) hact _
    let v : State := ({ u with link := { s.link with exchange := none, replyTimer := none } } : State).setSlot .empty
    have hlost : s.setLost p = v.composeTimed ([0x00#8, 0x01#8, 0x03#8] ++ le1 p) := by
      rw [State.setLost_sending p hu hslot hwait, hwho]
      rfl
    have hvs : v.host.slots = [⟨0x14#8, tag, pl, .carried⟩] := (hrep.slots (by rw [hslots]; rfl)).trans hslots
    have hreplied := (State.Replied.compose hvs ([0x00#8, 0x01#8, 0x03#8] ++ le1 p)).examineHead
    have hq := v.compose_quiet ([0x00#8, 0x01#8, 0x03#8] ++ le1 p)
    obtain ⟨w, hq2⟩ := Quiet.examineHead (v.compose ([0x00#8, 0x01#8, 0x03#8] ++ le1 p))
    obtain ⟨ph, hph2, hfinal⟩ := hreplied
    have hnw : ∀ x ∈ (v.composeTimed ([0x00#8, 0x01#8, 0x03#8] ++ le1 p)).host.slots, x.phase ≠ .waiting := by
      intro x hxm
      rw [show (v.composeTimed _).host.slots = _ from hfinal, List.mem_singleton] at hxm
      rw [hxm]
      rcases hph2 with rfl | rfl <;> simp
    have hexec : exec .cardReplyTimeout s = .next (v.composeTimed ([0x00#8, 0x01#8, 0x03#8] ++ le1 p)) := by
      rw [exec_cardReplyTimeout hx ht]
      show Host.Outcome.next (s.setLost p).dispatch = _
      rw [hlost, State.dispatch_idle _ hnw]
    have hmatrix : (v.composeTimed ([0x00#8, 0x01#8, 0x03#8] ++ le1 p)).matrix = v.matrix := hq2.matrix.trans hq.matrix
    have hlog : (v.composeTimed ([0x00#8, 0x01#8, 0x03#8] ++ le1 p)).log = y.log :=
      (State.examineHead_log _).trans (State.compose_log v _)
    have hposn (r : Nat) : (v.composeTimed ([0x00#8, 0x01#8, 0x03#8] ++ le1 p)).posn r = v.posn r := by
      unfold State.posn
      rw [hmatrix]
    have hroster (r : Nat) := s.posn_setPosn (p := p) (r := r) { s.posn p with state := .lost } hp1 hp2 hlen
    refine ⟨_, hexec, ?_, fun r h1 h2 => ?_, fun c hc => ?_, ?_, ?_, ?_, ?_, ?_, ?_, ?_, ?_, fun hp hr hl => ?_, ph, hfinal, hph2⟩
    · exact (hposn p).trans ((hroster p).trans (if_pos rfl))
    · exact (hposn r).trans ((hroster r).trans (if_neg (by omega)))
    · unfold State.imageOf
      rw [hmatrix]
      exact rewritePos_unknown p none hwf c hc
    · rw [hmatrix]; rfl
    · rw [hmatrix]; rfl
    · exact hq2.link.trans hq.link
    · exact hq2.raised 2 (hq.raised 2 hrep.event)
    · exact (congrArg CardReg.lost (hq2.card.trans (hq.card.trans hrep.card)))
    · exact hq2.hv.trans hq.hv
    · exact hq2.lmu.trans hq.lmu
    · exact hq2.engine.trans hq.engine
    · rw [hlog]
      exact (hrep.logged hp hr hl).entries
  · intro sent p code q ms s hp1 hp2 hlen hwf hx ht hact hph hslot hw hcase
    obtain ⟨y, hy, hrep⟩ := s.reported_eq (s.lostMatrix p) (cardLostRec p code) .lost p
    let u : State := ({ s with matrix := s.lostMatrix p } : State).withSide y
    have hu : (s.markLost p code).abortActive (lostCause p) = u := by
      rw [s.markLost_eq, hy]
      exact State.abortActive_none (s := u) hact _
    have hroster (r : Nat) := s.posn_setPosn (p := p) (r := r) { s.posn p with state := .lost } hp1 hp2 hlen
    have hover : s.replyTimeout ⟨sent, q, true⟩ = { u with link := { s.link with
        exchange := none, replyTimer := none
        pollBlocked := if sent = .status p then true else s.link.pollBlocked } } := by
      rcases hcase with ⟨rfl, rfl⟩ | ⟨rfl, rfl, hno⟩
      · show ((s.markLost p 5).abortActive (lostCause p)).attentionOver = _
        rw [hu, State.attentionOver_idle (s := u) hph hslot]
        rfl
      · have hnone (r : Nat) (h1 : p < r) (h2 : r ≤ 32) : u.sweepable r = false := by
          have hsame : u.posn r = s.posn r := (hroster r).trans (if_neg (by omega))
          have hs := hno r h1 h2
          unfold State.sweepable at hs ⊢
          rwa [hsame]
        show ((s.markLost p 6).abortActive (lostCause p)).sweepFrom p = _
        rw [hu, State.sweepFrom_end hnone, State.attentionOver_idle (s := { u with
          link := { u.link with pollBlocked := true } }) hph hslot, if_pos rfl]
        rfl
    have hexec := (exec_cardReplyTimeout hx ht).trans ((congrArg (fun v : State => Host.Outcome.next v.dispatch) hover).trans
      (congrArg Host.Outcome.next (State.dispatch_idle _ (hrep.notWaiting hw))))
    refine ⟨_, hexec, ?_, fun r h1 h2 => ?_, fun c hc => rewritePos_unknown p none hwf c hc, rfl, hslot, rfl, rfl, rfl, rfl,
      hrep.event, congrArg CardReg.lost hrep.card, fun hp hr hl => (hrep.logged hp hr hl).entries⟩
    · exact (hroster p).trans (if_pos rfl)
    · exact (hroster r).trans (if_neg (by omega))
  · intro q ms p s hx ht hw hp1 hp2 hsw hno
    rw [exec_cardReplyTimeout hx ht]
    show Host.Outcome.next (s.sweepFrom 0).dispatch = _
    rw [State.sweepFrom_next (by omega) hp2 hsw (fun r h1 h2 => hno r h1 h2)]
    exact congrArg _ (State.dispatch_idle _ hw)
  · intro p items q ms t pos touched j rest s hp1 hp2 hlen hx ht hrail hslot hwho hwait hj hst hphase hab hw
    obtain ⟨y, hy, hrep⟩ := s.reported_eq (s.lostMatrix p) (cardLostRec p 2) .lost p
    let u : State := ({ s with matrix := s.lostMatrix p } : State).withSide y
    have hu : (s.markLost p 2).abortActive (lostCause p) =
        { u with engine := { s.engine with abort := some (lostCause p) } } := by
      rw [s.markLost_eq, hy, State.abortActive_running (s := u) (lostCause p) hj hst hab]
      refine State.abortRunning_plan (s := u) (lostCause p) hphase fun x hxm => ?_
      rw [show u.matrix.waiting = [] from hwait] at hxm
      cases hxm
    let v : State := State.setSlot { u with
      engine := { s.engine with abort := some (lostCause p) }
      link := { s.link with exchange := none, replyTimer := none } } .empty
    have hlost : s.setLost p = (v.ending (lostCause p)).opening .jobEnd := by
      rw [State.setLost_sending p hu hslot hwait, hwho]
      exact State.endJob_opens (s := v) (lostCause p) rfl hrail rfl
    rw [State.ending_eq (s := v) hj] at hlost
    have hexec := (exec_cardReplyTimeout hx ht).trans ((congrArg (fun v : State => Host.Outcome.next v.dispatch) hlost).trans
      (congrArg Host.Outcome.next (State.dispatch_idle _ (hrep.notWaiting hw))))
    refine ⟨_, hexec, ?_, hrep.event, congrArg CardReg.lost hrep.card, rfl, rfl, ⟨_, rfl⟩, rfl, Lmu.sourceOff_phase _, rfl,
      fun hp => hrep.store hp, fun hp hr hl => (hrep.logged hp hr hl).entries⟩
    · exact (s.posn_setPosn { s.posn p with state := .lost } hp1 hp2 hlen).trans (if_pos rfl)

end Sys2Proof.Machine
end

section
/-! PROOFS. Attention exchanges and status sweeps (2.7, 3.6). -/

namespace Sys2Proof.Machine

open Sys2Proof

/-! ### The cause of an attention (R38) -/

/-- The cause as the CARD register names it (Table 2-5). -/
def attnCardCause (c : Nat) : CardCause := if c = 2 then .stuck else if c = 3 then .overtemp else .driverFault

/-- The record of a cause. -/
def attnRec (p c ch : Nat) : RecData :=
  { kind := if c = 2 then .stuckRelay else if c = 3 then .cardWarn else .cardFault
    system := true, position := some p, channel := if c = 2 then some ch else none }

/-- The matrix once a cause has been handled. -/
def State.attnMatrix (s : State) (p c ch : Nat) : Matrix :=
  if c = 2 then
    if ch < (s.posn p).kind.channels then
      { s.matrix with blocked := insChan ⟨p, ch⟩ s.matrix.blocked, image := tdel s.matrix.image (p * 128 + ch) }
    else s.matrix
  else if c = 3 then s.matrix
  else
    { s.matrix.setPosn p { s.posn p with state := .faulted } with
      image := rewritePos s.matrix.image p (fun _ _ => some .opn) }

theorem State.attnCause_eq (s : State) (p c ch : Nat) : s.attnCause p c ch =
    if c = 3 then s.reported (s.attnMatrix p c ch) (attnRec p c ch) (attnCardCause c) p
    else (s.reported (s.attnMatrix p c ch) (attnRec p c ch) (attnCardCause c) p).abortActive
      (cardCause (attnCardCause c) p) := by
  unfold State.attnCause
  by_cases h2 : c = 2
  · subst h2
    show s.stuckRelay p ch = (s.reported (s.attnMatrix p 2 ch) (attnRec p 2 ch) .stuck p).abortActive _
    unfold State.stuckRelay State.attnMatrix
    by_cases hch : ch < (s.posn p).kind.channels
    · simp only [hch]
      rfl
    · simp only [hch]
      rfl
  · by_cases h3 : c = 3
    · subst h3
      rfl
    · simp only [h2, h3, State.attnMatrix, attnRec, attnCardCause]
      rfl

theorem mem_insChan (c d : Chan) : ∀ l : List Chan, d ∈ insChan c l ↔ d = c ∨ d ∈ l
  | [] => by simp [insChan]
  | e :: r => by
    have ih := mem_insChan c d r
    unfold insChan
    split
    · simp
    · split
      · next h => simp [h]
      · rw [List.mem_cons, ih, List.mem_cons]
        tauto

/-- Where a cause may be reported from, each part of the matrix as it becomes. -/
theorem State.attnMatrix_slot (s : State) (p c ch : Nat) : (s.attnMatrix p c ch).slot = s.matrix.slot := by
  unfold State.attnMatrix
  split
  · split <;> rfl
  · split <;> rfl

theorem State.attnMatrix_waiting (s : State) (p c ch : Nat) : (s.attnMatrix p c ch).waiting = s.matrix.waiting := by
  unfold State.attnMatrix
  split
  · split <;> rfl
  · split <;> rfl

theorem State.attnMatrix_stuck_roster (s : State) (p ch : Nat) : (s.attnMatrix p 2 ch).roster = s.matrix.roster := by
  unfold State.attnMatrix
  rw [if_pos rfl]
  split <;> rfl

theorem State.attnMatrix_stuck_in {s : State} {p ch : Nat} (h : ch < (s.posn p).kind.channels)
    (hw : tableWf s.matrix.image = true) :
    (∀ d : Chan, d ∈ (s.attnMatrix p 2 ch).blocked ↔ d = ⟨p, ch⟩ ∨ d ∈ s.matrix.blocked) ∧
    ∀ d : Chan, d.ch ≤ 127 → tget (s.attnMatrix p 2 ch).image d.key = if d = ⟨p, ch⟩ then none else s.imageOf d := by
  have hm : s.attnMatrix p 2 ch = { s.matrix with
      blocked := insChan ⟨p, ch⟩ s.matrix.blocked, image := tdel s.matrix.image (p * 128 + ch) } :=
    (if_pos rfl).trans (if_pos h)
  have hle := (s.posn p).kind.channels_le
  rw [hm]
  refine ⟨fun d => mem_insChan _ d _, fun d hd => (tget_tdel _ _ _ hw).trans (if_congr ?_ rfl rfl)⟩
  obtain ⟨q, k⟩ := d
  simp only at hd
  simp only [Chan.key, Chan.mk.injEq]
  omega

theorem State.attnMatrix_stuck_out {s : State} {p ch : Nat} (h : ¬ ch < (s.posn p).kind.channels) :
    s.attnMatrix p 2 ch = s.matrix := (if_pos rfl).trans (if_neg h)

theorem State.attnMatrix_fault {s : State} {p c : Nat} (ch : Nat) (h2 : c ≠ 2) (h3 : c ≠ 3) : s.attnMatrix p c ch =
    { s.matrix.setPosn p { s.posn p with state := .faulted } with
      image := rewritePos s.matrix.image p (fun _ _ => some .opn) } := (if_neg h2).trans (if_neg h3)

theorem State.attnMatrix_posn {s : State} {p r : Nat} (c ch : Nat) (hp1 : 1 ≤ p) (hp2 : p ≤ 32)
    (hlen : s.matrix.roster.length = 32) (h1 : 1 ≤ r) (hr : r ≠ p) :
    (s.attnMatrix p c ch).roster.getD (r - 1) RosterEntry.empty = s.posn r := by
  by_cases h2 : c = 2
  · subst h2
    rw [s.attnMatrix_stuck_roster]
    rfl
  · by_cases h3 : c = 3
    · subst h3
      rfl
    · rw [State.attnMatrix_fault ch h2 h3]
      exact (s.posn_setPosn _ hp1 hp2 hlen).trans (if_neg (by omega))

/-! ### An attention with no job active -/

/-- What the handling of a cause leaves, with no job active. -/
structure Served (s t : State) (p c ch : Nat) : Prop where
  link : t.link = { s.link with
    seqBits := s.link.seqBits.set (p - 1) (!s.link.seqBit p)
    exchange := some ⟨.attnClear p, (s.link.seqBits.set (p - 1) (!s.link.seqBit p)).getD (p - 1) false, false⟩
    replyTimer := some s.link.replyTimeout }
  matrix : t.matrix = s.attnMatrix p c ch
  hv : t.hv = s.hv
  lmu : t.lmu = s.lmu
  engine : t.engine = s.engine
  event : t.events.pending.getLsbD 2 = true
  card : t.events.card = s.events.card.enter (attnCardCause c) p
  notWaiting : (∀ r ∈ s.host.slots, r.phase ≠ .waiting) → ∀ r ∈ t.host.slots, r.phase ≠ .waiting
  entries : s.printer.state ≠ .idle → s.log.reporting = true → s.log.entries.length < 256 →
    t.log.entries = s.log.entries ++ [⟨s.log.nextSeq, decide (s.printer.state ≠ .off), true, attnRec p c ch⟩]

theorem Reported.served {s : State} {p c ch : Nat} {y : Side}
    (hrep : Reported s (attnRec p c ch) (attnCardCause c) p y) :
    Served s ((({ s with matrix := s.attnMatrix p c ch } : State).withSide y).sendCard (.attnClear p)) p c ch :=
  ⟨rfl, rfl, rfl, rfl, rfl, hrep.event, hrep.card, hrep.notWaiting, fun hp hr hl => (hrep.logged hp hr hl).entries⟩

theorem State.serveHolder_served {s : State} (h : s.jobActive = false ∨ c = 3) (p ch : Nat) :
    Served s (s.serveHolder p c ch) p c ch := by
  obtain ⟨y, hy, hrep⟩ := s.reported_eq (s.attnMatrix p c ch) (attnRec p c ch) (attnCardCause c) p
  have heq : s.attnCause p c ch = ({ s with matrix := s.attnMatrix p c ch } : State).withSide y := by
    rw [s.attnCause_eq, hy]
    split
    · rfl
    · next h3 =>
      have hact := h.resolve_right h3
      exact State.abortActive_none (s := ({ s with matrix := s.attnMatrix p c ch } : State).withSide y) hact _
  unfold State.serveHolder
  rw [heq]
  exact hrep.served

/-- What the statements of an attention and of a sweep say of the channels and the roster. -/
theorem Served.cause {s t : State} {p c ch : Nat} (hs : Served s t p c ch) (hp1 : 1 ≤ p) (hp2 : p ≤ 32)
    (hlen : s.matrix.roster.length = 32) (hwf : tableWf s.matrix.image = true) :
    (c = 2 → t.matrix.roster = s.matrix.roster ∧ t.events.card.stuck = s.events.card.stuck.or (some p) ∧
      (ch < (s.posn p).kind.channels →
        (∀ d : Chan, d ∈ t.matrix.blocked ↔ d = ⟨p, ch⟩ ∨ d ∈ s.matrix.blocked) ∧
        ∀ d : Chan, d.ch ≤ 127 → t.imageOf d = if d = ⟨p, ch⟩ then none else s.imageOf d) ∧
      (¬ ch < (s.posn p).kind.channels → t.matrix = s.matrix)) ∧
    (c ≠ 2 → c ≠ 3 → t.posn p = { s.posn p with state := .faulted } ∧
      t.matrix.blocked = s.matrix.blocked ∧ t.events.card.driverFault = s.events.card.driverFault.or (some p) ∧
      ∀ d : Chan, d.ch ≤ 127 → t.imageOf d = if d.pos = p then some .opn else s.imageOf d) := by
  unfold State.imageOf
  rw [hs.card]
  refine ⟨?_, fun h2 h3 => ?_⟩
  · rintro rfl
    rw [hs.matrix]
    refine ⟨s.attnMatrix_stuck_roster p ch, rfl, fun hch => State.attnMatrix_stuck_in hch hwf,
      fun hch => State.attnMatrix_stuck_out hch⟩
  · have hcause : attnCardCause c = .driverFault := (if_neg h2).trans (if_neg h3)
    have hposn : t.posn p = (s.attnMatrix p c ch).roster.getD (p - 1) RosterEntry.empty := by
      unfold State.posn
      rw [hs.matrix]
    rw [hposn, hs.matrix, hcause, State.attnMatrix_fault ch h2 h3]
    exact ⟨(s.posn_setPosn _ hp1 hp2 hlen).trans (if_pos rfl), rfl, rfl,
      fun d hd => rewritePos_unknown p (some .opn) hwf d hd⟩

theorem Served.posn {s t : State} {p c ch : Nat} (hs : Served s t p c ch) (hp1 : 1 ≤ p) (hp2 : p ≤ 32)
    (hlen : s.matrix.roster.length = 32) {r : Nat} (h1 : 1 ≤ r) (hr : r ≠ p) : t.posn r = s.posn r := by
  rw [State.posn, hs.matrix]
  exact State.attnMatrix_posn c ch hp1 hp2 hlen h1 hr

theorem Served.slot {s t : State} {p c ch : Nat} (hs : Served s t p c ch) : t.matrix.slot = s.matrix.slot :=
  (congrArg Matrix.slot hs.matrix).trans (s.attnMatrix_slot p c ch)

/-! ### The status sweep -/

theorem exec_statusReply {s : State} {f : CardFrame} {p : Nat} {c ch : Byte} (hf : s.accepted f = some (.status p))
    (hpl : f.payload = [c, ch]) : exec (.statusReplyReceived f) s =
      .next (if c.toNat = 0 then s.sweepFrom p else s.serveHolder p c.toNat ch.toNat).dispatch := by
  rw [exec_statusReplyReceived hf, hpl]
  rfl

/-- Settles O37: a reply without a cause, then one with it. -/
theorem statusSweepGoesOnToTheNext : Obligations.StatusSweepGoesOnToTheNext := by
  intro f p c ch s hf hpl hw
  have hexec := exec_statusReply hf hpl
  refine ⟨fun hc q h1 h2 hq hno => ?_, fun hc hno hslot hph => ?_, fun hc => ?_, fun hc hact hp1 hp2 hlen hwf => ?_⟩
  · subst hc
    rw [hexec, if_pos (by rfl), State.sweepFrom_next h1 h2 hq hno]
    exact congrArg _ (State.dispatch_idle _ hw)
  · subst hc
    rw [hexec, if_pos (by rfl), State.sweepFrom_end hno, State.attentionOver_idle (s := { s with
      link := { s.link with pollBlocked := true } }) hph hslot]
    exact congrArg _ (State.dispatch_idle _ hw)
  · subst hc
    have hs := State.serveHolder_served (s := s) (c := 3) (.inr rfl) p ch.toNat
    rw [if_neg (by decide)] at hexec
    exact ⟨_, hexec.trans (congrArg _ (State.dispatch_idle _ (hs.notWaiting hw))), hs.matrix, hs.hv, hs.event,
      congrArg CardReg.overtemp hs.card, hs.link⟩
  · have hne : ¬ c.toNat = 0 := fun h => hc (BitVec.eq_of_toNat_eq h)
    have hs := State.serveHolder_served (s := s) (c := c.toNat) (.inl hact) p ch.toNat
    rw [if_neg hne] at hexec
    obtain ⟨h2, h23⟩ := hs.cause hp1 hp2 hlen hwf
    exact ⟨_, hexec.trans (congrArg _ (State.dispatch_idle _ (hs.notWaiting hw))), hs.event, hs.link, hs.slot, hs.hv, hs.lmu,
      hs.engine, fun r hr1 hr2 => hs.posn hp1 hp2 hlen hr1 hr2, hs.entries, h2, h23⟩

/-! ### An abort while an exchange is on the link (R36, R38) -/

/-- What an abort of any job keeps while an exchange is on the link. -/
structure Released (s t : State) : Prop where
  link : t.link = s.link
  raised : ∀ n, s.events.pending.getLsbD n = true → t.events.pending.getLsbD n = true
  notWaiting : (∀ r ∈ s.host.slots, r.phase ≠ .waiting) → ∀ r ∈ t.host.slots, r.phase ≠ .waiting
  store : s.printer.state ≠ .idle → t.store = s.store
  side : s.hv.rail ≠ .fault → t.side = s.side

theorem Released.refl (s : State) : Released s s := ⟨rfl, fun _ h => h, fun h => h, fun _ => rfl, fun _ => rfl⟩

/-- The all-open plan SENDING while an exchange is on the link: its ALL_OPEN waits. -/
def State.openingLater (s : State) (who : Issuer) : State :=
  s.switched (allOpenTaken who) (.sending (allOpenTaken who) 0 (s.refTouched (allOpenTaken who)))

theorem State.offerPlan_openingLater {s : State} (who : Issuer) (hx : s.link.exchange.isSome = true)
    (hslot : s.matrix.slot = .empty) (hrail : s.hv.rail = .safe) :
    s.offerPlan ⟨.allOpen, who⟩ = (s.openingLater who, []) := by
  have hsend : s.enterSending (allOpenTaken who) = (s.openingLater who, none) := by
    unfold State.enterSending
    dsimp only
    rw [s.refTouched_eq]
    exact (if_pos rfl).trans (congrArg (·, none) (if_pos hx))
  rw [State.offerPlan_free hslot]
  show reports who (s.enterSlot (allOpenTaken who)) = _
  rw [State.enterSlot_safe hrail, hsend]
  rfl

theorem State.endJob_openingLater {s : State} (c : EndCause) (hx : s.link.exchange.isSome = true)
    (hslot : s.matrix.slot = .empty) (hrail : s.hv.rail = .safe) : s.endJob c = (s.ending c).openingLater .jobEnd := by
  rw [State.endJob_eq, State.offerPlan_openingLater (s := s.ending c) .jobEnd (by simp [hx]) (by simp [hslot])
    (by simp [hrail])]
  refine if_neg ?_
  show ¬ (s.ending c).hv.rail = .fault
  simp [hrail]

theorem State.offerPlan_allOpen_busy {s : State} (who : Issuer) (hx : s.link.exchange.isSome = true) :
    ∃ m l, (s.offerPlan ⟨.allOpen, who⟩).1 = { s with matrix := m, lmu := l } := by
  by_cases hslot : s.matrix.slot = .empty
  · by_cases hrail : s.hv.rail = .safe
    · exact ⟨(s.openingLater who).matrix, s.lmu.sourceOff,
        congrArg Prod.fst (State.offerPlan_openingLater who hx hslot hrail)⟩
    · rw [State.offerPlan_held hslot hrail]
      exact ⟨_, s.lmu, rfl⟩
  · have hoffer : s.offerPlan ⟨.allOpen, who⟩ =
        ({ s with matrix := { s.matrix with waiting := s.matrix.waiting ++ [⟨.allOpen, who⟩] } }, []) := by
      refine if_neg ?_
      cases h : s.matrix.slot <;> simp [Slot.isEmpty, h] at hslot ⊢
    rw [hoffer]
    exact ⟨_, s.lmu, rfl⟩

theorem State.finishJob_released (s : State) (hf : s.hv.rail = .fault) : Released s s.finishJob := by
  unfold State.finishJob
  cases s.head with
  | none => exact Released.refl s
  | some j =>
    let a := (s.appendSystem (jobEndRec j (j.ended.getD ⟨.complete, .nothing⟩))).1
    let b := a.raise (endEvent (j.ended.getD ⟨.complete, .nothing⟩).reason)
    have hq : Quiet s b := (Quiet.appendSystem s _).trans (Quiet.raise a _)
    obtain ⟨w, hw⟩ := Quiet.examineHead b.dropHead
    refine ⟨hw.link.trans hq.link, fun n h => hw.raised n (hq.raised n h), fun h => hw.notWaiting (hq.notWaiting h),
      fun hp => ?_, fun h => absurd hf h⟩
    exact (Logged.examineHead b.dropHead).store.trans ((State.raise_store _ _).trans (State.appendSystem_rest hp _).1)

theorem State.endJob_released {s : State} (c : EndCause) (hx : s.link.exchange.isSome = true) :
    Released s (s.endJob c) := by
  obtain ⟨m, l, hoffer⟩ := State.offerPlan_allOpen_busy (s := s.ending c) .jobEnd (by rw [State.ending_link]; exact hx)
  have hsame : Released s ({ s.ending c with matrix := m, lmu := l } : State) :=
    ⟨s.ending_link c, fun n h => by rw [← s.ending_events c] at h; exact h,
      fun h => by rw [← s.ending_host c] at h; exact h, fun _ => s.ending_store c,
      fun _ => by
        unfold State.side
        exact congr (congr (congr (congr (congrArg Side.mk (s.ending_store c)) (s.ending_log c)) (s.ending_printer c))
          (s.ending_host c)) (s.ending_events c)⟩
  rw [State.endJob_eq, hoffer]
  split
  · next hf =>
    have hfin := State.finishJob_released ({ s.ending c with matrix := m, lmu := l } : State) hf
    have hrail : s.hv.rail = .fault := (congrArg Hv.rail (s.ending_hv c)).symm.trans hf
    refine ⟨hfin.link.trans hsame.link, fun n h => hfin.raised n (hsame.raised n h),
      fun h => hfin.notWaiting (hsame.notWaiting h), fun hp => ?_, fun h => absurd hrail h⟩
    exact (hfin.store (by rw [show _ = _ from s.ending_printer c]; exact hp)).trans (hsame.store hp)
  · exact hsame

theorem Hv.stopOrder_fault (h : Hv) : h.stopOrder.rail = .fault ↔ h.rail = .fault := by
  unfold Hv.stopOrder
  cases hr : h.rail <;> simp [Hv.dropStep, Hv.enterDischarge, hr]

theorem State.abortActive_released {s : State} (c : EndCause) (hx : s.link.exchange.isSome = true) :
    Released s (s.abortActive c) := by
  have hof {u : State} (hu : u.link = s.link) (hside : u.side = s.side) (hr : u.hv.rail = .fault ↔ s.hv.rail = .fault) :
      Released s (u.endJob c) := by
    have h := State.endJob_released (s := u) c (by rw [hu]; exact hx)
    unfold State.side at hside
    simp only [Side.mk.injEq] at hside
    obtain ⟨h1, h2, h3, h4, h5⟩ := hside
    refine ⟨h.link.trans hu, fun n hn => h.raised n (by rw [h5]; exact hn), fun hn => h.notWaiting (by rw [h4]; exact hn),
      fun hp => (h.store (by rw [h3]; exact hp)).trans h1, fun hf => (h.side (fun he => hf (hr.1 he))).trans ?_⟩
    unfold State.side
    rw [h1, h2, h3, h4, h5]
  unfold State.abortActive
  split
  · exact Released.refl s
  · split
    · exact Released.refl s
    · exact Released.refl s
    · exact hof rfl rfl Iff.rfl
    · exact hof rfl rfl Iff.rfl
    · split
      · exact Released.refl s
      · unfold State.abortRunning
        split
        · exact hof rfl rfl Iff.rfl
        · split
          · exact hof rfl rfl Iff.rfl
          · exact ⟨rfl, fun _ h => h, fun h => h, fun _ => rfl, fun _ => rfl⟩
        · exact hof rfl rfl Iff.rfl
        · exact hof rfl rfl (Hv.stopOrder_fault _)

end Sys2Proof.Machine
end

section
/-! PROOFS. The attention exchange (2.7), with and without a job active. -/

namespace Sys2Proof.Machine

open Sys2Proof

theorem State.accepted_some {s : State} {f : CardFrame} {x : Sent} (h : s.accepted f = some x) :
    ∃ e, s.link.exchange = some e ∧ e.sent = x ∧ e.accepts f = true := by
  unfold State.accepted at h
  split at h
  · cases h
  · next e he =>
    split at h
    · next ha =>
      cases h
      exact ⟨e, he, rfl, ha⟩
    · cases h

/-- The holder that answers an ATTN_QUERY is a position of the link. -/
theorem State.accepted_attnQuery {s : State} {f : CardFrame} (h : s.accepted f = some .attnQuery) :
    1 ≤ f.addr.toNat ∧ f.addr.toNat ≤ 32 ∧ s.link.exchange.isSome = true := by
  obtain ⟨e, he, hsent, ha⟩ := State.accepted_some h
  obtain ⟨-, -, -, haddr, -⟩ := (e.accepts_iff f).1 ha
  rw [hsent] at haddr
  simp only [Sent.addrDue, Bool.and_eq_true, decide_eq_true_eq] at haddr
  exact ⟨haddr.1, haddr.2, by rw [he]; rfl⟩

theorem State.sweepable_iff (s : State) (p : Nat) : s.sweepable p = true ↔
    (s.posn p).state = .present ∨ (s.posn p).state = .faulted := by
  simp [State.sweepable]

theorem exec_attnReply {s : State} {f : CardFrame} {c ch : Byte} (hf : s.accepted f = some .attnQuery)
    (hpl : f.payload = [c, ch]) : exec (.attnReplyReceived f) s =
      .next (if s.sweepable f.addr.toNat then s.serveHolder f.addr.toNat c.toNat ch.toNat
        else State.attentionOver { s with link := { s.link with pollBlocked := true } }).dispatch := by
  rw [exec_attnReplyReceived hf, hpl]
  rfl

theorem State.mayPoll_of {s : State} (hx : s.link.exchange = none) (hb : s.link.pollBlocked = false)
    (hst : s.link.startup = false) (hph : s.link.enumPhase = .idle)
    (hslot : ∀ t pos touched, s.matrix.slot ≠ .sending t pos touched) : s.mayPoll = true := by
  unfold State.mayPoll State.enumerating
  rw [hx, hb, hst, hph]
  cases h : s.matrix.slot
  case sending t pos touched => exact absurd h (hslot t pos touched)
  all_goals rfl

/-! ### The active job (R38) -/

section
variable {s : State} {p c ch : Nat} (hx : s.link.exchange.isSome = true)
include hx

/-- The handling of a cause, whatever the job. -/
theorem State.serveHolder_keeps {y : Side}
    (hy : s.reported (s.attnMatrix p c ch) (attnRec p c ch) (attnCardCause c) p =
      ({ s with matrix := s.attnMatrix p c ch } : State).withSide y)
    (hrep : Reported s (attnRec p c ch) (attnCardCause c) p y) :
    ∃ v : State, s.attnCause p c ch = v ∧ v.link = s.link ∧ v.events.pending.getLsbD 2 = true ∧
      (s.printer.state ≠ .idle → v.store = s.store) ∧ (s.hv.rail ≠ .fault → v.log = y.log) ∧
      ((∀ r ∈ s.host.slots, r.phase ≠ .waiting) → ∀ r ∈ v.host.slots, r.phase ≠ .waiting) := by
  refine ⟨_, rfl, ?_⟩
  rw [s.attnCause_eq, hy]
  split
  · exact ⟨rfl, hrep.event, hrep.store, fun _ => rfl, hrep.notWaiting⟩
  · have h := State.abortActive_released (s := ({ s with matrix := s.attnMatrix p c ch } : State).withSide y)
      (cardCause (attnCardCause c) p) hx
    exact ⟨h.link, h.raised 2 hrep.event,
      fun hp => (h.store (ne_of_eq_of_ne (congrArg _ (hrep.printer hp)) hp)).trans (hrep.store hp),
      fun hf => congrArg Side.log (h.side hf), fun hw => h.notWaiting (hrep.notWaiting hw)⟩

end

/-- Settles O36: the query, the reply with no job active, the ACK, CATTN, and the reply in a job. -/
theorem attentionIsServedAndCleared : Obligations.AttentionIsServedAndCleared := by
  refine ⟨fun s hx hb hst hph hslot => ?_, fun f p c ch s hf hp hpl hlen hwf hact hw => ⟨fun hpos => ?_,
    fun hn1 hn2 hslot hph => ?_⟩, fun f p s hf hslot hph hw => ?_, fun s => rfl, ?_⟩
  · exact congrArg Host.Outcome.next ((if_pos (State.mayPoll_of hx hb hst hph hslot)).trans rfl)
  · subst hp
    obtain ⟨hp1, hp2, -⟩ := State.accepted_attnQuery hf
    have hs := State.serveHolder_served (s := s) (c := c.toNat) (.inl hact) f.addr.toNat ch.toNat
    have hexec := exec_attnReply hf hpl
    rw [if_pos ((s.sweepable_iff _).2 hpos)] at hexec
    obtain ⟨h2, h23⟩ := hs.cause hp1 hp2 hlen hwf
    refine ⟨_, hexec.trans (congrArg _ (State.dispatch_idle _ (hs.notWaiting hw))), hs.link, hs.event, hs.slot, hs.hv,
      hs.lmu, fun r hr1 hr2 => hs.posn hp1 hp2 hlen hr1 hr2, hs.entries, fun h3 => ?_, h2, h23⟩
    refine ⟨hs.matrix.trans ?_, (congrArg CardReg.overtemp hs.card).trans ?_⟩
    · rw [h3]; rfl
    · rw [h3]; rfl
  · subst hp
    have hno : ¬ s.sweepable f.addr.toNat = true := fun h => ((s.sweepable_iff _).1 h).elim hn1 hn2
    rw [exec_attnReply hf hpl, if_neg hno, State.attentionOver_idle (s := { s with
      link := { s.link with pollBlocked := true } }) hph hslot]
    exact congrArg _ (State.dispatch_idle _ hw)
  · rw [exec_attnClearAck hf, State.attentionOver_idle hph hslot]
    exact congrArg _ (State.dispatch_idle _ hw)
  · intro f p c ch j rest s hf hp hpl hp1 hp2 hpos hj hab hw
    subst hp
    obtain ⟨-, -, hx⟩ := State.accepted_attnQuery hf
    obtain ⟨y, hy, hrep⟩ := s.reported_eq (s.attnMatrix f.addr.toNat c.toNat ch.toNat)
      (attnRec f.addr.toNat c.toNat ch.toNat) (attnCardCause c.toNat) f.addr.toNat
    obtain ⟨v, hv, hlink, hev, hstore, hlog, hnw⟩ := State.serveHolder_keeps hx hy hrep
    let R : State := ({ s with matrix := s.attnMatrix f.addr.toNat c.toNat ch.toNat } : State).withSide y
    have hexec : exec (.attnReplyReceived f) s = .next (v.sendCard (.attnClear f.addr.toNat)) := by
      rw [exec_attnReply hf hpl, if_pos ((s.sweepable_iff _).2 hpos), State.serveHolder, hv]
      exact congrArg _ (State.dispatch_idle _ (hnw hw))
    let why : EndCause := ⟨.abortedCard, .card (if c.toNat = 2 then .stuck else .driverFault) f.addr.toNat⟩
    have hslotR : R.matrix.slot = s.matrix.slot := s.attnMatrix_slot _ _ _
    have hcause (h3 : c.toNat ≠ 3) : cardCause (attnCardCause c.toNat) f.addr.toNat = why := by
      unfold cardCause attnCardCause
      rw [if_neg h3]
    have habort (h3 : c.toNat ≠ 3) : v = R.abortActive why := by
      rw [← hv, s.attnCause_eq, if_neg h3, hy, hcause h3]
    refine ⟨_, _, _, hexec, rfl, rfl, hev, ?_, ?_, hstore, fun hf hp hr hl => ?_, fun hcase => ?_, fun h3 hst hph hq => ?_,
      fun h3 hslot hrail hcase => ?_, fun h3 hslot hrail hst hph => ?_⟩
    · show (v.link.send (.attnClear f.addr.toNat)).exchange = _
      rfl
    · show some v.link.replyTimeout = _
      rw [hlink]
    · exact (congrArg Log.entries (hlog hf)).trans (hrep.logged hp hr hl).entries
    · have hR : v = R := by
        rcases hcase with h3 | hst
        · rw [← hv, s.attnCause_eq, if_pos h3, hy]
        · by_cases h3 : c.toNat = 3
          · rw [← hv, s.attnCause_eq, if_pos h3, hy]
          · rw [habort h3]
            have hactive : R.activeJob = some j := State.jobActive_of (s := R) hj (by rw [hst]; rfl)
            unfold State.abortActive
            rw [hactive]
            simp only [hst]
      rw [hR]
      exact ⟨rfl, rfl, hslotR, rfl, rfl⟩
    · have hplan : v = { R with engine := { s.engine with abort := some why } } := by
        rw [habort h3, State.abortActive_running (s := R) _ hj hst hab]
        refine State.abortRunning_plan (s := R) _ hph fun q hqm => hq q ?_
        rwa [show R.matrix.waiting = _ from s.attnMatrix_waiting _ _ _] at hqm
      rw [hplan]
      exact ⟨rfl, rfl, hslotR, rfl, rfl⟩
    · have hend : ∃ l : Lmu, v = State.endJob { R with lmu := l } why := by
        rcases hcase with ⟨hst, hph⟩ | hst
        · exact ⟨s.lmu.discard, (habort h3).trans ((State.abortActive_running (s := R) _ hj hst hab).trans
            (State.abortRunning_measure (s := R) _ hph))⟩
        · exact ⟨s.lmu, (habort h3).trans (State.abortActive_releasing (s := R) _ hj hst.symm)⟩
      obtain ⟨l, hl⟩ := hend
      rw [hl, State.endJob_openingLater (s := { R with lmu := l }) _ hx (hslotR.trans hslot) hrail,
        State.ending_eq (s := { R with lmu := l }) hj]
      exact ⟨rfl, rfl, ⟨_, rfl⟩, l.sourceOff_phase, rfl⟩
    · have hstop : s.hv.stopOrder = s.hv.dropStep.enterDischarge .stop := by
        unfold Hv.stopOrder
        rcases hrail with h | h <;> rw [h]
      have hheld := State.abortRunning_driven (s := R) why hph (hslotR.trans hslot)
        (by show s.hv.stopOrder.rail = _; rw [hstop]; rfl)
      rw [habort h3, State.abortActive_running (s := R) _ hj hst hab, hheld,
        State.ending_eq (s := { R with hv := R.hv.stopOrder }) hj]
      exact ⟨rfl, rfl, rfl, hstop⟩

end Sys2Proof.Machine
end

section
/-! PROOFS. The requests of the print formatter (11.1, 11.3). -/

namespace Sys2Proof.Machine

open Sys2Proof

/-! ### Characters and lines (R171, R172) -/

/-- The state in which READY leaves the formatter that sends a character, or waits with it. -/
def PrinterState.going (x : PrinterState) (y : PrinterState) : PrinterState := if x = .holdPending then .holdPending else y

theorem State.charDue_sent {s : State} (h : s.pins.pready ≠ s.printer.cfg.lowTrue) : s.charDue =
    { s with printer := { s.printer with waiting := false, state := s.printer.state.going .printing } } :=
  if_pos (by simpa [State.readyAsserted] using h)

theorem State.charDue_waits {s : State} (h : s.pins.pready = s.printer.cfg.lowTrue) : s.charDue =
    { s with printer := { s.printer with
      waiting := true
      timer := some (s.printer.cfg.timeout * 1000)
      state := s.printer.state.going .waitReady } } :=
  if_neg (by simp [State.readyAsserted, h])

theorem State.beginLine_sent {s : State} (h : s.pins.pready ≠ s.printer.cfg.lowTrue) : s.beginLine =
    { s with printer := { s.printer with state := .printing, pos := 0, waiting := false } } :=
  State.charDue_sent (s := { s with printer := { s.printer with state := .printing, pos := 0 } }) h

theorem State.startLine_sent {s : State} (hp : s.pins.ppaper = true) (h : s.pins.pready ≠ s.printer.cfg.lowTrue) :
    s.startLine = { s with printer := { s.printer with state := .printing, pos := 0, waiting := false } } :=
  (if_pos hp).trans (State.beginLine_sent h)

/-- A line that finds no paper: PAPER_OUT, with the cause in the register of PRINTER. -/
def State.outOfPaper (s : State) : State :=
  { s with
    printer := { s.printer with state := .paperOut, pos := 0 }
    events := { s.events with printer := { s.events.printer with paper := true } } }

theorem State.startLine_noPaper {s : State} (hp : s.pins.ppaper = false) :
    s.startLine = s.outOfPaper.raise .printer := if_neg (by simp [hp])

theorem State.takeRecord_sent {s : State} {e : Entry} (hnets : e.data.netsNamed = []) (hp : s.pins.ppaper = true)
    (h : s.pins.pready ≠ s.printer.cfg.lowTrue) : s.takeRecord e = { s with printer := { s.printer with
      state := .printing, current := some e.seq, lines := renderLines [] e, line := 0, pos := 0, waiting := false } } := by
  unfold State.takeRecord
  rw [hnets]
  exact State.startLine_sent (s := { s with printer := { s.printer with
    state := .printing, current := some e.seq, lines := renderLines [] e, line := 0, pos := 0 } }) hp h

theorem Log.oldestPrint_none {l : Log} (h : ∀ e ∈ l.entries, e.printMark = false) : l.oldestPrint = none :=
  List.find?_eq_none.2 fun e he => by simp [h e he]

theorem State.takeOldest_none {s : State} (h : ∀ e ∈ s.log.entries, e.printMark = false) :
    s.takeOldest = { s with printer := { s.printer with state := .idle } } := by
  unfold State.takeOldest
  rw [Log.oldestPrint_none h]

/-! ### Freed entries with no job in the queue (R161) -/

theorem State.entryFreed_noJob {s : State} (h : s.queue.jobs = []) : s.entryFreed = s.endWait := by
  have hact : s.activeJob = none := by simp [State.activeJob, State.head, h]
  have hspace : s.spaceAlone = false := by simp [State.spaceAlone, State.cond1, State.head, h]
  rw [State.entryFreed, hact]
  exact State.examineHead_other hspace

theorem State.releaseFrom_noJob {s : State} (h : s.queue.jobs = []) (n : Nat) :
    ∃ w, s.releaseFrom n = { s with queue := { s.queue with stallWait := w } } := by
  unfold State.releaseFrom
  split
  · exact ⟨false, State.entryFreed_noJob h⟩
  · exact ⟨s.queue.stallWait, rfl⟩

/-- With every print mark cleared the host marks alone keep an entry. -/
theorem Log.clearMarks_print (l : Log) : l.clearMarks (fun e => { e with printMark := false }) =
    { l with entries := (l.entries.map (fun e => { e with printMark := false })).filter (·.hostMark) } := by
  have : (l.entries.map (fun e => { e with printMark := false })).filter (fun e => e.printMark || e.hostMark) =
      (l.entries.map (fun e => { e with printMark := false })).filter (·.hostMark) := by
    simp [List.filter_map, Function.comp_def]
  rw [Log.clearMarks, this]

/-! ### PRINTER_CONFIG (R168) -/

/-- The ranges of its seven settings. -/
def printerOks (en bd db pa sb pol tm : Nat) : List Bool :=
  [decide (en ≤ 1), decide (1 ≤ bd ∧ bd ≤ 8), decide (db = 7 ∨ db = 8), decide (pa ≤ 3),
    decide (sb = 1 ∨ sb = 2), decide (pol ≤ 1), decide (1 ≤ tm ∧ tm ≤ 60)]

def printerCfg (en bd db pa sb pol tm : Nat) : PrinterConfig :=
  ⟨decide (en = 1), bd, db, if pa = 1 then .even else if pa = 2 then .odd else if pa = 3 then .zero else .none, sb,
    decide (pol = 1), tm⟩

def printerPayload (en bd db pa sb pol tm : Nat) : List Byte :=
  le1 en ++ le1 bd ++ le1 db ++ le1 pa ++ le1 sb ++ le1 pol ++ le1 tm

theorem ofNat_beq_one {n : Nat} (h : n < 256) : (BitVec.ofNat 8 n == 1#8) = decide (n = 1) := by
  rw [Bool.eq_iff_iff, beq_iff_eq, decide_eq_true_iff, ← BitVec.toNat_inj, byte_toNat n h]
  rfl

section
variable {en bd db pa sb pol tm : Nat} (hen : en < 256) (hbd : bd < 256) (hdb : db < 256) (hpa : pa < 256)
  (hsb : sb < 256) (hpol : pol < 256) (htm : tm < 256)
include hen hbd hdb hpa hsb hpol htm

theorem doPrinterConfig_eq (u : State) : doPrinterConfig (printerPayload en bd db pa sb pol tm) u =
    if u.printer.state ≠ .off ∧ u.printer.state ≠ .held then (u, 0x04#8 :: le1 u.printer.state.code)
    else if (printerOks en bd db pa sb pol tm).all id then
      (u.applyPrinter (printerCfg en bd db pa sb pol tm),
        0x00#8 :: le1 (u.applyPrinter (printerCfg en bd db pa sb pol tm)).printer.state.code)
    else (u, 0x03#8 :: le1 (badPlace (printerOks en bd db pa sb pol tm))) := by
  simp only [printerPayload, le1, List.cons_append, List.nil_append, doPrinterConfig, byte_toNat _ hen, byte_toNat _ hbd,
    byte_toNat _ hdb, byte_toNat _ hpa, byte_toNat _ hsb, byte_toNat _ hpol, byte_toNat _ htm, ofNat_beq_one hen,
    ofNat_beq_one hpol, printerOks, Bool.decide_and, Bool.decide_or]
  rfl

theorem doPrinterConfig_busy {u : State} (h1 : u.printer.state ≠ .off) (h2 : u.printer.state ≠ .held) :
    doPrinterConfig (printerPayload en bd db pa sb pol tm) u = (u, 0x04#8 :: le1 u.printer.state.code) :=
  (doPrinterConfig_eq hen hbd hdb hpa hsb hpol htm u).trans (if_pos ⟨h1, h2⟩)

theorem doPrinterConfig_bad {u : State} (h : u.printer.state = .off ∨ u.printer.state = .held) {k : Nat}
    (hk : (printerOks en bd db pa sb pol tm)[k]? = some false)
    (hj : ∀ j < k, (printerOks en bd db pa sb pol tm)[j]? = some true) :
    doPrinterConfig (printerPayload en bd db pa sb pol tm) u = (u, 0x03#8 :: le1 k) := by
  rw [doPrinterConfig_eq hen hbd hdb hpa hsb hpol htm u, if_neg (by tauto), all_id_false hk, badPlace_eq hk hj]
  rfl

theorem doPrinterConfig_ok {u v : State} (h : u.printer.state = .off ∨ u.printer.state = .held)
    (hall : ∀ b ∈ printerOks en bd db pa sb pol tm, b = true)
    (hv : u.applyPrinter (printerCfg en bd db pa sb pol tm) = v) :
    doPrinterConfig (printerPayload en bd db pa sb pol tm) u = (v, 0x00#8 :: le1 v.printer.state.code) := by
  rw [doPrinterConfig_eq hen hbd hdb hpa hsb hpol htm u, if_neg (by tauto), all_id_of_all hall, hv]
  rfl

end

section
variable {s : State} {c : PrinterConfig}

theorem State.applyPrinter_stays (h : s.printer.state = .off ∧ c.enable = false ∨ s.printer.state = .held ∧ c.enable = true) :
    s.applyPrinter c = { s with printer := { s.printer with cfg := c } } := by
  unfold State.applyPrinter
  obtain ⟨h1, h2⟩ | ⟨h1, h2⟩ := h <;> rw [h1, h2]

theorem State.applyPrinter_enabled (h1 : s.printer.state = .off) (h2 : c.enable = true)
    (h : ∀ e ∈ s.log.entries, e.printMark = false) :
    s.applyPrinter c = { s with printer := { s.printer with cfg := c, state := .idle } } := by
  unfold State.applyPrinter
  rw [h1, h2]
  exact (if_pos rfl).trans (State.takeOldest_none h)

theorem State.applyPrinter_disabled (h1 : s.printer.state = .held) (h2 : c.enable = false) (h : s.queue.jobs = []) :
    ∃ w, s.applyPrinter c = { s with
      log := { s.log with
        entries := (s.log.entries.map (fun e => { e with printMark := false })).filter (·.hostMark) }
      printer := ⟨.off, c, none, [], 0, 0, false, none⟩
      queue := { s.queue with stallWait := w } } := by
  unfold State.applyPrinter
  rw [h1, h2, ← Log.clearMarks_print]
  exact State.releaseFrom_noJob (s := { s with
    log := s.log.clearMarks (fun e => { e with printMark := false })
    printer := ⟨.off, c, none, [], 0, 0, false, none⟩ }) h _

end

/-! ### PRINT_HOLD, PRINT_RELEASE and PRINT_FLUSH (R174–R176) -/

theorem doPrintHold_eq {s : State} (h : s.printer.state ≠ .off) : doPrintHold [] s =
    ({ s with printer := { s.printer with state := s.printer.state.hold } }, 0x00#8 :: le1 s.printer.state.hold.code) :=
  if_neg h

theorem PrinterState.hold_eq {x : PrinterState} (h : x ≠ .off) : x.hold =
    (if x = .printing ∨ x = .waitReady ∨ x = .holdPending then .holdPending else .held) := by
  cases x with
  | off => exact absurd rfl h
  | _ => rfl

theorem doPrintRelease_eq {s t : State} (h : s.printer.state = .held ∨ s.printer.state = .holdPending)
    (ht : s.release = t) : doPrintRelease [] s = (t, 0x00#8 :: le1 t.printer.state.code) :=
  ht ▸ if_neg (by tauto)

section
variable {s : State} (h : s.printer.state = .held)
include h

theorem State.release_line {n : Nat} (hc : s.printer.current = some n) : s.release = s.startLine := by
  unfold State.release
  rw [h, hc]
  rfl

theorem State.release_record (hc : s.printer.current = none) : s.release = s.takeOldest := by
  unfold State.release
  rw [h, hc]
  rfl

end

theorem State.release_pending {s : State} (h : s.printer.state = .holdPending) : s.release =
    { s with printer := { s.printer with state := if s.printer.waiting then .waitReady else .printing } } := by
  unfold State.release
  rw [h]
  rfl

theorem doPrintFlush_eq {s : State} (h : s.printer.state = .held) (hj : s.queue.jobs = []) : ∃ w, doPrintFlush [] s =
    ({ s with
      log := { s.log with
        entries := (s.log.entries.map (fun e => { e with printMark := false })).filter (·.hostMark) }
      printer := ⟨.held, s.printer.cfg, none, [], 0, 0, false, none⟩
      queue := { s.queue with stallWait := w } },
      0x00#8 :: le2 (s.log.entries.countP (·.printMark))) := by
  obtain ⟨w, hw⟩ := State.releaseFrom_noJob (s := s.dropPrints) hj s.log.entries.length
  refine ⟨w, (if_neg (by simp [h])).trans (congrArg (·, _) (hw.trans ?_))⟩
  rw [State.dropPrints, Log.clearMarks_print]
  unfold Printer.dropRecord
  rw [h]

theorem exec_answered_printer (r : Request) (tag : Byte) (p : List Byte) (s : State) (rep : List Byte) (hs : s.ready)
    (hp : p.length ≤ 1024) (x : Printer)
    (hc : carry r p (s.handed r.code tag p) = ({ s.handed r.code tag p with printer := x }, some rep)) :
    exec (requestInstr r tag p) s = .next (State.replying { s with printer := x } r.code tag p rep) :=
  exec_answered r tag p s { s.handed r.code tag p with printer := x } rep hs hp hc rfl

/-- Settles O59: each request by the state of the printer; its refusals leave the state as it was. -/
theorem printerRequestsFollowTheState : Obligations.PrinterRequestsFollowTheState := by
  intro tag s hs
  refine ⟨fun en bd db pa sb pol tm hen hbd hdb hpa hsb hpol htm => ⟨printerPayload en bd db pa sb pol tm,
    printerOks en bd db pa sb pol tm, printerCfg en bd db pa sb pol tm, rfl, rfl, rfl, fun h1 h2 => ?_,
    fun hall => ⟨fun h1 h2 => ?_, fun h1 h2 hm => ?_, fun h1 h2 => ?_, fun h1 h2 hj => ?_⟩, fun k h hk hj => ?_⟩,
    fun h => ?_, fun h1 h2 => ?_, fun h => ?_, fun h => ?_, fun h hc hm => ?_, fun e h hc he hn ho hco hp hr => ?_,
    fun n h hc hp => ?_, fun n h hc hp hr => ?_, fun h => ?_, fun h hj => ?_⟩
  · exact exec_answered_unchanged .printerConfig tag _ s _ hs (by simp [printerPayload]) (answered_eq
      (doPrinterConfig_busy hen hbd hdb hpa hsb hpol htm (u := s.handed 0x2C#8 tag _) h1 h2))
  · have hdo := doPrinterConfig_ok hen hbd hdb hpa hsb hpol htm
      (u := s.handed 0x2C#8 tag (printerPayload en bd db pa sb pol tm)) (.inl h1) hall
      (State.applyPrinter_stays (.inl ⟨h1, by simp [printerCfg, h2]⟩))
    rw [show (PrinterState.code (s.handed 0x2C#8 tag (printerPayload en bd db pa sb pol tm)).printer.state) = 0 from
      congrArg _ h1] at hdo
    exact exec_answered_printer .printerConfig tag _ s _ hs (by simp [printerPayload]) _ (answered_eq hdo)
  · exact exec_answered_printer .printerConfig tag _ s _ hs (by simp [printerPayload]) _ (answered_eq
      (doPrinterConfig_ok hen hbd hdb hpa hsb hpol htm (u := s.handed 0x2C#8 tag _) (.inl h1) hall
        (State.applyPrinter_enabled h1 (by simp [printerCfg, h2]) hm)))
  · have hdo := doPrinterConfig_ok hen hbd hdb hpa hsb hpol htm
      (u := s.handed 0x2C#8 tag (printerPayload en bd db pa sb pol tm)) (.inr h1) hall
      (State.applyPrinter_stays (.inr ⟨h1, by simp [printerCfg, h2]⟩))
    rw [show (PrinterState.code (s.handed 0x2C#8 tag (printerPayload en bd db pa sb pol tm)).printer.state) = 6 from
      congrArg _ h1] at hdo
    exact exec_answered_printer .printerConfig tag _ s _ hs (by simp [printerPayload]) _ (answered_eq hdo)
  · obtain ⟨w, hw⟩ := State.applyPrinter_disabled
      (s := s.handed 0x2C#8 tag (printerPayload en bd db pa sb pol tm)) (c := printerCfg en bd db pa sb pol tm) h1
      (by simp [printerCfg, h2]) hj
    have hexec := exec_answered .printerConfig tag _ s _ _ hs (by simp [printerPayload]) (answered_eq
      (doPrinterConfig_ok hen hbd hdb hpa hsb hpol htm (.inr h1) hall hw)) rfl
    exact ⟨w, hexec⟩
  · exact exec_answered_unchanged .printerConfig tag _ s _ hs (by simp [printerPayload]) (answered_eq
      (doPrinterConfig_bad hen hbd hdb hpa hsb hpol htm (u := s.handed 0x2C#8 tag _) h hk hj))
  · exact exec_answered_unchanged .printHold tag [] s _ hs (by simp) (answered_eq (if_pos h))
  · exact exec_answered_unchanged .printRelease tag [] s _ hs (by simp) (answered_eq (if_pos ⟨h1, h2⟩))
  · have hdo := doPrintHold_eq (s := s.handed 0x2D#8 tag []) h
    have hexec := exec_answered_printer .printHold tag [] s _ hs (by simp) _ (answered_eq hdo)
    rw [show ((s.handed 0x2D#8 tag []).printer.state.hold) = _ from PrinterState.hold_eq h] at hexec
    exact hexec.trans (congrArg (fun r => Host.Outcome.next (State.replying _ 0x2D#8 tag [] r))
      (apply_ite (fun x : PrinterState => 0x00#8 :: le1 x.code) _ _ _))
  · have hdo := doPrintRelease_eq (s := s.handed 0x2E#8 tag []) (.inr h) (State.release_pending h)
    have hexec := exec_answered_printer .printRelease tag [] s _ hs (by simp) _ (answered_eq hdo)
    refine hexec.trans (congrArg (fun r => Host.Outcome.next (State.replying _ 0x2E#8 tag [] r)) ?_)
    show 0x00#8 :: le1 (PrinterState.code (if s.printer.waiting then .waitReady else .printing)) = _
    cases s.printer.waiting <;> rfl
  · exact exec_answered_printer .printRelease tag [] s _ hs (by simp) _ (answered_eq
      (doPrintRelease_eq (s := s.handed 0x2E#8 tag []) (.inl h) ((State.release_record (s := s.handed 0x2E#8 tag []) h hc).trans
        (State.takeOldest_none hm))))
  · have hnets : e.data.netsNamed = [] := by simp [RecData.netsNamed, hn, ho, hco]
    have htake : (s.handed 0x2E#8 tag []).takeOldest = (s.handed 0x2E#8 tag []).takeRecord e := by
      unfold State.takeOldest Log.oldestPrint
      rw [show (s.handed 0x2E#8 tag []).log.entries.find? (·.printMark) = some e from he]
    exact exec_answered_printer .printRelease tag [] s _ hs (by simp) _ (answered_eq
      (doPrintRelease_eq (s := s.handed 0x2E#8 tag []) (.inl h) ((State.release_record (s := s.handed 0x2E#8 tag []) h hc).trans
        (htake.trans (State.takeRecord_sent hnets hp hr)))))
  · have hdo := doPrintRelease_eq (s := s.handed 0x2E#8 tag []) (.inl h) ((State.release_line (s := s.handed 0x2E#8 tag []) h hc).trans
      (State.startLine_noPaper hp))
    have hq := Quiet.raise (s.handed 0x2E#8 tag []).outOfPaper .printer
    obtain ⟨w, host, hr⟩ := State.raise_eq (s.handed 0x2E#8 tag []).outOfPaper .printer
    have hslots := hq.slots rfl
    have hev := State.raise_isPending (s.handed 0x2E#8 tag []).outOfPaper .printer
    rw [hr] at hdo hslots hev
    obtain ⟨ph, tx, hph, hexec⟩ := exec_answered_raised .printRelease tag [] s _ _ hs (by simp) (answered_eq hdo) hslots
    exact ⟨_, ph, hexec, hph, rfl, rfl, hev, rfl, rfl, rfl, rfl⟩
  · exact exec_answered_printer .printRelease tag [] s _ hs (by simp) _ (answered_eq
      (doPrintRelease_eq (s := s.handed 0x2E#8 tag []) (.inl h) ((State.release_line (s := s.handed 0x2E#8 tag []) h hc).trans
        (State.startLine_sent hp hr))))
  · exact exec_answered_unchanged .printFlush tag [] s _ hs (by simp) (answered_eq (if_pos h))
  · obtain ⟨w, hw⟩ := doPrintFlush_eq (s := s.handed 0x2F#8 tag []) h hj
    have hexec := exec_answered .printFlush tag [] s _ _ hs (by simp) (answered_eq hw) rfl
    exact ⟨w, hexec⟩

end Sys2Proof.Machine
end

section
/-! PROOFS. The formatter's characters and lines, and how a record is rendered (11.2, 11.4). -/

namespace Sys2Proof.Machine

open Sys2Proof

/-! ### Numerals (R177) -/

/-- The value of a numeral, read behind the digits that stand for `v`. -/
def readOn (v : Nat) (l : List Byte) : Nat := l.foldl (fun v b => 10 * v + (b.toNat - 48)) v

theorem digit_toNat (d : Nat) : (digit d).toNat = 48 + d % 10 := by
  rw [digit, byte_toNat]
  omega

theorem readOn_digit (v d : Nat) (l : List Byte) : readOn v (digit d :: l) = readOn (10 * v + d % 10) l := by
  simp [readOn, digit_toNat]

theorem padded_succ (k n : Nat) : padded (k + 1) n = digit (n / 10 ^ k) :: padded k n := by
  simp [padded, List.range_succ]

theorem padded_length (k n : Nat) : (padded k n).length = k := by simp [padded]

theorem padded_digits {k n : Nat} {b : Byte} (h : b ∈ padded k n) : 48 ≤ b.toNat ∧ b.toNat ≤ 57 := by
  obtain ⟨i, -, rfl⟩ := List.mem_map.1 h
  rw [digit_toNat]
  omega

theorem readOn_padded (k n : Nat) : ∀ v, readOn v (padded k n) = v * 10 ^ k + n % 10 ^ k := by
  induction k with
  | zero => intro v; simp [padded, readOn, Nat.mod_one]
  | succ k ih =>
    intro v
    rw [padded_succ, readOn_digit, ih, Nat.mod_pow_succ, Nat.pow_succ]
    ring

section
variable {fuel n : Nat} {acc : List Byte}

theorem decimalAux_small (h : n < 10) : decimalAux (fuel + 1) n acc = digit n :: acc := if_pos h

theorem decimalAux_large (h : ¬ n < 10) : decimalAux (fuel + 1) n acc = decimalAux fuel (n / 10) (digit n :: acc) := if_neg h

end

theorem readOn_decimalAux (fuel : Nat) : ∀ n acc, n < 10 ^ fuel → readOn 0 (decimalAux fuel n acc) = readOn n acc := by
  induction fuel with
  | zero =>
    intro n acc h
    rw [show n = 0 by simpa using h]
    rfl
  | succ fuel ih =>
    intro n acc h
    by_cases hn : n < 10
    · rw [decimalAux_small hn, readOn_digit, Nat.mod_eq_of_lt hn, Nat.mul_zero, Nat.zero_add]
    · rw [decimalAux_large hn, ih _ _ (by rw [Nat.pow_succ] at h; omega), readOn_digit]
      congr 1
      omega

theorem decimalAux_digits (fuel : Nat) : ∀ n acc, (∀ b ∈ acc, 48 ≤ b.toNat ∧ b.toNat ≤ 57) →
    ∀ b ∈ decimalAux fuel n acc, 48 ≤ b.toNat ∧ b.toNat ≤ 57 := by
  induction fuel with
  | zero => exact fun n acc h => h
  | succ fuel ih =>
    intro n acc h
    have hcons : ∀ b ∈ digit n :: acc, 48 ≤ b.toNat ∧ b.toNat ≤ 57 := by
      refine List.forall_mem_cons.2 ⟨?_, h⟩
      rw [digit_toNat]
      omega
    by_cases hn : n < 10
    · rwa [decimalAux_small hn]
    · rw [decimalAux_large hn]
      exact ih _ _ hcons

theorem decimalAux_head (fuel : Nat) : ∀ n acc, 1 ≤ n → n < 10 ^ fuel →
    ∃ b r, decimalAux fuel n acc = b :: r ∧ 49 ≤ b.toNat := by
  induction fuel with
  | zero =>
    intro n acc h1 h
    exact absurd h (by simp; omega)
  | succ fuel ih =>
    intro n acc h1 h
    by_cases hn : n < 10
    · refine ⟨_, _, decimalAux_small hn, ?_⟩
      rw [digit_toNat]
      omega
    · rw [decimalAux_large hn]
      exact ih _ _ (by omega) (by rw [Nat.pow_succ] at h; omega)

theorem decimalAux_ne_nil (fuel : Nat) : ∀ n acc, acc ≠ [] → decimalAux fuel n acc ≠ [] := by
  induction fuel with
  | zero => exact fun n acc h => h
  | succ fuel ih =>
    intro n acc h
    by_cases hn : n < 10
    · rw [decimalAux_small hn]
      exact List.cons_ne_nil _ _
    · rw [decimalAux_large hn]
      exact ih _ _ (List.cons_ne_nil _ _)

theorem decimal_digits {n : Nat} {b : Byte} (h : b ∈ decimal n) : 48 ≤ b.toNat ∧ b.toNat ≤ 57 :=
  decimalAux_digits 20 n [] (by simp) b h

theorem decimal_ne_nil (n : Nat) : decimal n ≠ [] := by
  unfold decimal
  by_cases hn : n < 10
  · rw [decimalAux_small hn]
    exact List.cons_ne_nil _ _
  · rw [decimalAux_large hn]
    exact decimalAux_ne_nil _ _ _ (List.cons_ne_nil _ _)

/-! ### Lines (R178) -/

theorem trimLine_append {l : List Byte} (a : List Byte) (hne : l ≠ []) (h : ∀ b ∈ l, b ≠ 0x20#8) :
    trimLine (a ++ l) = a ++ l := by
  have hlast : l.reverse ≠ [] := by simpa using hne
  obtain ⟨b, r, hb⟩ := List.exists_cons_of_ne_nil hlast
  have hsp : (b == 0x20#8) = false := by simpa using h b (List.mem_reverse.1 (hb.symm ▸ List.mem_cons_self))
  rw [trimLine, List.reverse_append, hb, List.cons_append, List.dropWhile_cons_of_neg (by simp [hsp]), ← List.cons_append,
    ← hb, List.reverse_append, List.reverse_reverse, List.reverse_reverse]

theorem notSpace_of_digit {b : Byte} (h : 48 ≤ b.toNat ∧ b.toNat ≤ 57) : b ≠ 0x20#8 := by
  rintro rfl
  exact absurd h.1 (by decide)

theorem trimLine_padded (a : List Byte) (k n : Nat) : trimLine (a ++ padded (k + 1) n) = a ++ padded (k + 1) n :=
  trimLine_append a (by simp [padded_succ]) fun _ h => notSpace_of_digit (padded_digits h)

theorem trimLine_decimal (a : List Byte) (n : Nat) : trimLine (a ++ decimal n) = a ++ decimal n :=
  trimLine_append a (decimal_ne_nil n) fun _ h => notSpace_of_digit (decimal_digits h)

/-- A net without a label is named by its number. -/
theorem renderNet_unlabelled {names : List (Nat × List Byte)} (h : ∀ e ∈ names, e.2 = []) (n : Nat) :
    renderNet names n = ascii "N" ++ padded 4 n := by
  unfold renderNet
  cases hf : names.find? (fun e => e.1 == n) with
  | none => rfl
  | some e => exact if_pos (by rw [h e (List.mem_of_find?_eq_some hf)]; rfl)

theorem renderLines_one {names : List (Nat × List Byte)} {e : Entry} (h : (secondLine names e.data).filterMap id = []) :
    renderLines names e = [trimLine (firstLine names e) ++ [0x0D#8, 0x0A#8]] := by
  unfold renderLines
  rw [h]
  rfl

theorem renderLines_two {names : List (Nat × List Byte)} {e : Entry} {f : List Byte} {fs : List (List Byte)}
    (h : (secondLine names e.data).filterMap id = f :: fs) : renderLines names e =
    [trimLine (firstLine names e) ++ [0x0D#8, 0x0A#8],
      trimLine ((ascii " ").intercalate (f :: fs)) ++ [0x0D#8, 0x0A#8]] := by
  unfold renderLines
  rw [h]
  simp [spaced, List.filterMap_map]

theorem renderRange_eq (r : CRange) : renderRange r = (match r with
    | .r100 => ascii "100MA"
    | .r10 => ascii "10MA"
    | .r1 => ascii "1MA") := by cases r <;> rfl

theorem trimLine_range (a : List Byte) (r : CRange) : trimLine (a ++ renderRange r) = a ++ renderRange r := by
  refine trimLine_append a ?_ ?_
  · cases r <;> decide
  · cases r <;> decide

/-! ### Characters (R172, R173) -/

/-- The pins as the part samples them when a character has gone. -/
def State.sampled (s : State) (rdy pap : Bool) : State := { s with pins := { s.pins with pready := rdy, ppaper := pap } }

theorem exec_printerCharSent {s : State} (rdy pap : Bool) {n : Nat} (hc : s.printer.current = some n)
    (hw : s.printer.waiting = false) (hst : s.printer.state = .printing ∨ s.printer.state = .holdPending) :
    exec (.printerCharSent rdy pap) s = .next (s.sampled rdy pap).printerSent := by
  have hsend : s.printer.sending = true := by
    unfold Printer.sending
    obtain h | h := hst <;> rw [h, hw, hc] <;> rfl
  exact congrArg Host.Outcome.next (if_pos hsend)

theorem PrinterState.going_same {x : PrinterState} (h : x = .printing ∨ x = .holdPending) : x.going .printing = x := by
  obtain rfl | rfl := h <;> rfl

theorem PrinterState.going_waits {x : PrinterState} (h : x = .printing ∨ x = .holdPending) :
    x.going .waitReady = (if x = .printing then .waitReady else .holdPending) := by
  obtain rfl | rfl := h <;> rfl

theorem State.charSent_next {z : State} (h : z.printer.pos + 1 < z.printer.lineNow.length) :
    z.printerSent = State.charDue { z with printer := { z.printer with pos := z.printer.pos + 1 } } := by
  unfold State.printerSent State.charSent
  rw [if_pos h]

/-- The state after the last line, before its entry's release. -/
def State.recordGone (z : State) : State :=
  { z.clearCurrentMark with printer := { z.clearCurrentMark.printer with
    state := if z.printer.state = .holdPending then .held else z.printer.state } }

section
variable {z : State} (h : z.printer.lineNow.length ≤ z.printer.pos + 1)
include h

theorem State.charSent_line (hl : z.printer.line + 1 < z.printer.lines.length) : z.printerSent =
    if z.printer.state = .holdPending then
      { z with printer := { z.printer with line := z.printer.line + 1, pos := 0, state := .held } }
    else State.startLine { z with printer := { z.printer with line := z.printer.line + 1, pos := 0 } } := by
  unfold State.printerSent State.charSent
  rw [if_neg (by omega), if_pos hl]
  split_ifs <;> rfl

theorem State.charSent_over (hl : z.printer.lines.length ≤ z.printer.line + 1) :
    z.printerSent = State.afterRecord (z.recordGone.releaseFrom z.log.entries.length) := by
  unfold State.printerSent State.charSent State.recordGone State.releaseFrom
  rw [if_neg (by omega), if_neg (by omega)]
  by_cases hs : z.printer.state = .holdPending
  · simp only [if_pos hs]
    simp
  · simp only [if_neg hs]
    simp
    rfl

end

/-- With no other record marked for the printer, clearing the current one clears every print mark. -/
theorem State.clearCurrentMark_only {z : State} {n : Nat} (hc : z.printer.current = some n)
    (h : ∀ e ∈ z.log.entries, e.printMark = true → e.seq = n) : z.clearCurrentMark.log =
      { z.log with entries := (z.log.entries.map (fun e => { e with printMark := false })).filter (·.hostMark) } := by
  rw [← Log.clearMarks_print]
  unfold State.clearCurrentMark Log.clearMarks
  have hmap : z.log.entries.map
      (fun e => if z.printer.current = some e.seq then { e with printMark := false } else e) =
      z.log.entries.map (fun e => { e with printMark := false }) := by
    refine List.map_congr_left fun e he => ?_
    by_cases hs : z.printer.current = some e.seq
    · exact if_pos hs
    · have hm : e.printMark = false := Bool.eq_false_iff.2 fun hm => hs (by rw [hc, h e he hm])
      rw [if_neg hs, ← hm]
  rw [hmap]

theorem State.afterRecord_held {z : State} (h : z.printer.state = .held) : z.afterRecord = z := by
  simp [State.afterRecord, h]

theorem State.afterRecord_next {z : State} (h : z.printer.state = .printing) (hc : z.printer.current = none) :
    z.afterRecord = z.takeOldest := by
  simp [State.afterRecord, h, hc]

theorem State.printerSent_last {z : State} {n : Nat} (hc : z.printer.current = some n)
    (hst : z.printer.state = .printing ∨ z.printer.state = .holdPending)
    (hpos : z.printer.lineNow.length ≤ z.printer.pos + 1) (hl : z.printer.lines.length ≤ z.printer.line + 1)
    (hj : z.queue.jobs = []) (hm : ∀ e ∈ z.log.entries, e.printMark = true → e.seq = n) :
    ∃ w, z.printerSent = { z with
      log := { z.log with
        entries := (z.log.entries.map (fun e => { e with printMark := false })).filter (·.hostMark) }
      queue := { z.queue with stallWait := w }
      printer := ⟨if z.printer.state = .printing then .idle else .held, z.printer.cfg, none, [], 0, 0, false, none⟩ } := by
  have hlog := State.clearCurrentMark_only hc hm
  have hgone : z.recordGone = { z with
      log := { z.log with
        entries := (z.log.entries.map (fun e => { e with printMark := false })).filter (·.hostMark) }
      printer := ⟨if z.printer.state = .holdPending then .held else z.printer.state, z.printer.cfg, none, [], 0, 0,
        false, none⟩ } := by
    rw [← hlog]
    rfl
  obtain ⟨w, hw⟩ := State.releaseFrom_noJob (s := z.recordGone) hj z.log.entries.length
  refine ⟨w, ?_⟩
  rw [State.charSent_over hpos hl, hw, hgone]
  obtain h | h := hst
  · rw [h]
    refine (State.afterRecord_next rfl rfl).trans (State.takeOldest_none fun e he => ?_)
    obtain ⟨e', -, rfl⟩ := List.mem_map.1 (List.mem_filter.1 he).1
    rfl
  · rw [h]
    exact State.afterRecord_held rfl

/-! ### The obligation -/

theorem numerals : ∃ value : List Byte → Nat,
    (∀ l, value l = l.foldl (fun v b => 10 * v + (b.toNat - 48)) 0) ∧
    (∀ k n, (padded k n).length = k ∧ value (padded k n) = n % 10 ^ k ∧
      ∀ b ∈ padded k n, 48 ≤ b.toNat ∧ b.toNat ≤ 57) ∧
    ∀ n, n < 10 ^ 20 → value (decimal n) = n ∧ (∀ b ∈ decimal n, 48 ≤ b.toNat ∧ b.toNat ≤ 57) ∧
      (10 ≤ n → ∃ b r, decimal n = b :: r ∧ 49 ≤ b.toNat) := by
  refine ⟨readOn 0, fun l => rfl, fun k n => ⟨padded_length k n, ?_, fun b hb => padded_digits hb⟩,
    fun n hn => ⟨readOn_decimalAux 20 n [] hn, fun b hb => decimal_digits hb,
      fun h10 => decimalAux_head 20 n [] (by omega) hn⟩⟩
  rw [readOn_padded, Nat.zero_mul, Nat.zero_add]

theorem renderLines_short (seq g n a b m v : Nat) (pm hm : Bool) (r : CRange) {names : List (Nat × List Byte)}
    (h : ∀ e ∈ names, e.2 = []) : renderLines names ⟨seq, pm, hm, {
        kind := .short, system := false, flags := { c := true }, tag := some g, net := some n
        pointA := some a, pointB := some b, otherNet := some m
        value := some ⟨.mOhm, some v⟩, range := some r }⟩ =
      [padded 6 (seq % 1000000) ++ ascii " " ++ padded 3 g ++ ascii " SHORT          .C... N" ++ padded 4 n ++
        [0x0D#8, 0x0A#8],
       ascii "P" ++ padded 4 a ++ ascii " P" ++ padded 4 b ++ ascii " N" ++ padded 4 m ++ ascii " " ++
        decimal (v / 1000) ++ ascii "." ++ padded 3 (v % 1000) ++ ascii " OHM " ++ (match r with
          | .r100 => ascii "100MA"
          | .r10 => ascii "10MA"
          | .r1 => ascii "1MA") ++ [0x0D#8, 0x0A#8]] := by
  rw [renderLines_two (f := renderPoint a) (fs := [renderPoint b, renderNet names m, renderValue ⟨.mOhm, some v⟩,
    renderRange r]) rfl]
  have hone : firstLine names ⟨seq, pm, hm, {
        kind := .short, system := false, flags := { c := true }, tag := some g, net := some n
        pointA := some a, pointB := some b, otherNet := some m
        value := some ⟨.mOhm, some v⟩, range := some r }⟩ =
      padded 6 (seq % 1000000) ++ ascii " " ++ padded 3 g ++ ascii " SHORT          .C... N" ++ padded 4 n := by
    rw [show ascii " SHORT          .C... N" = ascii " " ++ padRight 15 (ascii "SHORT") ++ ascii ".C..." ++ ascii " " ++
      ascii "N" from rfl]
    show _ ++ _ ++ _ ++ _ ++ _ ++ _ ++ _ ++ renderNet names n = _
    rw [renderNet_unlabelled h]
    simp only [List.append_assoc]
    rfl
  have htwo : (ascii " ").intercalate [renderPoint a, renderPoint b, renderNet names m, renderValue ⟨.mOhm, some v⟩,
      renderRange r] = ascii "P" ++ padded 4 a ++ ascii " P" ++ padded 4 b ++ ascii " N" ++ padded 4 m ++ ascii " " ++
        decimal (v / 1000) ++ ascii "." ++ padded 3 (v % 1000) ++ ascii " OHM " ++ renderRange r := by
    rw [renderNet_unlabelled h, show ascii " P" = ascii " " ++ ascii "P" from rfl,
      show ascii " N" = ascii " " ++ ascii "N" from rfl, show ascii " OHM " = ascii " OHM" ++ ascii " " from rfl]
    simp [List.intercalate, renderPoint, renderValue, thousandths]
  rw [hone, trimLine_padded, htwo, trimLine_range, renderRange_eq]

theorem renderLines_jobEnd (seq g nets steps tests systems extra : Nat) (pm hm : Bool) : renderLines [] ⟨seq, pm, hm, {
        kind := .jobEnd, system := true, tag := some g, job := some .refcheck
        counts := some ⟨⟨.complete, .nothing⟩, nets, steps, tests, systems, extra⟩ }⟩ =
      [padded 6 (seq % 1000000) ++ ascii " " ++ padded 3 g ++ ascii " JOB_END              T" ++
        decimal (min 9999999 tests) ++ [0x0D#8, 0x0A#8], ascii "COMPLETE" ++ [0x0D#8, 0x0A#8]] := by
  rw [renderLines_two (f := ascii "COMPLETE") (fs := []) rfl]
  have hone : firstLine [] ⟨seq, pm, hm, {
        kind := .jobEnd, system := true, tag := some g, job := some .refcheck
        counts := some ⟨⟨.complete, .nothing⟩, nets, steps, tests, systems, extra⟩ }⟩ =
      padded 6 (seq % 1000000) ++ ascii " " ++ padded 3 g ++ ascii " JOB_END              T" ++
        decimal (min 9999999 tests) := by
    rw [show ascii " JOB_END              T" = ascii " " ++ padRight 15 (ascii "JOB_END") ++ ascii "     " ++ ascii " " ++
      ascii "T" from rfl]
    simp only [← List.append_assoc]
    rfl
  rw [hone, trimLine_decimal]
  rfl

theorem renderLines_cardFault (seq pos : Nat) (pm hm : Bool) : renderLines [] ⟨seq, pm, hm, {
        kind := .cardFault, system := true
        position := some pos }⟩ =
      [padded 6 (seq % 1000000) ++ ascii " --- CARD_FAULT           C" ++ padded 2 pos ++ [0x0D#8, 0x0A#8]] := by
  rw [renderLines_one rfl]
  have hone : firstLine [] ⟨seq, pm, hm, { kind := .cardFault, system := true, position := some pos }⟩ =
      padded 6 (seq % 1000000) ++ ascii " --- CARD_FAULT           C" ++ padded 2 pos := by
    rw [show ascii " --- CARD_FAULT           C" = ascii " " ++ ascii "---" ++ ascii " " ++
      padRight 15 (ascii "CARD_FAULT") ++ ascii "     " ++ ascii " " ++ ascii "C" from rfl]
    simp only [← List.append_assoc]
    rfl
  rw [hone, trimLine_padded]

/-- Settles O60: the formatter by what is left of its line and record; numerals and lines by their fields. -/
theorem formatterSendsItsLines : Obligations.FormatterSendsItsLines := by
  refine ⟨fun rdy pap n s hc hw hst => ⟨_, _, rfl, rfl, fun hpos hrdy => ?_, fun hpos hrdy => ?_,
      fun hpos hl => ⟨fun hh => ?_, fun hp hpap hrdy => ?_, fun hp hpap => ?_⟩, fun hpos hl hj hm => ?_⟩,
    numerals, fun n => ⟨rfl, rfl, rfl, rfl, rfl, fun u => rfl⟩, fun seq g n a b m v pm hm r names h =>
      renderLines_short seq g n a b m v pm hm r h, renderLines_jobEnd, renderLines_cardFault,
    fun s => ⟨fun hw hst => ?_, fun hw => ?_, fun ms hw htm => ?_, fun hst hrdy => ?_, fun hst => ?_⟩⟩
  · rw [exec_printerCharSent rdy pap hc hw hst, State.charSent_next (z := s.sampled rdy pap) hpos,
      State.charDue_sent (by exact hrdy)]
    exact congrArg₂ (fun (w : Bool) (x : PrinterState) => Host.Outcome.next { s.sampled rdy pap with printer := {
      s.printer with pos := s.printer.pos + 1, waiting := w, state := x } }) hw.symm (PrinterState.going_same hst)
  · rw [exec_printerCharSent rdy pap hc hw hst, State.charSent_next (z := s.sampled rdy pap) hpos,
      State.charDue_waits (by exact hrdy)]
    exact congrArg (fun x : PrinterState => Host.Outcome.next { s.sampled rdy pap with printer := { s.printer with
      pos := s.printer.pos + 1, waiting := true, timer := some (s.printer.cfg.timeout * 1000), state := x } })
      (PrinterState.going_waits hst)
  · rw [exec_printerCharSent rdy pap hc hw hst, State.charSent_line (z := s.sampled rdy pap) hpos hl]
    exact congrArg Host.Outcome.next (if_pos hh)
  · rw [exec_printerCharSent rdy pap hc hw hst, State.charSent_line (z := s.sampled rdy pap) hpos hl]
    exact congrArg Host.Outcome.next ((if_neg (ne_of_eq_of_ne hp (by decide))).trans ((State.startLine_sent
      (s := { s.sampled rdy pap with printer := { s.printer with line := s.printer.line + 1, pos := 0 } }) hpap hrdy).trans
      (congrArg₂ (fun (w : Bool) (x : PrinterState) => { s.sampled rdy pap with printer := { s.printer with
        line := s.printer.line + 1, pos := 0, waiting := w, state := x } }) hw.symm hp.symm)))
  · let z : State := { s.sampled rdy pap with
      printer := { s.printer with line := s.printer.line + 1, pos := 0 } }
    have hexec : exec (.printerCharSent rdy pap) s = .next (z.outOfPaper.raise .printer) := by
      rw [exec_printerCharSent rdy pap hc hw hst, State.charSent_line (z := s.sampled rdy pap) hpos hl]
      exact congrArg Host.Outcome.next ((if_neg (ne_of_eq_of_ne hp (by decide))).trans
        (State.startLine_noPaper (s := z) hpap))
    have hev := State.raise_isPending z.outOfPaper .printer
    obtain ⟨w, host, hr⟩ := State.raise_eq z.outOfPaper .printer
    rw [hr] at hexec hev
    exact ⟨_, hexec, rfl, hev, rfl, rfl, rfl, rfl, rfl⟩
  · obtain ⟨w, hlast⟩ := State.printerSent_last
      (z := s.sampled rdy pap) hc hst hpos hl hj hm
    exact ⟨w, (exec_printerCharSent rdy pap hc hw hst).trans (congrArg Host.Outcome.next hlast)⟩
  · refine congrArg Host.Outcome.next ((if_pos hw).trans ?_)
    unfold State.readySent
    obtain h | h := hst <;> simp [h]
  · exact congrArg Host.Outcome.next (if_neg (by simp [hw]))
  · let z : State := { s with
      printer := { s.printer with timer := none }
      events := { s.events with printer := { s.events.printer with stall := true } } }
    have hexec : exec .printerTimeout s = .next (z.raise .printer) :=
      congrArg Host.Outcome.next (if_pos (by simp [hw, htm]))
    have hev := State.raise_isPending z .printer
    obtain ⟨w, host, hr⟩ := State.raise_eq z .printer
    rw [hr] at hexec hev
    exact ⟨_, hexec, rfl, hev, rfl, rfl, rfl, rfl, rfl, rfl⟩
  · exact congrArg Host.Outcome.next ((if_pos hst).trans
      (State.beginLine_sent (s := { s with pins := { s.pins with ppaper := true } }) hrdy))
  · exact congrArg Host.Outcome.next (if_neg hst)

end Sys2Proof.Machine
end

section
/-! PROOFS. An engine that goes on (5.2, 5.6): the records of a judgment, the moves that follow it, and how they end: a
step's plan that goes out, the end of the job, a record that waits. -/

namespace Sys2Proof.Machine

open Sys2Proof

/-! ### Moves without a step -/

/-- From `s` the engine comes to rest in `t`, after `k` moves at most. -/
def State.Rests (s t : State) (k : Nat) : Prop := ∀ n, s.engineLoop (n + k) = t

theorem State.Rests.runEngine {s t : State} {k : Nat} (h : s.Rests t k) (hk : k ≤ 8192) : s.runEngine = t := by
  obtain ⟨n, hn⟩ := Nat.exists_eq_add_of_le' hk
  rw [State.runEngine, hn]
  exact h n

theorem State.drain_nil {s : State} (h : s.engine.toAppend = []) : State.drain [] s = (s, true) := by
  show (({ s with engine := { s.engine with toAppend := [] } } : State), true) = (s, true)
  rw [← h]

/-- A step is under way, or the engine is at rest. -/
theorem State.Rests.stop {s : State} (h : s.engine.toAppend = []) (hc : s.engine.ctl = .wait) : s.Rests s 0 := by
  intro n
  cases n with
  | zero => rfl
  | succ n =>
    show s.engineLoop (n + 1) = s
    rw [State.engineLoop, h, State.drain_nil h]
    exact if_pos hc

theorem State.Rests.move {s u t : State} {k : Nat} (h : s.engine.toAppend = []) (hc : s.engine.ctl ≠ .wait)
    (hw : s.workNext = u) (hu : u.Rests t k) : s.Rests t (k + 1) := by
  intro n
  show s.engineLoop (n + k + 1) = t
  rw [State.engineLoop, h, State.drain_nil h]
  exact (if_neg hc).trans ((congrArg (State.engineLoop (n + k)) hw).trans (hu n))

/-! ### The state of an engine that goes on -/

/-- A job's engine, the records counted, and the side. -/
def State.ran (s : State) (j : Job) (rest : List Job) (e : Engine) (k : Nat) (y : Side) : State :=
  ({ s with
    engine := e
    queue := { s.queue with jobs := { j with tests := j.tests + k } :: rest } } : State).withSide y

/-- What the records of a judgment leave of the side. -/
structure Recorded (s : State) (y : Side) (recs : List RecData) : Prop where
  logged : Logged s (s.withSide y) recs
  notWaiting : (∀ r ∈ s.host.slots, r.phase ≠ .waiting) → ∀ r ∈ y.host.slots, r.phase ≠ .waiting
  slots : takeReply s.host.slots = none → y.host.slots = s.host.slots
  carried : y.host.carried = s.host.carried
  none : recs = [] → y = s.side

theorem Recorded.refl (s : State) : Recorded s s.side [] := ⟨Logged.refl s, fun h => h, fun _ => rfl, rfl, fun _ => rfl⟩

theorem Recorded.store {s : State} {y : Side} {recs : List RecData} (h : Recorded s y recs) : y.store = s.store :=
  h.logged.store

theorem Recorded.data {s : State} {y : Side} {recs : List RecData} (h : Recorded s y recs) :
    y.log.entries.map (·.data) = s.log.entries.map (·.data) ++ recs := h.logged.data

section
variable {s : State} {j : Job} {rest : List Job} (hj : s.queue.jobs = j :: rest)
include hj

theorem State.ran_start (e : Engine) : { s with engine := e } = s.ran j rest e 0 s.side := by
  have hq : ({ s.queue with jobs := { j with tests := j.tests + 0 } :: rest } : Queue) = s.queue := by
    show ({ s.queue with jobs := j :: rest } : Queue) = s.queue
    rw [← hj]
  unfold State.ran
  rw [hq]
  rfl

/-- The log takes the record of a judgment. -/
theorem State.ran_recorded (hp : s.printer.state ≠ .idle) (hr : s.log.reporting = true)
    (hlen : s.log.entries.length + 9 ≤ 256) (e : Engine) (d : RecData) : ∃ y, Recorded s y [d] ∧
      State.drain [d] { s with engine := e } = (s.ran j rest { e with toAppend := [] } 1 y, true) := by
  let v : State := { s with engine := e }
  have hq := Quiet.take v d
  have hlog := Logged.take (s := v) hr d
  have hwait := hq.notWaiting
  have hslots := hq.slots
  have hcar := hq.carried
  have happ : v.appendTest true d = (v.take d, true) := State.appendTest_taken (s := v) hp hlen true d
  obtain ⟨y, hy⟩ := hq.exists_withSide
  rw [hy] at hlog hwait hslots hcar happ
  have hcount : (v.withSide y).countTest = s.ran j rest e 1 y := State.setHead_eq (s := v.withSide y) hj _
  refine ⟨y, ⟨⟨hlog.store, hlog.printer, hlog.reporting, hlog.nextSeq, hlog.entries⟩, hwait, hslots, hcar,
    fun h => absurd h (by simp)⟩, ?_⟩
  unfold State.drain
  rw [happ]
  dsimp only
  rw [hcount]
  rfl

theorem State.ran_unrecorded {e : Engine} (he : e.toAppend = []) :
    State.drain [] { s with engine := e } = (s.ran j rest { e with toAppend := [] } 0 s.side, true) := by
  rw [State.drain_nil (s := { s with engine := e }) he, State.ran_start hj e, ← he]

/-- The records of one judgment: none, or one that the log takes; the engine goes on. -/
theorem State.Rests.records (hp : s.printer.state ≠ .idle) (hr : s.log.reporting = true)
    (hlen : s.log.entries.length + 9 ≤ 256) {e : Engine} {recs : List RecData} (he : e.toAppend = recs)
    (hone : recs.length ≤ 1) (hc : e.ctl ≠ .wait) : ∃ y, Recorded s y recs ∧ ∀ (t u : State) (k : Nat),
      (s.ran j rest { e with toAppend := [] } recs.length y).workNext = u → u.Rests t k →
      State.Rests { s with engine := e } t (k + 1) := by
  have hdrain : ∃ y, Recorded s y recs ∧
      State.drain recs { s with engine := e } = (s.ran j rest { e with toAppend := [] } recs.length y, true) := by
    cases recs with
    | nil => exact ⟨s.side, Recorded.refl s, State.ran_unrecorded hj he⟩
    | cons d ds =>
      obtain rfl : ds = [] := List.length_eq_zero_iff.1 (by simpa using hone)
      exact State.ran_recorded hj hp hr hlen e d
  obtain ⟨y, hy, hd⟩ := hdrain
  refine ⟨y, hy, fun t u k hw hu n => ?_⟩
  show State.engineLoop (n + k + 1) { s with engine := e } = t
  rw [State.engineLoop, show ({ s with engine := e } : State).engine.toAppend = recs from he, hd]
  exact (if_neg hc).trans ((congrArg (State.engineLoop (n + k)) hw).trans (hu n))

end

/-! ### How the moves end -/

section
variable {s u : State} {ts : List (Nat × Rail)} {req : StepReq} (again : Bool) (hm : u.matrix = s.matrix)
  (hl : u.link = s.link) (hh : u.hv = s.hv) (hmap : u.store.map = s.store.map)
include hm hl hh hmap

/-- The plan of a step, offered in a state with the relays, the link, the rail and the map of `s`. -/
theorem State.offerInHand_sent {n : Nat} (hs : s.sendsTo ts n) : u.offerInHand ⟨.targets ts true, req⟩ again =
    { u with
      engine := { u.engine with phase := .plan, inHand := some ⟨.targets ts true, req⟩, isRepeat := again, ctl := .wait }
      matrix := (s.planSent (s.stepTaken ts) n).matrix
      link := (s.planSent (s.stepTaken ts) n).link
      lmu := u.lmu.sourceOff } := by
  have hview : u.switchView = s.switchView := State.switchView_of hm hl hh hmap
  have hu := (State.sendsTo_view hview ts n).2 hs
  have ht := State.stepTaken_view hview ts
  obtain ⟨hpm, hpl⟩ := State.planSent_view hview (s.stepTaken ts) n
  rw [State.offerInHand_sends again hu.1 hu.2.1 hu.2.2.2.1 hu, ht, ← hpm, ← hpl]
  rfl

/-- Reference channels alone to change: the slot settles. -/
theorem State.offerInHand_settles (hrail : s.hv.rail = .safe) (hslot : s.matrix.slot = .empty)
    (hok : ∀ x ∈ ts, s.checkTarget x = none) (hno : ∀ r, 1 ≤ r → r ≤ 32 → s.changeList (s.stepTaken ts) r = [])
    (href : s.refChanges (s.stepTaken ts) ≠ []) : u.offerInHand ⟨.targets ts true, req⟩ again =
      { u with
        engine := { u.engine with phase := .plan, inHand := some ⟨.targets ts true, req⟩, isRepeat := again, ctl := .wait }
        matrix := { s.matrix with
          image := writeImage s.matrix.image 0 (s.refChanges (s.stepTaken ts))
          slot := .settling (s.stepTaken ts) [0] 1 }
        lmu := u.lmu.sourceOff } := by
  have hview : u.switchView = s.switchView := State.switchView_of hm hl hh hmap
  have ht := State.stepTaken_view hview ts
  have hr := State.refChanges_view hview (s.stepTaken ts)
  rw [State.offerInHand_refs again (s := u) (by rw [hh]; exact hrail) (by rw [hm]; exact hslot)
    (fun x hx => (State.checkTarget_view hview x).trans (hok x hx))
    (fun r h1 h2 => by rw [ht, State.changeList_view hview]; exact hno r h1 h2) (by rw [ht, hr]; exact href), ht]
  show ({ u with
    engine := { u.engine with phase := .plan, inHand := some ⟨.targets ts true, req⟩, isRepeat := again, ctl := .wait }
    matrix := { u.matrix with
      image := writeImage u.matrix.image 0 (u.refChanges (s.stepTaken ts)), slot := .settling (s.stepTaken ts) [0] 1 }
    lmu := u.lmu.sourceOff } : State) = _
  rw [hr, hm]

end

/-- What the end of a job leaves: its all-open plan on the link, the engine at rest. -/
structure Ended (u t : State) (c : EndCause) (j : Job) (rest : List Job) : Prop where
  store : t.store = u.store
  log : t.log = u.log
  host : t.host = u.host
  events : t.events = u.events
  printer : t.printer = u.printer
  hv : t.hv = u.hv
  reference : t.reference = u.reference
  lmu : t.lmu.phase = .idle
  engine : t.engine = Engine.reset
  slot : ∃ touched, t.matrix.slot = .sending ⟨⟨.allOpen, .jobEnd⟩, []⟩ 0 touched
  exchange : t.link.exchange = some ⟨.allOpen, false, false⟩
  jobs : t.queue.jobs = { j with
    state := .ending, ended := some c, steps := u.engine.steps, nets := u.engine.nets, extra := u.engine.extra } :: rest

/-- The end of a job with the link free: it goes out at once. -/
theorem State.endJob_ended {u : State} {j : Job} {rest : List Job} (hj : u.queue.jobs = j :: rest) (c : EndCause)
    (hslot : u.matrix.slot = .empty) (hrail : u.hv.rail = .safe) (hx : u.link.exchange = none) :
    Ended u (u.endJob c) c j rest := by
  rw [State.endJob_opens c hslot hrail hx, State.ending_eq hj]
  exact ⟨rfl, rfl, rfl, rfl, rfl, rfl, rfl, Lmu.sourceOff_phase _, rfl, ⟨_, rfl⟩, rfl, rfl⟩

/-- Where a move ends the job, the engine comes to rest. -/
theorem Ended.rests {u t : State} {c : EndCause} {j : Job} {rest : List Job} (h : Ended u t c j rest) : t.Rests t 0 :=
  State.Rests.stop (by rw [h.engine]; rfl) (by rw [h.engine]; rfl)

end Sys2Proof.Machine
end

section
/-! PROOFS. The host reads the log (10.4–10.7, 12.8), and an entry freed releases the job that waits. -/

namespace Sys2Proof.Machine

open Sys2Proof

/-! ### The encoding of a record (R193) -/

theorem Entry.bytes_short (seq g n a b m v c : Nat) (pm hm : Bool) (r : CRange) : Entry.bytes ⟨seq, pm, hm, {
      kind := .short, system := false, flags := { c := true }, tag := some g, net := some n
      pointA := some a, pointB := some b, otherNet := some m, value := some ⟨.mOhm, some v⟩
      second := some ⟨.count, some c⟩, range := some r }⟩ =
    [29#8] ++ le4 seq ++ [0x05#8, 0x02#8, 0xFD#8, 0x01#8] ++ le1 g ++ le2 n ++ le2 a ++
      le2 b ++ le2 m ++ [0x01#8] ++ le4 v ++ [0x05#8] ++ le4 c ++ [match r with
        | .r100 => 1#8
        | .r10 => 2#8
        | .r1 => 3#8] := by
  cases r <;> simp [Entry.bytes, RecData.fields, presence, RecData.classByte, RecKind.code, Value.bytes, overOr,
    VUnit.code, CRange.code, le1, le2, le4]

theorem Entry.bytes_jobStart (seq g f l : Nat) (pm hm u : Bool) (ph : CheckPhases) : Entry.bytes ⟨seq, pm, hm, {
      kind := .jobStart, system := false, flags := { u := u }, tag := some g, job := some (.check f l ph) }⟩ =
    [17#8] ++ le4 seq ++ [0x01#8, if u then 0x01#8 else 0x00#8, 0x03#8, 0x00#8] ++ le1 g ++ [0x01#8, 0x05#8] ++ le2 f ++
      le2 l ++ [match ph with
        | .cont => 1#8
        | .iso => 2#8
        | .both => 3#8] := by
  cases u <;> cases ph <;> simp [Entry.bytes, RecData.fields, presence, RecData.classByte, RecKind.code, JobSpec.code,
    JobSpec.options, CheckPhases.code, le1, le2, le4]

theorem Entry.bytes_jobEnd (seq g net nets steps tests systems extra : Nat) (pm hm : Bool) : Entry.bytes ⟨seq, pm, hm, {
      kind := .jobEnd, system := true, tag := some g, job := some .refcheck
      counts := some ⟨⟨.abortedTable, .net net⟩, nets, steps, tests, systems, extra⟩ }⟩ =
    [34#8] ++ le4 seq ++ [0x20#8, 0x80#8, 0x03#8, 0x20#8] ++ le1 g ++ [0x05#8, 0x00#8, 0x03#8, 0x01#8] ++ le4 net ++
      le2 nets ++ le4 steps ++ le4 tests ++ le4 systems ++ le2 extra := by
  simp [Entry.bytes, RecData.fields, presence, RecData.classByte, RecKind.code, JobSpec.code, Counts.bytes,
    EndReason.code, EndDetail.bytes, le1, le2, le4]

theorem Entry.bytes_mismatch (seq pos : Nat) (pm hm : Bool) : Entry.bytes ⟨seq, pm, hm, {
      kind := .rosterMismatch, system := true, position := some pos, cause := some (.roster .hv64 .lv128) }⟩ =
    [12#8] ++ le4 seq ++ [0x25#8, 0x80#8, 0x00#8, 0x14#8] ++ le1 pos ++ [0x02#8, 0x01#8] := by
  simp [Entry.bytes, RecData.fields, presence, RecData.classByte, RecKind.code, RecCause.bytes, CardKind.code, le1, le2,
    le4]

/-! ### SET_REPORTING (R163) -/

/-- The ranges of its three settings. -/
def reportingOks (r th t : Nat) : List Bool := [decide (r ≤ 1), decide (1 ≤ th ∧ th ≤ 64), decide (10 ≤ t ∧ t ≤ 10000)]

def reportingPayload (r th t : Nat) : List Byte := le1 r ++ le1 th ++ le2 t

theorem doSetReporting_eq {r th t : Nat} (hr : r < 256) (hth : th < 256) (ht : t < 65536) (u : State) :
    doSetReporting (reportingPayload r th t) u = if (reportingOks r th t).all id
      then (u.applyReporting (decide (r = 1)) th t, [0x00#8])
      else (u, 0x03#8 :: le1 (badPlace (reportingOks r th t))) := by
  simp only [reportingPayload, le1, le2, List.cons_append, List.nil_append, doSetReporting, byte_toNat _ hr,
    byte_toNat _ hth, u16_of t ht, ofNat_beq_one hr, reportingOks, Bool.decide_and]
  rfl

theorem doSetReporting_ok {r th t : Nat} (hr : r < 256) (hth : th < 256) (ht : t < 65536) {u v : State}
    (hall : ∀ b ∈ reportingOks r th t, b = true) (hv : u.applyReporting (decide (r = 1)) th t = v) :
    doSetReporting (reportingPayload r th t) u = (v, [0x00#8]) := by
  rw [doSetReporting_eq hr hth ht, all_id_of_all hall, hv]
  rfl

/-- The new settings stand. -/
def State.reportingSet (s : State) (on : Bool) (th t : Nat) : State :=
  { s with log := { s.log with reporting := on, threshold := th, timeout := t } }

/-- Reporting turned off: the host marks are gone. -/
def State.reportingOff (s : State) (th t : Nat) : State :=
  { s with log := { s.log with
    entries := (s.log.entries.map (fun e => { e with hostMark := false })).filter (·.printMark)
    reporting := false, threshold := th, timeout := t, notifyTimer := none } }

theorem Log.dropHost_eq (l : Log) : l.dropHost =
    { l with entries := (l.entries.map (fun e => { e with hostMark := false })).filter (·.printMark) } := by
  have : (l.entries.map (fun e => { e with hostMark := false })).filter (fun e => e.printMark || e.hostMark) =
      (l.entries.map (fun e => { e with hostMark := false })).filter (·.printMark) := by
    simp [List.filter_map, Function.comp_def]
  rw [Log.dropHost, Log.clearMarks, this]

theorem Events.isPending_defectReady (v : Events) : v.isPending .defectReady = v.pending.getLsbD 9 := rfl

section
variable {s : State} {th t : Nat}

theorem State.applyReporting_pending (h : s.log.hostPending = 0 ∧ 1 ≤ th ∨ s.events.pending.getLsbD 9 = true) :
    s.applyReporting true th t = s.reportingSet true th t := by
  have hset : s.applyReporting true th t = State.releaseFrom (if s.events.pending.getLsbD 9
      then s.reportingSet true th t else (s.reportingSet true th t).notifyFresh) s.log.entries.length := by
    simp only [State.applyReporting, Bool.not_true, Bool.and_false]
    rfl
  have hsame : (if s.events.pending.getLsbD 9
      then s.reportingSet true th t else (s.reportingSet true th t).notifyFresh) = s.reportingSet true th t := by
    obtain ⟨h0, h1⟩ | h9 := h
    · have hfresh := State.notifyFresh_below (s := s.reportingSet true th t) (h0.trans_lt h1)
      rw [if_pos (.inl h0)] at hfresh
      rw [hfresh]
      exact ite_self _
    · rw [if_pos h9]
  rw [hset, hsame]
  exact if_neg (Nat.lt_irrefl _)

theorem State.applyReporting_fresh (h9 : s.events.pending.getLsbD 9 = false) :
    s.applyReporting true th t = (s.reportingSet true th t).notifyFresh.releaseFrom s.log.entries.length := by
  simp only [State.applyReporting, Bool.not_true, Bool.and_false, Events.isPending_defectReady, h9]
  rfl

theorem State.applyReporting_starts (h9 : s.events.pending.getLsbD 9 = false) (h1 : 1 ≤ s.log.hostPending)
    (hth : s.log.hostPending < th) : s.applyReporting true th t = { s with log := { s.log with
      reporting := true, threshold := th, timeout := t, notifyTimer := some (s.log.notifyTimer.getD t) } } := by
  have hfresh := State.notifyFresh_below (s := s.reportingSet true th t) hth
  have htimer : (if (s.reportingSet true th t).log.hostPending = 0 ∨ (s.reportingSet true th t).log.notifyTimer ≠ none
      then (s.reportingSet true th t).log.notifyTimer else some (s.reportingSet true th t).log.timeout) =
      some (s.log.notifyTimer.getD t) := by
    show (if s.log.hostPending = 0 ∨ s.log.notifyTimer ≠ none then s.log.notifyTimer else some t) = _
    cases s.log.notifyTimer with
    | none => exact if_neg (by simp; omega)
    | some ms => exact if_pos (by simp)
  rw [htimer] at hfresh
  rw [State.applyReporting_fresh h9, hfresh]
  exact if_neg (Nat.lt_irrefl _)

theorem State.applyReporting_reached (h9 : s.events.pending.getLsbD 9 = false) (hth : th ≤ s.log.hostPending) :
    s.applyReporting true th t = (s.reportingSet true th t).stopNotify.raise .defectReady := by
  rw [State.applyReporting_fresh h9, State.notifyFresh_reached (s := s.reportingSet true th t) hth]
  refine if_neg ?_
  rw [State.raise_log]
  exact Nat.lt_irrefl _

theorem State.applyReporting_off (hr : s.log.reporting = true) (h1 : 1 ≤ th) :
    s.applyReporting false th t = (s.reportingOff th t).releaseFrom s.log.entries.length := by
  have hoff : s.applyReporting false th t = State.releaseFrom (if s.events.pending.getLsbD 9
      then s.reportingOff th t else (s.reportingOff th t).notifyFresh) s.log.entries.length := by
    simp only [State.applyReporting, hr, Log.dropHost_eq]
    rfl
  have hnone : (s.reportingOff th t).log.hostPending = 0 := by
    refine List.countP_eq_zero.2 fun e he => ?_
    obtain ⟨e', -, rfl⟩ := List.mem_map.1 (List.mem_filter.1 he).1
    exact Bool.false_ne_true
  have hfresh := State.notifyFresh_below (s := s.reportingOff th t) (hnone.trans_lt h1)
  rw [if_pos (.inl hnone)] at hfresh
  rw [hoff, hfresh]
  exact congrArg (fun u => State.releaseFrom u _) (ite_self _)

end

theorem exec_answered_log (r : Request) (tag : Byte) (p : List Byte) (s : State) (rep : List Byte) (hs : s.ready)
    (hp : p.length ≤ 1024) (l : Log)
    (hc : carry r p (s.handed r.code tag p) = ({ s.handed r.code tag p with log := l }, some rep)) :
    exec (requestInstr r tag p) s = .next (State.replying { s with log := l } r.code tag p rep) :=
  exec_answered r tag p s { s.handed r.code tag p with log := l } rep hs hp hc rfl

/-! ### FETCH_RECORDS (R162) -/

/-- The entries that are left once the records of a FETCH have lost their host marks. -/
def leftBy (es l : List Entry) : List Entry :=
  (l.map (fun e => if e.seq ∈ es.map (·.seq) then { e with hostMark := false } else e)).filter
    (fun e => e.printMark || e.hostMark)

theorem Log.clearHost_eq (l : Log) (es : List Entry) : l.clearHost es = { l with entries := leftBy es l.entries } := by
  have hf : (fun e : Entry => if es.any (fun x => x.seq == e.seq) then { e with hostMark := false } else e) =
      (fun e => if e.seq ∈ es.map (·.seq) then { e with hostMark := false } else e) :=
    funext fun e => if_congr (by simp [List.any_eq_true, List.mem_map]) rfl rfl
  unfold Log.clearHost Log.clearMarks leftBy
  rw [hf]

/-- The records of a FETCH are gone from the host's sight. -/
def State.fetched (s : State) (es : List Entry) : State :=
  { s with log := { s.log with
    entries := leftBy es s.log.entries
    notifyTimer := if (leftBy es s.log.entries).countP (·.hostMark) = 0 then none else s.log.notifyTimer } }

theorem State.notifyEmptied_fetched (s : State) (es : List Entry) :
    State.notifyEmptied { s with log := s.log.clearHost es } = s.fetched es := by
  rw [Log.clearHost_eq]
  unfold State.notifyEmptied State.fetched Log.hostPending
  dsimp only
  split
  · rfl
  · rfl

theorem doFetchRecords_ok {n : Byte} (h1 : 1 ≤ n.toNat) (h16 : n.toNat ≤ 16) {s u : State} {es : List Entry}
    (hes : es = (s.log.entries.filter (·.hostMark)).take n.toNat)
    (hu : (s.fetched es).releaseFrom s.log.entries.length = u) : doFetchRecords [n] s =
      (u, [0x00#8] ++ le1 es.length ++ le2 ((leftBy es s.log.entries).countP (·.hostMark)) ++ flagByte s.log.reporting ++
        es.flatMap Entry.bytes) := by
  have hn : (decide (n.toNat = 0) || decide (16 < n.toNat)) = false := by
    rw [Bool.or_eq_false_iff, decide_eq_false_iff_not, decide_eq_false_iff_not]
    omega
  have hfetch : s.log.fetch n.toNat = es := hes.symm
  subst hu
  simp only [doFetchRecords, hn, hfetch, State.notifyEmptied_fetched]
  simp only [reply, State.fetched, Log.hostPending, Status.code, List.cons_append, List.nil_append, List.append_assoc]
  rfl

/-! ### The release of the job that waits (R93, R161) -/

/-- Entries have been freed: of what the waiting job stands on, the log alone has changed. -/
structure Freed (s u : State) (left : List Entry) : Prop where
  queue : u.queue = s.queue
  engine : u.engine = s.engine
  matrix : u.matrix = s.matrix
  link : u.link = s.link
  hv : u.hv = s.hv
  store : u.store = s.store
  limits : u.limits = s.limits
  pending : u.events.pending = s.events.pending
  entries : u.log.entries = left
  printer : u.printer.state ≠ .idle
  marks : u.marks = true

/-- What becomes of the record that waits: with nine free entries it is taken and the sweep goes on with its pair. -/
def Retried (s : State) (left : List Entry) (rec : RecData) (ts : List (Nat × Rail)) (n : Nat) (j : Job) (rest : List Job)
    (snap : Snapshot) (t : State) : Prop :=
  (left.length + 9 ≤ 256 → t.log.entries.map (·.data) = left.map (·.data) ++ [rec] ∧
    t.queue.jobs = { j with state := .running, tests := j.tests + 1 } :: rest ∧
    t.engine = { s.engine with
      pendingRec := none, phase := .plan, isRepeat := false, ctl := .wait
      inHand := some ⟨.targets ts true,
        .lmu ⟨.cont, snap.limits.n, snap.limits.range, snap.limits.settle⟩⟩ } ∧
    t.matrix = (s.planSent (s.stepTaken ts) n).matrix ∧ t.link = (s.planSent (s.stepTaken ts) n).link ∧
    t.hv = s.hv ∧ t.store = s.store) ∧
  (256 < left.length + 9 → t.log.entries = left ∧ t.queue.jobs = s.queue.jobs ∧ t.engine = s.engine ∧
    t.matrix = s.matrix ∧ t.link = s.link ∧ t.hv = s.hv ∧ t.store = s.store ∧
    t.events.pending = s.events.pending)

theorem Retried.withHost {s t : State} {left : List Entry} {rec : RecData} {ts : List (Nat × Rail)} {n : Nat} {j : Job}
    {rest : List Job} {snap : Snapshot} (h : Retried s left rec ts n j rest snap t) (x : HostLink) :
    Retried s left rec ts n j rest snap { t with host := x } := h

/-- The sweep of a CHECK is at the pair `a`, `c`. -/
theorem CheckWork.sweep_pair {w : CheckWork} {a c : Nat} (ha : w.members[w.rootIdx]? = some a)
    (hc : w.members[w.next]? = some c) : w.next < w.members.length ∧ w.root = a ∧ w.member = c := by
  refine ⟨(List.getElem?_eq_some_iff.1 hc).1, ?_, ?_⟩
  · rw [CheckWork.root, List.getD_eq_getElem?_getD, ha, Option.getD_some]
  · rw [CheckWork.member, List.getD_eq_getElem?_getD, hc, Option.getD_some]

theorem State.snap_of {u : State} {j : Job} {rest : List Job} {snap : Snapshot} (hj : u.queue.jobs = j :: rest)
    (hs : j.snapshot = some snap) : u.snap = snap := by
  unfold State.snap State.head
  rw [hj]
  simp [hs]

/-- The next pair of a sweep goes out (R82). -/
theorem State.checkSweep_next {s u : State} {w : CheckWork} {a c n : Nat} {j : Job} {rest : List Job} {snap : Snapshot}
    (hj : u.queue.jobs = j :: rest) (hsn : j.snapshot = some snap)
    (ha : w.members[w.rootIdx]? = some a) (hc : w.members[w.next]? = some c) (hm : u.matrix = s.matrix)
    (hl : u.link = s.link) (hh : u.hv = s.hv) (hmap : u.store.map = s.store.map)
    (hs : s.sendsTo [(a, .source), (c, .ret)] n) : u.checkSweep w = { u with
      engine := { u.engine with
        work := .check { w with doing := .sweep }, phase := .plan, isRepeat := false, ctl := .wait
        inHand := some ⟨.targets [(a, .source), (c, .ret)] true,
          .lmu ⟨.cont, snap.limits.n, snap.limits.range, snap.limits.settle⟩⟩ }
      matrix := (s.planSent (s.stepTaken [(a, .source), (c, .ret)]) n).matrix
      link := (s.planSent (s.stepTaken [(a, .source), (c, .ret)]) n).link
      lmu := u.lmu.sourceOff } := by
  obtain ⟨hlt, hroot, hmem⟩ := CheckWork.sweep_pair ha hc
  have hreq : u.contReq = ⟨.cont, snap.limits.n, snap.limits.range, snap.limits.settle⟩ := by
    rw [State.contReq, State.snap_of hj hsn]
  unfold State.checkSweep
  rw [if_pos hlt, hroot, hmem, hreq]
  exact State.offerInHand_sent (u := u.setWork (.check { w with doing := .sweep })) false hm hl hh hmap hs

section
variable {s u : State} {left : List Entry} {rec : RecData} {w : CheckWork} {a c n : Nat} {j : Job} {rest : List Job}
  {snap : Snapshot} (hj : s.queue.jobs = j :: rest) (hst : j.state = .logWait) (hsn : j.snapshot = some snap)
  (hrec : s.engine.pendingRec = some rec) (happ : s.engine.toAppend = []) (hwork : s.engine.work = .check w)
  (hctl : s.engine.ctl = .sweep) (hdo : w.doing = .sweep) (ha : w.members[w.rootIdx]? = some a)
  (hc : w.members[w.next]? = some c) (hs : s.sendsTo [(a, .source), (c, .ret)] n) (hu : Freed s u left)
include hj hst hrec hu

theorem Freed.retries : u.entryFreed = u.retryPending ∧ u.engine.pendingRec = some rec := by
  have hact : j.state.active = true := by rw [hst]; rfl
  refine ⟨?_, by rw [hu.engine, hrec]⟩
  unfold State.entryFreed
  rw [State.jobActive_of ((congrArg Queue.jobs hu.queue).trans hj) hact]
  exact if_pos hst

/-- Fewer than nine free entries: the record waits on, without another LOG_STALL. -/
theorem Freed.waits (h : 256 < left.length + 9) : u.entryFreed = u := by
  obtain ⟨hentry, hpend⟩ := Freed.retries hj hst hrec hu
  rw [← hu.entries] at h
  have hoffer : u.appendTest false rec = (u, false) := by
    unfold State.appendTest
    rw [State.offerTest_refused hu.marks h]
    exact congrArg (·, false) (State.printIdle_busy hu.printer)
  rw [hentry]
  unfold State.retryPending
  simp only [hpend, hoffer]

include hsn happ hwork hctl hdo ha hc hs in
/-- Nine free entries: the record is taken and the next pair goes out. -/
theorem Freed.taken (h : left.length + 9 ≤ 256) : u.entryFreed = { u.take rec with
    queue := { s.queue with jobs := { j with state := .running, tests := j.tests + 1 } :: rest }
    engine := { s.engine with
      pendingRec := none, phase := .plan, isRepeat := false, ctl := .wait
      inHand := some ⟨.targets [(a, .source), (c, .ret)] true,
        .lmu ⟨.cont, snap.limits.n, snap.limits.range, snap.limits.settle⟩⟩ }
    matrix := (s.planSent (s.stepTaken [(a, .source), (c, .ret)]) n).matrix
    link := (s.planSent (s.stepTaken [(a, .source), (c, .ret)]) n).link
    lmu := u.lmu.sourceOff } := by
  obtain ⟨hentry, hpend⟩ := Freed.retries hj hst hrec hu
  rw [← hu.entries] at h
  have hq := Quiet.take u rec
  let v : State := { u.take rec with
    engine := { s.engine with pendingRec := none }
    queue := { s.queue with jobs := { j with state := .running, tests := j.tests + 1 } :: rest } }
  have hretry : u.retryPending = v.runEngine := by
    have hv : State.countTest (State.setJobState { u.take rec with
        engine := { (u.take rec).engine with pendingRec := none } } .running) = v := by
      rw [hq.engine, hu.engine]
      unfold State.countTest
      rw [State.setJobState_eq (s := { u.take rec with engine := { s.engine with pendingRec := none } })
        ((congrArg Queue.jobs (hq.queue.trans hu.queue)).trans hj), State.setHead_eq rfl]
      show ({ u.take rec with
        engine := { s.engine with pendingRec := none }
        queue := { (u.take rec).queue with jobs := { j with state := .running, tests := j.tests + 1 } :: rest } } : State) = v
      rw [hq.queue, hu.queue]
    unfold State.retryPending
    simp only [hpend, State.appendTest_taken hu.printer h]
    rw [hv]
  have hnext : v.workNext = v.checkSweep w := by
    show State.workNext v = _
    unfold State.workNext
    simp only [show v.engine.work = .check w from hwork, show v.engine.ctl = .sweep from hctl]
    rfl
  have hsent := State.checkSweep_next (s := s) (u := v) (j := { j with state := .running, tests := j.tests + 1 }) rfl hsn
    ha hc (hq.matrix.trans hu.matrix) (hq.link.trans hu.link) (hq.hv.trans hu.hv)
    (congrArg Store.map ((State.take_store u rec).trans hu.store)) hs
  have hw : { w with doing := .sweep } = w := by rw [← hdo]
  rw [hw, show Work.check w = s.engine.work from hwork.symm, show v.lmu = u.lmu from hq.lmu] at hsent
  rw [hentry, hretry]
  refine State.Rests.runEngine (State.Rests.move (s := v) happ ?_ (hnext.trans hsent) (State.Rests.stop happ rfl)) (by decide)
  rw [show v.engine.ctl = .sweep from hctl]
  decide

include hsn happ hwork hctl hdo ha hc hs in
theorem Freed.retried : ∃ t, u.entryFreed = t ∧ (takeReply u.host.slots = none → t.host.slots = u.host.slots) ∧
    t.printer = u.printer ∧ Retried s left rec [(a, .source), (c, .ret)] n j rest snap t := by
  by_cases h : left.length + 9 ≤ 256
  · have hq := Quiet.take u rec
    refine ⟨_, Freed.taken hj hst hsn hrec happ hwork hctl hdo ha hc hs hu h, hq.slots,
      State.take_printer u rec, fun _ => ?_, fun h' => absurd h (by omega)⟩
    refine ⟨?_, rfl, rfl, rfl, rfl, hq.hv.trans hu.hv, (State.take_store u rec).trans hu.store⟩
    show (u.take rec).log.entries.map _ = _
    rw [State.take_entries_marks, hu.marks, hu.entries, if_pos rfl, List.map_append]
    rfl
  · refine ⟨u, Freed.waits hj hst hrec hu (by omega), fun _ => rfl, rfl, fun h' => absurd h' h, fun _ => ?_⟩
    exact ⟨hu.entries, congrArg _ hu.queue, hu.engine, hu.matrix, hu.link, hu.hv, hu.store, hu.pending⟩

end

/-! ### The obligation -/

theorem State.releaseFrom_freed {s u : State} {left : List Entry} (hu : Freed s u left)
    (h : left.length < s.log.entries.length) : u.releaseFrom s.log.entries.length = u.entryFreed :=
  if_pos (by rw [hu.entries]; exact h)

/-- SET_REPORTING with no job in the queue. -/
theorem setReporting_replaces {tag : Byte} {r th t : Nat} {s : State} (hs : s.ready) (hj : s.queue.jobs = [])
    (hr : r < 256) (hth : th < 256) (ht : t < 65536) (hall : ∀ b ∈ reportingOks r th t, b = true) :
    (r = 1 → s.log.entries.countP (·.hostMark) = 0 ∨ s.events.pending.getLsbD 9 = true →
      exec (.setReporting tag (reportingPayload r th t)) s = .next (State.replying
        { s with log := { s.log with reporting := true, threshold := th, timeout := t } } 0x28#8 tag
        (reportingPayload r th t) [0x00#8])) ∧
    (r = 1 → 1 ≤ s.log.entries.countP (·.hostMark) → s.log.entries.countP (·.hostMark) < th →
      s.events.pending.getLsbD 9 = false → exec (.setReporting tag (reportingPayload r th t)) s = .next (State.replying
        { s with log := { s.log with
          reporting := true, threshold := th, timeout := t, notifyTimer := some (s.log.notifyTimer.getD t) } }
        0x28#8 tag (reportingPayload r th t) [0x00#8])) ∧
    (r = 1 → th ≤ s.log.entries.countP (·.hostMark) → s.events.pending.getLsbD 9 = false →
      ∃ (u : State) (ph : SlotPhase), exec (.setReporting tag (reportingPayload r th t)) s = .next u ∧
        (ph = .ready [0x00#8] ∨ ph = .sending [0x00#8]) ∧ u.host.slots = [⟨0x28#8, tag, reportingPayload r th t, ph⟩] ∧
        u.log = { s.log with reporting := true, threshold := th, timeout := t, notifyTimer := none } ∧
        u.events.pending = s.events.pending ||| 0x200#12 ∧ u.store = s.store ∧ u.matrix = s.matrix ∧
        u.link = s.link ∧ u.hv = s.hv ∧ u.lmu = s.lmu ∧ u.engine = s.engine ∧ u.queue = s.queue ∧
        u.printer = s.printer) ∧
    (r = 0 → s.log.reporting = true → ∃ w : Bool, exec (.setReporting tag (reportingPayload r th t)) s =
      .next (State.replying { s with
        log := { s.log with
          entries := (s.log.entries.map (fun e => { e with hostMark := false })).filter (·.printMark)
          reporting := false, threshold := th, timeout := t, notifyTimer := none }
        queue := { s.queue with stallWait := w } } 0x28#8 tag (reportingPayload r th t) [0x00#8])) := by
  have h1 : 1 ≤ th := by
    have := hall _ (show decide (1 ≤ th ∧ th ≤ 64) ∈ reportingOks r th t by simp [reportingOks])
    exact (of_decide_eq_true this).1
  have hlen : (reportingPayload r th t).length ≤ 1024 := by simp [reportingPayload]
  have hdo {v : State} := doSetReporting_ok hr hth ht (u := s.handed 0x28#8 tag (reportingPayload r th t)) (v := v) hall
  refine ⟨fun hr1 h => ?_, fun hr1 hlo hhi h9 => ?_, fun hr1 hhi h9 => ?_, fun hr0 hrep => ?_⟩
  · subst hr1
    exact exec_answered_log .setReporting tag _ s _ hs hlen _ (answered_eq (hdo
      (State.applyReporting_pending (s := s.handed 0x28#8 tag _) (h.imp_left fun h => ⟨h, h1⟩))))
  · subst hr1
    exact exec_answered_log .setReporting tag _ s _ hs hlen _ (answered_eq (hdo
      (State.applyReporting_starts (s := s.handed 0x28#8 tag _) h9 hlo hhi)))
  · subst hr1
    have hdo := hdo (State.applyReporting_reached (s := s.handed 0x28#8 tag _) h9 hhi)
    let z := ((s.handed 0x28#8 tag (reportingPayload 1 th t)).reportingSet true th t).stopNotify
    have hslots := (Quiet.raise z .defectReady).slots rfl
    obtain ⟨w, host, hraise⟩ := State.raise_eq z .defectReady
    rw [show State.stopNotify _ = z from rfl, hraise] at hdo
    rw [hraise] at hslots
    obtain ⟨ph, tx, hph, hexec⟩ := exec_answered_raised .setReporting tag _ s _ _ hs hlen (answered_eq hdo) hslots
    exact ⟨_, ph, hexec, hph, rfl, rfl, rfl, rfl, rfl, rfl, rfl, rfl, rfl, rfl, rfl⟩
  · subst hr0
    obtain ⟨w, hw⟩ := State.releaseFrom_noJob
      (s := (s.handed 0x28#8 tag (reportingPayload 0 th t)).reportingOff th t) hj s.log.entries.length
    have hexec := exec_answered .setReporting tag _ s _ _ hs hlen (answered_eq (hdo
      ((State.applyReporting_off (s := s.handed 0x28#8 tag _) hrep h1).trans hw))) rfl
    exact ⟨w, hexec⟩

/-- Whatever frees the entries, the waiting job's record is offered again. -/
theorem released_retries {i : Instr} {rec : RecData} {a c n : Nat} {left : List Entry} {j : Job}
    {rest : List Job} {snap : Snapshot} {s : State} (hlt : left.length < s.log.entries.length)
    (hretry : ∀ u, Freed s u left → ∃ t, u.entryFreed = t ∧
      (takeReply u.host.slots = none → t.host.slots = u.host.slots) ∧ t.printer = u.printer ∧
      Retried s left rec [(a, .source), (c, .ret)] n j rest snap t)
    (hi : (∃ (tag k : Byte) (es : List Entry), i = .fetchRecords tag [k] ∧ s.ready ∧ 1 ≤ k.toNat ∧ k.toNat ≤ 16 ∧
        s.log.reporting = true ∧ s.printer.state ≠ .idle ∧ es = (s.log.entries.filter (·.hostMark)).take k.toNat ∧
        left = leftBy es s.log.entries) ∨
      (∃ (tag : Byte) (th t : Nat), i = .setReporting tag ([0x00#8] ++ le1 th ++ le2 t) ∧ s.ready ∧ 1 ≤ th ∧ th ≤ 64 ∧
        10 ≤ t ∧ t ≤ 10000 ∧ s.log.reporting = true ∧ s.printer.state ≠ .idle ∧ s.printer.state ≠ .off ∧
        left = (s.log.entries.map (fun e => { e with hostMark := false })).filter (·.printMark)) ∨
      (∃ tag : Byte, i = .printFlush tag [] ∧ s.ready ∧ s.printer.state = .held ∧
        left = (s.log.entries.map (fun e => { e with printMark := false })).filter (·.hostMark)) ∨
      (∃ (rdy pap : Bool) (k : Nat), i = .printerCharSent rdy pap ∧ (∀ r ∈ s.host.slots, r.phase ≠ .waiting) ∧
        s.printer.current = some k ∧ s.printer.waiting = false ∧ s.printer.state = .holdPending ∧
        (s.printer.lines.getD s.printer.line []).length ≤ s.printer.pos + 1 ∧
        s.printer.lines.length ≤ s.printer.line + 1 ∧
        left = (s.log.entries.map (fun e => if e.seq = k then { e with printMark := false } else e)).filter
          (fun e => e.printMark || e.hostMark))) :
    ∃ t : State, exec i s = .next t ∧ Retried s left rec [(a, .source), (c, .ret)] n j rest snap t := by
  obtain ⟨tag, k, es, rfl, hs, h1, h16, hrep, hp, hes, hleft⟩ | ⟨tag, th, t, rfl, hs, h1, h64, h10, ht, hrep, hp, hoff,
    hleft⟩ | ⟨tag, rfl, hs, hheld, hleft⟩ | ⟨rdy, pap, k, rfl, hw, hc, hwait, hst, hpos, hl, hleft⟩ := hi
  · have hf : Freed s ((s.handed 0x29#8 tag [k]).fetched es) left :=
      ⟨rfl, rfl, rfl, rfl, rfl, rfl, rfl, rfl, hleft.symm, hp, State.marks_of_reporting hrep⟩
    obtain ⟨u, hu, hslots, -, hret⟩ := hretry _ hf
    have hdo := doFetchRecords_ok h1 h16 (s := s.handed 0x29#8 tag [k]) hes ((State.releaseFrom_freed hf hlt).trans hu)
    obtain ⟨ph, tx, -, hexec⟩ := exec_answered_raised .fetchRecords tag [k] s u _ hs (by simp) (answered_eq hdo)
      (hslots rfl)
    exact ⟨_, hexec, hret.withHost _⟩
  · have hf : Freed s ((s.handed 0x28#8 tag (reportingPayload 0 th t)).reportingOff th t) left :=
      ⟨rfl, rfl, rfl, rfl, rfl, rfl, rfl, rfl, hleft.symm, hp, by
        show (decide (s.printer.state ≠ .off) || false) = true
        simpa using hoff⟩
    obtain ⟨u, hu, hslots, -, hret⟩ := hretry _ hf
    have hdo := doSetReporting_ok (r := 0) (th := th) (t := t) (by omega) (by omega) (by omega)
      (u := s.handed 0x28#8 tag (reportingPayload 0 th t)) (by simp [reportingOks]; omega)
      ((State.applyReporting_off (s := s.handed 0x28#8 tag _) hrep h1).trans ((State.releaseFrom_freed hf hlt).trans hu))
    obtain ⟨ph, tx, -, hexec⟩ := exec_answered_raised .setReporting tag _ s u _ hs (by simp [reportingPayload])
      (answered_eq hdo) (hslots rfl)
    exact ⟨_, hexec, hret.withHost _⟩
  · have hlog : (s.handed 0x2F#8 tag []).dropPrints.log.entries = left :=
      (congrArg Log.entries (Log.clearMarks_print s.log)).trans hleft.symm
    have hf : Freed s (s.handed 0x2F#8 tag []).dropPrints left :=
      ⟨rfl, rfl, rfl, rfl, rfl, rfl, rfl, rfl, hlog, ne_of_eq_of_ne hheld (by decide), by
        show (decide (s.printer.state ≠ .off) || s.log.reporting) = true
        simp [hheld]⟩
    obtain ⟨u, hu, hslots, -, hret⟩ := hretry _ hf
    have hdo : doPrintFlush [] (s.handed 0x2F#8 tag []) = (u, _) :=
      (if_neg (by simp [hheld])).trans (congrArg (·, _) ((State.releaseFrom_freed hf hlt).trans hu))
    obtain ⟨ph, tx, -, hexec⟩ := exec_answered_raised .printFlush tag [] s u _ hs (by simp) (answered_eq hdo) (hslots rfl)
    exact ⟨_, hexec, hret.withHost _⟩
  · have hlog : (s.sampled rdy pap).recordGone.log.entries = left := by
      rw [hleft]
      show ((s.log.entries.map fun e => if s.printer.current = some e.seq then { e with printMark := false } else e).filter
        fun e => e.printMark || e.hostMark) = _
      rw [hc]
      simp only [Option.some.injEq, eq_comm]
    have hstate : (s.sampled rdy pap).recordGone.printer.state = .held := if_pos hst
    have hf : Freed s (s.sampled rdy pap).recordGone left :=
      ⟨rfl, rfl, rfl, rfl, rfl, rfl, rfl, rfl, hlog, ne_of_eq_of_ne hstate (by decide), by
        show (decide ((s.sampled rdy pap).recordGone.printer.state ≠ .off) || s.log.reporting) = true
        simp [hstate]⟩
    obtain ⟨u, hu, -, hprinter, hret⟩ := hretry _ hf
    have hq : u.printer.state = .held := (congrArg _ hprinter).trans hstate
    refine ⟨u, ?_, hret⟩
    rw [exec_printerCharSent rdy pap hc hwait (.inr hst), State.charSent_over (z := s.sampled rdy pap) hpos hl]
    exact congrArg Host.Outcome.next ((congrArg State.afterRecord ((State.releaseFrom_freed hf hlt).trans hu)).trans
      (State.afterRecord_held hq))

/-- Settles O58: the settings, the fetch, the encoding; then the release of the job that waits; the notify timer. -/
theorem hostReadsTheLog : Obligations.HostReadsTheLog := by
  refine ⟨fun tag r th t s hs hj hr hth ht => ⟨reportingPayload r th t, reportingOks r th t, rfl, rfl,
      setReporting_replaces hs hj hr hth ht, fun k hk hjk => ?_⟩,
    fun tag n s hs hj => ⟨fun h1 h16 => ?_, fun h => ?_⟩,
    fun seq g pm hm d => ⟨?_, ?_, ?_⟩, Entry.bytes_mismatch, ?_, fun ms s hms => ?_⟩
  · refine exec_answered_unchanged .setReporting tag _ s _ hs (by simp [reportingPayload])
      (answered_eq ((doSetReporting_eq hr hth ht _).trans ?_))
    rw [all_id_false hk, badPlace_eq hk hjk]
    rfl
  · let es := (s.log.entries.filter (·.hostMark)).take n.toNat
    obtain ⟨w, hw⟩ := State.releaseFrom_noJob (s := (s.handed 0x29#8 tag [n]).fetched es) hj s.log.entries.length
    have hexec := exec_answered .fetchRecords tag [n] s _ _ hs (by simp) (answered_eq
      (doFetchRecords_ok h1 h16 (s := s.handed 0x29#8 tag [n]) rfl hw)) rfl
    exact ⟨es, leftBy es s.log.entries, _, w, rfl, rfl, rfl, hexec⟩
  · exact exec_answered_unchanged .fetchRecords tag [n] s _ hs (by simp) (answered_eq (if_pos (by simpa using h)))
  · rintro n a b m v c r rfl
    exact Entry.bytes_short ..
  · rintro f l ph u rfl
    exact Entry.bytes_jobStart ..
  · rintro net nets steps tests systems extra rfl
    exact Entry.bytes_jobEnd ..
  · intro i rec w a c n ts left j rest snap s hj hst hsn hrec happ hwork hctl hdo ha hc hts hs hlt hi
    subst hts
    exact released_retries hlt (fun u hu => Freed.retried hj hst hsn hrec happ hwork hctl hdo ha hc hs hu) hi
  · have hexec : exec .notifyTimerExpiry s = .next (s.stopNotify.raise .defectReady) :=
      congrArg Host.Outcome.next (if_pos (by simp [hms]))
    obtain ⟨w, host, hr⟩ := State.raise_eq s.stopNotify .defectReady
    rw [hr] at hexec
    exact ⟨_, hexec, rfl, rfl, rfl, rfl, rfl, rfl, rfl, rfl, rfl, rfl⟩

end Sys2Proof.Machine
end

section
/-! PROOFS. The start of the head (9.3, R147, R148): its record and snapshot, the checks, the first step. -/

namespace Sys2Proof.Machine

open Sys2Proof

/-! ### The head that starts -/

/-- The queue with its head RUNNING on its snapshot. -/
def State.runningQueue (s : State) (j : Job) (rest : List Job) : Queue :=
  { s.queue with jobs := { j with
    state := .running, snapshot := some ⟨s.limits, s.hv.hvSet⟩
    flagU := decide (s.reference = .unverified) } :: rest }

/-- The state once the JOB_START has been taken (steps 1 to 4 of R147). -/
def State.started (s : State) (j : Job) (rest : List Job) (y : Side) : State :=
  { s with
    queue := s.runningQueue j rest, engine := Engine.reset
    log := y.log, printer := y.printer, host := y.host, events := y.events }

section
variable {s : State} {j : Job} {rest : List Job} (hj : s.queue.jobs = j :: rest)
include hj

theorem State.mayStart_of (hst : j.state = .queued) (hhold : s.queue.hold = false) (hstart : s.link.startup = false)
    (henum : s.link.enumPhase = .idle) (hslots : s.host.slots = []) (hlen : s.log.entries.length + 9 ≤ 256)
    (hrail : s.hv.rail ≠ .fault) : s.mayStart = true := by
  have hspace : s.spaceAlone = true := s.spaceAlone_iff.2 ⟨⟨j, rest, hj, hst⟩, hhold, hrail, hstart,
    by simp [State.enumerating, henum], by simp [hslots]⟩
  rw [State.mayStart, hspace, s.cond6_iff.2 hlen]
  rfl

theorem State.openJob_taken (hp : s.printer.state ≠ .idle) (hr : s.log.reporting = true)
    (hlen : s.log.entries.length + 9 ≤ 256) : ∃ y, s.openJob j = s.started j rest y ∧
      Recorded s y [jobStartRec j false (decide (s.reference = .unverified))] := by
  let u : State := { s with queue := s.runningQueue j rest, engine := Engine.reset }
  let d := jobStartRec j false (decide (s.reference = .unverified))
  have hq := Quiet.take u d
  have hlog := Logged.take (s := u) hr d
  have hwait := hq.notWaiting
  have hslots := hq.slots
  have hcar := hq.carried
  have hopen : s.openJob j = u.take d := by
    unfold State.openJob
    dsimp only
    rw [State.setHead_eq hj]
    exact congrArg Prod.fst (State.appendTest_taken (s := u) hp hlen true d)
  obtain ⟨y, hy⟩ := hq.exists_withSide
  rw [hy] at hlog hwait hslots hcar hopen
  have hstarted : u.withSide y = s.started j rest y := by
    show ({ u with store := y.store, log := y.log, printer := y.printer, host := y.host, events := y.events } : State) = _
    rw [show y.store = s.store from hlog.store]
    rfl
  exact ⟨y, hopen.trans hstarted, ⟨hlog.store, hlog.printer, hlog.reporting, hlog.nextSeq, hlog.entries⟩, hwait, hslots, hcar,
    fun h => absurd h (by simp)⟩

/-- The start of a head that passes every check. -/
theorem exec_headJobStart (hmay : s.mayStart = true) {v u : State} (hv : s.openJob j = v)
    (hok : v.validate j.spec = (v, none)) (hu : v.engineStart j.spec = u) : exec .headJobStart s = .next u := by
  have hstart : s.startHead j = u := by
    unfold State.startHead
    rw [hv, hok]
    exact hu
  show execHeadJobStart s = _
  unfold execHeadJobStart State.head
  rw [hj]
  exact congrArg Host.Outcome.next ((if_pos hmay).trans hstart)

end

/-! ### The first step goes out -/

/-- The first step's plan is on the link. -/
def State.startedWith (s : State) (j : Job) (rest : List Job) (y : Side) (e : Engine) (ts : List (Nat × Rail)) (n : Nat) :
    State :=
  { s.started j rest y with
    engine := e
    matrix := (s.planSent (s.stepTaken ts) n).matrix
    link := (s.planSent (s.stepTaken ts) n).link
    lmu := s.lmu.sourceOff }

theorem State.started_sends {s : State} {j : Job} {rest : List Job} {y : Side} {ts : List (Nat × Rail)} {n : Nat} (hs : s.sendsTo ts n) (e : Engine) (req : StepReq) :
    State.offerInHand { s.started j rest y with engine := e } ⟨.targets ts true, req⟩ false = s.startedWith j rest y
      { e with phase := .plan, inHand := some ⟨.targets ts true, req⟩, isRepeat := false, ctl := .wait } ts n :=
  State.offerInHand_sent (s := s) (u := { s.started j rest y with engine := e }) false rfl rfl rfl rfl hs

/-- With its first step on the link the engine is at rest. -/
theorem State.startedWith_rests (s : State) (j : Job) (rest : List Job) (y : Side) {e : Engine} (ts : List (Nat × Rail))
    (n : Nat) (h : e.toAppend = []) (hc : e.ctl = .wait) :
    (s.startedWith j rest y e ts n).Rests (s.startedWith j rest y e ts n) 0 := State.Rests.stop h hc

/-- What a started job has left: its queue, its record, the first step's plan on the link. -/
def Begun (s : State) (j : Job) (rest : List Job) (e : Engine) (ts : List (Nat × Rail)) (n : Nat) : Prop :=
  ∃ t : State, exec .headJobStart s = .next t ∧ t.queue = s.runningQueue j rest ∧
    t.log.entries.map (·.data) = s.log.entries.map (·.data) ++
      [jobStartRec j false (decide (s.reference = .unverified))] ∧ t.engine = e ∧ t.hv = s.hv ∧
    t.lmu = s.lmu.sourceOff ∧ t.store = s.store ∧ t.reference = s.reference ∧
    t.matrix = (s.planSent (s.stepTaken ts) n).matrix ∧ t.link = (s.planSent (s.stepTaken ts) n).link

theorem Begun.of {s : State} {j : Job} {rest : List Job} {y : Side} {e : Engine} {ts : List (Nat × Rail)} {n : Nat}
    (hexec : exec .headJobStart s = .next (s.startedWith j rest y e ts n))
    (hy : Recorded s y [jobStartRec j false (decide (s.reference = .unverified))]) : Begun s j rest e ts n :=
  ⟨_, hexec, rfl, hy.data, rfl, rfl, rfl, rfl, rfl, rfl, rfl⟩

/-! ### The checks of Table 9-2 -/

/-- A point that a job may touch (check 5). -/
def State.Fit (s : State) (p : Nat) : Prop := ∃ c, s.chanOf p = some c ∧ s.reachable c = true ∧ s.isBlocked c = false

theorem State.pointFault_fit {s : State} {p : Nat} (h : s.Fit p) : s.pointFault p = none := by
  obtain ⟨c, hc, hr, hb⟩ := h
  unfold State.pointFault
  rw [hc]
  simp [hr, hb]

theorem State.touched_fit {s : State} {l : List Nat} (h : ∀ p ∈ l, s.Fit p) : l.findSome? s.pointFault = none :=
  List.findSome?_eq_none_iff.2 fun p hp => State.pointFault_fit (h p hp)

theorem State.validate_tables {v : State} {j : JobSpec} (hr : v.badRange j = none)
    (hg : j.refGated = false ∨ v.reference ≠ .failed) : v.validate j = v.validateTables j := by
  unfold State.validate
  rw [hr]
  refine if_neg ?_
  rw [Bool.and_eq_true, decide_eq_true_iff]
  rintro ⟨h1, h2⟩
  exact hg.elim (fun h => by simp [h] at h1) fun h => h h2

theorem State.validate_pointsOnly {v : State} {j : JobSpec} (hr : v.badRange j = none)
    (hg : j.refGated = false ∨ v.reference ≠ .failed) (hn : j.netRange = none) (hp : v.checkPoints j [] = none) :
    v.validate j = (v, none) := by
  rw [State.validate_tables hr hg]
  unfold State.validateTables
  simp only [hn, hp]

/-- The nets of a list are sound: each read gives its contents. -/
theorem State.readRange_sound {v : State} : ∀ {l : List NetRec}, (∀ r ∈ l, v.findNet r.body.num = some r ∧
    r.corrupt = false ∧ r.check = crc16 r.body.bytes) → State.readRange (l.map (·.body.num)) v = (v, l.map (·.body), none) := by
  intro l
  induction l with
  | nil => exact fun _ => rfl
  | cons r l ih =>
    intro h
    obtain ⟨⟨hf, hc, hk⟩, hl⟩ := List.forall_mem_cons.1 h
    rw [List.map_cons, State.readRange, State.readNetFor_sound hf hc hk]
    simp only [ih hl]
    rfl

/-- The stored nets of a range. -/
def State.netsIn (s : State) (f l : Nat) : List NetRec :=
  s.store.nets.filter (fun r => decide (f ≤ r.body.num) && decide (r.body.num ≤ l))

theorem State.numsIn_eq (s : State) (f l : Nat) : s.numsIn f l = (s.netsIn f l).map (·.body.num) := by
  rw [State.numsIn, State.netsIn, List.filter_map]
  rfl

/-- Every net of the range is sound (R148). -/
def State.SoundRange (s : State) (f l : Nat) : Prop :=
  1 ≤ f ∧ f ≤ l ∧ s.reference ≠ .failed ∧ s.store.wf = true ∧ ∀ r ∈ s.store.nets,
    f ≤ r.body.num → r.body.num ≤ l → r.corrupt = false ∧ r.check = crc16 r.body.bytes

section
variable {v : State} {f l : Nat} (h : v.SoundRange f l)
include h

theorem State.SoundRange.read {r : NetRec} (hr : r ∈ v.netsIn f l) : v.findNet r.body.num = some r ∧ r.corrupt = false ∧
    r.check = crc16 r.body.bytes := by
  obtain ⟨-, -, -, hw, hs⟩ := h
  obtain ⟨hmem, hin⟩ := List.mem_filter.1 hr
  rw [Bool.and_eq_true, decide_eq_true_iff, decide_eq_true_iff] at hin
  exact ⟨State.findNet_of_mem hw hmem, hs r hmem hin.1 hin.2⟩

theorem State.SoundRange.validate {j : JobSpec} (hb : v.badRange j = none) (hn : j.netRange = some (f, l))
    (hworks : j.worksOn ((v.netsIn f l).map (·.body)) ≠ [])
    (hp : v.checkPoints j ((v.netsIn f l).map (·.body)) = none) : v.validate j = (v, none) := by
  rw [State.validate_tables hb (.inr h.2.2.1)]
  unfold State.validateTables
  simp only [hn, State.numsIn_eq, State.readRange_sound fun r hr => h.read hr, hp]
  exact if_neg (by simpa using hworks)

/-- The walk from before the range reaches its lowest net (R78). -/
theorem State.SoundRange.next {b : NetBody} {more : List NetBody} (hb : (v.netsIn f l).map (·.body) = b :: more) :
    ∃ r, v.nextNet (f - 1) l = some r ∧ r.body = b ∧ v.jobRead r.body.num = (v, some b) := by
  have h1 : 1 ≤ f := h.1
  obtain ⟨r, rs, hr, rfl, -⟩ := List.map_eq_cons_iff.1 hb
  have hnext : v.nextNet (f - 1) l = some r := by
    have hhead : (v.netsIn f l).head? = some r := by rw [hr]; rfl
    rw [State.netsIn, List.head?_filter] at hhead
    rw [State.nextNet, ← hhead]
    refine congrArg (fun p => v.store.nets.find? p) (funext fun x => ?_)
    rw [decide_eq_decide.2 (show f - 1 < x.body.num ↔ f ≤ x.body.num by omega)]
  obtain ⟨hf, hc, hk⟩ := h.read (hr ▸ List.mem_cons_self : r ∈ v.netsIn f l)
  refine ⟨r, hnext, rfl, ?_⟩
  unfold State.jobRead
  rw [State.readNetFor_sound hf hc hk]

end

end Sys2Proof.Machine
end

section
/-! PROOFS. The first step of each kind of job (9.3), and the refusal of a head. -/

namespace Sys2Proof.Machine

open Sys2Proof

theorem tableWf_pairwise {α : Type} : ∀ {l : List (Nat × α)}, tableWf l = true → (l.map (·.1)).Pairwise (· < ·) := by
  intro l
  induction l with
  | nil => exact fun _ => List.Pairwise.nil
  | cons a l ih =>
    intro h
    obtain ⟨hhead, htail⟩ := (tableWf_cons a l).1 h
    refine List.pairwise_cons.2 ⟨fun p hp => ?_, ih htail⟩
    obtain ⟨e, he, rfl⟩ := List.mem_map.1 hp
    exact tableWf_head_lt l a.1 htail hhead e he

/-! ### LEARN_LEADS (R105) -/

/-- The partner of the common point: the next one, or the first after the last. -/
theorem partnerOf_eq {l : List Nat} (hl : l.Pairwise (· < ·)) {c q : Nat} (hq : q ∈ l)
    (h : if c < q then ∀ p ∈ l, c < p → q ≤ p else ∀ p ∈ l, q ≤ p ∧ p ≤ c) : partnerOf l c = q := by
  unfold partnerOf
  by_cases hcq : c < q
  · rw [if_pos hcq] at h
    obtain ⟨as, bs, rfl⟩ := List.append_of_mem hq
    have hfind : (as ++ q :: bs).find? (fun p => decide (c < p)) = some q := by
      refine List.find?_eq_some_iff_append.2 ⟨by simpa using hcq, as, bs, rfl, fun a ha => ?_⟩
      have hlt : a < q := (List.pairwise_append.1 hl).2.2 a ha q List.mem_cons_self
      have : ¬ c < a := fun hca => by
        have := h a (List.mem_append_left _ ha) hca
        omega
      simpa using this
    rw [hfind, Option.getD_some]
  · rw [if_neg hcq] at h
    have hfind : l.find? (fun p => decide (c < p)) = none :=
      List.find?_eq_none.2 fun p hp => by simpa using (h p hp).2
    rw [hfind, Option.getD_none]
    match l, hq with
    | x :: xs, hq =>
      obtain rfl | hx := List.mem_cons.1 hq
      · rfl
      · have h1 := (List.pairwise_cons.1 hl).1 q hx
        have h2 := (h x List.mem_cons_self).1
        exact absurd h1 (by omega)

theorem two_le_length {l : List Nat} {p q : Nat} (hp : p ∈ l) (hq : q ∈ l) (h : p ≠ q) : l.length ≠ 1 := by
  intro h1
  obtain ⟨x, rfl⟩ := List.length_eq_one_iff.1 h1
  exact h ((List.mem_singleton.1 hp).trans (List.mem_singleton.1 hq).symm)

theorem State.badRange_leads {v : State} {c q : Nat} (h4 : 4 ≤ c) (hc : c ∈ v.mapped) (hq : q ∈ v.mapped) (hne : q ≠ c)
    (hfit : v.Fit c) : v.badRange (.learnLeads c) = none := by
  obtain ⟨ch, hch, -⟩ := hfit
  refine if_neg ?_
  simp only [hch, Option.isNone_some, Bool.or_false, Bool.or_eq_true, decide_eq_true_iff]
  exact fun h => h.elim (by omega) (two_le_length hq hc hne)

/-! ### CHECK (R78, R84) -/

theorem State.candidates_eq (s : State) (n : Nat) : s.candidates n =
    (s.mapped.filter (fun p => decide (∀ m ∈ s.ownerOf p, n < m))).map (fun p => ⟨p, false⟩) := by
  unfold State.candidates
  refine congrArg (List.map _) (List.filter_congr fun p _ => ?_)
  cases s.ownerOf p <;> simp

theorem State.isoTouched_eq (s : State) (b : NetBody) (more : List NetBody) : s.isoTouched (b :: more) =
    s.mapped.filter (fun p => decide (∀ m ∈ s.ownerOf p, b.num < m)) := by
  unfold State.isoTouched
  refine List.filter_congr fun p _ => ?_
  cases s.ownerOf p <;> simp

theorem State.checkPoints_check {v : State} {f l : Nat} {ph : CheckPhases} {b : NetBody} {more : List NetBody}
    (hcont : ∀ q ∈ b :: more, ph = .cont → 2 ≤ q.members.length → ∀ p ∈ q.members, v.Fit p)
    (hiso : ph ≠ .cont → (∀ q ∈ b :: more, ∀ p ∈ q.members, v.Fit p) ∧
      ∀ p ∈ v.mapped, (∀ m, v.ownerOf p = some m → b.num < m) → v.Fit p) :
    v.checkPoints (.check f l ph) (b :: more) = none := by
  have htouched : ∀ p ∈ v.touched (b :: more) (.check f l ph), v.Fit p := by
    have hboth (hne : ph ≠ .cont) : ∀ p ∈ sortPoints ((b :: more).flatMap (·.members) ++ v.isoTouched (b :: more)), v.Fit p := by
      obtain ⟨hm, hi⟩ := hiso hne
      intro p hp
      rw [mem_sortPoints, List.mem_append, v.isoTouched_eq] at hp
      obtain hp | hp := hp
      · obtain ⟨q, hq, hpq⟩ := List.mem_flatMap.1 hp
        exact hm q hq p hpq
      · obtain ⟨h1, h2⟩ := List.mem_filter.1 hp
        exact hi p h1 (of_decide_eq_true h2)
    cases ph with
    | cont =>
      intro p hp
      obtain ⟨q, hq, hpq⟩ := List.mem_flatMap.1 ((mem_sortPoints _ _).1 hp)
      obtain ⟨h1, h2⟩ := List.mem_filter.1 hq
      exact hcont q h1 rfl (of_decide_eq_true h2) p hpq
    | iso => exact hboth (by decide)
    | both => exact hboth (by decide)
  unfold State.checkPoints
  rw [State.touched_fit htouched]
  rfl

/-- The whole-net test goes out (R84, R85). -/
theorem State.checkContEnd_whole {s u : State} {w : CheckWork} {cs : List Nat} {ts : List (Nat × Rail)} {n : Nat}
    {j : Job} {rest : List Job} {snap : Snapshot} (hj : u.queue.jobs = j :: rest) (hsn : j.snapshot = some snap)
    (hphase : w.phases.hasIso = true) (hcs : cs = u.mapped.filter (fun p => decide (∀ m ∈ u.ownerOf p, w.num < m)))
    (hne : cs ≠ []) (hts : ts = w.members.map (fun p => (p, .source)) ++ cs.map (fun p => (p, .ret)))
    (hm : u.matrix = s.matrix) (hl : u.link = s.link) (hh : u.hv = s.hv) (hmap : u.store.map = s.store.map)
    (hs : s.sendsTo ts n) : u.checkContEnd w = { u with
      engine := { u.engine with
        work := .check { w with
          inIso := true, cands := cs.map (fun p => ⟨p, false⟩), search := Search.empty, doing := .whole }
        phase := .plan, isRepeat := false, ctl := .wait
        inHand := some ⟨.targets ts true, .lmu ⟨.iso, snap.limits.n, snap.limits.range, snap.limits.settle⟩⟩ }
      matrix := (s.planSent (s.stepTaken ts) n).matrix
      link := (s.planSent (s.stepTaken ts) n).link
      lmu := u.lmu.sourceOff } := by
  have hreq : u.isoReq = ⟨.iso, snap.limits.n, snap.limits.range, snap.limits.settle⟩ := by
    rw [State.isoReq, State.snap_of hj hsn]
  have hcand : u.candidates w.num = cs.map (fun p => ⟨p, false⟩) := by rw [u.candidates_eq, ← hcs]
  have hpts : (cs.map (fun p => (⟨p, false⟩ : Cand))).map (·.pt) = cs :=
    (List.map_map ..).trans (List.map_id cs)
  have hplan : groupPlan w.members cs = ts := hts.symm
  have hempty : (cs.map (fun p => (⟨p, false⟩ : Cand))).isEmpty = false := by simpa using hne
  unfold State.checkContEnd
  rw [if_pos hphase]
  simp only [hcand, hempty, hpts, hplan, hreq]
  exact State.offerInHand_sent (s := s) (u := u.setWork (.check { w with
    inIso := true, cands := cs.map (fun p => ⟨p, false⟩), search := Search.empty, doing := .whole })) false hm hl hh hmap hs

/-! ### The first step of each kind -/

section
variable {s : State} {j : Job} {rest : List Job} {y : Side}

theorem State.badRange_check {f l : Nat} {ph : CheckPhases} (h : f ≤ l) (v : State) :
    v.badRange (.check f l ph) = none := if_neg (by omega)

theorem State.badRange_insulate {f l : Nat} {loc auto : Bool} (h : f ≤ l) (v : State) :
    v.badRange (.insulate f l loc auto) = none := if_neg (by omega)

/-- A job whose engine offers a step at once. -/
theorem State.engineStart_offers {ts : List (Nat × Rail)} {n : Nat} {w : Work} {req : StepReq} (hs : s.sendsTo ts n) :
    State.runEngine (State.offerInHand ((s.started j rest y).setWork w) ⟨.targets ts true, req⟩ false) =
      s.startedWith j rest y { Engine.reset with
        work := w, phase := .plan, inHand := some ⟨.targets ts true, req⟩ } ts n := by
  rw [show (s.started j rest y).setWork w = { s.started j rest y with engine := { Engine.reset with work := w } } from rfl,
    State.started_sends hs]
  exact (State.startedWith_rests s j rest y ts n rfl rfl).runEngine (by decide)

/-- The engine of a LEARN at its whole-pool step. -/
def learnEngine (s : State) (hv : Bool) (p q : Nat) (more : List Nat) (ts : List (Nat × Rail)) : Engine :=
  { Engine.reset with
    work := .learn ⟨hv, q :: more, some p, q :: more, [], 0, Search.empty, 1, .whole⟩
    phase := .plan, nets := 1
    inHand := some ⟨.targets ts true, .lmu ⟨.iso, s.limits.n, s.limits.range, s.limits.settle⟩⟩ }

theorem State.engineStart_learn {hv : Bool} {p q n : Nat} {more : List Nat} {ts : List (Nat × Rail)}
    (hpool : s.pool = p :: q :: more) (hts : ts = (p, .source) :: (q :: more).map (fun x => (x, .ret)))
    (hs : s.sendsTo ts n) : (s.started j rest y).engineStart (.learn hv) =
      { s.startedWith j rest y (learnEngine s hv p q more ts) ts n with store := s.store.clearNets } := by
  let u : State := { s.started j rest y with
    store := s.store.clearNets
    engine := { Engine.reset with
      nets := 1, work := .learn ⟨hv, q :: more, some p, q :: more, [], 0, Search.empty, 1, .whole⟩
      toAppend := [], ctl := .draw } }
  let v : State := State.todo { s.started j rest y with store := s.store.clearNets }
    (.learn ⟨hv, p :: q :: more, none, [], [], 0, Search.empty, 1, .whole⟩) [] .draw
  have hstart : (s.started j rest y).learnStart hv = v := by
    unfold State.learnStart
    rw [show (s.started j rest y).pool = p :: q :: more from hpool]
    rfl
  have hplan : groupPlan [p] (q :: more) = ts := hts.symm
  have hnext : v.workNext = u.lvStep ts u.isoReq := by
    rw [← hplan]
    rfl
  have hsent := State.offerInHand_sent (s := s) (u := u) (req := .lmu u.isoReq) false rfl rfl rfl rfl hs
  refine (congrArg State.runEngine hstart).trans ?_
  exact (State.Rests.move (s := v) rfl nofun (hnext.trans hsent) (State.Rests.stop rfl rfl)).runEngine (by decide)

/-- The engine of a CHECK at the first step of its first net. -/
def checkEngine (w : CheckWork) (ts : List (Nat × Rail)) (m : MeasReq) : Engine :=
  { Engine.reset with work := .check w, phase := .plan, inHand := some ⟨.targets ts true, .lmu m⟩ }

section
variable {f l : Nat} {ph : CheckPhases} {b : NetBody} {more : List NetBody} (hsound : s.SoundRange f l)
  (hb : (s.netsIn f l).map (·.body) = b :: more)
include hsound hb

/-- The walk's first move: the lowest net of the range is the current net. -/
theorem State.checkStart_walks {t : State} {k : Nat} (ht : State.Rests (State.todo (s.started j rest y)
      (.check ((CheckWork.start f l ph).take b s.limits.pass)) []
      (if ph.hasCont && decide (2 ≤ b.members.length) then .sweep else .contEnd)) t k) (hk : k + 1 ≤ 8192) :
    (s.started j rest y).engineStart (.check f l ph) = t := by
  let v : State := State.todo (s.started j rest y) (.check (CheckWork.start f l ph)) [] .walk
  have hv : v.SoundRange f l := hsound
  obtain ⟨r, hnext, -, hread⟩ := hv.next (b := b) (more := more) hb
  refine (State.Rests.move (s := v) rfl nofun ?_ ht).runEngine hk
  show v.checkWalk (CheckWork.start f l ph) = _
  unfold State.checkWalk
  rw [show v.nextNet (CheckWork.start f l ph).num (CheckWork.start f l ph).last = some r from hnext]
  dsimp only
  rw [hread]
  rfl

theorem State.engineStart_pair {x z n : Nat} {ms : List Nat} (hph : ph ≠ .iso) (hm : b.members = x :: z :: ms)
    (hs : s.sendsTo [(x, .source), (z, .ret)] n) : (s.started j rest y).engineStart (.check f l ph) =
      s.startedWith j rest y (checkEngine { (CheckWork.start f l ph).take b s.limits.pass with doing := .sweep }
        [(x, .source), (z, .ret)] ⟨.cont, s.limits.n, s.limits.range, s.limits.settle⟩) [(x, .source), (z, .ret)] n := by
  have hsweep : (ph.hasCont && decide (2 ≤ b.members.length)) = true := by
    rw [hm]
    cases ph <;> simp [CheckPhases.hasCont] at hph ⊢
  refine State.checkStart_walks hsound hb (k := 1) ?_ (by decide)
  rw [hsweep]
  let w := (CheckWork.start f l ph).take b s.limits.pass
  let u : State := State.todo (s.started j rest y) (.check w) [] .sweep
  have hx : w.members[w.rootIdx]? = some x := by rw [show w.members = _ from hm]; rfl
  have hz : w.members[w.next]? = some z := by rw [show w.members = _ from hm]; rfl
  exact State.Rests.move (s := u) rfl nofun
    (State.checkSweep_next (u := u) (s := s) rfl rfl hx hz rfl rfl rfl rfl hs) (State.Rests.stop rfl rfl)

theorem State.engineStart_whole {cs : List Nat} {ts : List (Nat × Rail)} {n : Nat}
    (hph : ph = .iso ∨ (ph = .both ∧ b.members.length = 1))
    (hcs : cs = s.mapped.filter (fun p => decide (∀ m ∈ s.ownerOf p, b.num < m))) (hne : cs ≠ [])
    (hts : ts = b.members.map (fun p => (p, .source)) ++ cs.map (fun p => (p, .ret))) (hs : s.sendsTo ts n) :
    (s.started j rest y).engineStart (.check f l ph) = s.startedWith j rest y (checkEngine
      { (CheckWork.start f l ph).take b s.limits.pass with
        inIso := true, cands := cs.map (fun p => ⟨p, false⟩), search := Search.empty, doing := .whole }
      ts ⟨.iso, s.limits.n, s.limits.range, s.limits.settle⟩) ts n := by
  have hend : (ph.hasCont && decide (2 ≤ b.members.length)) = false := by
    obtain rfl | ⟨rfl, h1⟩ := hph
    · rfl
    · simp [h1]
  have hiso : ph.hasIso = true := by obtain rfl | ⟨rfl, -⟩ := hph <;> rfl
  refine State.checkStart_walks hsound hb (k := 1) ?_ (by decide)
  rw [hend]
  let w := (CheckWork.start f l ph).take b s.limits.pass
  let u : State := State.todo (s.started j rest y) (.check w) [] .contEnd
  exact State.Rests.move (s := u) rfl nofun
    (State.checkContEnd_whole (u := u) (s := s) (w := w) rfl rfl hiso hcs hne hts rfl rfl rfl rfl hs) (State.Rests.stop rfl rfl)

end

end

/-! ### INSULATE (R128, R131) -/

theorem State.checkPoints_insulate {v : State} {f l : Nat} {loc auto : Bool} {bs : List NetBody}
    (hmapped : ∀ p ∈ v.mapped, v.Fit p)
    (hhv : ∀ b ∈ bs, b.hv = true → ∀ p ∈ b.members, v.Fit p ∧ ∀ c ∈ v.chanOf p, (v.posn c.pos).kind = .hv64) :
    v.checkPoints (.insulate f l loc auto) bs = none := by
  have hmember : ∀ p ∈ (bs.filter (·.hv)).flatMap (·.members),
      v.Fit p ∧ ∀ c ∈ v.chanOf p, (v.posn c.pos).kind = .hv64 := by
    intro p hp
    obtain ⟨b, hb, hpb⟩ := List.mem_flatMap.1 hp
    obtain ⟨h1, h2⟩ := List.mem_filter.1 hb
    exact hhv b h1 h2 p hpb
  have htouched : ∀ p ∈ v.touched bs (.insulate f l loc auto), v.Fit p := by
    intro p hp
    exact (List.mem_append.1 ((mem_sortPoints _ _).1 hp)).elim (fun h => (hmember p h).1) (hmapped p)
  have hcapable : v.notHv bs (.insulate f l loc auto) = none := by
    refine Option.map_eq_none_iff.2 (List.find?_eq_none.2 fun p hp => ?_)
    obtain ⟨⟨c, hc, -⟩, hkind⟩ := hmember p hp
    simp [State.onHv64, hc, hkind c hc]
  unfold State.checkPoints
  rw [State.touched_fit htouched, hcapable]
  rfl

/-- The engine of an INSULATE at its offset step. -/
def insulateEngine (s : State) (f l : Nat) (loc auto : Bool) : Engine :=
  { Engine.reset with
    work := .insulate (InsWork.start f l loc auto), phase := .plan
    inHand := some ⟨.targets [] true, .hv (s.hv.hvSet.stepValues .measure)⟩ }

/-- Every channel OPEN already: the offset step is requested at once. -/
theorem State.engineStart_offset {s : State} {j : Job} {rest : List Job} {y : Side} {f l : Nat} {loc auto : Bool}
    (hs : s.unchangedBy []) : (s.started j rest y).engineStart (.insulate f l loc auto) =
      { s.started j rest y with
        engine := { insulateEngine s f l loc auto with phase := .hvStep }
        lmu := s.lmu.sourceOff
        hv := { s.hv with request := some (s.hv.hvSet.stepValues .measure) } } := by
  let v : State := (s.started j rest y).setWork (.insulate (InsWork.start f l loc auto))
  have hv : v.unchangedBy [] := hs
  have hstart : (s.started j rest y).insulateStart f l loc auto = _ :=
    State.offerInHand_unchanged (v := s.hv.hvSet.stepValues .measure) false hv rfl
  refine (congrArg State.runEngine hstart).trans ?_
  exact (State.Rests.stop rfl rfl).runEngine (by decide)

/-! ### REFCHECK (R72) -/

/-- The targets of the low-voltage step. -/
def refTargets : List (Nat × Rail) := [(0, .source), (1, .ret)]

theorem State.refTargets_ok (s : State) : ∀ x ∈ refTargets, s.checkTarget x = none := by
  intro x hx
  obtain rfl | rfl : x = (0, .source) ∨ x = (1, .ret) := by simpa [refTargets] using hx
  · rfl
  · rfl

/-- The engine of a REFCHECK at its low-voltage step. -/
def refEngine (s : State) : Engine :=
  { Engine.reset with
    work := .refLv, phase := .plan
    inHand := some ⟨.targets refTargets true, .lmu ⟨.cont, 16, .r100, s.limits.settle⟩⟩ }

section
variable {s : State} {j : Job} {rest : List Job} {y : Side}

/-- With no card to switch the slot settles. -/
theorem State.engineStart_refs (hrail : s.hv.rail = .safe) (hslot : s.matrix.slot = .empty)
    (hno : ∀ p, 1 ≤ p → p ≤ 32 → s.changeList (s.stepTaken refTargets) p = [])
    (href : s.refChanges (s.stepTaken refTargets) ≠ []) : (s.started j rest y).engineStart .refcheck =
      { s.started j rest y with
        engine := refEngine s
        matrix := { s.matrix with
          image := writeImage s.matrix.image 0 (s.refChanges (s.stepTaken refTargets))
          slot := .settling (s.stepTaken refTargets) [0] 1 }
        lmu := s.lmu.sourceOff } := by
  have hstart : (s.started j rest y).refStart = _ := State.offerInHand_settles (s := s)
    (u := (s.started j rest y).setWork .refLv) (req := .lmu ⟨.cont, 16, .r100, s.limits.settle⟩) false rfl rfl rfl rfl hrail
    hslot s.refTargets_ok hno href
  refine (congrArg State.runEngine hstart).trans ?_
  exact (State.Rests.stop rfl rfl).runEngine (by decide)

/-- The reference channels once a REFCHECK's plan has switched position 0. -/
theorem State.imageOf_refSwitched (s : State) (x : Slot) :
    (s.switched (s.stepTaken refTargets) x).imageOf ⟨0, 0⟩ = some .source ∧
    (s.switched (s.stepTaken refTargets) x).imageOf ⟨0, 1⟩ = some .ret ∧
    ∀ k, 2 ≤ k → k ≤ 3 → (s.switched (s.stepTaken refTargets) x).imageOf ⟨0, k⟩ =
      if s.isBlocked ⟨0, k⟩ = true then s.imageOf ⟨0, k⟩ else some .opn := by
  refine ⟨s.imageOf_switched_ref _ x (by decide), s.imageOf_switched_ref _ x (by decide), fun k h2 h3 => ?_⟩
  rw [s.imageOf_switched_ref _ x (by omega)]
  have hwant : s.wanted (s.stepTaken refTargets) ⟨0, k⟩ = if s.isBlocked ⟨0, k⟩ then none else some .opn := by
    obtain rfl | rfl : k = 2 ∨ k = 3 := by omega
    · show (if true && !(s.isBlocked ⟨0, 2⟩) then some Rail.opn else none) = _
      cases s.isBlocked ⟨0, 2⟩ <;> rfl
    · show (if true && !(s.isBlocked ⟨0, 3⟩) then some Rail.opn else none) = _
      cases s.isBlocked ⟨0, 3⟩ <;> rfl
  rw [hwant]
  split <;> rfl

theorem State.refChanges_ref (h : s.imageOf ⟨0, 0⟩ ≠ some .source) : s.refChanges (s.stepTaken refTargets) ≠ [] :=
  List.ne_nil_of_mem (State.mem_refChanges.2 (show (0 : Nat) < 4 ∧ _ from ⟨by decide, rfl, h⟩) :
    ((0, .source) : Nat × Rail) ∈ _)

end

/-! ### A refusal (R148) -/

/-- A head that is refused has left the queue. -/
structure Refused (v t : State) (j : Job) (rest : List Job) (c : EndCause) : Prop where
  logged : Logged v t [jobEndZero j c]
  jobs : t.queue.jobs = rest
  aborted : t.events.pending.getLsbD 7 = true
  hv : t.hv = v.hv
  lmu : t.lmu = v.lmu
  matrix : t.matrix = v.matrix.orphanEnd

theorem State.refuseJob_refused {v : State} {j head : Job} {rest : List Job} (hj : v.queue.jobs = head :: rest)
    (c : EndCause) (hp : v.printer.state ≠ .idle) (hr : v.log.reporting = true) (hlen : v.log.entries.length < 256) :
    Refused v (v.refuseJob j c) j rest c := by
  have hq := (Quiet.appendSystem v (jobEndZero j c)).trans (Quiet.raise _ .jobAborted)
  have hlog := (Logged.appendSystem hp hr hlen (jobEndZero j c)).trans (Logged.raise _ .jobAborted)
  have hev : ((v.appendSystem (jobEndZero j c)).1.raise .jobAborted).events.pending.getLsbD 7 = true :=
    State.raise_isPending _ .jobAborted
  have href : v.refuseJob j c = ((v.appendSystem (jobEndZero j c)).1.raise .jobAborted).dropHead.examineHead := rfl
  rw [href]
  generalize (v.appendSystem (jobEndZero j c)).1.raise .jobAborted = u at hq hlog hev
  obtain ⟨w, hw⟩ := Quiet.examineHead u.dropHead
  have hlast : Logged v u.dropHead.examineHead ([jobEndZero j c] ++ [] ++ []) :=
    Logged.trans (t := u.dropHead) ⟨hlog.store, hlog.printer, hlog.reporting, hlog.nextSeq, hlog.entries⟩
      (Logged.examineHead _)
  refine ⟨hlast, ?_, hw.raised 7 hev, hw.hv.trans hq.hv, hw.lmu.trans hq.lmu,
    hw.matrix.trans (congrArg Matrix.orphanEnd hq.matrix)⟩
  rw [hw.queue]
  show u.queue.jobs.tail = rest
  rw [hq.queue, hj]
  rfl

theorem exec_headJobStart_refused {s v : State} {j : Job} {rest : List Job} {c : EndCause} (hj : s.queue.jobs = j :: rest)
    (hmay : s.mayStart = true) (hv : s.openJob j = v) (hbad : v.validate j.spec = (v, some c)) :
    exec .headJobStart s = .next (v.refuseJob j c) := by
  have hstart : s.startHead j = v.refuseJob j c := by
    unfold State.startHead
    rw [hv, hbad]
  show execHeadJobStart s = _
  unfold execHeadJobStart State.head
  rw [hj]
  exact congrArg Host.Outcome.next ((if_pos hmay).trans hstart)

end Sys2Proof.Machine
end

section
/-! PROOFS. The obligation on the start of the head (9.3). -/

namespace Sys2Proof.Machine

open Sys2Proof

/-- A target that passes the checks of a plan is a point that a job may touch. -/
theorem State.fit_of_target {s : State} (hmap : s.store.mapSound) {p : Nat} {r : Rail} (hp : harnessPoint p = true)
    (h : s.checkTarget (p, r) = none) : s.Fit p := by
  have h4 : ¬ p < 4 := by
    simp [harnessPoint] at hp
    omega
  unfold State.checkTarget at h
  cases hc : s.chanOf p with
  | none => simp [hc] at h
  | some c =>
    simp only [hc] at h
    have hmem : (p, c) ∈ s.store.map := mem_of_tget p c _ (by rw [← hc, State.chanOf, if_neg h4])
    have hpos : decide (c.pos ≠ 0) = true := decide_eq_true (Nat.pos_iff_ne_zero.1 (hmap.1 _ hmem).2.1)
    rw [hpos, Bool.true_and] at h
    cases hr : s.reachable c with
    | false => simp [hr] at h
    | true =>
      cases hb : s.isBlocked c with
      | true => simp [hr, hb] at h
      | false => exact ⟨c, hc, hr, hb⟩

theorem State.netsIn_bodies (s : State) (f l : Nat) : (s.netsIn f l).map (·.body) =
    (s.store.nets.map (·.body)).filter (fun b => decide (f ≤ b.num ∧ b.num ≤ l)) := by
  rw [List.filter_map, State.netsIn]
  simp only [Function.comp_def, Bool.decide_and]

/-- The position a plan's first SET goes to is one. -/
theorem State.sendsTo_unique {s : State} {ts : List (Nat × Rail)} {p q : Nat} (hp : s.sendsTo ts p) (hq : s.sendsTo ts q) :
    q = p := by
  obtain ⟨-, -, -, -, hp1, -, hpno, hpc, -⟩ := hp
  obtain ⟨-, -, -, -, hq1, -, hqno, hqc, -⟩ := hq
  rcases Nat.lt_trichotomy q p with h | h | h
  · exact absurd (hpno q hq1 h) hqc
  · exact h
  · exact absurd (hqno p hp1 h) hpc

section
variable {s : State} {j : Job} {rest : List Job} {y : Side} (hj : s.queue.jobs = j :: rest)
  (hmay : s.hv.rail ≠ .fault → s.mayStart = true) (hopen : s.openJob j = s.started j rest y)
  (hy : Recorded s y [jobStartRec j false (decide (s.reference = .unverified))])
include hj hmay hopen

/-- The start of a head of a known kind that passes every check. -/
theorem exec_starts {spec : JobSpec} (hspec : j.spec = spec) (hrail : s.hv.rail ≠ .fault) {u : State}
    (hok : (s.started j rest y).validate spec = (s.started j rest y, none))
    (hu : (s.started j rest y).engineStart spec = u) : exec .headJobStart s = .next u := by
  subst hspec
  exact exec_headJobStart hj (hmay hrail) hopen hok hu

include hy

theorem refcheck_starts (hspec : j.spec = .refcheck) (hslot : s.matrix.slot = .empty) (hrail : s.hv.rail = .safe)
    (h : (s.imageOf ⟨0, 0⟩ ≠ some .source ∧ ∀ p, 1 ≤ p → p ≤ 32 → s.changeList (s.stepTaken refTargets) p = []) ∨
      ∃ p, s.sendsTo refTargets p) : ∃ t : State, exec .headJobStart s = .next t ∧ t.queue = s.runningQueue j rest ∧
      t.log.entries.map (·.data) = s.log.entries.map (·.data) ++
        [jobStartRec j false (decide (s.reference = .unverified))] ∧ t.engine = refEngine s ∧
      t.hv = s.hv ∧ t.lmu = s.lmu.sourceOff ∧ t.store = s.store ∧ t.reference = s.reference ∧
      ((∀ p, 1 ≤ p → p ≤ 32 → s.changeList (s.stepTaken refTargets) p = []) →
        t.matrix = { s.matrix with slot := .settling (s.stepTaken refTargets) [0] 1, image := t.matrix.image } ∧
        t.link = s.link ∧ t.imageOf ⟨0, 0⟩ = some .source ∧ t.imageOf ⟨0, 1⟩ = some .ret ∧
        (∀ k, 2 ≤ k → k ≤ 3 → t.imageOf ⟨0, k⟩ =
          if s.isBlocked ⟨0, k⟩ = true then s.imageOf ⟨0, k⟩ else some .opn) ∧
        ∀ c : Chan, 1 ≤ c.pos → t.imageOf c = s.imageOf c) ∧
      ∀ p, s.sendsTo refTargets p → t.matrix = (s.planSent (s.stepTaken refTargets) p).matrix ∧
        t.link = (s.planSent (s.stepTaken refTargets) p).link := by
  have hok : (s.started j rest y).validate .refcheck = (s.started j rest y, none) :=
    State.validate_pointsOnly rfl (.inl rfl) rfl rfl
  have hfault : s.hv.rail ≠ .fault := ne_of_eq_of_ne hrail (by decide)
  obtain ⟨h00, hno⟩ | ⟨p, hp⟩ := h
  · have hexec := exec_starts hj hmay hopen hspec hfault hok
      (State.engineStart_refs hrail hslot hno (State.refChanges_ref h00))
    obtain ⟨h0, h1, h23⟩ := s.imageOf_refSwitched (.settling (s.stepTaken refTargets) [0] 1)
    exact ⟨_, hexec, rfl, hy.data, rfl, rfl, rfl, rfl, rfl, fun _ => ⟨rfl, rfl, h0, h1, h23,
      fun c hc => State.imageOf_switched s (s.stepTaken refTargets) (.settling (s.stepTaken refTargets) [0] 1) hc⟩,
      fun q hq => absurd (hno q hq.2.2.2.2.1 hq.2.2.2.2.2.1) hq.2.2.2.2.2.2.2.1⟩
  · have hexec := exec_starts hj hmay hopen hspec hfault hok (State.engineStart_offers (w := .refLv)
      (req := .lmu ⟨.cont, 16, .r100, s.limits.settle⟩) hp)
    refine ⟨_, hexec, rfl, hy.data, rfl, rfl, rfl, rfl, rfl, fun hno => ?_, fun q hq => ?_⟩
    · exact absurd (hno p hp.2.2.2.2.1 hp.2.2.2.2.2.1) hp.2.2.2.2.2.2.2.1
    · obtain rfl := State.sendsTo_unique hp hq
      exact ⟨rfl, rfl⟩

theorem learn_starts {hv : Bool} {p q n : Nat} {more : List Nat} {ts : List (Nat × Rail)} (hspec : j.spec = .learn hv)
    (href : s.reference ≠ .failed) (hmap : s.store.mapSound)
    (hpool : (s.store.map.filter (fun e => !(s.isBlocked e.2))).map (·.1) = p :: q :: more)
    (hts : ts = (p, .source) :: (q :: more).map (fun x => (x, .ret))) (hs : s.sendsTo ts n) :
    ∃ t : State, exec .headJobStart s = .next t ∧ t.queue = s.runningQueue j rest ∧
      t.log.entries.map (·.data) = s.log.entries.map (·.data) ++
        [jobStartRec j false (decide (s.reference = .unverified))] ∧
      t.store = { s.store with nets := [], owner := [] } ∧ t.engine = learnEngine s hv p q more ts ∧
      t.hv = s.hv ∧ t.lmu = s.lmu.sourceOff ∧ t.reference = s.reference ∧
      t.matrix = (s.planSent (s.stepTaken ts) n).matrix ∧ t.link = (s.planSent (s.stepTaken ts) n).link := by
  have htarget : ∀ x ∈ p :: q :: more, ∃ r, s.checkTarget (x, r) = none := by
    intro x hx
    have hok := hs.2.2.2.1
    rw [hts] at hok
    obtain rfl | hx := List.mem_cons.1 hx
    · exact ⟨_, hok _ List.mem_cons_self⟩
    · exact ⟨_, hok (x, .ret) (List.mem_cons_of_mem _ (List.mem_map_of_mem hx))⟩
  have hfit : ∀ x ∈ p :: q :: more, s.Fit x := by
    intro x hx
    obtain ⟨r, hr⟩ := htarget x hx
    rw [← hpool] at hx
    obtain ⟨e, he, rfl⟩ := List.mem_map.1 hx
    exact State.fit_of_target hmap (hmap.1 e (List.mem_filter.1 he).1).1 hr
  have hpoints : (s.started j rest y).checkPoints (.learn hv) [] = none := by
    have : (s.started j rest y).touched [] (.learn hv) = p :: q :: more := hpool
    unfold State.checkPoints
    rw [this, State.touched_fit (s := s.started j rest y) hfit]
    rfl
  have hok : (s.started j rest y).validate (.learn hv) = (s.started j rest y, none) :=
    State.validate_pointsOnly rfl (.inr href) rfl hpoints
  have hexec := exec_starts hj hmay hopen hspec (ne_of_eq_of_ne hs.1 (by decide)) hok
    (State.engineStart_learn (hv := hv) hpool hts hs)
  exact ⟨_, hexec, rfl, hy.data, rfl, rfl, rfl, rfl, rfl, rfl, rfl⟩

theorem leads_starts {c q n : Nat} (hspec : j.spec = .learnLeads c) (h4 : 4 ≤ c) (hc : c ∈ s.mapped) (hne : q ≠ c)
    (hmap : tableWf s.store.map = true) (hfit : ∀ p ∈ s.mapped, s.Fit p) (hq : q ∈ s.mapped)
    (hnext : if c < q then ∀ p ∈ s.mapped, c < p → q ≤ p else ∀ p ∈ s.mapped, q ≤ p ∧ p ≤ c)
    (hs : s.sendsTo [(c, .source), (q, .ret)] n) : Begun s j rest { Engine.reset with
      work := .leads ⟨s.mapped, c, q, none, 0⟩, phase := .plan
      inHand := some ⟨.targets [(c, .source), (q, .ret)] true,
        .lmu ⟨.cont, s.limits.n, s.limits.range, s.limits.settle⟩⟩ } [(c, .source), (q, .ret)] n := by
  have hpoints : (s.started j rest y).checkPoints (.learnLeads c) [] = none := by
    unfold State.checkPoints
    rw [show (s.started j rest y).touched [] (.learnLeads c) = s.mapped from rfl,
      State.touched_fit (s := s.started j rest y) hfit]
    rfl
  have hok : (s.started j rest y).validate (.learnLeads c) = (s.started j rest y, none) :=
    State.validate_pointsOnly (State.badRange_leads (v := s.started j rest y) h4 hc hq hne (hfit c hc)) (.inl rfl) rfl hpoints
  have hpartner := partnerOf_eq (tableWf_pairwise hmap) hq hnext
  have hstart : (s.started j rest y).engineStart (.learnLeads c) = s.startedWith j rest y { Engine.reset with
      work := .leads ⟨s.mapped, c, q, none, 0⟩, phase := .plan
      inHand := some ⟨.targets [(c, .source), (q, .ret)] true,
        .lmu ⟨.cont, s.limits.n, s.limits.range, s.limits.settle⟩⟩ } [(c, .source), (q, .ret)] n := by
    show State.runEngine ((s.started j rest y).leadsStart c) = _
    unfold State.leadsStart
    rw [show (s.started j rest y).mapped = s.mapped from rfl, show partnerOf s.mapped c = q from hpartner]
    exact State.engineStart_offers (w := .leads ⟨s.mapped, c, q, none, 0⟩)
      (req := .lmu ⟨.cont, s.limits.n, s.limits.range, s.limits.settle⟩) hs
  exact Begun.of (exec_starts hj hmay hopen hspec (ne_of_eq_of_ne hs.1 (by decide)) hok hstart) hy

section
variable {f l : Nat} {ph : CheckPhases} {b : NetBody} {more : List NetBody} (hspec : j.spec = .check f l ph)
  (hsound : s.SoundRange f l) (hb : (s.netsIn f l).map (·.body) = b :: more)
  (hcont : ∀ q ∈ b :: more, ph = .cont → 2 ≤ q.members.length → ∀ p ∈ q.members, s.Fit p)
  (hiso : ph ≠ .cont → (∀ q ∈ b :: more, ∀ p ∈ q.members, s.Fit p) ∧
    ∀ p ∈ s.mapped, (∀ m, s.ownerOf p = some m → b.num < m) → s.Fit p)
include hspec hsound hb hcont hiso

theorem check_starts {e : Engine} {ts : List (Nat × Rail)} {n : Nat} (hs : s.sendsTo ts n)
    (hu : (s.started j rest y).engineStart (.check f l ph) = s.startedWith j rest y e ts n) : Begun s j rest e ts n := by
  have hok : (s.started j rest y).validate (.check f l ph) = (s.started j rest y, none) := by
    refine State.SoundRange.validate (v := s.started j rest y) (f := f) (l := l) hsound
      (State.badRange_check hsound.2.1 _) rfl ?_ ?_
    · rw [show (s.started j rest y).netsIn f l = s.netsIn f l from rfl, hb]
      exact List.cons_ne_nil _ _
    · rw [show (s.started j rest y).netsIn f l = s.netsIn f l from rfl, hb]
      exact State.checkPoints_check (v := s.started j rest y) hcont hiso
  exact Begun.of (exec_starts hj hmay hopen hspec (ne_of_eq_of_ne hs.1 (by decide)) hok hu) hy

end

section
variable {f l : Nat} {loc auto : Bool} (hspec : j.spec = .insulate f l loc auto) (hsound : s.SoundRange f l)
  (hany : ∃ r ∈ s.store.nets, f ≤ r.body.num ∧ r.body.num ≤ l ∧ r.body.hv = true) (hmapped : ∀ p ∈ s.mapped, s.Fit p)
  (hhv : ∀ r ∈ s.store.nets, f ≤ r.body.num → r.body.num ≤ l → r.body.hv = true → ∀ p ∈ r.body.members,
    s.Fit p ∧ ∀ c ∈ s.chanOf p, (s.posn c.pos).kind = .hv64)
include hspec hsound hany hmapped hhv

omit hj hmay hopen hy hspec in
theorem insulate_valid (y : Side) : (s.started j rest y).validate (.insulate f l loc auto) = (s.started j rest y, none) := by
  have hin {r : NetRec} : r ∈ (s.started j rest y).netsIn f l ↔ r ∈ s.store.nets ∧ f ≤ r.body.num ∧ r.body.num ≤ l := by
    show r ∈ s.store.nets.filter _ ↔ _
    simp
  refine State.SoundRange.validate (v := s.started j rest y) (f := f) (l := l) hsound
    (State.badRange_insulate hsound.2.1 _) rfl ?_ ?_
  · obtain ⟨r, hr, h1, h2, h3⟩ := hany
    exact List.ne_nil_of_mem (List.mem_filter.2 ⟨List.mem_map_of_mem (hin.2 ⟨hr, h1, h2⟩), h3⟩)
  · refine State.checkPoints_insulate (v := s.started j rest y) hmapped fun b hb h3 => ?_
    obtain ⟨r, hr, rfl⟩ := List.mem_map.1 hb
    obtain ⟨hr, h1, h2⟩ := hin.1 hr
    exact hhv r hr h1 h2 h3

theorem insulate_sends {n : Nat} (hs : s.sendsTo [] n) : Begun s j rest (insulateEngine s f l loc auto) [] n :=
  Begun.of (exec_starts hj hmay hopen hspec (ne_of_eq_of_ne hs.1 (by decide))
    (insulate_valid hsound hany hmapped hhv y)
    (State.engineStart_offers (w := .insulate (InsWork.start f l loc auto))
      (req := .hv (s.hv.hvSet.stepValues .measure)) hs)) hy

theorem insulate_requests (hs : s.unchangedBy []) : ∃ t : State, exec .headJobStart s = .next t ∧
    t.queue = s.runningQueue j rest ∧ t.log.entries.map (·.data) = s.log.entries.map (·.data) ++
      [jobStartRec j false (decide (s.reference = .unverified))] ∧
    t.engine = { insulateEngine s f l loc auto with phase := .hvStep } ∧
    t.hv = { s.hv with request := some (s.hv.hvSet.stepValues .measure) } ∧ t.lmu = s.lmu.sourceOff ∧
    t.store = s.store ∧ t.reference = s.reference ∧ t.matrix = s.matrix ∧ t.link = s.link := by
  have hexec := exec_starts hj hmay hopen hspec (ne_of_eq_of_ne hs.1 (by decide))
    (insulate_valid hsound hany hmapped hhv y) (State.engineStart_offset hs)
  exact ⟨_, hexec, rfl, hy.data, rfl, rfl, rfl, rfl, rfl, rfl, rfl⟩

end

theorem check_refused {f l : Nat} {ph : CheckPhases} (hspec : j.spec = .check f l ph) (hfl : l < f)
    (hrail : s.hv.rail ≠ .fault) (hp : s.printer.state ≠ .idle) (hr : s.log.reporting = true)
    (hlen : s.log.entries.length + 9 ≤ 256) : ∃ t : State, exec .headJobStart s = .next t ∧
      Refused (s.started j rest y) t j rest ⟨.badRange, .nothing⟩ := by
  have hbad : (s.started j rest y).validate j.spec = (s.started j rest y, some ⟨.badRange, .nothing⟩) := by
    rw [hspec]
    unfold State.validate
    rw [show (s.started j rest y).badRange (.check f l ph) = some ⟨.badRange, .nothing⟩ from if_pos hfl]
  refine ⟨_, exec_headJobStart_refused hj (hmay hrail) hopen hbad, State.refuseJob_refused rfl _ ?_ ?_ ?_⟩
  · exact ne_of_eq_of_ne (congrArg Printer.state hy.logged.printer) hp
  · exact hy.logged.reporting.trans hr
  · show y.log.entries.length < 256
    have := hy.logged.entries
    rw [show y.log.entries = _ from this, List.length_append, stamped_length, List.length_singleton]
    omega

end

/-- Settles O53: the record and the queue, then the checks and the first step of each kind; the refusal. -/
theorem headJobStartsOrIsRefused : Obligations.HeadJobStartsOrIsRefused := by
  intro j rest s hj hst hhold hstart henum hslots hlen hp hr
  have hmay (hrail : s.hv.rail ≠ .fault) : s.mayStart = true :=
    State.mayStart_of hj hst hhold hstart henum hslots hlen hrail
  obtain ⟨y, hopen, hy⟩ := State.openJob_taken hj hp hr hlen
  refine ⟨s.runningQueue j rest, jobStartRec j false (decide (s.reference = .unverified)), rfl, rfl,
    fun hspec hslot hrail => ⟨refTargets, s.stepTaken refTargets, rfl, rfl, rfl,
      refcheck_starts hj hmay hopen hy hspec hslot hrail⟩,
    fun hv p q more n ts hspec href hmap hpool hts hs => learn_starts hj hmay hopen hy hspec href hmap hpool hts hs,
    ⟨s.Fit, s.SoundRange, Begun s j rest, _, fun p => Iff.rfl, fun f l => Iff.rfl, rfl, fun e ts n => Iff.rfl, ?_, ?_, ?_⟩,
    fun f l ph hspec hfl hrail => ?_⟩
  · rintro c q ts n hspec h4 hc hne hmap hfit hq hnext rfl hs
    exact leads_starts hj hmay hopen hy hspec h4 hc hne hmap hfit hq hnext hs
  · intro f l ph b more ts n hspec hsound hb hcont hiso hs
    rw [← State.netsIn_bodies] at hb
    refine ⟨?_, ?_⟩
    · rintro x z ms hph hm rfl
      exact check_starts hj hmay hopen hy hspec hsound hb hcont hiso hs (State.engineStart_pair hsound hb hph hm hs)
    · intro cs hph hcs hne hts
      exact check_starts hj hmay hopen hy hspec hsound hb hcont hiso hs
        (State.engineStart_whole hsound hb hph hcs hne hts hs)
  · rintro f l loc auto e v hspec hsound hany hmapped hhv rfl rfl
    exact ⟨fun n hs => insulate_sends hj hmay hopen hy hspec hsound hany hmapped hhv hs,
      insulate_requests hj hmay hopen hy hspec hsound hany hmapped hhv⟩
  · obtain ⟨t, hexec, href⟩ := check_refused hj hmay hopen hy hspec hfl hrail hp hr hlen
    have hdata := (hy.logged.trans (t := s.withSide y) (u := t)
      ⟨href.logged.store.trans hy.store.symm, href.logged.printer, href.logged.reporting, href.logged.nextSeq,
        href.logged.entries⟩).data
    exact ⟨t, hexec, href.jobs, hdata, href.aborted, href.logged.store, href.hv, href.lmu, congrArg Matrix.slot href.matrix,
      (congrArg Matrix.image href.matrix).trans rfl, (congrArg Matrix.roster href.matrix).trans rfl⟩

end Sys2Proof.Machine
end

section
/-! PROOFS. The end of a high-voltage step (7.3, 8.3–8.5, 8.8): REFCHECK and INSULATE. -/

namespace Sys2Proof.Machine

open Sys2Proof

/-! ### A judgment whatever the printer does with its record -/

section
variable {s : State} {j : Job} {rest : List Job} (hj : s.queue.jobs = j :: rest)
  (hlen : s.log.entries.length + 9 ≤ 256)
include hj hlen

theorem State.drain_taken {e : Engine} {recs : List RecData} (he : e.toAppend = recs) (hone : recs.length ≤ 1) :
    ∃ y, (s.printer.state ≠ .idle → s.log.reporting = true → Recorded s y recs) ∧
      State.drain recs { s with engine := e } = (s.ran j rest { e with toAppend := [] } recs.length y, true) := by
  by_cases hbusy : s.printer.state ≠ .idle ∧ s.log.reporting = true
  · obtain ⟨hp, hr⟩ := hbusy
    cases recs with
    | nil => exact ⟨s.side, fun _ _ => Recorded.refl s, State.ran_unrecorded hj he⟩
    | cons d ds =>
      obtain rfl : ds = [] := List.length_eq_zero_iff.1 (by simpa using hone)
      obtain ⟨y, hy, hd⟩ := State.ran_recorded hj hp hr hlen e d
      exact ⟨y, fun _ _ => hy, hd⟩
  · have habsurd (y : Side) : s.printer.state ≠ .idle → s.log.reporting = true → Recorded s y recs :=
      fun hp hr => absurd ⟨hp, hr⟩ hbusy
    cases recs with
    | nil => exact ⟨s.side, habsurd _, State.ran_unrecorded hj he⟩
    | cons d ds =>
      obtain rfl : ds = [] := List.length_eq_zero_iff.1 (by simpa using hone)
      let v : State := { s with engine := e }
      obtain ⟨y, hy⟩ := (Quiet.appendTest v true d).exists_withSide
      have happ : v.appendTest true d = (v.withSide y, true) := by
        refine Prod.ext hy ?_
        unfold State.appendTest
        rw [State.offerTest_taken (s := v) (.inr hlen)]
      have hcount : (v.withSide y).countTest = s.ran j rest e 1 y := State.setHead_eq (s := v.withSide y) hj _
      refine ⟨y, habsurd y, ?_⟩
      unfold State.drain
      rw [happ]
      dsimp only
      rw [hcount]
      rfl

/-- The record of one judgment, if any, is taken, and the engine goes on. -/
theorem State.Rests.judged {e : Engine} {recs : List RecData} (he : e.toAppend = recs) (hone : recs.length ≤ 1)
    (hc : e.ctl ≠ .wait) : ∃ y, (s.printer.state ≠ .idle → s.log.reporting = true → Recorded s y recs) ∧
      ∀ (t u : State) (k : Nat), (s.ran j rest { e with toAppend := [] } recs.length y).workNext = u → u.Rests t k →
        State.Rests { s with engine := e } t (k + 1) := by
  obtain ⟨y, hy, hd⟩ := State.drain_taken hj hlen he hone
  refine ⟨y, hy, fun t u k hw hu n => ?_⟩
  show State.engineLoop (n + k + 1) { s with engine := e } = t
  rw [State.engineLoop, show ({ s with engine := e } : State).engine.toAppend = recs from he, hd]
  exact (if_neg hc).trans ((congrArg (State.engineLoop (n + k)) hw).trans (hu n))

end

/-! ### The last move -/

section
variable {u : State} {j : Job} {rest : List Job} (hj : u.queue.jobs = j :: rest) (hslot : u.matrix.slot = .empty)
  (hrail : u.hv.rail = .safe) (hx : u.link.exchange = none)
include hj hslot hrail hx

/-- A job with no step left ends COMPLETE. -/
theorem State.Rests.completes (hw : u.engine.work ≠ .none) (hc : u.engine.ctl = .complete) (ha : u.engine.toAppend = []) :
    ∃ t, u.Rests t 1 ∧ Ended u t ⟨.complete, .nothing⟩ j rest := by
  have hend := State.endJob_ended hj ⟨.complete, .nothing⟩ hslot hrail hx
  have hnext : u.workNext = u.endJob ⟨.complete, .nothing⟩ := by
    unfold State.workNext
    rw [hc]
    cases h : u.engine.work with
    | none => exact absurd h hw
    | _ => rfl
  exact ⟨_, State.Rests.move ha (by rw [hc]; decide) hnext hend.rests, hend⟩

end

/-! ### The end of the hold -/

/-- The rail is SAFE and the held result handed over. -/
def State.handedOver (s : State) : State :=
  { s with hv := { s.hv with rail := .safe, holdTimer := none, limitTimer := none, held := none, values := none } }

/-- The engine of a step that is judged. -/
def Engine.judging (e : Engine) : Engine := { e with steps := e.steps + 1, phase := .between }

section
variable {s : State} {ms : Nat} {r : HeldResult} (hrail : s.hv.rail = .discharge) (hhold : s.hv.holdTimer = some ms)
  (hheld : s.hv.held = some r) (hphase : s.engine.phase = .hvStep) (hv : r.verdict ≠ .interrupted)
include hrail hhold hheld hphase hv

theorem exec_safeHoldExpiry_judges : exec .safeHoldExpiry s = .next (s.handedOver.stepComplete r) ∧
    (∀ lv, s.engine.work = .refHv lv → s.handedOver.stepComplete r =
      State.runEngine (State.refHvJudge { s.handedOver with engine := s.engine.judging } lv r)) ∧
    ∀ w, s.engine.work = .insulate w → s.handedOver.stepComplete r =
      State.runEngine (State.insJudge w { s.handedOver with engine := s.engine.judging } r) := by
  have hstep : s.handedOver.stepComplete r = State.runEngine (match s.engine.work with
      | .insulate w => State.insJudge w { s.handedOver with engine := s.engine.judging } r
      | .refHv p => State.refHvJudge { s.handedOver with engine := s.engine.judging } p r
      | .none => { s.handedOver with engine := s.engine.judging }
      | .check _ => { s.handedOver with engine := s.engine.judging }
      | .learn _ => { s.handedOver with engine := s.engine.judging }
      | .leads _ => { s.handedOver with engine := s.engine.judging }
      | .refLv => { s.handedOver with engine := s.engine.judging }) :=
    (if_pos hphase).trans (if_neg hv)
  refine ⟨congrArg Host.Outcome.next ((if_pos ⟨hrail, by simp [hhold]⟩).trans ?_), fun lv hw => ?_, fun w hw => ?_⟩
  · unfold State.holdDone
    simp only [show s.hv.enterSafe.held = some r from hheld]
    rfl
  · rw [hstep, hw]
  · rw [hstep, hw]

end

/-! ### REFCHECK (R73) -/

/-- The record a judgment of the high-voltage step calls for. -/
def refHvRecs (j : Job) (rep : Bool) (r : HeldResult) : List RecData :=
  let d : RecData := { kind := .refFail, system := false, flags := { u := j.flagU, s := rep }, tag := some j.tag
                       pointA := some 2, pointB := some 3 }
  match r.verdict with
  | .breakdown _ =>
    [{ d with cause := some .refBreakdown, value := some ⟨.dV, some r.v⟩, second := some ⟨.nA, some r.i⟩ }]
  | _ => if 19000 ≤ r.ir ∧ r.ir ≤ 21000 then []
    else [{ d with cause := some .window, value := some ⟨.kOhm, some r.ir⟩, arcs := some r.arcs }]

/-- The reference state it leaves. -/
def refHvState (lv : Bool) (r : HeldResult) (old : RefState) : RefState :=
  match r.verdict with
  | .breakdown _ => .failed
  | _ => if 19000 ≤ r.ir ∧ r.ir ≤ 21000 then (if lv then .verified else old) else .failed

theorem refHvRecs_length (j : Job) (rep : Bool) (r : HeldResult) : (refHvRecs j rep r).length ≤ 1 := by
  unfold refHvRecs
  dsimp only
  split
  · exact le_rfl
  · split <;> simp

theorem State.refHvRec_eq {u : State} {j : Job} {rest : List Job} (hj : u.queue.jobs = j :: rest) : u.refHvRec =
    { kind := .refFail, system := false, flags := { u := j.flagU, s := u.engine.isRepeat }, tag := some j.tag
      pointA := some 2, pointB := some 3 } := by
  unfold State.refHvRec State.testRec State.flagsU State.headTag State.head
  rw [hj]
  rfl

theorem State.refHvJudge_eq {u : State} {j : Job} {rest : List Job} (hj : u.queue.jobs = j :: rest) (lv : Bool)
    (r : HeldResult) : u.refHvJudge lv r = State.todo { u with reference := refHvState lv r u.reference } (.refHv lv)
      (refHvRecs j u.engine.isRepeat r) .complete := by
  have hwin : hvWindow r.ir = decide (19000 ≤ r.ir ∧ r.ir ≤ 21000) := by rw [hvWindow, Bool.decide_and]
  unfold State.refHvJudge refHvState refHvRecs
  rw [State.refHvRec_eq hj, hwin]
  cases r.verdict with
  | breakdown c => rfl
  | _ =>
    by_cases h : 19000 ≤ r.ir ∧ r.ir ≤ 21000
    · simp [h]
    · simp [h, kOhm]

/-- The judgment of a REFCHECK's high-voltage step, its record, and the end of the job. -/
theorem State.refHvJudge_ends {s : State} {j : Job} {rest : List Job} {lv : Bool} {r : HeldResult}
    (hj : s.queue.jobs = j :: rest) (hlen : s.log.entries.length + 9 ≤ 256) (hrail : s.hv.rail = .safe)
    (hslot : s.matrix.slot = .empty) (hx : s.link.exchange = none) :
    ∃ y t, (s.printer.state ≠ .idle → s.log.reporting = true → Recorded s y (refHvRecs j s.engine.isRepeat r)) ∧
      State.runEngine (s.refHvJudge lv r) = t ∧
      Ended (State.ran { s with reference := refHvState lv r s.reference } j rest
        { s.engine with work := .refHv lv, toAppend := [], ctl := .complete } (refHvRecs j s.engine.isRepeat r).length y)
        t ⟨.complete, .nothing⟩
        { j with tests := j.tests + (refHvRecs j s.engine.isRepeat r).length } rest := by
  let b : State := { s with reference := refHvState lv r s.reference }
  let e : Engine := { s.engine with
    work := .refHv lv, toAppend := refHvRecs j s.engine.isRepeat r, ctl := .complete }
  obtain ⟨y, hy, hrun⟩ := State.Rests.judged (s := b) hj hlen (e := e) rfl (refHvRecs_length j _ r) nofun
  have hend := State.endJob_ended
    (u := b.ran j rest { e with toAppend := [] } (refHvRecs j s.engine.isRepeat r).length y) rfl
    ⟨.complete, .nothing⟩ hslot hrail hx
  refine ⟨y, _, fun hp hr => ?_, ?_, hend⟩
  · obtain ⟨⟨h1, h2, h3, h4, h5⟩, h6, h7, h8, h9⟩ := hy hp hr
    exact ⟨⟨h1, h2, h3, h4, h5⟩, h6, h7, h8, h9⟩
  · rw [State.refHvJudge_eq hj]
    exact (hrun _ _ 0 rfl hend.rests).runEngine (by decide)

theorem refHvRecs_breakdown {j : Job} {rep : Bool} {r : HeldResult} (h : ∃ c, r.verdict = .breakdown c) :
    refHvRecs j rep r = [{ kind := .refFail, system := false, flags := { u := j.flagU, s := rep }
                           tag := some j.tag, pointA := some 2, pointB := some 3, cause := some .refBreakdown
                           value := some ⟨.dV, some r.v⟩, second := some ⟨.nA, some r.i⟩ }] := by
  obtain ⟨c, hc⟩ := h
  unfold refHvRecs
  rw [hc]

theorem refHvState_breakdown {lv : Bool} {r : HeldResult} (h : ∃ c, r.verdict = .breakdown c) (old : RefState) :
    refHvState lv r old = .failed := by
  obtain ⟨c, hc⟩ := h
  unfold refHvState
  rw [hc]

section
variable {r : HeldResult} (h : ∀ c, r.verdict ≠ .breakdown c)
include h

theorem refHvRecs_window (j : Job) (rep : Bool) : refHvRecs j rep r = if 19000 ≤ r.ir ∧ r.ir ≤ 21000 then [] else
    [{ kind := .refFail, system := false, flags := { u := j.flagU, s := rep }, tag := some j.tag
       pointA := some 2, pointB := some 3, cause := some .window
       value := some ⟨.kOhm, some r.ir⟩, arcs := some r.arcs }] := by
  unfold refHvRecs
  cases hv : r.verdict with
  | breakdown c => exact absurd hv (h c)
  | _ => rfl

theorem refHvState_window (lv : Bool) (old : RefState) : refHvState lv r old =
    if 19000 ≤ r.ir ∧ r.ir ≤ 21000 then (if lv then .verified else old) else .failed := by
  unfold refHvState
  cases hv : r.verdict with
  | breakdown c => exact absurd hv (h c)
  | _ => rfl

end

theorem refcheckStep_ends (lv : Bool) (r : HeldResult) (ms : Nat) (j : Job) (rest : List Job) (s : State)
    (hrail : s.hv.rail = .discharge) (hhold : s.hv.holdTimer = some ms) (hheld : s.hv.held = some r)
    (hphase : s.engine.phase = .hvStep) (hwork : s.engine.work = .refHv lv) (hj : s.queue.jobs = j :: rest)
    (hv : r.verdict ≠ .interrupted) (hlen : s.log.entries.length + 9 ≤ 256) (hslot : s.matrix.slot = .empty)
    (hx : s.link.exchange = none) : ∃ (t : State), exec .safeHoldExpiry s = .next t ∧
      t.reference = refHvState lv r s.reference ∧
      (s.log.reporting = true → s.printer.state ≠ .idle → t.log.entries.map (·.data) =
        s.log.entries.map (·.data) ++ refHvRecs j s.engine.isRepeat r ∧ t.store = s.store) ∧
      t.hv = s.handedOver.hv ∧ t.engine = Engine.reset ∧
      t.queue.jobs = { j with
        state := .ending, ended := some ⟨.complete, .nothing⟩, steps := s.engine.steps + 1, nets := s.engine.nets
        extra := s.engine.extra, tests := j.tests + (refHvRecs j s.engine.isRepeat r).length } :: rest ∧
      (∃ touched, t.matrix.slot = .sending ⟨⟨.allOpen, .jobEnd⟩, []⟩ 0 touched) ∧
      t.link.exchange = some ⟨.allOpen, false, false⟩ ∧ t.lmu.phase = .idle := by
  obtain ⟨hexec, hjudge, -⟩ := exec_safeHoldExpiry_judges hrail hhold hheld hphase hv
  obtain ⟨y, t, hy, hrun, hend⟩ := State.refHvJudge_ends (s := { s.handedOver with engine := s.engine.judging }) (lv := lv)
    (r := r) hj hlen rfl hslot hx
  refine ⟨t, hexec.trans (congrArg _ ((hjudge lv hwork).trans hrun)), hend.reference, fun hr hp => ?_, hend.hv,
    hend.engine, hend.jobs, hend.slot, hend.exchange, hend.lmu⟩
  have hrec := hy hp hr
  exact ⟨(congrArg (fun l : Log => l.entries.map (·.data)) hend.log).trans hrec.data, hend.store.trans hrec.store⟩

end Sys2Proof.Machine
end

section
/-! PROOFS. The steps of an INSULATE (8.3–8.5): the walk, the records, the locate. -/

namespace Sys2Proof.Machine

open Sys2Proof

/-- A job that is over: its all-open plan on the link, the engine at rest, its counts with `n` nets, `x` extras and `k`
records more. -/
structure JobOver (s t : State) (j : Job) (rest : List Job) (c : EndCause) (n x k : Nat) : Prop where
  hv : t.hv = s.hv
  reference : t.reference = s.reference
  engine : t.engine = Engine.reset
  lmu : t.lmu.phase = .idle
  slot : ∃ touched, t.matrix.slot = .sending ⟨⟨.allOpen, .jobEnd⟩, []⟩ 0 touched
  jobs : t.queue.jobs = { j with
    state := .ending, ended := some c, steps := s.engine.steps, nets := s.engine.nets + n
    extra := s.engine.extra + x, tests := j.tests + k } :: rest

/-! ### The walk (R132) -/

theorem State.nextNet_none {u : State} {a l : Nat} (h : ∀ x ∈ u.store.nets, x.body.num ≤ a ∨ l < x.body.num) :
    u.nextNet a l = none := by
  refine List.find?_eq_none.2 fun x hx => ?_
  rw [Bool.and_eq_true, decide_eq_true_iff, decide_eq_true_iff]
  rcases h x hx with h | h <;> omega

theorem State.insWalk_over {u : State} {w : InsWork} (h : ∀ x ∈ u.store.nets, x.body.num ≤ w.num ∨ w.last < x.body.num) :
    u.insWalk w = u.todo (.insulate w) [] .complete := by
  unfold State.insWalk
  rw [State.nextNet_none h]

/-- Past the nets at or below `w.num` the walk reads the next one. -/
theorem State.nextNet_read {u : State} {pre post : List NetRec} {b : NetBody} {a l : Nat}
    (hnets : u.store.nets = pre ++ ⟨b, crc16 b.bytes, false⟩ :: post) (hpre : ∀ x ∈ pre, x.body.num ≤ a) (h1 : a < b.num)
    (h2 : b.num ≤ l) : u.nextNet a l = some ⟨b, crc16 b.bytes, false⟩ ∧ u.jobRead b.num = (u, some b) := by
  have hskip : ∀ x ∈ pre, ¬ (decide (a < x.body.num) && decide (x.body.num ≤ l)) = true := by
    intro x hx
    rw [Bool.and_eq_true, decide_eq_true_iff]
    have := hpre x hx
    omega
  have hother : ∀ x ∈ pre, ¬ (x.body.num == b.num) = true := by
    intro x hx
    rw [beq_iff_eq]
    have := hpre x hx
    omega
  have hfind : u.findNet b.num = some ⟨b, crc16 b.bytes, false⟩ := by
    rw [State.findNet, hnets, List.find?_append, List.find?_eq_none.2 hother, Option.none_or]
    exact List.find?_cons_of_pos (by simp)
  refine ⟨?_, ?_⟩
  · rw [State.nextNet, hnets, List.find?_append, List.find?_eq_none.2 hskip, Option.none_or]
    exact List.find?_cons_of_pos (by simp [h1, h2])
  · have hread := State.readNetFor_sound (s := u) (c := .run) (r := ⟨b, crc16 b.bytes, false⟩) hfind rfl rfl
    unfold State.jobRead
    rw [show (⟨b, crc16 b.bytes, false⟩ : NetRec).body.num = b.num from rfl] at hread
    rw [hread]

/-- A step of the INSULATE goes out. -/
theorem State.insStep_sent {s u : State} {w : InsWork} {coll : List Nat} {ts : List (Nat × Rail)} {n : Nat} {j : Job}
    {rest : List Job} {snap : Snapshot} (hj : u.queue.jobs = j :: rest) (hsn : j.snapshot = some snap)
    (hts : ts = w.members.map (fun p => (p, .hv)) ++ coll.map (fun p => (p, .collect)))
    (hm : u.matrix = s.matrix) (hl : u.link = s.link) (hh : u.hv = s.hv) (hmap : u.store.map = s.store.map)
    (hs : s.sendsTo ts n) : u.insStep w coll = { u with
      engine := { u.engine with
        work := .insulate w, phase := .plan, isRepeat := false, ctl := .wait
        inHand := some ⟨.targets ts true, .hv (snap.hv.stepValues .apply)⟩ }
      matrix := (s.planSent (s.stepTaken ts) n).matrix
      link := (s.planSent (s.stepTaken ts) n).link
      lmu := u.lmu.sourceOff } := by
  have hreq : u.snap.hv.stepValues .apply = snap.hv.stepValues .apply := by rw [State.snap_of hj hsn]
  have hplan : hvPlan w.members coll = ts := hts.symm
  unfold State.insStep
  rw [hplan, hreq]
  exact State.offerInHand_sent (s := s) (u := u.setWork (.insulate w)) false hm hl hh hmap hs

/-! ### Records (R133, R136, R137) -/

/-- The record of a failing result on the current net. -/
def insRecord (j : Job) (w : InsWork) (h : HeldResult) (rep : Bool) : RecData where
  kind := match h.verdict with
    | .breakdown _ => .breakdown
    | .arc => .arc
    | _ => .irLow
  system := false
  flags := { u := j.flagU, s := rep }
  tag := some j.tag
  net := some w.num
  pointA := w.members.head?
  value := some (match h.verdict with
    | .breakdown _ => ⟨.dV, some h.v⟩
    | _ => ⟨.kOhm, some h.ir⟩)
  second := some ⟨.nA, some (match h.verdict with
    | .breakdown _ => h.i
    | _ => h.offset)⟩
  arcs := some h.arcs
  cause := match h.verdict with
    | .breakdown c => some (.brk c)
    | _ => none

section
variable {u : State} {j : Job} {rest : List Job} (hj : u.queue.jobs = j :: rest)
include hj

theorem State.testRec_eq (k : RecKind) : u.testRec k =
    { kind := k, system := false, flags := { u := j.flagU }, tag := some j.tag } := by
  unfold State.testRec State.flagsU State.headTag State.head
  rw [hj]
  rfl

theorem State.flagsU_eq : u.flagsU = { u := j.flagU } := by
  unfold State.flagsU State.head
  rw [hj]
  rfl

theorem State.insRec_net (w : InsWork) (h : HeldResult) (rep : Bool) :
    u.insRec w h rep none false false = insRecord j w h rep := by
  unfold State.insRec
  rw [State.testRec_eq hj, State.flagsU_eq hj]
  unfold valuesOf insRecord
  cases h.verdict <;> rfl

theorem State.insRec_point (w : InsWork) (h : HeldResult) (rep : Bool) (p : Nat) (n : Bool) :
    u.insRec w h rep (some (.point p)) false n =
      { insRecord j w h rep with pointB := some p, flags := { u := j.flagU, n := n, s := rep } } := by
  unfold State.insRec
  rw [State.testRec_eq hj, State.flagsU_eq hj]
  unfold valuesOf insRecord
  cases h.verdict <;> rfl

end

/-! ### The net is done (R138) -/

section
variable {s : State} {j : Job} {rest : List Job} {w : InsWork} (hj : s.queue.jobs = j :: rest)
  (hrail : s.hv.rail = .safe) (hslot : s.matrix.slot = .empty) (hx : s.link.exchange = none)
  (hover : ∀ x ∈ s.store.nets, x.body.num ≤ w.num ∨ w.last < x.body.num)
include hrail hslot hx hover

/-- From the end of its last net an INSULATE comes to its end. -/
theorem State.ran_netDone {y : Side} (hstore : y.store = s.store) {e : Engine} {k : Nat} (hw : e.work = .insulate w)
    (hc : e.ctl = .netDone) (ha : e.toAppend = []) : ∃ t, (s.ran j rest e k y).Rests t 3 ∧ t.store = s.store ∧
      t.log = y.log ∧ JobOver { s with engine := e } t j rest ⟨.complete, .nothing⟩ 1 0 k := by
  let u := s.ran j rest e k y
  let w1 : InsWork := { w with stage := .main, units := [], search := Search.empty }
  let u1 : State := State.todo { u with engine := { e with nets := e.nets + 1 } } (.insulate w1) [] .walk
  let u2 : State := u1.todo (.insulate w1) [] .complete
  have h1 : u.workNext = u1 := by
    unfold State.workNext
    simp only [show u.engine.work = .insulate w from hw, show u.engine.ctl = .netDone from hc]
    rfl
  have h2 : u1.workNext = u2 := State.insWalk_over (u := u1) (w := w1) (by
    show ∀ x ∈ y.store.nets, _
    rw [hstore]
    exact hover)
  obtain ⟨t, hrest, hend⟩ := State.Rests.completes (u := u2) (j := { j with tests := j.tests + k }) (rest := rest) rfl hslot
    hrail hx nofun rfl rfl
  refine ⟨t, State.Rests.move ha ?_ h1 (State.Rests.move rfl nofun h2 hrest), hend.store.trans hstore, hend.log,
    hend.hv, hend.reference, hend.engine, hend.lmu, hend.slot, hend.jobs⟩
  rw [show (s.ran j rest e k y).engine.ctl = .netDone from hc]
  decide

include hj in
/-- The last net is done, with its record if any. -/
theorem State.insDone_over (hp : s.printer.state ≠ .idle) (hr : s.log.reporting = true)
    (hlen : s.log.entries.length + 9 ≤ 256) {recs : List RecData} (hone : recs.length ≤ 1) :
    ∃ y t, Recorded s y recs ∧ State.runEngine (s.insDone w recs) = t ∧ t.store = s.store ∧ t.log = y.log ∧
      JobOver s t j rest ⟨.complete, .nothing⟩ 1 0 recs.length := by
  let w1 : InsWork := { w with search := Search.empty }
  obtain ⟨y, hy, hrun⟩ := State.Rests.records hj hp hr hlen
    (e := { s.engine with work := .insulate w1, toAppend := recs, ctl := .netDone }) rfl hone nofun
  let u1 : State := State.ran s j rest { s.engine with
    nets := s.engine.nets + 1
    work := .insulate { w1 with stage := .main, units := [], search := Search.empty }, toAppend := [], ctl := .walk }
    recs.length y
  let u2 : State := u1.todo u1.engine.work [] .complete
  have h2 : u1.workNext = u2 := State.insWalk_over (u := u1) (by
    show ∀ x ∈ y.store.nets, _
    rw [hy.store]
    exact hover)
  obtain ⟨t, hrest, hend⟩ := State.Rests.completes (u := u2) (j := { j with tests := j.tests + recs.length })
    (rest := rest) rfl hslot hrail hx nofun rfl rfl
  exact ⟨y, t, hy, (hrun t u1 2 rfl (State.Rests.move rfl nofun h2 hrest)).runEngine (by decide),
    hend.store.trans hy.store, hend.log, hend.hv, hend.reference, hend.engine, hend.lmu, hend.slot, hend.jobs⟩

end

end Sys2Proof.Machine
end

section
/-! PROOFS. The judgments of an INSULATE (8.3–8.5), and the obligation on the end of a high-voltage step. -/

namespace Sys2Proof.Machine

open Sys2Proof

/-! ### Units that are points (R134) -/

def pointUnit (p : Nat) : LocUnit := ⟨.point p, [p], false⟩

theorem pointUnits_points (l : List Nat) : (l.map pointUnit).flatMap (·.points) = l := by
  induction l with
  | nil => rfl
  | cons p l ih => exact congrArg (p :: ·) ih

theorem Run.slice_map {α β : Type} (r : Run) (f : α → β) (l : List α) : r.slice (l.map f) = (r.slice l).map f := by
  rw [Run.slice, Run.slice, List.map_take, List.map_drop]

theorem InsWork.group_points {w : InsWork} {ps : List Nat} (h : w.units = ps.map pointUnit) (r : Run) :
    w.group r = (r.slice ps).map pointUnit := by
  rw [InsWork.group, h, Run.slice_map, List.filter_eq_self]
  intro x hx
  obtain ⟨p, -, rfl⟩ := List.mem_map.1 hx
  rfl

theorem InsWork.count_points {w : InsWork} {ps : List Nat} (h : w.units = ps.map pointUnit) (r : Run) :
    w.count r = (r.slice ps).length := by
  rw [InsWork.count, InsWork.group_points h, List.length_map]

/-- A list of two or more that fails is halved (R86). -/
theorem examine_halves {α : Type} {m : Run → Nat} {l : List α} (hm : ∀ r, m r = (r.slice l).length) (h : 2 ≤ l.length) :
    examine m ⟨0, l.length⟩ [] = .test ⟨⟨0, l.length⟩,
      [⟨(l.length + 1) / 2, l.length - (l.length + 1) / 2⟩], ⟨0, (l.length + 1) / 2⟩, .lower⟩ := by
  have hall : m ⟨0, l.length⟩ = l.length := by rw [hm]; simp [Run.slice]
  have hlow : m ⟨0, (l.length + 1) / 2⟩ = (l.length + 1) / 2 := by
    rw [hm]
    simp [Run.slice]
    omega
  unfold examine
  rw [hall, if_neg (by omega), if_neg (by omega)]
  simp only [Run.lower, Run.upper, hlow, Nat.zero_add]
  exact if_neg (by omega)

/-! ### The judgments (R131, R133, R135) -/

theorem Verdict.fails_of {v : Verdict} (h1 : v ≠ .pass) (h2 : v ≠ .interrupted) : v.fails = true := by
  cases v with
  | pass => exact absurd rfl h1
  | interrupted => exact absurd rfl h2
  | _ => rfl

section
variable {s : State} {j : Job} {rest : List Job} {snap : Snapshot} {w : InsWork} {r : HeldResult}
  (hj : s.queue.jobs = j :: rest) (hsn : j.snapshot = some snap) (hrail : s.hv.rail = .safe)
  (hslot : s.matrix.slot = .empty) (hx : s.link.exchange = none)

section
include hj hrail hslot hx

/-- A job that its judgment ends. -/
theorem State.endJob_over (c : EndCause) : State.runEngine (s.endJob c) = s.endJob c ∧
    (s.endJob c).store = s.store ∧ JobOver s (s.endJob c) j rest c 0 0 0 := by
  have hend := State.endJob_ended hj c hslot hrail hx
  exact ⟨hend.rests.runEngine (by decide), hend.store, hend.hv, hend.reference, hend.engine, hend.lmu, hend.slot, hend.jobs⟩

theorem State.offset_breaks (hst : w.stage = .offset) (hr : ∃ c, r.verdict = .breakdown c) :
    (State.runEngine (s.insJudge w r)).store = s.store ∧
      JobOver s (State.runEngine (s.insJudge w r)) j rest ⟨.fixtureLeak, .current r.i⟩ 0 0 0 := by
  obtain ⟨c, hc⟩ := hr
  obtain ⟨hrun, hover⟩ := State.endJob_over hj hrail hslot hx ⟨.fixtureLeak, .current r.i⟩
  have hjudge : s.insJudge w r = s.endJob ⟨.fixtureLeak, .current r.i⟩ := by
    unfold State.insJudge
    rw [hst]
    dsimp only
    unfold State.offsetJudge
    rw [hc]
  rw [hjudge, hrun]
  exact hover

end

section
variable (hst : w.stage = .offset) (hr : ∀ c, r.verdict ≠ .breakdown c)
include hj hsn hst hr

theorem State.offset_judged : s.insJudge w r = if snap.hv.trip * 2500 ≤ s.hv.offset
    then s.endJob ⟨.fixtureLeak, .current s.hv.offset⟩ else s.todo (.insulate { w with stage := .main }) [] .walk := by
  unfold State.insJudge
  rw [hst]
  dsimp only
  unfold State.offsetJudge
  rw [State.snap_of hj hsn]
  cases hv : r.verdict with
  | breakdown c => exact absurd hv (hr c)
  | _ => rfl

theorem State.offset_next {pre post : List NetRec} {b : NetBody} {ts : List (Nat × Rail)} {n : Nat}
    (hleak : s.hv.offset < snap.hv.trip * 2500) (hnets : s.store.nets = pre ++ ⟨b, crc16 b.bytes, false⟩ :: post)
    (hpre : ∀ x ∈ pre, x.body.num ≤ w.num) (h1 : w.num < b.num) (h2 : b.num ≤ w.last) (hhv : b.hv = true)
    (hts : ts = b.members.map (fun p => (p, .hv)) ++
      (s.mapped.filter (fun p => decide (s.ownerOf p ≠ some b.num))).map (fun p => (p, .collect)))
    (hs : s.sendsTo ts n) : State.runEngine (s.insJudge w r) = { s with
      engine := { s.engine with
        work := .insulate { w with stage := .main, num := b.num, members := b.members }, toAppend := []
        phase := .plan, isRepeat := false, ctl := .wait
        inHand := some ⟨.targets ts true, .hv (snap.hv.stepValues .apply)⟩ }
      matrix := (s.planSent (s.stepTaken ts) n).matrix
      link := (s.planSent (s.stepTaken ts) n).link
      lmu := s.lmu.sourceOff } := by
  let w1 : InsWork := { w with stage := .main }
  let u : State := s.todo (.insulate w1) [] .walk
  obtain ⟨hnext, hread⟩ := State.nextNet_read (u := u) hnets hpre h1 h2
  have hplan : ts = b.members.map (fun p => (p, .hv)) ++
      (u.mapped.filter (fun p => u.ownerOf p != some b.num)).map (fun p => (p, .collect)) := by
    rw [hts]
    refine congrArg (fun l : List Nat => b.members.map (fun p => (p, Rail.hv)) ++ l.map (fun p => (p, Rail.collect))) ?_
    exact List.filter_congr fun p _ => by
      rw [show u.ownerOf p = s.ownerOf p from rfl, decide_not, bne, beq_eq_decide]
  have hsent := State.insStep_sent (s := s) (u := u) (w := { w1 with stage := .main, num := b.num, members := b.members })
    hj hsn hplan rfl rfl rfl rfl hs
  have hwalk : u.workNext = u.insStep { w1 with stage := .main, num := b.num, members := b.members }
      (u.mapped.filter (fun p => u.ownerOf p != some b.num)) := by
    show u.insWalk w1 = _
    unfold State.insWalk
    rw [show u.nextNet w1.num w1.last = _ from hnext]
    dsimp only
    rw [hread]
    dsimp only
    exact if_pos hhv
  rw [State.offset_judged hj hsn hst hr, if_neg (by omega)]
  exact (State.Rests.move (s := u) rfl nofun (hwalk.trans hsent) (State.Rests.stop rfl rfl)).runEngine (by decide)

end

section
variable (hp : s.printer.state ≠ .idle) (hr : s.log.reporting = true) (hlen : s.log.entries.length + 9 ≤ 256)
  (hover : ∀ x ∈ s.store.nets, x.body.num ≤ w.num ∨ w.last < x.body.num)
include hj hrail hslot hx hp hr hlen hover

theorem State.main_passes (hst : w.stage = .main) (hv : r.verdict = .pass) : ∃ t, State.runEngine (s.insJudge w r) = t ∧
    t.store = s.store ∧ t.log = s.log ∧ JobOver s t j rest ⟨.complete, .nothing⟩ 1 0 0 := by
  have hjudge : s.insJudge w r = s.insDone w [] := by
    unfold State.insJudge
    rw [hst, hv]
    rfl
  obtain ⟨y, t, hy, hrun, hstore, hlog, hend⟩ := State.insDone_over (w := w) hj hrail hslot hx hover hp hr hlen
    (recs := []) (by simp)
  rw [hy.none rfl] at hlog
  exact ⟨t, (congrArg State.runEngine hjudge).trans hrun, hstore, hlog, hend⟩

/-- The net done with one record. -/
theorem State.insDone_recorded {w1 : InsWork} (hnum : w1.num = w.num) (hlast : w1.last = w.last) (d : RecData) :
    ∃ t, State.runEngine (s.insDone w1 [d]) = t ∧ t.store = s.store ∧
      t.log.entries.map (·.data) = s.log.entries.map (·.data) ++ [d] ∧
      JobOver s t j rest ⟨.complete, .nothing⟩ 1 0 1 := by
  obtain ⟨y, t, hy, hrun, hstore, hlog, hend⟩ := State.insDone_over (w := w1) hj hrail hslot hx
    (by rw [hnum, hlast]; exact hover) hp hr hlen (recs := [d]) (by simp)
  exact ⟨t, hrun, hstore, (congrArg (fun l : Log => l.entries.map (·.data)) hlog).trans hy.data, hend⟩

variable (hst : w.stage = .main) (hv : r.verdict ≠ .pass) (hi : r.verdict ≠ .interrupted)

include hst hv hi in
theorem State.main_fails (hloc : w.locate = false) : ∃ t, State.runEngine (s.insJudge w r) = t ∧
    t.store = s.store ∧ t.log.entries.map (·.data) = s.log.entries.map (·.data) ++
      [insRecord j w r s.engine.isRepeat] ∧ JobOver s t j rest ⟨.complete, .nothing⟩ 1 0 1 := by
  have hjudge : s.insJudge w r = s.insDone w [insRecord j w r s.engine.isRepeat] := by
    unfold State.insJudge
    rw [hst, Verdict.fails_of hv hi, hloc, State.insRec_net hj]
    rfl
  rw [hjudge]
  exact State.insDone_recorded hj hrail hslot hx hp hr hlen hover rfl rfl _

/-- The locate of a failing main step, over units that are points. -/
def locating (w : InsWork) (r : HeldResult) (rep : Bool) (ps : List Nat) (q : Search) : InsWork :=
  { w with
    stage := .locate, units := ps.map pointUnit, gRes := r, gRepeat := rep, mainRes := r, mainRepeat := rep
    search := q, locCount := 0 }

omit hj hrail hslot hx hp hr hlen hover in
include hst hv hi in
theorem State.main_locates (hloc : w.locate = true) (hnets : ∀ x ∈ s.store.nets, x.body.num = w.num) {ps : List Nat}
    (hps : s.unassigned = ps) (hne : ps ≠ []) : s.insJudge w r =
      s.insSearch (locating w r s.engine.isRepeat ps Search.empty)
        (examine (locating w r s.engine.isRepeat ps Search.empty).count ⟨0, ps.length⟩ []) := by
  have hothers : (s.store.nets.map (·.body.num)).filter (fun n => n != w.num) = [] := by
    refine List.filter_eq_nil_iff.2 fun n hn => ?_
    obtain ⟨x, hx, rfl⟩ := List.mem_map.1 hn
    simp [hnets x hx]
  have hunits : s.pointUnits = ps.map pointUnit := by rw [State.pointUnits, hps]; rfl
  have hlength : (ps.map pointUnit).length = ps.length := List.length_map _
  have hcount : (locating w r s.engine.isRepeat ps Search.empty).count ⟨0, ps.length⟩ ≠ 0 := by
    rw [InsWork.count_points rfl]
    simpa [Run.slice] using hne
  unfold State.insJudge
  rw [hst, Verdict.fails_of hv hi, hloc]
  show s.locateStart w r = _
  unfold State.locateStart
  rw [hothers]
  simp only [State.netUnits, List.nil_append, hunits, hlength]
  exact if_neg hcount

include hst hv hi in
/-- One unit: it is the partner. -/
theorem State.locate_one (hloc : w.locate = true) (hnets : ∀ x ∈ s.store.nets, x.body.num = w.num) {p : Nat}
    (hps : s.unassigned = [p]) : ∃ t, State.runEngine (s.insJudge w r) = t ∧ t.store = s.store ∧
      t.log.entries.map (·.data) = s.log.entries.map (·.data) ++
        [{ insRecord j w r s.engine.isRepeat with pointB := some p }] ∧
      JobOver s t j rest ⟨.complete, .nothing⟩ 1 0 1 := by
  let q : Search := ⟨⟨0, 1⟩, [], ⟨0, 1⟩, .popped⟩
  let w1 := locating w r s.engine.isRepeat [p] q
  let d : RecData := { insRecord j w r s.engine.isRepeat with pointB := some p }
  have hrec : s.insRec (locating w r s.engine.isRepeat [p] Search.empty) r s.engine.isRepeat (some (.point p)) false false =
      d := State.insRec_point hj _ r _ p false
  have hjudge : s.insJudge w r = s.todo (.insulate w1) [d] .pop := by
    rw [State.main_locates hst hv hi hloc hnets hps (by simp)]
    show s.todo (.insulate w1) [s.insRec (locating w r s.engine.isRepeat [p] Search.empty) r s.engine.isRepeat
      (some (.point p)) false false] .pop = _
    rw [hrec]
  obtain ⟨y, hy, hrun⟩ := State.Rests.records hj hp hr hlen
    (e := { s.engine with work := .insulate w1, toAppend := [d], ctl := .pop }) rfl (by simp) nofun
  obtain ⟨t, hrest, hstore, hlog, hend⟩ := State.ran_netDone (w := { w1 with search := Search.empty }) (s := s) (j := j)
    (rest := rest) hrail hslot hx hover hy.store (k := 1)
    (e := { s.engine with work := .insulate { w1 with search := Search.empty }, toAppend := [], ctl := .netDone }) rfl rfl rfl
  refine ⟨t, ?_, hstore, (congrArg (fun l : Log => l.entries.map (·.data)) hlog).trans hy.data, hend.hv, hend.reference,
    hend.engine, hend.lmu, hend.slot, hend.jobs⟩
  rw [hjudge]
  exact (hrun t _ 3 rfl hrest).runEngine (by decide)

omit hrail hslot hx hp hr hlen hover in
include hst hv hi hsn in
/-- More units: the lower half is tested. -/
theorem State.locate_halves (hloc : w.locate = true) (hnets : ∀ x ∈ s.store.nets, x.body.num = w.num) {ps : List Nat}
    {ts : List (Nat × Rail)} {m n : Nat} (hps : s.unassigned = ps) (h2 : 2 ≤ ps.length) (hm : m = (ps.length + 1) / 2)
    (hb : 1 ≤ snap.hv.budget)
    (hts : ts = w.members.map (fun p => (p, .hv)) ++ (ps.take m).map (fun p => (p, .collect))) (hs : s.sendsTo ts n)
    (happ : s.engine.toAppend = []) : State.runEngine (s.insJudge w r) = { s with
      engine := { s.engine with
        work := .insulate (locating w r s.engine.isRepeat ps
          ⟨⟨0, ps.length⟩, [⟨m, ps.length - m⟩], ⟨0, m⟩, .lower⟩)
        phase := .plan, isRepeat := false, ctl := .wait
        inHand := some ⟨.targets ts true, .hv (snap.hv.stepValues .apply)⟩ }
      matrix := (s.planSent (s.stepTaken ts) n).matrix
      link := (s.planSent (s.stepTaken ts) n).link
      lmu := s.lmu.sourceOff } := by
  subst hm
  let q : Search := ⟨⟨0, ps.length⟩, [⟨(ps.length + 1) / 2, ps.length - (ps.length + 1) / 2⟩],
    ⟨0, (ps.length + 1) / 2⟩, .lower⟩
  have hex := examine_halves (m := (locating w r s.engine.isRepeat ps Search.empty).count)
    (InsWork.count_points rfl) h2
  have hpts : ((locating w r s.engine.isRepeat ps Search.empty).group q.testing).flatMap (·.points) =
      ps.take ((ps.length + 1) / 2) := by
    rw [InsWork.group_points rfl, pointUnits_points]
    rfl
  have hbudget : ¬ s.snap.hv.budget ≤ 0 := by
    rw [State.snap_of hj hsn]
    omega
  have hjudge : s.insJudge w r = s.insStep (locating w r s.engine.isRepeat ps q) (ps.take ((ps.length + 1) / 2)) := by
    rw [State.main_locates hst hv hi hloc hnets hps (by rintro rfl; simp at h2), hex, ← hpts]
    exact if_neg hbudget
  have hsent := State.insStep_sent (s := s) (u := s) (w := locating w r s.engine.isRepeat ps q)
    (coll := ps.take ((ps.length + 1) / 2)) hj hsn hts rfl rfl rfl rfl hs
  rw [hjudge, hsent]
  refine State.Rests.runEngine (State.Rests.stop ?_ rfl) (by decide)
  exact happ

include hsn in
/-- The budget spent before the upper half is tested (R137). -/
theorem State.locate_cutOff {p z : Nat} (hst : w.stage = .locate)
    (hunits : w.units = [⟨.point p, [p], false⟩, ⟨.point z, [z], false⟩])
    (hsearch : w.search = ⟨⟨0, 2⟩, [⟨1, 1⟩], ⟨0, 1⟩, .lower⟩) (hv : r.verdict = .pass)
    (hb : snap.hv.budget = w.locCount + 1) : ∃ t, State.runEngine (s.insJudge w r) = t ∧ t.store = s.store ∧
      t.log.entries.map (·.data) = s.log.entries.map (·.data) ++ [{ insRecord j w w.gRes w.gRepeat with
        pointB := some p, flags := { u := j.flagU, n := true, s := w.gRepeat } }] ∧
      JobOver s t j rest ⟨.complete, .nothing⟩ 1 0 1 := by
  let w1 : InsWork := { w with locCount := w.locCount + 1 }
  let d : RecData := { insRecord j w w.gRes w.gRepeat with
    pointB := some p, flags := { u := j.flagU, n := true, s := w.gRepeat } }
  have hw1 : w1.units = [p, z].map pointUnit := hunits
  have hcount : w1.count (Run.upper ⟨0, 2⟩) = 1 := InsWork.count_points hw1 _
  have hres : w.search.result w1.count false = .test ⟨⟨0, 2⟩, [], ⟨1, 1⟩, .upper⟩ := by
    rw [hsearch]
    show lowerPassed w1.count ⟨0, 2⟩ [] = _
    unfold lowerPassed
    rw [hcount]
    rfl
  have hfirst : w1.firstUnit ⟨0, 2⟩ = some (.point p) := by
    rw [InsWork.firstUnit, InsWork.group_points hw1]
    rfl
  have hlocate : s.insJudge w r = s.insSearch w1 (w.search.result w1.count false) := by
    unfold State.insJudge
    rw [hv]
    split
    · next h => exact absurd (hst.symm.trans h) (by decide)
    · next h => exact absurd (hst.symm.trans h) (by decide)
    · rfl
  have hjudge : s.insJudge w r = s.insDone w1 [d] := by
    rw [hlocate, hres]
    have hbudget : s.snap.hv.budget ≤ w1.locCount := by
      rw [State.snap_of hj hsn, hb]
    refine (if_pos hbudget).trans ?_
    show s.insDone w1 [s.insRec w1 w1.gRes w1.gRepeat (w1.firstUnit ⟨0, 2⟩) false true] = _
    rw [hfirst, State.insRec_point hj]
    rfl
  rw [hjudge]
  exact State.insDone_recorded (w := w) (w1 := w1) hj hrail hslot hx hp hr hlen hover rfl rfl _

end

end

/-! ### The obligation -/

/-- Settles O54: the end of the hold hands the result over; REFCHECK and each stage of an INSULATE judge it. -/
theorem refcheckSetsTheReferenceState : Obligations.RefcheckSetsTheReferenceState := by
  refine ⟨fun lv r ms j rest s hrail hhold hheld hphase hwork _ _ hj hv hlen hslot hx => ?_,
    fun w r ms j rest snap s hrail hhold hheld hphase hwork _ happ hj hsn hv hlen hr hp hslot hx => ?_⟩
  · obtain ⟨t, hexec, href, hlog, hhv, heng, hjobs, hsl, hex, hlmu⟩ :=
      refcheckStep_ends lv r ms j rest s hrail hhold hheld hphase hwork hj hv hlen hslot hx
    refine ⟨t, refHvRecs j s.engine.isRepeat r, hexec, fun hb => ⟨href.trans (refHvState_breakdown hb _),
      refHvRecs_breakdown hb⟩, fun hb hwin => ?_, fun hb hwin => ?_, hlog, hhv, heng, hjobs, hsl, hex, hlmu⟩
    · rw [href, refHvState_window hb, refHvRecs_window hb, if_pos hwin, if_pos hwin]
      exact ⟨rfl, rfl⟩
    · rw [href, refHvState_window hb, refHvRecs_window hb, if_neg hwin, if_neg hwin]
      exact ⟨rfl, rfl⟩
  · obtain ⟨hexec, -, hjudge⟩ := exec_safeHoldExpiry_judges hrail hhold hheld hphase hv
    let u : State := { s.handedOver with engine := s.engine.judging }
    have hrun : exec .safeHoldExpiry s = .next (State.runEngine (u.insJudge w r)) := by rw [hexec, hjudge w hwork]
    refine ⟨s.handedOver.hv, s.handedOver, State.runEngine (u.insJudge w r), _, _, _, rfl, rfl, hrun, Iff.rfl,
      fun c n k => Iff.rfl, fun h rep => rfl, fun hst => ⟨fun hb => ?_, fun hb hleak => ?_, ?_⟩,
      fun hst hover => ⟨fun hpass => ?_, fun hfail hloc => ?_, fun hfail hloc hnets => ⟨fun p hps => ?_, ?_⟩⟩, ?_⟩
    · obtain ⟨hstore, hend⟩ := State.offset_breaks (s := u) hj rfl hslot hx hst hb
      exact ⟨⟨hend.hv, hstore, hend.reference⟩, hend.engine, hend.slot, hend.jobs⟩
    · obtain ⟨hstop, hstore, hend⟩ := State.endJob_over (s := u) hj rfl hslot hx ⟨.fixtureLeak, .current s.hv.offset⟩
      have hleaks : State.runEngine (u.insJudge w r) = u.endJob ⟨.fixtureLeak, .current s.hv.offset⟩ := by
        rw [State.offset_judged (s := u) hj hsn hst hb]
        exact (congrArg State.runEngine (if_pos hleak)).trans hstop
      rw [hleaks]
      exact ⟨⟨hend.hv, hstore, hend.reference⟩, hend.engine, hend.slot, hend.jobs⟩
    · intro pre b post ts n hb hleak hnets hpre h1 h2 hhv hts hs
      rw [State.offset_next (s := u) hj hsn hst hb hleak hnets hpre h1 h2 hhv hts hs]
      refine ⟨⟨rfl, rfl, rfl⟩, rfl, rfl, rfl, rfl, ?_⟩
      show ({ s.engine with
        work := _, toAppend := [], phase := _, isRepeat := _, ctl := _, steps := _, inHand := _ } : Engine) = _
      rw [← happ]
      rfl
    · obtain ⟨t, ht, hstore, hlog, hend⟩ := State.main_passes (s := u) (rest := rest) hj rfl hslot hx hp hr hlen hover hst hpass
      rw [ht]
      exact ⟨⟨⟨hend.hv, hstore, hend.reference⟩, hend.engine, hend.slot, hend.jobs⟩, hlog⟩
    · obtain ⟨t, ht, hstore, hlog, hend⟩ :=
        State.main_fails (s := u) (rest := rest) hj rfl hslot hx hp hr hlen hover hst hfail hv hloc
      rw [ht]
      exact ⟨⟨⟨hend.hv, hstore, hend.reference⟩, hend.engine, hend.slot, hend.jobs⟩, hlog⟩
    · obtain ⟨t, ht, hstore, hlog, hend⟩ :=
        State.locate_one (s := u) (rest := rest) hj rfl hslot hx hp hr hlen hover hst hfail hv hloc hnets hps
      rw [ht]
      exact ⟨⟨⟨hend.hv, hstore, hend.reference⟩, hend.engine, hend.slot, hend.jobs⟩, hlog⟩
    · intro ps m ts n hps h2 hm hb hts hs
      rw [State.locate_halves (s := u) hj hsn hst hfail hv hloc hnets hps h2 hm hb hts hs happ]
      exact ⟨⟨rfl, rfl, rfl⟩, rfl, rfl, rfl, rfl, rfl, rfl⟩
    · intro p z hst hover hunits hsearch hpass hb
      obtain ⟨t, ht, hstore, hlog, hend⟩ := State.locate_cutOff (s := u) (rest := rest) hj hsn rfl hslot hx hp hr hlen hover
        hst hunits hsearch hpass hb
      rw [ht]
      exact ⟨⟨⟨hend.hv, hstore, hend.reference⟩, hend.engine, hend.slot, hend.jobs⟩, hlog⟩

end Sys2Proof.Machine
end

section
/-! PROOFS. The end of a low-voltage step (5.2, 5.6): the judgment's record, the moves, and where they come to rest. -/

namespace Sys2Proof.Machine

open Sys2Proof

/-! ### The states a judgment passes through -/

/-- The engine once a step is judged: at `w`, with `n` nets and `x` extras more. -/
def Engine.judged (e : Engine) (w : Work) (c : Ctl) (n x : Nat) : Engine :=
  { e with
    work := w, phase := .between, toAppend := [], ctl := c
    steps := e.steps + 1, nets := e.nets + n, extra := e.extra + x }

/-- A judgment of the active job can be recorded and its next plan sent. -/
structure Judgeable (s : State) (j : Job) (rest : List Job) (snap : Snapshot) : Prop where
  toAppend : s.engine.toAppend = []
  jobs : s.queue.jobs = j :: rest
  snapshot : j.snapshot = some snap
  room : s.log.entries.length + 9 ≤ 256
  reporting : s.log.reporting = true
  printer : s.printer.state ≠ .idle
  slot : s.matrix.slot = .empty
  rail : s.hv.rail = .safe
  exchange : s.link.exchange = none
  waiting : ∀ r ∈ s.host.slots, r.phase ≠ .waiting

/-- The LMU at `l` has handed its result over: the step is counted. -/
def State.atJudge (s : State) (l : Lmu) : State := { s with lmu := l, engine := s.engine.judging }

/-- The judgment is made, its records not yet offered. -/
def State.toRecord (s : State) (l : Lmu) (w : Work) (recs : List RecData) (c : Ctl) (n x : Nat) : State :=
  { s with lmu := l, engine := { s.engine.judged w c n x with toAppend := recs } }

/-- The engine moves on, with `k` records of the job more and the side `y`. -/
def State.moving (s : State) (l : Lmu) (j : Job) (rest : List Job) (w : Work) (c : Ctl) (n x k : Nat) (y : Side) : State :=
  State.ran { s with lmu := l } j rest (s.engine.judged w c n x) k y

/-! ### Where the moves come to rest -/

/-- The plan of the next step is on the link. -/
structure WentOut (s t : State) (j : Job) (rest : List Job) (w : Work) (ts : List (Nat × Rail)) (p : Nat) (m : MeasReq)
    (n x k : Nat) (y : Side) : Prop where
  hv : t.hv = s.hv
  reference : t.reference = s.reference
  engine : t.engine = { s.engine with
    work := w, phase := .plan, isRepeat := false, ctl := .wait, inHand := some ⟨.targets ts true, .lmu m⟩
    steps := s.engine.steps + 1, nets := s.engine.nets + n, extra := s.engine.extra + x }
  matrix : t.matrix = (s.planSent (s.stepTaken ts) p).matrix
  link : t.link = (s.planSent (s.stepTaken ts) p).link
  queue : t.queue = { s.queue with jobs := { j with tests := j.tests + k } :: rest }
  store : t.store = y.store
  log : t.log = y.log
  host : t.host = y.host

/-- The job has ended COMPLETE. -/
structure WasLast (s t : State) (j : Job) (rest : List Job) (n x k : Nat) (y : Side) : Prop where
  hv : t.hv = s.hv
  engine : t.engine = Engine.reset
  lmu : t.lmu.phase = .idle
  slot : ∃ touched, t.matrix.slot = .sending ⟨⟨.allOpen, .jobEnd⟩, []⟩ 0 touched
  jobs : t.queue.jobs = { j with
    state := .ending, ended := some ⟨.complete, .nothing⟩, steps := s.engine.steps + 1
    nets := s.engine.nets + n, extra := s.engine.extra + x, tests := j.tests + k } :: rest
  store : t.store = y.store
  log : t.log = y.log
  host : t.host = y.host

section
variable {s : State} {l : Lmu} {j : Job} {rest : List Job} {snap : Snapshot} (h : Judgeable s j rest snap)
include h

omit h in
/-- A move made is a move less. -/
theorem State.Rests.next {u t : State} {k : Nat} (ha : u.engine.toAppend = []) (hc : u.engine.ctl ≠ .wait)
    (hu : u.Rests t (k + 1)) : u.workNext.Rests t k := by
  intro n
  have hloop : u.engineLoop (n + k + 1) = t := hu n
  rw [State.engineLoop, ha, State.drain_nil ha] at hloop
  exact (if_neg hc).symm.trans hloop

/-- The judgment's record, if any, is taken, and the engine moves on. -/
theorem State.toRecord_records {w : Work} {recs : List RecData} {c : Ctl} {n x : Nat} (hone : recs.length ≤ 1)
    (hc : c ≠ .wait) : ∃ y, Recorded s y recs ∧ ∀ (t : State) (k : Nat),
      (s.moving l j rest w c n x recs.length y).Rests t (k + 1) → (s.toRecord l w recs c n x).Rests t (k + 1) := by
  obtain ⟨y, hy, hrun⟩ := State.Rests.records (s := { s with lmu := l }) h.jobs h.printer h.reporting h.room
    (e := { s.engine.judged w c n x with toAppend := recs }) rfl hone hc
  obtain ⟨⟨h1, h2, h3, h4, h5⟩, h6, h7, h8, h9⟩ := hy
  exact ⟨y, ⟨⟨h1, h2, h3, h4, h5⟩, h6, h7, h8, h9⟩, fun t k hk => hrun t _ k rfl (hk.next rfl hc)⟩

variable {w : Work} {c : Ctl} {n x k : Nat} {y : Side}

theorem State.toRecord_nil : s.toRecord l w [] c n x = s.moving l j rest w c n x 0 s.side :=
  State.ran_start (s := { s with lmu := l }) h.jobs _

theorem State.atJudge_eq : s.atJudge l = s.moving l j rest s.engine.work s.engine.ctl 0 0 0 s.side := by
  refine Eq.trans ?_ (State.ran_start (s := { s with lmu := l }) h.jobs _)
  show ({ s with lmu := l, engine := { s.engine with steps := s.engine.steps + 1, phase := .between } } : State) = _
  unfold Engine.judged
  rw [← h.toAppend]
  rfl

/-- The next step goes out. -/
theorem State.moving_sends {v : Work} {ts : List (Nat × Rail)} {p : Nat} (m : MeasReq) (hmap : y.store.map = s.store.map)
    (hs : s.sendsTo ts p) : ∃ t, ((s.moving l j rest w c n x k y).setWork v).lvStep ts m = t ∧ t.Rests t 0 ∧
      WentOut s t j rest v ts p m n x k y := by
  have hsent := State.offerInHand_sent (s := s) (u := (s.moving l j rest w c n x k y).setWork v) (req := .lmu m) false rfl
    rfl rfl hmap hs
  refine ⟨_, hsent, State.Rests.stop rfl rfl, rfl, rfl, ?_, rfl, rfl, rfl, rfl, rfl, rfl⟩
  show ({ s.engine.judged v c n x with
    phase := .plan, inHand := some ⟨.targets ts true, .lmu m⟩, isRepeat := false, ctl := .wait } : Engine) = _
  unfold Engine.judged
  rw [← h.toAppend]

theorem State.atJudge_snap : (s.atJudge l).snap = snap := State.snap_of h.jobs h.snapshot

theorem State.atJudge_contReq :
    (s.atJudge l).contReq = ⟨.cont, snap.limits.n, snap.limits.range, snap.limits.settle⟩ := by
  rw [State.contReq, State.atJudge_snap h]

theorem State.atJudge_isoReq :
    (s.atJudge l).isoReq = ⟨.iso, snap.limits.n, snap.limits.range, snap.limits.settle⟩ := by
  rw [State.isoReq, State.atJudge_snap h]

/-- A judgment without a record that has the next step sent at once. -/
theorem State.atJudge_sends {v : Work} {ts : List (Nat × Rail)} {p : Nat} (m : MeasReq) (hs : s.sendsTo ts p) :
    ∃ t, ((s.atJudge l).setWork v).lvStep ts m = t ∧ t.Rests t 0 ∧ WentOut s t j rest v ts p m 0 0 0 s.side := by
  rw [State.atJudge_eq h]
  exact State.moving_sends h m rfl hs

theorem WentOut.sameQueue {t : State} {ts : List (Nat × Rail)} {p : Nat} {m : MeasReq}
    (ht : WentOut s t j rest w ts p m n x 0 y) : t.queue = s.queue := by
  refine ht.queue.trans ?_
  show ({ s.queue with jobs := j :: rest } : Queue) = s.queue
  rw [← h.jobs]

theorem State.moving_snap : (s.moving l j rest w c n x k y).snap = snap :=
  State.snap_of (j := { j with tests := j.tests + k }) rfl h.snapshot

theorem State.moving_contReq : (s.moving l j rest w c n x k y).contReq =
    ⟨.cont, snap.limits.n, snap.limits.range, snap.limits.settle⟩ := by
  rw [State.contReq, State.moving_snap h]

theorem State.moving_isoReq : (s.moving l j rest w c n x k y).isoReq =
    ⟨.iso, snap.limits.n, snap.limits.range, snap.limits.settle⟩ := by
  rw [State.isoReq, State.moving_snap h]

/-- With no step left the job ends. -/
theorem State.moving_completes (hw : w ≠ .none) : ∃ t, (s.moving l j rest w .complete n x k y).Rests t 1 ∧
    WasLast s t j rest n x k y := by
  obtain ⟨t, hrest, hend⟩ := State.Rests.completes (u := s.moving l j rest w .complete n x k y)
    (j := { j with tests := j.tests + k }) rfl h.slot h.rail h.exchange hw rfl rfl
  exact ⟨t, hrest, hend.hv, hend.engine, hend.lmu, hend.slot, hend.jobs, hend.store, hend.log, hend.host⟩

end

/-- A job that ends COMPLETE with `n` nets, `x` extras and `k` records more. -/
def State.EndedAs (s t : State) (j : Job) (rest : List Job) (n x k : Nat) : Prop :=
  t.hv = s.hv ∧ t.engine = Engine.reset ∧ t.lmu.phase = .idle ∧
    (∃ touched, t.matrix.slot = .sending ⟨⟨.allOpen, .jobEnd⟩, []⟩ 0 touched) ∧ t.queue.jobs = { j with
      state := .ending, ended := some ⟨.complete, .nothing⟩, steps := s.engine.steps + 1
      nets := s.engine.nets + n, extra := s.engine.extra + x, tests := j.tests + k } :: rest

/-- The next step of an engine, its plan on the link. -/
def State.SentAs (s t : State) (w : Work) (ts : List (Nat × Rail)) (p : Nat) (m : MeasReq) (n x : Nat) : Prop :=
  t.hv = s.hv ∧
    t.engine = { s.engine with
      work := w, phase := .plan, isRepeat := false, ctl := .wait, inHand := some ⟨.targets ts true, .lmu m⟩
      steps := s.engine.steps + 1, nets := s.engine.nets + n, extra := s.engine.extra + x } ∧
    t.matrix = (s.planSent (s.stepTaken ts) p).matrix ∧ t.link = (s.planSent (s.stepTaken ts) p).link

/-! ### The conversion that ends the step -/

section
variable {s t u : State} {j : Job} {rest : List Job} {y : Side} {i n x k : Nat}
  (hy : ∀ r ∈ y.host.slots, r.phase ≠ .waiting) (hrest : u.Rests t i) (hi : i ≤ 8192)
include hy hrest hi

theorem WentOut.run {w : Work} {ts : List (Nat × Rail)} {p : Nat} {q : MeasReq}
    (h : WentOut s t j rest w ts p q n x k y) : u.runEngine.dispatch = t := by
  rw [hrest.runEngine hi]
  exact State.dispatch_idle _ (by rw [h.host]; exact hy)

theorem WasLast.run (h : WasLast s t j rest n x k y) : u.runEngine.dispatch = t := by
  rw [hrest.runEngine hi]
  exact State.dispatch_idle _ (by rw [h.host]; exact hy)

end

section
variable {s t : State} {j : Job} {rest : List Job} {y : Side} {n x k : Nat}

theorem WentOut.sentAs {w : Work} {ts : List (Nat × Rail)} {p : Nat} {q : MeasReq}
    (h : WentOut s t j rest w ts p q n x k y) : s.SentAs t w ts p q n x := ⟨h.hv, h.engine, h.matrix, h.link⟩

theorem WasLast.endedAs (h : WasLast s t j rest n x k y) : s.EndedAs t j rest n x k :=
  ⟨h.hv, h.engine, h.lmu, h.slot, h.jobs⟩

variable {recs : List RecData} (hy : Recorded s y recs)
include hy

theorem Recorded.dataOf (hlog : t.log = y.log) :
    t.log.entries.map (·.data) = s.log.entries.map (·.data) ++ recs := by
  rw [hlog]
  exact hy.data

end

/-- The judgment of a low-voltage step, by the kind of its job. -/
def State.lvJudge (s : State) (r : LmuResult) : State :=
  match s.engine.work with
  | .check w => s.checkJudge w r
  | .learn w => s.learnJudge w r
  | .leads w => s.leadsJudge w r
  | .refLv => s.refLvJudge r
  | .none => s
  | .insulate _ => s
  | .refHv _ => s

theorem State.lmuAfter_engine {s : State} {a : Lmu × Option LmuResult} {l : Lmu} {r : LmuResult} (ha : a = (l, some r))
    (hl : l.issuer = .engine) (hphase : s.engine.phase = .measure) : s.lmuAfter a = ((s.atJudge l).lvJudge r).runEngine := by
  subst ha
  have hm : State.measured { s with lmu := l } r = State.engineMeasured { s with lmu := l } r := by
    unfold State.measured
    rw [hl]
  refine hm.trans ((if_pos hphase).trans ?_)
  rfl

/-- What the result of a low-voltage step leads to. -/
def State.afterStep (s : State) (l : Lmu) (r : LmuResult) : State := ((s.atJudge l).lvJudge r).runEngine.dispatch

section
variable {s : State} {l : Lmu} {r : LmuResult}

theorem State.afterStep_check {w : CheckWork} (hw : s.engine.work = .check w) :
    s.afterStep l r = ((s.atJudge l).checkJudge w r).runEngine.dispatch := by
  unfold State.afterStep State.lvJudge
  rw [show (s.atJudge l).engine.work = .check w from hw]

theorem State.afterStep_learn {w : LearnWork} (hw : s.engine.work = .learn w) :
    s.afterStep l r = ((s.atJudge l).learnJudge w r).runEngine.dispatch := by
  unfold State.afterStep State.lvJudge
  rw [show (s.atJudge l).engine.work = .learn w from hw]

theorem State.afterStep_leads {w : LeadsWork} (hw : s.engine.work = .leads w) :
    s.afterStep l r = ((s.atJudge l).leadsJudge w r).runEngine.dispatch := by
  unfold State.afterStep State.lvJudge
  rw [show (s.atJudge l).engine.work = .leads w from hw]

theorem State.afterStep_refLv (hw : s.engine.work = .refLv) :
    s.afterStep l r = ((s.atJudge l).refLvJudge r).runEngine.dispatch := by
  unfold State.afterStep State.lvJudge
  rw [show (s.atJudge l).engine.work = .refLv from hw]

end

end Sys2Proof.Machine
end

section
/-! PROOFS. The continuity phase of a CHECK (5.3): a pair is judged, and the sweep goes on. -/

namespace Sys2Proof.Machine

open Sys2Proof

/-! ### A pair (R82, R83) -/

/-- A record on a pair of a net. -/
def pairRec (j : Job) (k : RecKind) (net a b rc : Nat) (g : CRange) : RecData :=
  { kind := k, system := false, flags := { u := j.flagU }, tag := some j.tag, net := some net
    pointA := some a, pointB := some b, value := some ⟨.mOhm, some rc⟩, range := some g }

/-- The work once the pair with the member `b` is judged. -/
def CheckWork.judgedPair (w : CheckWork) (b rc opn : Nat) (g : CRange) : CheckWork :=
  { w with
    next := w.next + 1
    openList := w.openList ++ if rc ≤ w.passLimit ∨ rc < opn then [] else [⟨b, some rc, g⟩] }

/-- The record of the pair at its judgment. -/
def highRecs (j : Job) (w : CheckWork) (a b rc opn : Nat) (g : CRange) : List RecData :=
  if w.passLimit < rc ∧ rc < opn then [pairRec j .high w.num a b rc g] else []

theorem highRecs_length (j : Job) (w : CheckWork) (a b rc opn : Nat) (g : CRange) :
    (highRecs j w a b rc opn g).length ≤ 1 := by
  unfold highRecs
  split
  · exact le_rfl
  · exact Nat.zero_le 1

section
variable {s : State} {l : Lmu} {j : Job} {rest : List Job} {snap : Snapshot} (hj : s.queue.jobs = j :: rest)
  (hsn : j.snapshot = some snap)
include hj hsn

theorem State.atJudge_checkPair {w : CheckWork} {a b raw rc : Nat} (g : CRange) (ha : w.members[w.rootIdx]? = some a)
    (hb : w.members[w.next]? = some b) (hrc : rc = raw - s.leadOf a - s.leadOf b) :
    (s.atJudge l).checkPair w (some raw) g = s.toRecord l (.check (w.judgedPair b rc snap.limits.opn g))
      (highRecs j w a b rc snap.limits.opn g) .sweep 0 0 := by
  obtain ⟨-, hroot, hmem⟩ := CheckWork.sweep_pair ha hb
  have hsnap : (s.atJudge l).snap = snap := State.snap_of hj hsn
  have hcomp : (s.atJudge l).comp (some raw) a b = some rc := congrArg some hrc.symm
  have hrec : (s.atJudge l).testRec .high =
      { kind := .high, system := false, flags := { u := j.flagU }, tag := some j.tag } := State.testRec_eq hj _
  unfold State.checkPair State.highRec
  rw [hroot, hmem, hsnap, hcomp, hrec]
  unfold bandOf CheckWork.judgedPair highRecs
  by_cases h1 : rc ≤ w.passLimit
  · simp only [if_pos h1, if_pos (Or.inl h1), Nat.not_lt.2 h1, false_and, if_false, List.append_nil]
    rfl
  · by_cases h2 : rc < snap.limits.opn
    · simp only [if_neg h1, if_pos h2, if_pos (Or.inr h2), Nat.not_le.1 h1, true_and, List.append_nil]
      rfl
    · simp only [h1, h2, or_self, and_false, if_false]
      rfl

end

/-! ### The moves of the sweep -/

section
variable {s : State} {l : Lmu} {j : Job} {rest : List Job} {snap : Snapshot} (h : Judgeable s j rest snap)
  {w : CheckWork} {n x k : Nat} {y : Side}

theorem State.moving_candidates {v : Work} {c : Ctl} (hstore : y.store = s.store) (m : Nat) :
    (s.moving l j rest v c n x k y).candidates m = s.candidates m := by
  have hmapped : (s.moving l j rest v c n x k y).mapped = s.mapped := congrArg (fun st : Store => st.map.map Prod.fst) hstore
  have howner (p : Nat) : (s.moving l j rest v c n x k y).ownerOf p = s.ownerOf p :=
    congrArg (fun st : Store => if p < 4 then none else tget st.owner p) hstore
  unfold State.candidates
  simp only [hmapped, howner]

section
include h

/-- The last net is done: the job ends. -/
theorem State.moving_netDone (hstore : y.store = s.store)
    (hover : ∀ r ∈ s.store.nets, r.body.num ≤ w.num ∨ w.last < r.body.num) :
    ∃ t, (s.moving l j rest (.check w) .netDone n x k y).Rests t 3 ∧ WasLast s t j rest (n + 1) x k y := by
  let w1 : CheckWork := { w with cands := [], search := Search.empty, inIso := false }
  obtain ⟨t, hrest, hlast⟩ := State.moving_completes h (l := l) (w := .check w1) (n := n + 1) (x := x) (k := k) (y := y) nofun
  have hwalk : (s.moving l j rest (.check w1) .walk (n + 1) x k y).workNext =
      s.moving l j rest (.check w1) .complete (n + 1) x k y := by
    show State.checkWalk w1 _ = _
    unfold State.checkWalk
    rw [State.nextNet_none (by rw [show (s.moving l j rest _ _ (n + 1) x k y).store = y.store from rfl, hstore]; exact hover)]
    rfl
  exact ⟨t, State.Rests.move rfl nofun rfl (State.Rests.move rfl nofun hwalk hrest), hlast⟩

/-- No isolation phase: the last net is done (R78, R84). -/
theorem State.moving_contEnd_over (hstore : y.store = s.store)
    (hover : ∀ r ∈ s.store.nets, r.body.num ≤ w.num ∨ w.last < r.body.num)
    (hno : w.phases = .cont ∨ s.candidates w.num = []) :
    ∃ t, (s.moving l j rest (.check w) .contEnd n x k y).Rests t 4 ∧ WasLast s t j rest (n + 1) x k y := by
  have hnext : ∃ w1 : CheckWork, (s.moving l j rest (.check w) .contEnd n x k y).workNext =
      s.moving l j rest (.check w1) .netDone n x k y ∧ w1.num = w.num ∧ w1.last = w.last := by
    show ∃ w1 : CheckWork, State.checkContEnd w _ = _ ∧ _
    unfold State.checkContEnd
    split
    · next hiso =>
      have hcs : s.candidates w.num = [] := by
        refine hno.resolve_left fun hc => ?_
        rw [hc] at hiso
        exact absurd hiso (by decide)
      simp only [State.moving_candidates hstore, hcs]
      exact ⟨_, rfl, rfl, rfl⟩
    · exact ⟨w, rfl, rfl, rfl⟩
  obtain ⟨w1, hnext, hnum, hlastnum⟩ := hnext
  obtain ⟨t, hrest, hlast⟩ := State.moving_netDone h (l := l) (w := w1) (n := n) (x := x) (k := k) hstore
    (by rw [hnum, hlastnum]; exact hover)
  exact ⟨t, State.Rests.move rfl nofun hnext hrest, hlast⟩

/-- The whole-net test goes out (R84, R85). -/
theorem State.moving_contEnd_sends {cs : List Nat} {ts : List (Nat × Rail)} {p : Nat} (hstore : y.store = s.store)
    (hiso : w.phases.hasIso = true) (hcs : s.candidates w.num = cs.map (fun q => ⟨q, false⟩)) (hne : cs ≠ [])
    (hts : ts = w.members.map (fun q => (q, .source)) ++ cs.map (fun q => (q, .ret))) (hs : s.sendsTo ts p) :
    ∃ t, (s.moving l j rest (.check w) .contEnd n x k y).Rests t 1 ∧ WentOut s t j rest (.check { w with
      inIso := true, cands := cs.map (fun q => ⟨q, false⟩), search := Search.empty, doing := .whole }) ts p
      ⟨.iso, snap.limits.n, snap.limits.range, snap.limits.settle⟩ n x k y := by
  let w1 : CheckWork := { w with
    inIso := true, cands := cs.map (fun q => ⟨q, false⟩), search := Search.empty, doing := .whole }
  have hpts : (cs.map (fun q => (⟨q, false⟩ : Cand))).map (·.pt) = cs := (List.map_map ..).trans (List.map_id cs)
  have hempty : (cs.map (fun q => (⟨q, false⟩ : Cand))).isEmpty = false := by simpa using hne
  obtain ⟨t, ht, hrest, hout⟩ := State.moving_sends h (l := l) (w := .check w) (c := .contEnd) (n := n) (x := x) (k := k)
    (v := .check w1) ⟨.iso, snap.limits.n, snap.limits.range, snap.limits.settle⟩ (by rw [hstore]) hs
  refine ⟨t, State.Rests.move rfl nofun ?_ hrest, hout⟩
  show State.checkContEnd w _ = t
  unfold State.checkContEnd
  rw [if_pos hiso]
  simp only [State.moving_candidates hstore, hcs, hempty, hpts]
  rw [State.moving_isoReq h, ← ht, hts]
  rfl

/-- The next pair goes out (R82). -/
theorem State.moving_sweep_sends {a c p : Nat} {ts : List (Nat × Rail)} (hmap : y.store.map = s.store.map)
    (ha : w.members[w.rootIdx]? = some a) (hc : w.members[w.next]? = some c) (hts : ts = [(a, .source), (c, .ret)])
    (hs : s.sendsTo ts p) :
    ∃ t, (s.moving l j rest (.check w) .sweep n x k y).Rests t 1 ∧ WentOut s t j rest (.check { w with doing := .sweep })
      ts p ⟨.cont, snap.limits.n, snap.limits.range, snap.limits.settle⟩ n x k y := by
  obtain ⟨hlt, hroot, hmem⟩ := CheckWork.sweep_pair ha hc
  obtain ⟨t, ht, hrest, hout⟩ := State.moving_sends h (l := l) (w := .check w) (c := .sweep) (n := n) (x := x) (k := k)
    (v := .check { w with doing := .sweep }) ⟨.cont, snap.limits.n, snap.limits.range, snap.limits.settle⟩ hmap hs
  refine ⟨t, State.Rests.move rfl nofun ?_ hrest, hout⟩
  show State.checkSweep w _ = t
  unfold State.checkSweep
  rw [if_pos hlt, hroot, hmem, State.moving_contReq h, ← ht, hts]
  rfl

end

end

end Sys2Proof.Machine
end

section
/-! PROOFS. The sweep of a CHECK, clause by clause (5.3). -/

namespace Sys2Proof.Machine

open Sys2Proof

section
variable {s : State} {l : Lmu} {j : Job} {rest : List Job} {snap : Snapshot} (h : Judgeable s j rest snap)
  {w : CheckWork} (hw : s.engine.work = .check w) (hd : w.doing = .sweep)

include hw hd in
theorem State.afterStep_pair {g : CRange} {i n m raw : Nat} : s.afterStep l (.cont g i n m raw) =
    ((s.atJudge l).checkPair w (some raw) g).runEngine.dispatch := by
  rw [State.afterStep_check hw]
  unfold State.checkJudge
  rw [hd]
  rfl

theorem State.openRec_eq {u : State} (hj : u.queue.jobs = j :: rest) (w : CheckWork) (b rc : Nat) (g : CRange) :
    State.openRec w u ⟨b, some rc, g⟩ = pairRec j .opn w.num w.root b rc g := by
  unfold State.openRec
  rw [State.testRec_eq hj]
  rfl

/-- The record of a net's last pair (R82, R83). -/
def lastPairRecs (j : Job) (w : CheckWork) (a b rc opn : Nat) (g : CRange) : List RecData :=
  if rc ≤ w.passLimit then [] else [pairRec j (if rc < opn then .high else .opn) w.num a b rc g]

section
include h

/-- The pair of a two-member net is judged, and the continuity phase is over. -/
theorem State.checkPair_last {a b rc raw : Nat} (g : CRange) (hm : w.members = [a, b]) (h0 : w.rootIdx = 0)
    (h1 : w.next = 1) (ho : w.openList = []) (hrc : rc = raw - s.leadOf a - s.leadOf b) :
    ∃ y, Recorded s y (lastPairRecs j w a b rc snap.limits.opn g) ∧ ∀ (t : State) (k : Nat),
      (s.moving l j rest (.check { w with next := 2 }) .contEnd 0 0
        (lastPairRecs j w a b rc snap.limits.opn g).length y).Rests t (k + 1) →
      ((s.atJudge l).checkPair w (some raw) g).Rests t (k + 2) := by
  have ha : w.members[w.rootIdx]? = some a := by rw [hm, h0]; rfl
  have hb : w.members[w.next]? = some b := by rw [hm, h1]; rfl
  have hroot : (w.judgedPair b rc snap.limits.opn g).root = a := (CheckWork.sweep_pair ha hb).2.1
  rw [State.atJudge_checkPair h.jobs h.snapshot g ha hb hrc]
  have hsweep (u : State) : State.checkSweep (w.judgedPair b rc snap.limits.opn g) u =
      u.todo (.check { w with next := 2 })
        ((w.judgedPair b rc snap.limits.opn g).openList.map (State.openRec (w.judgedPair b rc snap.limits.opn g) u)) .contEnd := by
    unfold State.checkSweep CheckWork.detached CheckWork.judgedPair
    simp [hm, h1, ho]
  by_cases hclosed : rc ≤ w.passLimit ∨ rc < snap.limits.opn
  · have hopen : (w.judgedPair b rc snap.limits.opn g).openList = [] := by
      unfold CheckWork.judgedPair
      simp [ho, hclosed]
    have hrecs : highRecs j w a b rc snap.limits.opn g = lastPairRecs j w a b rc snap.limits.opn g := by
      unfold highRecs lastPairRecs
      by_cases hp : rc ≤ w.passLimit
      · rw [if_neg (by omega), if_pos hp]
      · have hlt := hclosed.resolve_left hp
        rw [if_pos ⟨by omega, hlt⟩, if_neg hp, if_pos hlt]
    rw [hrecs]
    obtain ⟨y, hy, hrun⟩ := State.toRecord_records h (l := l) (w := .check (w.judgedPair b rc snap.limits.opn g))
      (c := .sweep) (n := 0) (x := 0) (hrecs ▸ highRecs_length ..) nofun
    refine ⟨y, hy, fun t k ht => hrun t (k + 1) (State.Rests.move rfl nofun ?_ ht)⟩
    refine (hsweep _).trans ?_
    rw [hopen]
    rfl
  · have hopen : (w.judgedPair b rc snap.limits.opn g).openList = [⟨b, some rc, g⟩] := by
      unfold CheckWork.judgedPair
      simp [ho, hclosed]
    have hnone : highRecs j w a b rc snap.limits.opn g = [] := if_neg (by omega)
    have hrecs : lastPairRecs j w a b rc snap.limits.opn g = [pairRec j .opn w.num a b rc g] := by
      unfold lastPairRecs
      rw [if_neg (by omega), if_neg (by omega)]
    rw [hrecs, hnone]
    obtain ⟨y, hy, hrun⟩ := State.toRecord_records h (l := l) (w := .check { w with next := 2 })
      (recs := [pairRec j .opn w.num a b rc g]) (c := .contEnd) (n := 0) (x := 0) le_rfl nofun
    refine ⟨y, hy, fun t k ht => State.Rests.move rfl nofun ?_ (hrun t k ht)⟩
    refine (hsweep _).trans ?_
    have hrec : State.openRec (w.judgedPair b rc snap.limits.opn g)
        (s.toRecord l (.check (w.judgedPair b rc snap.limits.opn g)) [] .sweep 0 0) ⟨b, some rc, g⟩ =
        pairRec j .opn w.num a b rc g := by
      rw [State.openRec_eq (u := s.toRecord l _ [] .sweep 0 0) h.jobs, hroot]
      rfl
    rw [hopen, List.map_singleton, hrec]
    rfl

/-- The root of a net of three is detached: its record, and the next root's sweep (R83). -/
theorem State.checkPair_detached {a b c rc raw : Nat} {o : OpenItem} (g : CRange) (hm : w.members = [a, b, c])
    (h0 : w.rootIdx = 0) (h2 : w.next = 2) (ho : w.openList = [o]) (hrc : rc = raw - s.leadOf a - s.leadOf c)
    (hp : w.passLimit < rc) (hopn : snap.limits.opn ≤ rc) :
    ∃ y, Recorded s y [{ kind := .detached, system := false, flags := { u := j.flagU }, tag := some j.tag
                         net := some w.num, pointA := some a }] ∧ ∀ (t : State) (k : Nat),
      (s.moving l j rest (.check { w with rootIdx := 1, openList := [] }) .sweep 0 0 1 y).Rests t k →
      ((s.atJudge l).checkPair w (some raw) g).Rests t (k + 2) := by
  have ha : w.members[w.rootIdx]? = some a := by rw [hm, h0]; rfl
  have hc : w.members[w.next]? = some c := by rw [hm, h2]; rfl
  let w1 := w.judgedPair c rc snap.limits.opn g
  have hroot : w1.root = a := (CheckWork.sweep_pair ha hc).2.1
  have hnone : highRecs j w a c rc snap.limits.opn g = [] := if_neg (by omega)
  have hno : ¬ (rc ≤ w.passLimit ∨ rc < snap.limits.opn) := by omega
  let d : RecData := { kind := .detached, system := false, flags := { u := j.flagU }, tag := some j.tag
                       net := some w.num, pointA := some a }
  obtain ⟨y, hy, hrun⟩ := State.toRecord_records h (l := l) (w := .check { w1 with openList := [] }) (recs := [d])
    (c := .reroot) (n := 0) (x := 0) le_rfl nofun
  refine ⟨y, hy, fun t k ht => ?_⟩
  rw [State.atJudge_checkPair h.jobs h.snapshot g ha hc hrc, hnone]
  refine State.Rests.move rfl nofun ?_ (hrun t k (State.Rests.move rfl nofun ?_ ht))
  · show State.checkSweep w1 _ = _
    have hrec : State.detachedRec w1 (s.toRecord l (.check w1) [] .sweep 0 0) = d := by
      unfold State.detachedRec
      rw [State.testRec_eq (u := s.toRecord l _ [] .sweep 0 0) h.jobs, hroot]
      rfl
    have hdet : w1.detached = true := by
      show CheckWork.detached (w.judgedPair c rc snap.limits.opn g) = true
      unfold CheckWork.detached CheckWork.judgedPair
      simp [hm, h0, ho, if_neg hno]
    have hover : ¬ w1.next < w1.members.length := by
      show ¬ w.next + 1 < w.members.length
      rw [h2, hm]
      exact Nat.lt_irrefl 3
    unfold State.checkSweep
    rw [if_neg hover, if_pos hdet, hrec]
    rfl
  · show State.checkReroot _ _ = _
    have hlong : (2 < [a, b, c].length) = True := eq_true (Nat.lt_succ_self 2)
    unfold State.checkReroot
    simp only [w1, CheckWork.judgedPair, h0, hm, Nat.zero_add, hlong, if_true]
    rw [← hm, ← h2]
    rfl

end

end

/-! ### What the pair leads to -/

section
variable {s : State} {l : Lmu} {j : Job} {rest : List Job} {snap : Snapshot} (h : Judgeable s j rest snap)
  {w : CheckWork} (hw : s.engine.work = .check w) (hd : w.doing = .sweep) {g : CRange} {i m q raw : Nat} {t : State}
  (ht : t = s.afterStep l (.cont g i m q raw))
include h hw hd ht

/-- The last pair of a two-member net (R82–R85). -/
theorem State.pair_endsNet {a b rc : Nat} {cs : List Nat} (hm : w.members = [a, b]) (h0 : w.rootIdx = 0)
    (h1 : w.next = 1) (ho : w.openList = []) (hrc : rc = raw - s.leadOf a - s.leadOf b)
    (hcs : cs = s.mapped.filter (fun p => decide (∀ m ∈ s.ownerOf p, w.num < m))) :
    ((∀ r ∈ s.store.nets, r.body.num ≤ w.num ∨ w.last < r.body.num) → w.phases = .cont ∨ cs = [] →
      s.EndedAs t j rest 1 0 (lastPairRecs j w a b rc snap.limits.opn g).length ∧ t.store = s.store ∧
      t.log.entries.map (·.data) = s.log.entries.map (·.data) ++ lastPairRecs j w a b rc snap.limits.opn g) ∧
    ∀ ts n, w.phases = .both → cs ≠ [] →
      ts = [(a, .source), (b, .source)] ++ cs.map (fun p => (p, .ret)) → s.sendsTo ts n →
      s.SentAs t (.check { w with
        next := 2, inIso := true, doing := .whole, cands := cs.map (fun p => ⟨p, false⟩)
        search := ⟨⟨0, 0⟩, [], ⟨0, 0⟩, .popped⟩ }) ts n ⟨.iso, snap.limits.n, snap.limits.range, snap.limits.settle⟩ 0 0 ∧
      t.store = s.store ∧
      t.log.entries.map (·.data) = s.log.entries.map (·.data) ++ lastPairRecs j w a b rc snap.limits.opn g := by
  obtain ⟨y, hy, hrun⟩ := State.checkPair_last h (l := l) g hm h0 h1 ho hrc
  have hcands : s.candidates w.num = cs.map (fun p => ⟨p, false⟩) := by rw [s.candidates_eq, ← hcs]
  rw [State.afterStep_pair hw hd] at ht
  refine ⟨fun hover hno => ?_, fun ts n hboth hne hts hs => ?_⟩
  · obtain ⟨t', hrest, hlast⟩ := State.moving_contEnd_over h (l := l) (w := { w with next := 2 }) (n := 0) (x := 0)
      (k := (lastPairRecs j w a b rc snap.limits.opn g).length) hy.store hover
      (hno.imp_right fun h => by rw [hcands, h, List.map_nil])
    obtain rfl := ht.trans (hlast.run (hy.notWaiting h.waiting) (hrun t' 3 hrest) (by decide))
    exact ⟨hlast.endedAs, hlast.store.trans hy.store, hy.dataOf hlast.log⟩
  · obtain ⟨t', hrest, hout⟩ := State.moving_contEnd_sends h (l := l) (w := { w with next := 2 }) (n := 0) (x := 0)
      (k := (lastPairRecs j w a b rc snap.limits.opn g).length) hy.store (by rw [hboth]; rfl) hcands hne
      (by rw [hts, hm]; rfl) hs
    obtain rfl := ht.trans (hout.run (hy.notWaiting h.waiting) (hrun t' 0 hrest) (by decide))
    exact ⟨hout.sentAs, hout.store.trans hy.store, hy.dataOf hout.log⟩

/-- A pair with a member left (R82). -/
theorem State.pair_goesOn {a b c rc : Nat} {ts : List (Nat × Rail)} {n : Nat} (ha : w.members[w.rootIdx]? = some a)
    (hb : w.members[w.next]? = some b) (hc : w.members[w.next + 1]? = some c)
    (hrc : rc = raw - s.leadOf a - s.leadOf b) (hts : ts = [(a, .source), (c, .ret)]) (hs : s.sendsTo ts n) :
    t.store = s.store ∧
    s.SentAs t (.check (w.judgedPair b rc snap.limits.opn g)) ts n
      ⟨.cont, snap.limits.n, snap.limits.range, snap.limits.settle⟩ 0 0 ∧
    t.log.entries.map (·.data) = s.log.entries.map (·.data) ++ highRecs j w a b rc snap.limits.opn g := by
  rw [State.afterStep_pair hw hd, State.atJudge_checkPair h.jobs h.snapshot g ha hb hrc] at ht
  obtain ⟨y, hy, hrun⟩ := State.toRecord_records h (l := l) (w := .check (w.judgedPair b rc snap.limits.opn g))
    (c := .sweep) (n := 0) (x := 0) (highRecs_length j w a b rc snap.limits.opn g) nofun
  obtain ⟨t', hrest, hout⟩ := State.moving_sweep_sends h (l := l) (w := w.judgedPair b rc snap.limits.opn g) (n := 0)
    (x := 0) (k := (highRecs j w a b rc snap.limits.opn g).length) (by rw [hy.store]) ha hc hts hs
  obtain rfl := ht.trans (hout.run (hy.notWaiting h.waiting) (hrun t' 0 hrest) (by decide))
  refine ⟨hout.store.trans hy.store, ?_, hy.dataOf hout.log⟩
  have hsent := hout.sentAs
  rwa [show ({ w.judgedPair b rc snap.limits.opn g with doing := .sweep } : CheckWork) = w.judgedPair b rc snap.limits.opn g
    from by rw [← hd]; rfl] at hsent

/-- The root of three members is DETACHED (R83). -/
theorem State.pair_detaches {a b c rc : Nat} {o : OpenItem} {ts : List (Nat × Rail)} {n : Nat}
    (hm : w.members = [a, b, c]) (h0 : w.rootIdx = 0) (h2 : w.next = 2) (ho : w.openList = [o])
    (hrc : rc = raw - s.leadOf a - s.leadOf c) (hp : w.passLimit < rc) (hopn : snap.limits.opn ≤ rc)
    (hts : ts = [(b, .source), (c, .ret)]) (hs : s.sendsTo ts n) :
    t.store = s.store ∧
    s.SentAs t (.check { w with rootIdx := 1, openList := [] }) ts n
      ⟨.cont, snap.limits.n, snap.limits.range, snap.limits.settle⟩ 0 0 ∧
    t.log.entries.map (·.data) = s.log.entries.map (·.data) ++
      [{ kind := .detached, system := false, flags := { u := j.flagU }, tag := some j.tag, net := some w.num
         pointA := some a }] := by
  obtain ⟨y, hy, hrun⟩ := State.checkPair_detached h (l := l) g hm h0 h2 ho hrc hp hopn
  rw [State.afterStep_pair hw hd] at ht
  obtain ⟨t', hrest, hout⟩ := State.moving_sweep_sends h (l := l) (w := { w with rootIdx := 1, openList := [] })
    (a := b) (c := c) (n := 0) (x := 0) (k := 1) (by rw [hy.store]) (by rw [hm]; rfl)
    (by rw [hm, h2]; rfl) hts hs
  obtain rfl := ht.trans (hout.run (hy.notWaiting h.waiting) (hrun t' 1 hrest) (by decide))
  refine ⟨hout.store.trans hy.store, ?_, hy.dataOf hout.log⟩
  have hsent := hout.sentAs
  rwa [show ({ w with rootIdx := 1, openList := [], doing := .sweep } : CheckWork) =
    { w with rootIdx := 1, openList := [] } from by rw [← hd]] at hsent

end

end Sys2Proof.Machine
end

section
/-! PROOFS. The low-voltage step of a REFCHECK (R72) and the steps of a LEARN_LEADS (6.2). -/

namespace Sys2Proof.Machine

open Sys2Proof

/-! ### REFCHECK (R72) -/

/-- The record of a REFCHECK's low-voltage step. -/
def refLvRecs (j : Job) (value : Option Nat) (g : CRange) : List RecData :=
  if lvWindow value then [] else
    [{ kind := .refFail, system := false, flags := { u := j.flagU }, tag := some j.tag, pointA := some 0
       pointB := some 1, cause := some .window, value := some ⟨.mOhm, value⟩, range := some g }]

theorem refLvRecs_length (j : Job) (value : Option Nat) (g : CRange) : (refLvRecs j value g).length ≤ 1 := by
  unfold refLvRecs
  split
  · exact Nat.zero_le 1
  · exact le_rfl

/-- The reference state a REFCHECK's low-voltage step leaves. -/
def State.refLvState (s : State) (value : Option Nat) : State :=
  { s with reference := if lvWindow value then s.reference else .failed }

section
variable {s : State} {l : Lmu} {j : Job} {rest : List Job} {snap : Snapshot}

theorem State.atJudge_refLv (hj : s.queue.jobs = j :: rest) {r : LmuResult} {value : Option Nat} {g : CRange}
    (hr : r.contValue = some (value, g)) : (s.atJudge l).refLvJudge r =
      (s.refLvState value).toRecord l (.refHv (lvWindow value)) (refLvRecs j value g) .toRefHv 0 0 := by
  have hrec : (s.atJudge l).testRec .refFail =
      { kind := .refFail, system := false, flags := { u := j.flagU }, tag := some j.tag } := State.testRec_eq hj _
  unfold State.refLvJudge State.refLvState refLvRecs
  rw [hr]
  dsimp only
  cases lvWindow value with
  | true => rfl
  | false => rw [hrec]; rfl

theorem Judgeable.withReference (h : Judgeable s j rest snap) (value : Option Nat) :
    Judgeable (s.refLvState value) j rest snap :=
  ⟨h.toAppend, h.jobs, h.snapshot, h.room, h.reporting, h.printer, h.slot, h.rail, h.exchange, h.waiting⟩

variable (h : Judgeable s j rest snap) (hw : s.engine.work = .refLv) {r : LmuResult} {value : Option Nat} {g : CRange}
  (hr : r.contValue = some (value, g)) {t : State} (ht : t = s.afterStep l r)
include h hw hr ht

/-- The step is judged, and the high-voltage step's plan follows (R72, R73). -/
theorem State.refLv_goesOn {ts : List (Nat × Rail)} {v : StepValues} (hts : ts = [(2, .hv), (3, .collect)])
    (hv : v = snap.hv.refValues)
    (hplan : (∃ n, s.sendsTo ts n) ∨ ((∀ x ∈ ts, s.checkTarget x = none) ∧ s.refChanges (s.stepTaken ts) ≠ [] ∧
      ∀ p, 1 ≤ p → p ≤ 32 → s.changeList (s.stepTaken ts) p = [])) :
    t.reference = (if lvWindow value then s.reference else .failed) ∧
    t.log.entries.map (·.data) = s.log.entries.map (·.data) ++ refLvRecs j value g ∧
    t.queue = { s.queue with jobs := { j with tests := j.tests + (refLvRecs j value g).length } :: rest } ∧
    t.hv = s.hv ∧ t.store = s.store ∧ t.engine = { s.engine with
      work := .refHv (lvWindow value), phase := .plan, isRepeat := false, ctl := .wait
      inHand := some ⟨.targets ts true, .hv v⟩, steps := s.engine.steps + 1 } ∧
    (∀ n, s.sendsTo ts n → t.matrix = (s.planSent (s.stepTaken ts) n).matrix ∧
      t.link = (s.planSent (s.stepTaken ts) n).link) ∧
    ((∀ p, 1 ≤ p → p ≤ 32 → s.changeList (s.stepTaken ts) p = []) → t.link = s.link ∧
      t.matrix = { s.matrix with
        image := writeImage s.matrix.image 0 (s.refChanges (s.stepTaken ts))
        slot := .settling (s.stepTaken ts) [0] 1 }) := by
  let s' := s.refLvState value
  obtain ⟨y, hy, hrun⟩ := State.toRecord_records (h.withReference value) (l := l) (w := .refHv (lvWindow value))
    (c := .toRefHv) (n := 0) (x := 0) (refLvRecs_length j value g) nofun
  let u := s'.moving l j rest (.refHv (lvWindow value)) .toRefHv 0 0 (refLvRecs j value g).length y
  have hsnap : u.snap = snap := State.moving_snap (h.withReference value)
  have hnext : u.workNext = u.offerInHand ⟨.targets ts true, .hv v⟩ false := by
    rw [hts, hv, ← hsnap]
    rfl
  have hmap : u.store.map = s.store.map := congrArg Store.map hy.store
  have heng : ({ u.engine with
      phase := .plan, inHand := some ⟨.targets ts true, .hv v⟩, isRepeat := false, ctl := .wait } : Engine) =
      { s.engine with
        work := .refHv (lvWindow value), phase := .plan, isRepeat := false, ctl := .wait
        inHand := some ⟨.targets ts true, .hv v⟩, steps := s.engine.steps + 1 } := by
    show ({ s.engine.judged (.refHv (lvWindow value)) .toRefHv 0 0 with
      phase := .plan, inHand := some ⟨.targets ts true, .hv v⟩, isRepeat := false, ctl := .wait } : Engine) = _
    unfold Engine.judged
    rw [← h.toAppend]
    rfl
  have hafter (t' : State) (ht' : u.offerInHand ⟨.targets ts true, .hv v⟩ false = t') (ha : t'.engine.toAppend = [])
      (hc : t'.engine.ctl = .wait) (hhost : t'.host = y.host) : t = t' := by
    rw [ht, State.afterStep_refLv hw, State.atJudge_refLv h.jobs hr,
      (hrun t' 0 (State.Rests.move rfl nofun (hnext.trans ht') (State.Rests.stop ha hc))).runEngine (by decide)]
    exact State.dispatch_idle _ (by rw [hhost]; exact hy.notWaiting h.waiting)
  obtain ⟨n, hs⟩ | ⟨hok, href, hno⟩ := hplan
  · obtain rfl := hafter _ (State.offerInHand_sent (s := s) (u := u) false rfl rfl rfl hmap hs) rfl rfl rfl
    refine ⟨rfl, hy.data, rfl, rfl, hy.store, heng, fun n' hs' => ?_, fun hno => ?_⟩
    · rw [State.sendsTo_unique hs hs']
      exact ⟨rfl, rfl⟩
    · obtain ⟨-, -, -, -, h1, h2, -, hc, -⟩ := hs
      exact absurd (hno n h1 h2) hc
  · obtain rfl := hafter _ (State.offerInHand_settles (s := s) (u := u) false rfl rfl rfl hmap h.rail h.slot hok hno href) rfl
      rfl rfl
    refine ⟨rfl, hy.data, rfl, rfl, hy.store, heng, fun n' hs' => ?_, fun _ => ⟨rfl, rfl⟩⟩
    obtain ⟨-, -, -, -, h1, h2, -, hc, -⟩ := hs'
    exact absurd (hno n' h1 h2) hc

end

/-! ### LEARN_LEADS (R106–R108) -/

/-- The record of a lead out of range. -/
def leadRecs (j : Job) (a b v : Nat) (g : CRange) : List RecData :=
  if v ≤ 5000 then [] else
    [{ kind := .leadHigh, system := false, flags := { u := j.flagU }, tag := some j.tag, pointA := some a
       pointB := some b, value := some ⟨.mOhm, some v⟩, range := some g }]

theorem leadRecs_length (j : Job) (a b v : Nat) (g : CRange) : (leadRecs j a b v g).length ≤ 1 := by
  unfold leadRecs
  split
  · exact Nat.zero_le 1
  · exact le_rfl

/-- The lead of a point is written. -/
def State.withLead (s : State) (p v : Nat) : State := { s with store := s.store.setLead p v }

theorem State.leadOf_withLead {s : State} {p : Nat} (v : Nat) (hp : 4 ≤ p) (hwf : s.store.wf = true) {t : State}
    (ht : t.store = (s.withLead p v).store) (q : Nat) : t.leadOf q = if q = p then v else s.leadOf q := by
  have hleads : tableWf s.store.leads = true := by
    unfold Store.wf at hwf
    simp only [Bool.and_eq_true] at hwf
    exact hwf.1.1.1.2
  have hget : tget t.store.leads q = if q = p then (if v = 0 then none else some v) else tget s.store.leads q := by
    rw [ht]
    exact tget_tput p q _ _ hleads
  unfold State.leadOf
  rw [hget]
  by_cases hq : q = p
  · rw [if_neg (by omega), if_pos hq, if_pos hq]
    split
    · next h0 => exact h0.symm
    · rfl
  · rw [if_neg hq, if_neg hq]

section
variable {s : State} {l : Lmu} {j : Job} {rest : List Job} {snap : Snapshot}

theorem Judgeable.withLead (h : Judgeable s j rest snap) (p v : Nat) : Judgeable (s.withLead p v) j rest snap :=
  ⟨h.toAppend, h.jobs, h.snapshot, h.room, h.reporting, h.printer, h.slot, h.rail, h.exchange, h.waiting⟩

theorem leadRecs_eq (hj : s.queue.jobs = j :: rest) (a b v : Nat) (g : CRange) :
    (if leadIsHigh (some v) then [(s.atJudge l).leadHighRec a b (some v) g] else []) = leadRecs j a b v g := by
  have hrec : (s.atJudge l).testRec .leadHigh =
      { kind := .leadHigh, system := false, flags := { u := j.flagU }, tag := some j.tag } := State.testRec_eq hj _
  unfold State.leadHighRec leadIsHigh leadRecs
  rw [hrec]
  by_cases hv : v ≤ 5000
  · rw [if_pos hv, if_neg (by simpa using hv)]
  · rw [if_neg hv, if_pos (by simpa using hv)]
    rfl

/-- The common point's lead is half the value (R106). -/
theorem State.atJudge_leads_common (hj : s.queue.jobs = j :: rest) {w : LeadsWork} (hl : w.lead = none) {g : CRange}
    {i n m raw : Nat} : (s.atJudge l).leadsJudge w (.cont g i n m raw) =
      (s.withLead w.common (min 5000 (raw / 2))).toRecord l (.leads { w with lead := some (min 5000 (raw / 2)), next := 0 })
        (leadRecs j w.common w.partner (raw / 2) g) .leads 0 1 := by
  unfold State.leadsJudge LmuResult.contValue
  simp only [hl]
  rw [← leadRecs_eq (l := l) hj]
  rfl

/-- Another point's lead is the value less the common one (R107). -/
theorem State.atJudge_leads_point (hj : s.queue.jobs = j :: rest) {w : LeadsWork} {lc : Nat} (hl : w.lead = some lc)
    {g : CRange} {i n m raw : Nat} {q : Nat} (hq : w.points.getD w.next 0 = q) :
    (s.atJudge l).leadsJudge w (.cont g i n m raw) =
      (s.withLead q (min 5000 (raw - lc))).toRecord l (.leads { w with next := w.next + 1 })
        (leadRecs j q w.common (raw - lc) g) .leads 0 1 := by
  unfold State.leadsJudge LmuResult.contValue
  simp only [hl, hq]
  rw [← leadRecs_eq (l := l) hj]
  rfl

variable (h : Judgeable s j rest snap) {w : LeadsWork} {n x k : Nat} {y : Side}
include h

/-- The next point's step goes out (R107). -/
theorem State.moving_leads_sends {q p : Nat} {more : List Nat} {ts : List (Nat × Rail)} (hmap : y.store.map = s.store.map)
    (hdrop : w.points.drop w.next = q :: more) (hq : q ≠ w.common) (hts : ts = [(q, .source), (w.common, .ret)])
    (hs : s.sendsTo ts p) : ∃ t, (s.moving l j rest (.leads w) .leads n x k y).Rests t 1 ∧ WentOut s t j rest (.leads w) ts p
      ⟨.cont, snap.limits.n, snap.limits.range, snap.limits.settle⟩ n x k y := by
  obtain ⟨t, ht, hrest, hout⟩ := State.moving_sends h (l := l) (w := .leads w) (c := .leads) (n := n) (x := x) (k := k)
    (v := .leads w) ⟨.cont, snap.limits.n, snap.limits.range, snap.limits.settle⟩ hmap hs
  refine ⟨t, State.Rests.move rfl nofun ?_ hrest, hout⟩
  show State.leadsNext w _ .leads = t
  unfold State.leadsNext
  simp only [hdrop, if_neg hq]
  rw [State.moving_contReq h, ← ht, hts]
  rfl

omit h in
/-- The common point is passed over. -/
theorem State.moving_leads_skips {more : List Nat} {t : State} {i : Nat} (hdrop : w.points.drop w.next = w.common :: more)
    (ht : (s.moving l j rest (.leads { w with next := w.next + 1 }) .leads n x k y).Rests t i) :
    (s.moving l j rest (.leads w) .leads n x k y).Rests t (i + 1) := by
  refine State.Rests.move rfl nofun ?_ ht
  show State.leadsNext w _ .leads = _
  unfold State.leadsNext
  simp only [hdrop, if_true]
  rfl

/-- With no point left the job ends. -/
theorem State.moving_leads_ends (hdrop : w.points.drop w.next = []) :
    ∃ t, (s.moving l j rest (.leads w) .leads n x k y).Rests t 2 ∧ WasLast s t j rest n x k y := by
  obtain ⟨t, hrest, hlast⟩ := State.moving_completes h (l := l) (w := .leads w) (n := n) (x := x) (k := k) (y := y) nofun
  refine ⟨t, State.Rests.move rfl nofun ?_ hrest, hlast⟩
  show State.leadsNext w _ .leads = _
  unfold State.leadsNext
  simp only [hdrop]
  rfl

end

/-! ### What a lead's step leads to -/

section
variable {s : State} {l : Lmu} {j : Job} {rest : List Job} {snap : Snapshot} (h : Judgeable s j rest snap)
  {w : LeadsWork} (hw : s.engine.work = .leads w) {g : CRange} {i m d raw : Nat} {t : State}
  (ht : t = s.afterStep l (.cont g i m d raw))
include h hw ht

/-- The common point's lead is written, and the first point's step follows (R106, R107). -/
theorem State.leads_begin {k lead q : Nat} {more : List Nat} {ts : List (Nat × Rail)} {n : Nat} (hl : w.lead = none)
    (hlead : lead = min 5000 (raw / 2)) (h4 : 4 ≤ w.common) (hwf : s.store.wf = true)
    (hpts : (w.points = q :: more ∧ k = 0) ∨ (w.points = w.common :: q :: more ∧ k = 1)) (hq : q ≠ w.common)
    (hts : ts = [(q, .source), (w.common, .ret)]) (hs : s.sendsTo ts n) :
    (∀ p, t.leadOf p = if p = w.common then lead else s.leadOf p) ∧ t.store.map = s.store.map ∧
    t.store.nets = s.store.nets ∧ t.store.owner = s.store.owner ∧
    s.SentAs t (.leads { w with lead := some lead, next := k }) ts n
      ⟨.cont, snap.limits.n, snap.limits.range, snap.limits.settle⟩ 0 1 ∧
    t.log.entries.map (·.data) = s.log.entries.map (·.data) ++ leadRecs j w.common w.partner (raw / 2) g := by
  subst hlead
  let w1 : LeadsWork := { w with lead := some (min 5000 (raw / 2)), next := 0 }
  let recs := leadRecs j w.common w.partner (raw / 2) g
  obtain ⟨y, hy, hrun⟩ := State.toRecord_records (h.withLead w.common (min 5000 (raw / 2))) (l := l) (w := .leads w1)
    (c := .leads) (n := 0) (x := 1) (leadRecs_length j w.common w.partner (raw / 2) g) nofun
  have hmap : y.store.map = s.store.map := (congrArg Store.map hy.store).trans rfl
  have hgo : ∃ t', (s.moving l j rest (.leads w1) .leads 0 1 recs.length y).Rests t' 2 ∧
      WentOut s t' j rest (.leads { w with lead := some (min 5000 (raw / 2)), next := k }) ts n
        ⟨.cont, snap.limits.n, snap.limits.range, snap.limits.settle⟩ 0 1 recs.length y := by
    obtain ⟨hpts, rfl⟩ | ⟨hpts, rfl⟩ := hpts
    · obtain ⟨t', hrest, hout⟩ := State.moving_leads_sends h (l := l) (w := w1) (n := 0) (x := 1) (k := recs.length) hmap
        (by rw [show w1.points = _ from hpts]; rfl) hq hts hs
      exact ⟨t', fun i => hrest (i + 1), hout⟩
    · obtain ⟨t', hrest, hout⟩ := State.moving_leads_sends h (l := l) (w := { w1 with next := 1 }) (n := 0) (x := 1)
        (k := recs.length) hmap (by rw [show w1.points = _ from hpts]; rfl) hq hts hs
      exact ⟨t', State.moving_leads_skips (w := w1) (by rw [show w1.points = _ from hpts]; rfl) hrest, hout⟩
  obtain ⟨t', hrest, hout⟩ := hgo
  rw [State.afterStep_leads hw, State.atJudge_leads_common h.jobs hl] at ht
  obtain rfl := ht.trans (hout.run (hy.notWaiting h.waiting) (hrun t' 1 hrest) (by decide))
  have hstore := hout.store.trans hy.store
  exact ⟨State.leadOf_withLead _ h4 hwf hstore, (congrArg Store.map hstore).trans rfl, (congrArg Store.nets hstore).trans rfl,
    (congrArg Store.owner hstore).trans rfl, hout.sentAs, hy.dataOf hout.log⟩

/-- The last point's lead is written, and the job ends (R107). -/
theorem State.leads_end {lc q lead : Nat} (hl : w.lead = some lc) (hdrop : w.points.drop w.next = [q])
    (hlead : lead = min 5000 (raw - lc)) (h4 : 4 ≤ q) (hwf : s.store.wf = true) :
    (∀ p, t.leadOf p = if p = q then lead else s.leadOf p) ∧ t.store.map = s.store.map ∧
    t.store.nets = s.store.nets ∧ t.store.owner = s.store.owner ∧
    s.EndedAs t j rest 0 1 (if raw - lc ≤ 5000 then 0 else 1) ∧
    t.log.entries.map (·.data) = s.log.entries.map (·.data) ++ leadRecs j q w.common (raw - lc) g := by
  subst hlead
  let w1 : LeadsWork := { w with next := w.next + 1 }
  let recs := leadRecs j q w.common (raw - lc) g
  have hq : w.points.getD w.next 0 = q := by
    rw [List.getD_eq_getElem?_getD, ← Nat.add_zero w.next, ← List.getElem?_drop, hdrop]
    rfl
  have hnone : w1.points.drop w1.next = [] := by
    show w.points.drop (w.next + 1) = []
    rw [← List.drop_drop, hdrop]
    rfl
  have hlen : recs.length = if raw - lc ≤ 5000 then 0 else 1 := by
    show (leadRecs _ _ _ _ _).length = _
    unfold leadRecs
    split <;> rfl
  obtain ⟨y, hy, hrun⟩ := State.toRecord_records (h.withLead q (min 5000 (raw - lc))) (l := l) (w := .leads w1)
    (c := .leads) (n := 0) (x := 1) (leadRecs_length j q w.common (raw - lc) g) nofun
  obtain ⟨t', hrest, hlast⟩ := State.moving_leads_ends h (l := l) (w := w1) (n := 0) (x := 1) (k := recs.length) (y := y)
    hnone
  rw [State.afterStep_leads hw, State.atJudge_leads_point h.jobs hl hq] at ht
  obtain rfl := ht.trans (hlast.run (hy.notWaiting h.waiting) (hrun t' 1 hrest) (by decide))
  have hstore := hlast.store.trans hy.store
  exact ⟨State.leadOf_withLead _ h4 hwf hstore, (congrArg Store.map hstore).trans rfl, (congrArg Store.nets hstore).trans rfl,
    (congrArg Store.owner hstore).trans rfl, hlen ▸ hlast.endedAs, hy.dataOf hlast.log⟩

end

end Sys2Proof.Machine
end

section
/-! PROOFS. The steps of a LEARN (6.1): the draw, the search of a root, the net it makes. -/

namespace Sys2Proof.Machine

open Sys2Proof

/-! ### The net of a root (R102) -/

theorem insNet_last {r : NetRec} {l : List NetRec} (h : ∀ q ∈ l, q.body.num < r.body.num) : insNet r l = l ++ [r] := by
  induction l with
  | nil => rfl
  | cons q l ih =>
    have hq := h q List.mem_cons_self
    rw [insNet, if_neg (by omega), ih fun x hx => h x (List.mem_cons_of_mem _ hx)]
    rfl

theorem sortPoints_pair {p x : Nat} (h : p < x) : sortPoints [p, x] = [p, x] := by
  simp [sortPoints, insPoint, h]

/-- A net of a number above all others is the table's last. -/
theorem Store.putNet_nets_last {st : Store} {b : NetBody} (h : ∀ r ∈ st.nets, r.body.num < b.num) :
    (st.putNet b).nets = st.nets ++ [⟨b, crc16 b.bytes, false⟩] := by
  have hfilter : st.nets.filter (fun r => r.body.num != b.num) = st.nets := List.filter_eq_self.2 fun r hr => by
    have := h r hr
    simpa using (by omega : r.body.num ≠ b.num)
  show insNet _ (st.nets.filter _) = _
  rw [hfilter]
  exact insNet_last h

theorem Store.putNet_owner_fresh {st : Store} {b : NetBody} (h : ∀ e ∈ st.owner, e.2 ≠ b.num) (q : Nat) :
    tget (st.putNet b).owner q = if q ∈ b.members then some b.num else tget st.owner q := by
  have hfilter : st.owner.filter (fun e => e.2 != b.num) = st.owner := List.filter_eq_self.2 fun e he => by
    simpa using h e he
  show tget (b.members.foldl _ (st.owner.filter _)) q = _
  rw [hfilter]
  exact tget_enter _ _ q _

/-! ### The draw (R99, R104) -/

section
variable {s : State} {l : Lmu} {j : Job} {rest : List Job} {snap : Snapshot} (h : Judgeable s j rest snap)
  {w : LearnWork} {n x k : Nat} {y : Side}
include h

/-- With an empty pool the job ends. -/
theorem State.moving_draw_none (hpool : w.pool = []) :
    ∃ t, (s.moving l j rest (.learn w) .draw n x k y).Rests t 2 ∧ WasLast s t j rest n x k y := by
  obtain ⟨t, hrest, hlast⟩ := State.moving_completes h (l := l) (w := .learn w) (n := n) (x := x) (k := k) (y := y) nofun
  refine ⟨t, State.Rests.move rfl nofun ?_ hrest, hlast⟩
  show State.learnDraw w _ = _
  unfold State.learnDraw
  rw [hpool]
  rfl

/-- The last point of the pool has nothing to be tested against. -/
theorem State.moving_draw_one {q : Nat} (hpool : w.pool = [q]) :
    ∃ t, (s.moving l j rest (.learn w) .draw n x k y).Rests t 3 ∧ WasLast s t j rest (n + 1) x k y := by
  let w1 : LearnWork := { w with
    pool := [], root := none, list := [], found := [], search := Search.empty, doing := .whole }
  obtain ⟨t, hrest, hlast⟩ := State.moving_draw_none h (l := l) (w := w1) (n := n + 1) (x := x) (k := k) (y := y) rfl
  refine ⟨t, State.Rests.move rfl nofun ?_ hrest, hlast⟩
  show State.learnDraw w _ = _
  unfold State.learnDraw
  rw [hpool]
  rfl

/-- The whole-pool test of the next root goes out. -/
theorem State.moving_draw_sends {q r p : Nat} {more : List Nat} {ts : List (Nat × Rail)} (hpool : w.pool = q :: r :: more)
    (hmap : y.store.map = s.store.map) (hts : ts = (q, .source) :: (r :: more).map (fun z => (z, .ret)))
    (hs : s.sendsTo ts p) : ∃ t, (s.moving l j rest (.learn w) .draw n x k y).Rests t 1 ∧
      WentOut s t j rest (.learn { w with
        pool := r :: more, root := some q, list := r :: more, found := [], search := Search.empty, doing := .whole }) ts p
        ⟨.iso, snap.limits.n, snap.limits.range, snap.limits.settle⟩ (n + 1) x k y := by
  obtain ⟨t, ht, hrest, hout⟩ := State.moving_sends h (l := l) (w := .learn w) (c := .draw) (n := n + 1) (x := x) (k := k)
    (v := .learn { w with
      pool := r :: more, root := some q, list := r :: more, found := [], search := Search.empty, doing := .whole })
    ⟨.iso, snap.limits.n, snap.limits.range, snap.limits.settle⟩ hmap hs
  refine ⟨t, State.Rests.move rfl nofun ?_ hrest, hout⟩
  show State.learnDraw w _ = t
  unfold State.learnDraw
  simp only [hpool, List.isEmpty_cons]
  rw [← ht, hts]
  show State.lvStep _ _ (State.isoReq (s.moving l j rest (.learn w) .draw (n + 1) x k y)) = _
  rw [State.moving_isoReq h]
  rfl

end

/-! ### The confirming step (R101–R103) -/

/-- The record of a resolved point. -/
def learnRecs (j : Job) (w : LearnWork) (p x rc : Nat) (lim : Limits) (g : CRange) : List RecData :=
  if rc ≤ lim.pass then [] else if rc < lim.opn then
    [{ kind := .learnHigh, system := false, flags := { u := j.flagU }, tag := some j.tag, net := some w.nextNum
       pointA := some p, pointB := some x, value := some ⟨.mOhm, some rc⟩, range := some g }]
  else
    [{ kind := .learnLeak, system := false, flags := { u := j.flagU }, tag := some j.tag, net := some w.nextNum
       pointA := some p, pointB := some x, value := some ⟨.kOhm, some w.gRes⟩, second := some ⟨.mOhm, some rc⟩
       range := some g }]

theorem learnRecs_length (j : Job) (w : LearnWork) (p x rc : Nat) (lim : Limits) (g : CRange) :
    (learnRecs j w p x rc lim g).length = if rc ≤ lim.pass then 0 else 1 := by
  unfold learnRecs
  split
  · rfl
  · split <;> rfl

/-- The work once its one point is resolved: it joins the found points unless the pair is OPEN. -/
def LearnWork.judged (w : LearnWork) (x rc : Nat) (lim : Limits) : LearnWork :=
  if rc ≤ lim.pass ∨ rc < lim.opn then { w with found := [x] } else w

section
variable {s : State} {l : Lmu} {j : Job} {rest : List Job} {snap : Snapshot} {w : LearnWork} {p x rc raw : Nat}
  (hroot : w.root = some p) (hlist : w.list = [x]) (hfound : w.found = []) (hg : w.search.g = ⟨0, 1⟩)

include hroot hlist hfound hg in
theorem State.atJudge_learnConfirm (hj : s.queue.jobs = j :: rest) (hsn : j.snapshot = some snap)
    (hrc : rc = raw - s.leadOf p - s.leadOf x) (g : CRange) : (s.atJudge l).learnConfirm w (some raw) g =
      s.toRecord l (.learn (w.judged x rc snap.limits)) (learnRecs j w p x rc snap.limits g) .pop 0 0 := by
  have hp : w.rootPt = p := by rw [LearnWork.rootPt, hroot, Option.getD_some]
  have hx : w.resolved = x := by rw [LearnWork.resolved, LearnWork.group, hg, hlist]; rfl
  have hsnap : (s.atJudge l).snap = snap := State.snap_of hj hsn
  have hcomp : (s.atJudge l).comp (some raw) p x = some rc := congrArg some hrc.symm
  have hrec (k : RecKind) : (s.atJudge l).testRec k =
      { kind := k, system := false, flags := { u := j.flagU }, tag := some j.tag } := State.testRec_eq hj k
  unfold State.learnConfirm State.learnJoin State.learnHighRec State.learnLeakRec
  rw [hp, hx, hsnap, hcomp, hrec, hrec, hfound]
  unfold bandOf LearnWork.judged learnRecs
  by_cases h1 : rc ≤ snap.limits.pass
  · simp only [if_pos h1, if_pos (Or.inl h1)]
    rfl
  · by_cases h2 : rc < snap.limits.opn
    · simp only [if_neg h1, if_pos h2, if_pos (Or.inr h2)]
      rfl
    · have h3 : ¬ (rc ≤ snap.limits.pass ∨ rc < snap.limits.opn) := not_or.2 ⟨h1, h2⟩
      simp only [if_neg h1, if_neg h2, if_neg h3]
      rfl

variable (h : Judgeable s j rest snap) {n e k : Nat} {y : Side}

/-- No group waits: the search of the root is over. -/
theorem State.moving_pop_done (hstack : w.search.stack = []) :
    (s.moving l j rest (.learn w) .pop n e k y).workNext = s.moving l j rest (.learn w) .netDone n e k y := by
  show State.learnSearch w _ (popNext w.count w.search.g w.search.stack) = _
  rw [hstack]
  rfl

include h

/-- The search of the root is over, and it has found nothing (R102). -/
theorem State.moving_pop_nothing {q : Nat} (hstack : w.search.stack = []) (hfound : w.found = []) (hpool : w.pool = [q]) :
    ∃ t, (s.moving l j rest (.learn w) .pop n e k y).Rests t 5 ∧ WasLast s t j rest (n + 1) e k y := by
  obtain ⟨t, hrest, hlast⟩ := State.moving_draw_one h (l := l) (w := w.letGo) (n := n) (x := e) (k := k) (y := y)
    (q := q) hpool
  have hstore : (s.moving l j rest (.learn w) .netDone n e k y).workNext =
      s.moving l j rest (.learn w.letGo) .draw n e k y := by
    show State.learnStore w _ = _
    unfold State.learnStore
    rw [hfound]
    rfl
  exact ⟨t, State.Rests.move rfl nofun (State.moving_pop_done hstack) (State.Rests.move rfl nofun hstore hrest), hlast⟩

/-- The search of the root is over, and its net is stored (R102). -/
theorem State.moving_pop_stores (hstack : w.search.stack = []) (hfound : w.found = [x]) (hpool : w.pool = [x])
    (hroom : y.store.nets.length < 1024) :
    ∃ t, (s.moving l j rest (.learn w) .pop n e k y).Rests t 4 ∧
      WasLast s t j rest n (e + 1) k { y with store := y.store.putNet w.net } := by
  obtain ⟨t, hrest, hlast⟩ := State.moving_draw_none h (l := l) (w := w.stored) (n := n) (x := e + 1) (k := k)
    (y := { y with store := y.store.putNet w.net }) (by
      show w.pool.filter (fun p => !(w.found.contains p)) = []
      rw [hpool, hfound]
      simp)
  have hstore : (s.moving l j rest (.learn w) .netDone n e k y).workNext =
      s.moving l j rest (.learn w.stored) .draw n (e + 1) k { y with store := y.store.putNet w.net } := by
    show State.learnStore w _ = _
    unfold State.learnStore
    rw [hfound]
    exact if_neg (Nat.not_le.2 hroom)
  exact ⟨t, State.Rests.move rfl nofun (State.moving_pop_done hstack) (State.Rests.move rfl nofun hstore hrest), hlast⟩

end

end Sys2Proof.Machine
end

section
/-! PROOFS. The steps of a LEARN, clause by clause (6.1). -/

namespace Sys2Proof.Machine

open Sys2Proof

theorem isLeak_false {r : Option Nat} {limit : Nat} (h : ∀ k, r = some k → limit ≤ k) : isLeak r limit = false := by
  cases r with
  | none => rfl
  | some k => exact decide_eq_false (Nat.not_lt.2 (h k rfl))

theorem isLeak_true {k limit : Nat} (h : k < limit) : isLeak (some k) limit = true := decide_eq_true h

section
variable {s : State} {l : Lmu} {j : Job} {rest : List Job} {snap : Snapshot} (h : Judgeable s j rest snap)
  {w : LearnWork} (hw : s.engine.work = .learn w)

/-! ### The confirming step (R101, R102) -/

section
variable {g : CRange} {i m d raw : Nat} {t : State} (ht : t = s.afterStep l (.cont g i m d raw)) {p x rc : Nat}
  (hd : w.doing = .confirm) (hroot : w.root = some p) (hpool : w.pool = [x]) (hlist : w.list = [x])
  (hfound : w.found = []) (hg : w.search.g = ⟨0, 1⟩) (hstack : w.search.stack = [])
  (hrc : rc = raw - s.leadOf p - s.leadOf x)

include h hw hd hroot hlist hfound hg hrc in
theorem State.afterStep_confirms : s.afterStep l (.cont g i m d raw) = (s.toRecord l (.learn (w.judged x rc snap.limits))
    (learnRecs j w p x rc snap.limits g) .pop 0 0).runEngine.dispatch := by
  rw [State.afterStep_learn hw]
  unfold State.learnJudge
  rw [hd]
  exact congrArg (fun u : State => u.runEngine.dispatch)
    (State.atJudge_learnConfirm hroot hlist hfound hg h.jobs h.snapshot hrc g)

include h hw ht hd hroot hpool hlist hfound hg hstack hrc

/-- A resolved point that is CONNECTED or HIGH makes the root's net. -/
theorem State.confirm_stores (hpt : 4 ≤ p) (hpx : p < x) (hnum : ∀ r ∈ s.store.nets, r.body.num < w.nextNum)
    (hroom : s.store.nets.length < 1024) (howner : ∀ e ∈ s.store.owner, e.2 ≠ w.nextNum) (hopn : rc < snap.limits.opn) :
    ∃ b : NetBody, b = ⟨w.nextNum, [p, x], w.hv, none, []⟩ ∧
      t.store.nets = s.store.nets ++ [⟨b, crc16 b.bytes, false⟩] ∧
      (∀ q, t.ownerOf q = if q = p ∨ q = x then some w.nextNum else s.ownerOf q) ∧
      t.store.map = s.store.map ∧ t.store.leads = s.store.leads ∧
      s.EndedAs t j rest 0 1 (if rc ≤ snap.limits.pass then 0 else 1) ∧
      t.log.entries.map (·.data) = s.log.entries.map (·.data) ++ (if rc ≤ snap.limits.pass then [] else
        [{ kind := .learnHigh, system := false, flags := { u := j.flagU }, tag := some j.tag, net := some w.nextNum
           pointA := some p, pointB := some x, value := some ⟨.mOhm, some rc⟩, range := some g }]) := by
  have hrecs : learnRecs j w p x rc snap.limits g = if rc ≤ snap.limits.pass then [] else
      [{ kind := .learnHigh, system := false, flags := { u := j.flagU }, tag := some j.tag, net := some w.nextNum
         pointA := some p, pointB := some x, value := some ⟨.mOhm, some rc⟩, range := some g }] := by
    rw [learnRecs, if_pos hopn]
  obtain ⟨y, hy, hrun⟩ := State.toRecord_records h (l := l) (w := .learn (w.judged x rc snap.limits)) (c := .pop) (n := 0)
    (x := 0) (recs := learnRecs j w p x rc snap.limits g) (by rw [learnRecs_length]; split <;> decide) nofun
  have hjudged : w.judged x rc snap.limits = { w with found := [x] } := if_pos (.inr hopn)
  rw [learnRecs_length, hjudged] at hrun
  obtain ⟨t', hrest, hlast⟩ := State.moving_pop_stores (w := { w with found := [x] }) h (l := l) (n := 0) (e := 0)
    (k := if rc ≤ snap.limits.pass then 0 else 1) hstack rfl hpool (by rw [hy.store]; exact hroom)
  rw [State.afterStep_confirms h hw hd hroot hlist hfound hg hrc, hjudged] at ht
  obtain rfl := ht.trans (hlast.run (y := { y with store := y.store.putNet (LearnWork.net { w with found := [x] }) })
    (hy.notWaiting h.waiting) (hrun t' 3 hrest) (by decide))
  have hnet : LearnWork.net { w with found := [x] } = ⟨w.nextNum, [p, x], w.hv, none, []⟩ := by
    have hp : w.rootPt = p := by rw [LearnWork.rootPt, hroot, Option.getD_some]
    show NetBody.mk w.nextNum (sortPoints [w.rootPt, x]) w.hv none [] = _
    rw [hp, sortPoints_pair hpx]
  have hstore : t.store = s.store.putNet ⟨w.nextNum, [p, x], w.hv, none, []⟩ := by
    rw [hlast.store, ← hnet, ← hy.store]
  refine ⟨_, rfl, ?_, fun q => ?_, ?_, ?_, hlast.endedAs, hrecs ▸ hy.dataOf hlast.log⟩
  · rw [hstore]
    exact Store.putNet_nets_last hnum
  · have hget := Store.putNet_owner_fresh (b := ⟨w.nextNum, [p, x], w.hv, none, []⟩) howner q
    unfold State.ownerOf
    rw [hstore, hget]
    by_cases hq : q < 4
    · rw [if_pos hq, if_neg (by omega), if_pos hq]
    · simp [hq]
  · rw [hstore]
    rfl
  · rw [hstore]
    rfl

/-- A resolved point that is OPEN gives LEARN_LEAK and no net. -/
theorem State.confirm_leaks (hopn : snap.limits.opn ≤ rc) (hpass : snap.limits.pass < rc) :
    t.store = s.store ∧ s.EndedAs t j rest 1 0 1 ∧
      t.log.entries.map (·.data) = s.log.entries.map (·.data) ++
        [{ kind := .learnLeak, system := false, flags := { u := j.flagU }, tag := some j.tag
           net := some w.nextNum, pointA := some p, pointB := some x, value := some ⟨.kOhm, some w.gRes⟩
           second := some ⟨.mOhm, some rc⟩, range := some g }] := by
  have hjudged : w.judged x rc snap.limits = w := if_neg (by omega)
  have hrecs : learnRecs j w p x rc snap.limits g = [{
      kind := .learnLeak, system := false, flags := { u := j.flagU }, tag := some j.tag
      net := some w.nextNum, pointA := some p, pointB := some x, value := some ⟨.kOhm, some w.gRes⟩
      second := some ⟨.mOhm, some rc⟩, range := some g }] := (if_neg (by omega)).trans (if_neg (by omega))
  rw [State.afterStep_confirms h hw hd hroot hlist hfound hg hrc, hjudged, hrecs] at ht
  obtain ⟨y, hy, hrun⟩ := State.toRecord_records h (l := l) (w := .learn w) (c := .pop) (n := 0) (x := 0)
    (recs := [{ kind := .learnLeak, system := false, flags := { u := j.flagU }, tag := some j.tag
                net := some w.nextNum, pointA := some p, pointB := some x, value := some ⟨.kOhm, some w.gRes⟩
                second := some ⟨.mOhm, some rc⟩, range := some g }]) le_rfl nofun
  obtain ⟨t', hrest, hlast⟩ := State.moving_pop_nothing h (l := l) (n := 0) (e := 0) (k := 1) (y := y) hstack hfound hpool
  obtain rfl := ht.trans (hlast.run (hy.notWaiting h.waiting) (hrun t' 4 hrest) (by decide))
  exact ⟨hlast.store.trans hy.store, hlast.endedAs, hy.dataOf hlast.log⟩

end

/-! ### The whole-pool test (R99, R100) -/

section
variable {u : State} (hd : w.doing = .whole)
include hd

theorem State.learnJudge_whole {n v i : Nat} {ohms : Option Nat} :
    State.learnJudge w u (.iso n v i ohms) = State.learnIso w u ohms := by
  unfold State.learnJudge
  rw [hd]
  rfl

theorem State.learnIso_isolated {ohms : Option Nat} (hiso : ∀ k, ohms = some k → u.snap.limits.iso ≤ k) :
    State.learnIso w u ohms = u.todo (.learn w.letGo) [] .draw := by
  unfold State.learnIso
  rw [isLeak_false hiso, hd]
  rfl

theorem State.learnIso_leaks {k : Nat} (hleak : k < u.snap.limits.iso) : State.learnIso w u (some k) =
    State.learnSearch { w with gRes := k } u
      (examine (LearnWork.count { w with gRes := k }) ⟨0, w.list.length⟩ []) := by
  unfold State.learnIso
  rw [isLeak_true hleak, hd]
  dsimp only
  rw [if_pos rfl, ← hd]
  rfl

end

section
variable {n v i : Nat} {ohms : Option Nat} {t : State} (ht : t = s.afterStep l (.iso n v i ohms)) (hd : w.doing = .whole)
include h hw ht hd

/-- A pool isolated from its root leaves the root unassigned, and the next one is drawn. -/
theorem State.pool_isolated (hiso : ∀ k, ohms = some k → snap.limits.iso ≤ k) :
    (w.pool = [] → s.EndedAs t j rest 0 0 0 ∧ t.store = s.store ∧ t.log = s.log) ∧
    (∀ q, w.pool = [q] → s.EndedAs t j rest 1 0 0 ∧ t.store = s.store ∧ t.log = s.log) ∧
    ∀ q r more ts n, w.pool = q :: r :: more → ts = (q, .source) :: (r :: more).map (fun x => (x, .ret)) →
      s.sendsTo ts n → t.queue = s.queue ∧ t.store = s.store ∧ t.log = s.log ∧
      s.SentAs t (.learn { w with
        pool := r :: more, root := some q, list := r :: more, found := []
        search := ⟨⟨0, 0⟩, [], ⟨0, 0⟩, .popped⟩ }) ts n ⟨.iso, snap.limits.n, snap.limits.range, snap.limits.settle⟩ 1 0 := by
  have hjudge : (s.atJudge l).learnJudge w (.iso n v i ohms) =
      s.moving l j rest (.learn w.letGo) .draw 0 0 0 s.side := by
    have hsnap : (s.atJudge l).snap = snap := State.snap_of h.jobs h.snapshot
    rw [← State.toRecord_nil h, State.learnJudge_whole hd, State.learnIso_isolated hd (by rw [hsnap]; exact hiso)]
    rfl
  rw [State.afterStep_learn hw, hjudge] at ht
  refine ⟨fun hpool => ?_, fun q hpool => ?_, fun q r more ts p hpool hts hs => ?_⟩
  · obtain ⟨t', hrest, hlast⟩ := State.moving_draw_none h (l := l) (w := w.letGo) (n := 0) (x := 0) (k := 0) (y := s.side) hpool
    obtain rfl := ht.trans (hlast.run h.waiting hrest (by decide))
    exact ⟨hlast.endedAs, hlast.store, hlast.log⟩
  · obtain ⟨t', hrest, hlast⟩ := State.moving_draw_one h (l := l) (w := w.letGo) (n := 0) (x := 0) (k := 0) (y := s.side) hpool
    obtain rfl := ht.trans (hlast.run h.waiting hrest (by decide))
    exact ⟨hlast.endedAs, hlast.store, hlast.log⟩
  · obtain ⟨t', hrest, hout⟩ := State.moving_draw_sends h (l := l) (w := w.letGo) (n := 0) (x := 0) (k := 0) (y := s.side)
      hpool rfl hts hs
    obtain rfl := ht.trans (hout.run h.waiting hrest (by decide))
    refine ⟨hout.sameQueue h, hout.store, hout.log, ?_⟩
    have hsent := hout.sentAs
    rwa [show ({ w.letGo with
        pool := r :: more, root := some q, list := r :: more, found := [], search := Search.empty, doing := .whole } :
        LearnWork) = { w with
        pool := r :: more, root := some q, list := r :: more, found := [], search := ⟨⟨0, 0⟩, [], ⟨0, 0⟩, .popped⟩ }
      from by rw [← hd]; rfl] at hsent

/-- A leak in the pool resolves its one point, or tests the lower half. -/
theorem State.pool_leaks {p k : Nat} (hroot : w.root = some p) (hk : ohms = some k) (hleak : k < snap.limits.iso)
    {ts : List (Nat × Rail)} {q : Nat} (hs : s.sendsTo ts q) :
    (∀ x, w.list = [x] → ts = [(p, .source), (x, .ret)] → t.queue = s.queue ∧ t.store = s.store ∧ t.log = s.log ∧
      s.SentAs t (.learn { w with gRes := k, search := ⟨⟨0, 1⟩, [], ⟨0, 1⟩, .popped⟩, doing := .confirm }) ts q
        ⟨.cont, snap.limits.n, snap.limits.range, snap.limits.settle⟩ 0 0) ∧
    ∀ m, 2 ≤ w.list.length → m = (w.list.length + 1) / 2 →
      ts = (p, .source) :: (w.list.take m).map (fun x => (x, .ret)) → t.queue = s.queue ∧ t.store = s.store ∧
      t.log = s.log ∧ s.SentAs t (.learn { w with
        gRes := k, doing := .group
        search := ⟨⟨0, w.list.length⟩, [⟨m, w.list.length - m⟩], ⟨0, m⟩, .lower⟩ }) ts q
        ⟨.iso, snap.limits.n, snap.limits.range, snap.limits.settle⟩ 0 0 := by
  have hp : w.rootPt = p := by rw [LearnWork.rootPt, hroot, Option.getD_some]
  let w1 : LearnWork := { w with gRes := k }
  have hcount : w1.count ⟨0, w.list.length⟩ = w.list.length := by
    show ((w.list.drop 0).take w.list.length).length = _
    simp
  have hjudge : (s.atJudge l).learnJudge w (.iso n v i ohms) =
      State.learnSearch w1 (s.atJudge l) (examine w1.count ⟨0, w.list.length⟩ []) := by
    have hsnap : (s.atJudge l).snap = snap := State.snap_of h.jobs h.snapshot
    rw [State.learnJudge_whole hd, hk]
    exact State.learnIso_leaks hd (by rw [hsnap]; exact hleak)
  rw [State.afterStep_learn hw, hjudge] at ht
  refine ⟨fun x hlist hts => ?_, fun m h2 hm hts => ?_⟩
  · have hlen : w.list.length = 1 := by rw [hlist]; rfl
    have hexam : examine w1.count ⟨0, w.list.length⟩ [] = .resolve ⟨⟨0, 1⟩, [], ⟨0, 1⟩, .popped⟩ := by
      unfold examine
      rw [hcount, hlen]
      rfl
    obtain ⟨t', ht', hrest, hout⟩ := State.atJudge_sends h (l := l)
      (v := .learn { w1 with search := ⟨⟨0, 1⟩, [], ⟨0, 1⟩, .popped⟩, doing := .confirm })
      ⟨.cont, snap.limits.n, snap.limits.range, snap.limits.settle⟩ hs
    have hsent : State.learnSearch w1 (s.atJudge l) (examine w1.count ⟨0, w.list.length⟩ []) = t' := by
      have hplan : pairPlan w.rootPt (((w.list.drop 0).take 1).headD 0) = ts := by rw [hp, hlist, hts]; rfl
      rw [hexam, ← ht', ← hplan, ← State.atJudge_contReq (l := l) h]
      rfl
    obtain rfl := (hsent ▸ ht).trans (hout.run h.waiting hrest (by decide))
    exact ⟨hout.sameQueue h, hout.store, hout.log, hout.sentAs⟩
  · have hlower : w1.count (Run.lower ⟨0, w.list.length⟩) = m := by
      show ((w.list.drop 0).take ((w.list.length + 1) / 2)).length = m
      simp only [List.drop_zero, List.length_take]
      omega
    have hexam : examine w1.count ⟨0, w.list.length⟩ [] =
        .test ⟨⟨0, w.list.length⟩, [⟨m, w.list.length - m⟩], ⟨0, m⟩, .lower⟩ := by
      unfold examine
      rw [hcount, hlower, if_neg (by omega), if_neg (by omega), if_neg (by omega), Run.lower, Run.upper, ← hm, Nat.zero_add]
    obtain ⟨t', ht', hrest, hout⟩ := State.atJudge_sends h (l := l)
      (v := .learn { w1 with
        search := ⟨⟨0, w.list.length⟩, [⟨m, w.list.length - m⟩], ⟨0, m⟩, .lower⟩, doing := .group })
      ⟨.iso, snap.limits.n, snap.limits.range, snap.limits.settle⟩ hs
    have hsent : State.learnSearch w1 (s.atJudge l) (examine w1.count ⟨0, w.list.length⟩ []) = t' := by
      have hplan : groupPlan [w.rootPt] ((w.list.drop 0).take m) = ts := by rw [hp, hts]; rfl
      rw [hexam, ← ht', ← hplan, ← State.atJudge_isoReq (l := l) h]
      rfl
    obtain rfl := (hsent ▸ ht).trans (hout.run h.waiting hrest (by decide))
    exact ⟨hout.sameQueue h, hout.store, hout.log, hout.sentAs⟩

end

end

end Sys2Proof.Machine
end

section
/-! PROOFS. The isolation search of a CHECK (5.4, 5.5). -/

namespace Sys2Proof.Machine

open Sys2Proof

/-! ### What the search wants next (R86) -/

theorem popNext_over {m : Run → Nat} (g : Run) {st : List Run} (h : ∀ q ∈ st, m q = 0) : popNext m g st = .over := by
  induction st with
  | nil => rfl
  | cons q st ih =>
    rw [popNext, if_pos (h q List.mem_cons_self)]
    exact ih fun r hr => h r (List.mem_cons_of_mem _ hr)

theorem popNext_test {m : Run → Nat} (g : Run) {pre st : List Run} {r : Run} (h : ∀ q ∈ pre, m q = 0) (hr : m r ≠ 0) :
    popNext m g (pre ++ r :: st) = .test ⟨g, st, r, .popped⟩ := by
  induction pre with
  | nil => exact if_neg hr
  | cons q pre ih =>
    rw [List.cons_append, popNext, if_pos (h q List.mem_cons_self)]
    exact ih fun r hr => h r (List.mem_cons_of_mem _ hr)

theorem CheckWork.count_eq_zero {w : CheckWork} {r : Run} (h : w.group r = []) : w.count r = 0 := by
  rw [CheckWork.count, h]
  rfl

theorem CheckWork.count_ne_zero {w : CheckWork} {r : Run} (h : w.group r ≠ []) : w.count r ≠ 0 := by
  rw [CheckWork.count]
  exact mt List.length_eq_zero_iff.1 h

theorem CheckWork.lowest_of {w : CheckWork} {a : Nat} {ms : List Nat} (h : w.members = a :: ms) : w.lowest = a := by
  rw [CheckWork.lowest, h]
  rfl

/-! ### The judgment of an isolation result (R85, R88) -/

section
variable {w : CheckWork} {u : State}

theorem State.checkJudge_iso (hd : w.doing = .whole ∨ w.doing = .group) {n v i : Nat} {ohms : Option Nat} :
    State.checkJudge w u (.iso n v i ohms) = State.checkIso w u ohms := by
  unfold State.checkJudge
  obtain hd | hd := hd <;> rw [hd] <;> rfl

section
variable {ohms : Option Nat} (hiso : ∀ k, ohms = some k → u.snap.limits.iso ≤ k)
include hiso

theorem State.checkIso_isolated (hd : w.doing = .whole) : State.checkIso w u ohms = u.todo (.check w) [] .netDone := by
  unfold State.checkIso
  rw [isLeak_false hiso, hd]
  rfl

theorem State.checkIso_passes (hd : w.doing = .group) :
    State.checkIso w u ohms = State.checkSearch w u (w.search.result w.count false) := by
  unfold State.checkIso
  rw [isLeak_false hiso, hd]
  rfl

end

/-- A leak: the group that has failed is examined. -/
theorem State.checkIso_leaks {k : Nat} (hleak : k < u.snap.limits.iso) {r : Run} {st : List Run}
    (hr : (w.doing = .whole ∧ r = ⟨0, w.cands.length⟩ ∧ st = []) ∨
      (w.doing = .group ∧ r = w.search.testing ∧ st = w.search.stack)) :
    State.checkIso w u (some k) = State.checkSearch { w with gRes := k } u (examine w.count r st) := by
  obtain ⟨hd, rfl, rfl⟩ | ⟨hd, rfl, rfl⟩ := hr
  · unfold State.checkIso
    rw [isLeak_true hleak, hd]
    dsimp only
    rw [if_pos rfl, if_pos rfl, ← hd]
    rfl
  · unfold State.checkIso
    rw [isLeak_true hleak, hd]
    dsimp only
    rw [if_pos rfl, ← hd]
    rfl

end

/-! ### Where the search goes -/

section
variable {s : State} {l : Lmu} {j : Job} {rest : List Job} {snap : Snapshot} (h : Judgeable s j rest snap)
  {w : CheckWork} {n x k : Nat} {y : Side}
include h

/-- A group is tested: the whole net against its members (R88). -/
theorem State.moving_tests {v : Work} {c : Ctl} {q : Search} {ts : List (Nat × Rail)} {p : Nat}
    (hmap : y.store.map = s.store.map)
    (hts : ts = w.members.map (fun p => (p, .source)) ++ (w.group q.testing).map (fun p => (p, .ret)))
    (hs : s.sendsTo ts p) :
    ∃ t, State.checkSearch w (s.moving l j rest v c n x k y) (.test q) = t ∧ t.Rests t 0 ∧
      WentOut s t j rest (.check { w with search := q, doing := .group }) ts p
        ⟨.iso, snap.limits.n, snap.limits.range, snap.limits.settle⟩ n x k y := by
  obtain ⟨t, ht, hrest, hout⟩ := State.moving_sends h (l := l) (w := v) (c := c) (n := n) (x := x) (k := k)
    (v := .check { w with search := q, doing := .group })
    ⟨.iso, snap.limits.n, snap.limits.range, snap.limits.settle⟩ hmap hs
  refine ⟨t, ?_, hrest, hout⟩
  rw [← ht, hts, ← State.moving_isoReq (l := l) (w := v) (c := c) (n := n) (x := x) (k := k) (y := y) h]
  rfl

/-- The one member of a group is confirmed from the lowest member (R89). -/
theorem State.atJudge_confirms {q : Search} {a z p : Nat} {ms : List Nat} {ts : List (Nat × Rail)}
    (hm : w.members = a :: ms) (hz : w.group q.g = [z]) (hts : ts = [(a, .source), (z, .ret)]) (hs : s.sendsTo ts p) :
    ∃ t, State.checkSearch w (s.atJudge l) (.resolve q) = t ∧ t.Rests t 0 ∧
      WentOut s t j rest (.check { w with search := q, doing := .confirm }) ts p
        ⟨.cont, snap.limits.n, snap.limits.range, snap.limits.settle⟩ 0 0 0 s.side := by
  obtain ⟨t, ht, hrest, hout⟩ := State.atJudge_sends h (l := l) (v := .check { w with search := q, doing := .confirm })
    ⟨.cont, snap.limits.n, snap.limits.range, snap.limits.settle⟩ hs
  have hplan : pairPlan w.lowest ((w.group q.g).headD 0) = ts := by rw [CheckWork.lowest_of hm, hz, hts]; rfl
  refine ⟨t, ?_, hrest, hout⟩
  rw [← ht, ← hplan, ← State.atJudge_contReq (l := l) h]
  rfl

/-- No group waits: the last net is done. -/
theorem State.moving_pop_over (hstore : y.store = s.store) (hnone : ∀ q ∈ w.search.stack, w.group q = [])
    (hover : ∀ r ∈ s.store.nets, r.body.num ≤ w.num ∨ w.last < r.body.num) :
    ∃ t, (s.moving l j rest (.check w) .pop n x k y).Rests t 4 ∧ WasLast s t j rest (n + 1) x k y := by
  obtain ⟨t, hrest, hlast⟩ := State.moving_netDone h (l := l) (w := w) (n := n) (x := x) (k := k) hstore hover
  refine ⟨t, State.Rests.move rfl nofun ?_ hrest, hlast⟩
  show State.checkSearch w _ (popNext w.count w.search.g w.search.stack) = _
  rw [popNext_over _ fun q hq => CheckWork.count_eq_zero (hnone q hq)]
  rfl

/-- The next group that waits is tested. -/
theorem State.moving_pop_sends {pre st : List Run} {r : Run} {ts : List (Nat × Rail)} {p : Nat}
    (hmap : y.store.map = s.store.map) (hstack : w.search.stack = pre ++ r :: st) (hpre : ∀ q ∈ pre, w.group q = [])
    (hr : w.group r ≠ []) (hts : ts = w.members.map (fun p => (p, .source)) ++ (w.group r).map (fun p => (p, .ret)))
    (hs : s.sendsTo ts p) :
    ∃ t, (s.moving l j rest (.check w) .pop n x k y).Rests t 1 ∧
      WentOut s t j rest (.check { w with search := ⟨w.search.g, st, r, .popped⟩, doing := .group }) ts p
        ⟨.iso, snap.limits.n, snap.limits.range, snap.limits.settle⟩ n x k y := by
  obtain ⟨t, ht, hrest, hout⟩ := State.moving_tests h (l := l) (w := w) (v := .check w) (c := .pop) (n := n) (x := x) (k := k)
    (q := ⟨w.search.g, st, r, .popped⟩) hmap hts hs
  refine ⟨t, State.Rests.move rfl nofun ?_ hrest, hout⟩
  show State.checkSearch w _ (popNext w.count w.search.g w.search.stack) = t
  rw [hstack, popNext_test _ (fun q hq => CheckWork.count_eq_zero (hpre q hq)) (CheckWork.count_ne_zero hr)]
  exact ht

end

end Sys2Proof.Machine
end

section
/-! PROOFS. The isolation phase of a CHECK, clause by clause (5.4, 5.5). -/

namespace Sys2Proof.Machine

open Sys2Proof

section
variable {s : State} {l : Lmu} {j : Job} {rest : List Job} {snap : Snapshot} (h : Judgeable s j rest snap)
  {w : CheckWork} (hw : s.engine.work = .check w)

/-! ### An isolation test (R85–R88, R91) -/

section
variable {n v i : Nat} {ohms : Option Nat} {t : State} (ht : t = s.afterStep l (.iso n v i ohms))
  (hd : w.doing = .whole ∨ w.doing = .group)
include h hw ht hd

section
variable (hiso : ∀ k, ohms = some k → snap.limits.iso ≤ k)
include hiso

/-- The net is isolated, or no group waits: the last net is done. -/
theorem State.isolated_ends (hover : ∀ r ∈ s.store.nets, r.body.num ≤ w.num ∨ w.last < r.body.num)
    (hlast : w.doing = .whole ∨ (w.search.which = .popped ∧ ∀ q ∈ w.search.stack, w.group q = [])) :
    s.EndedAs t j rest 1 0 0 ∧ t.store = s.store ∧ t.log = s.log := by
  have hlimit : ∀ k, ohms = some k → (s.atJudge l).snap.limits.iso ≤ k := by rw [State.atJudge_snap h]; exact hiso
  have hjudge : State.checkIso w (s.atJudge l) ohms = s.moving l j rest (.check w) .netDone 0 0 0 s.side := by
    rw [← State.toRecord_nil h]
    obtain hd | hd := hd
    · exact State.checkIso_isolated hlimit hd
    · obtain hwhole | ⟨hpop, hnone⟩ := hlast
      · exact absurd (hd.symm.trans hwhole) nofun
      · have hres : w.search.result w.count false = .over := by
          unfold Search.result
          rw [hpop]
          exact popNext_over _ fun q hq => CheckWork.count_eq_zero (hnone q hq)
        rw [State.checkIso_passes hlimit hd, hres]
        rfl
  rw [State.afterStep_check hw, State.checkJudge_iso hd, hjudge] at ht
  obtain ⟨t', hrest, hend⟩ := State.moving_netDone h (l := l) (w := w) (n := 0) (x := 0) (k := 0) (y := s.side) rfl hover
  obtain rfl := ht.trans (hend.run h.waiting hrest (by decide))
  exact ⟨hend.endedAs, hend.store, hend.log⟩

/-- An aggregate SHORT of the group (R91). -/
def aggregateRec (s : State) (j : Job) (w : CheckWork) (a b k : Nat) : RecData :=
  { kind := .short, system := false, flags := { u := j.flagU, a := true }, tag := some j.tag
    net := some w.num, pointA := some a, pointB := some b, otherNet := s.ownerOf b
    value := some ⟨.kOhm, some w.gRes⟩, second := some ⟨.count, some k⟩ }

/-- Two halves that pass give an aggregate, and no group waits: the last net is done. -/
theorem State.aggregate_ends (hg : w.doing = .group)
    (hover : ∀ r ∈ s.store.nets, r.body.num ≤ w.num ∨ w.last < r.body.num) {a f c b : Nat} {ms bs : List Nat}
    (hm : w.members = a :: ms) (hrun : w.search.g = ⟨f, c⟩) (hmem : w.group ⟨f, c⟩ = b :: bs)
    (hlast : (w.search.which = .upper ∧ w.search.stack = []) ∨ (w.search.which = .lower ∧ w.search.stack.drop 1 = [] ∧
      w.group ⟨f + (c + 1) / 2, c - (c + 1) / 2⟩ = [])) :
    s.EndedAs t j rest 1 0 1 ∧ t.store = s.store ∧ t.log.entries.map (·.data) = s.log.entries.map (·.data) ++
      [aggregateRec s j w a b (bs.length + 1)] := by
  have hlimit : ∀ k, ohms = some k → (s.atJudge l).snap.limits.iso ≤ k := by rw [State.atJudge_snap h]; exact hiso
  have hres : ∃ q, w.search.result w.count false = .aggregate q ∧ q.g = ⟨f, c⟩ ∧ q.stack = [] := by
    unfold Search.result
    obtain ⟨hup, hstack⟩ | ⟨hlow, hstack, hnone⟩ := hlast
    · rw [hup]
      exact ⟨w.search, rfl, hrun, hstack⟩
    · rw [hlow]
      refine ⟨⟨w.search.g, w.search.stack.drop 1, w.search.g.upper, .upper⟩, ?_, hrun, hstack⟩
      exact if_pos (CheckWork.count_eq_zero (by rw [hrun]; exact hnone))
  obtain ⟨q, hres, hqg, hqs⟩ := hres
  have hjudge : State.checkIso w (s.atJudge l) ohms =
      s.toRecord l (.check { w with search := q }) [aggregateRec s j w a b (bs.length + 1)] .pop 0 0 := by
    have hrec : State.shortAggregate w (s.atJudge l) q.g = aggregateRec s j w a b (bs.length + 1) := by
      unfold State.shortAggregate
      rw [State.testRec_eq (u := s.atJudge l) h.jobs, State.flagsU_eq (u := s.atJudge l) h.jobs, CheckWork.lowest_of hm,
        CheckWork.count, hqg, hmem]
      rfl
    rw [State.checkIso_passes hlimit hg, hres, ← hrec]
    rfl
  rw [State.afterStep_check hw, State.checkJudge_iso hd, hjudge] at ht
  obtain ⟨y, hy, hgo⟩ := State.toRecord_records h (l := l) (w := .check { w with search := q }) (c := .pop) (n := 0) (x := 0)
    (recs := [aggregateRec s j w a b (bs.length + 1)]) le_rfl nofun
  obtain ⟨t', hrest, hend⟩ := State.moving_pop_over h (l := l) (w := { w with search := q }) (n := 0) (x := 0) (k := 1)
    hy.store (by rw [hqs]; exact fun _ hq => absurd hq List.not_mem_nil) hover
  obtain rfl := ht.trans (hend.run (hy.notWaiting h.waiting) (hgo t' 3 hrest) (by decide))
  exact ⟨hend.endedAs, hend.store.trans hy.store, hy.dataOf hend.log⟩

/-- The group tested next, after one that has passed. -/
theorem State.passed_sends (hg : w.doing = .group) {q : Search} (hres : w.search.result w.count false = .test q)
    {ts : List (Nat × Rail)} {p : Nat}
    (hts : ts = w.members.map (fun p => (p, .source)) ++ (w.group q.testing).map (fun p => (p, .ret)))
    (hs : s.sendsTo ts p) : t.queue = s.queue ∧ t.store = s.store ∧ t.log = s.log ∧
      s.SentAs t (.check { w with search := q }) ts p ⟨.iso, snap.limits.n, snap.limits.range, snap.limits.settle⟩ 0 0 := by
  have hlimit : ∀ k, ohms = some k → (s.atJudge l).snap.limits.iso ≤ k := by rw [State.atJudge_snap h]; exact hiso
  obtain ⟨t', ht', hrest, hout⟩ := State.moving_tests h (l := l) (w := w) (v := s.engine.work) (c := s.engine.ctl) (n := 0)
    (x := 0) (k := 0) (y := s.side) (q := q) rfl hts hs
  rw [State.afterStep_check hw, State.checkJudge_iso hd, State.checkIso_passes hlimit hg, hres, State.atJudge_eq h, ht'] at ht
  obtain rfl := ht.trans (hout.run h.waiting hrest (by decide))
  refine ⟨hout.sameQueue h, hout.store, hout.log, ?_⟩
  have hsent := hout.sentAs
  rwa [show ({ w with search := q, doing := .group } : CheckWork) = { w with search := q } from by rw [← hg]] at hsent

end

section
variable {k p : Nat} {r : Run} {st : List Run} {ts : List (Nat × Rail)} (hk : ohms = some k)
  (hleak : k < snap.limits.iso) (hs : s.sendsTo ts p) (hr : (w.doing = .whole ∧ r = ⟨0, w.cands.length⟩ ∧ st = []) ∨
    (w.doing = .group ∧ r = w.search.testing ∧ st = w.search.stack))
include hk hleak hs hr

/-- A leak of one member gets a confirming step. -/
theorem State.leak_confirms {a x : Nat} {ms : List Nat} (hm : w.members = a :: ms) (hx : w.group r = [x])
    (hts : ts = [(a, .source), (x, .ret)]) : t.queue = s.queue ∧ t.store = s.store ∧ t.log = s.log ∧
      s.SentAs t (.check { w with gRes := k, search := ⟨r, st, r, .popped⟩, doing := .confirm }) ts p
        ⟨.cont, snap.limits.n, snap.limits.range, snap.limits.settle⟩ 0 0 := by
  have hcount : w.count r = 1 := by rw [CheckWork.count, hx]; rfl
  have hexam : examine w.count r st = .resolve ⟨r, st, r, .popped⟩ := by
    unfold examine
    rw [hcount]
    rfl
  obtain ⟨t', ht', hrest, hout⟩ := State.atJudge_confirms h (l := l) (w := { w with gRes := k })
    (q := ⟨r, st, r, .popped⟩) hm hx hts hs
  rw [State.afterStep_check hw, State.checkJudge_iso hd, hk,
    State.checkIso_leaks (by rw [State.atJudge_snap h]; exact hleak) hr, hexam, ht'] at ht
  obtain rfl := ht.trans (hout.run h.waiting hrest (by decide))
  exact ⟨hout.sameQueue h, hout.store, hout.log, hout.sentAs⟩

/-- A leak of more is split. -/
theorem State.leak_splits {lo hi : Run} (h2 : 2 ≤ (w.group r).length) (hlo : lo = ⟨r.first, (r.count + 1) / 2⟩)
    (hhi : hi = ⟨r.first + (r.count + 1) / 2, r.count - (r.count + 1) / 2⟩) (hne : w.group lo ≠ [])
    (hts : ts = w.members.map (fun p => (p, .source)) ++ (w.group lo).map (fun p => (p, .ret))) :
    t.queue = s.queue ∧ t.store = s.store ∧ t.log = s.log ∧
      s.SentAs t (.check { w with gRes := k, search := ⟨r, hi :: st, lo, .lower⟩, doing := .group }) ts p
        ⟨.iso, snap.limits.n, snap.limits.range, snap.limits.settle⟩ 0 0 := by
  have hexam : examine w.count r st = .test ⟨r, hi :: st, lo, .lower⟩ := by
    have hcount : 2 ≤ w.count r := h2
    have hlow : w.count r.lower ≠ 0 := by
      rw [show r.lower = lo from hlo.symm]
      exact CheckWork.count_ne_zero hne
    unfold examine
    rw [if_neg (by omega), if_neg (by omega), if_neg hlow, hlo, hhi]
    rfl
  obtain ⟨t', ht', hrest, hout⟩ := State.moving_tests h (l := l) (w := { w with gRes := k }) (v := s.engine.work)
    (c := s.engine.ctl) (n := 0) (x := 0) (k := 0) (y := s.side) (q := ⟨r, hi :: st, lo, .lower⟩) rfl hts hs
  rw [State.afterStep_check hw, State.checkJudge_iso hd, hk,
    State.checkIso_leaks (by rw [State.atJudge_snap h]; exact hleak) hr, hexam, State.atJudge_eq h, ht'] at ht
  obtain rfl := ht.trans (hout.run h.waiting hrest (by decide))
  exact ⟨hout.sameQueue h, hout.store, hout.log, hout.sentAs⟩

end

end

/-! ### The confirming step (R89, R90) -/

/-- A resolved SHORT. -/
def shortRec (j : Job) (w : CheckWork) (a p : Nat) (other : Option Nat) (c : Bool) (value : Value)
    (range : Option CRange) : RecData :=
  { kind := .short, system := false, flags := { u := j.flagU, c := c }, tag := some j.tag
    net := some w.num, pointA := some a, pointB := some p, otherNet := other, value := some value, range := range }

/-- The value of a resolved SHORT: that of the confirming step, or that of the isolation test. -/
def shortValue (w : CheckWork) (v : Option Nat) : Value :=
  match v with
  | some rc => ⟨.mOhm, some rc⟩
  | none => ⟨.kOhm, some w.gRes⟩

/-- The work once a member `p` of the net `b` is resolved: the other members of `b` are excluded. -/
theorem CheckWork.collapse_eq (w : CheckWork) (p : Nat) (b : NetBody) : w.collapse p b = { w with
    cands := w.cands.map (fun d => if d.pt ∈ b.members ∧ d.pt ≠ p then { d with excluded := true } else d) } := by
  have hf : (fun c : Cand => if b.members.contains c.pt && c.pt != p then { c with excluded := true } else c) =
      (fun d => if d.pt ∈ b.members ∧ d.pt ≠ p then { d with excluded := true } else d) :=
    funext fun d => if_congr (by simp) rfl rfl
  unfold CheckWork.collapse
  rw [hf]

section
variable {r : LmuResult} {v : Option Nat} {g : CRange} (hr : r.contValue = some (v, g)) {a p : Nat} {ms : List Nat}
  {rc : Option Nat} {range : Option CRange} {t : State} (ht : t = s.afterStep l r) (hd : w.doing = .confirm)
  (hm : w.members = a :: ms) (hp : w.group w.search.g = [p]) (hrc : rc = v.map (fun x => x - s.leadOf a - s.leadOf p))
  (hrange : range = if rc.isSome then some g else none)

include hr hd in
theorem State.checkJudge_confirm {u : State} : State.checkJudge w u r = State.checkConfirm w u v g := by
  unfold State.checkJudge
  rw [hd, hr]

include h hm hrange in
theorem State.shortResolved_eq (other : Option Nat) (c : Bool) :
    State.shortResolved w (s.atJudge l) p rc g other c = shortRec j w a p other c (shortValue w rc) range := by
  unfold State.shortResolved
  rw [State.testRec_eq (u := s.atJudge l) h.jobs, State.flagsU_eq (u := s.atJudge l) h.jobs, CheckWork.lowest_of hm, hrange]
  cases rc with
  | none => rfl
  | some x => rfl

include hw hr ht hd hp h

/-- The other net of the member is CORRUPT: the job ends with ABORTED_TABLE and no record. -/
theorem State.confirm_corrupt {m : Nat} {x : NetRec} (hown : s.ownerOf p = some m) (hfind : s.findNet m = some x)
    (hx : x.corrupt = true) : t.store = s.store ∧ t.log = s.log ∧ t.hv = s.hv ∧ t.engine = Engine.reset ∧
      t.lmu.phase = .idle ∧ (∃ touched, t.matrix.slot = .sending ⟨⟨.allOpen, .jobEnd⟩, []⟩ 0 touched) ∧
      t.queue.jobs = { j with
        state := .ending, ended := some ⟨.abortedTable, .net m⟩, steps := s.engine.steps + 1
        nets := s.engine.nets, extra := s.engine.extra } :: rest := by
  have hres : w.resolved = p := by rw [CheckWork.resolved, hp]; rfl
  obtain rfl := State.findNet_num hfind
  have hread : (s.atJudge l).jobRead x.body.num = (s.atJudge l, none) := by
    unfold State.jobRead
    rw [State.readNetFor_corrupt (s := s.atJudge l) hfind hx]
  have hjudge : State.checkConfirm w (s.atJudge l) v g = (s.atJudge l).endJob (tableAbort x.body.num) := by
    unfold State.checkConfirm
    rw [hres]
    dsimp only
    rw [show (s.atJudge l).ownerOf p = some x.body.num from hown]
    dsimp only
    rw [hread]
  have hend := State.endJob_ended (u := s.atJudge l) h.jobs (tableAbort x.body.num) h.slot h.rail h.exchange
  rw [State.afterStep_check hw, State.checkJudge_confirm hr hd, hjudge, hend.rests.runEngine (by decide),
    State.dispatch_idle _ (by rw [hend.host]; exact h.waiting)] at ht
  subst ht
  exact ⟨hend.store, hend.log, hend.hv, hend.engine, hend.lmu, hend.slot, hend.jobs⟩

include hm hrc hrange

/-- A member in no net, or in one that is sound: its SHORT, and the search goes on. -/
theorem State.confirm_records {other : Option Nat} {c : Bool} {w1 : CheckWork}
    (hother : (other = none ∧ s.ownerOf p = none ∧ c = false ∧ w1 = w) ∨
      (∃ m b, other = some m ∧ s.ownerOf p = some m ∧ s.findNet m = some ⟨b, crc16 b.bytes, false⟩ ∧
        c = decide (2 ≤ b.members.length) ∧ w1 = { w with
          cands := w.cands.map (fun d =>
            if d.pt ∈ b.members ∧ d.pt ≠ p then { d with excluded := true } else d) })) :
    ((∀ r ∈ s.store.nets, r.body.num ≤ w.num ∨ w.last < r.body.num) → (∀ q ∈ w.search.stack, w1.group q = []) →
      s.EndedAs t j rest 1 0 1 ∧ t.store = s.store ∧ t.log.entries.map (·.data) =
        s.log.entries.map (·.data) ++ [shortRec j w a p other c (shortValue w rc) range]) ∧
    ∀ pre r st ts n, w.search.stack = pre ++ r :: st → (∀ q ∈ pre, w1.group q = []) → w1.group r ≠ [] →
      ts = w.members.map (fun p => (p, .source)) ++ (w1.group r).map (fun p => (p, .ret)) →
      s.sendsTo ts n → t.store = s.store ∧ t.log.entries.map (·.data) =
        s.log.entries.map (·.data) ++ [shortRec j w a p other c (shortValue w rc) range] ∧
      t.queue = { s.queue with jobs := { j with tests := j.tests + 1 } :: rest } ∧
      s.SentAs t (.check { w1 with search := ⟨w.search.g, st, r, .popped⟩, doing := .group }) ts n
        ⟨.iso, snap.limits.n, snap.limits.range, snap.limits.settle⟩ 0 0 := by
  have hres : w.resolved = p := by rw [CheckWork.resolved, hp]; rfl
  have hcomp : (s.atJudge l).comp v w.lowest p = rc := by
    rw [CheckWork.lowest_of hm, hrc]
    rfl
  have hsame : w1.search = w.search ∧ w1.members = w.members ∧ w1.num = w.num ∧ w1.last = w.last := by
    obtain ⟨-, -, -, rfl⟩ | ⟨m, b, -, -, -, -, rfl⟩ := hother <;> exact ⟨rfl, rfl, rfl, rfl⟩
  obtain ⟨hsearch, hmembers, hnum, hlast⟩ := hsame
  have hjudge : State.checkConfirm w (s.atJudge l) v g =
      s.toRecord l (.check w1) [shortRec j w a p other c (shortValue w rc) range] .pop 0 0 := by
    unfold State.checkConfirm
    rw [hres]
    dsimp only
    rw [hcomp]
    obtain ⟨rfl, hown, rfl, rfl⟩ | ⟨m, b, rfl, hown, hfind, rfl, rfl⟩ := hother
    · rw [show (s.atJudge l).ownerOf p = none from hown]
      dsimp only
      rw [State.shortResolved_eq h hm hrange]
      rfl
    · have hread : (s.atJudge l).jobRead m = (s.atJudge l, some b) := by
        have hnum : b.num = m := State.findNet_num hfind
        have hsound := State.readNetFor_sound (s := s.atJudge l) (c := .run) (r := ⟨b, crc16 b.bytes, false⟩)
          (by rw [← hnum] at hfind; exact hfind) rfl rfl
        unfold State.jobRead
        rw [← hnum, hsound]
      rw [show (s.atJudge l).ownerOf p = some m from hown]
      dsimp only
      rw [hread]
      dsimp only
      rw [State.shortResolved_eq h hm hrange, CheckWork.collapse_eq]
      rfl
  rw [State.afterStep_check hw, State.checkJudge_confirm hr hd, hjudge] at ht
  obtain ⟨y, hy, hgo⟩ := State.toRecord_records h (l := l) (w := .check w1) (c := .pop) (n := 0) (x := 0)
    (recs := [shortRec j w a p other c (shortValue w rc) range]) le_rfl nofun
  refine ⟨fun hover hnone => ?_, fun pre q st ts n hstack hpre hq hts hs => ?_⟩
  · obtain ⟨t', hrest, hend⟩ := State.moving_pop_over h (l := l) (w := w1) (n := 0) (x := 0) (k := 1) hy.store
      (by rw [hsearch]; exact hnone) (by rw [hnum, hlast]; exact hover)
    obtain rfl := ht.trans (hend.run (hy.notWaiting h.waiting) (hgo t' 3 hrest) (by decide))
    exact ⟨hend.endedAs, hend.store.trans hy.store, hy.dataOf hend.log⟩
  · obtain ⟨t', hrest, hout⟩ := State.moving_pop_sends h (l := l) (w := w1) (n := 0) (x := 0) (k := 1)
      (by rw [hy.store]) (by rw [hsearch]; exact hstack) hpre hq (by rw [hmembers]; exact hts) hs
    obtain rfl := ht.trans (hout.run (hy.notWaiting h.waiting) (hgo t' 0 hrest) (by decide))
    refine ⟨hout.store.trans hy.store, hy.dataOf hout.log, hout.queue, ?_⟩
    have hsent := hout.sentAs
    rwa [hsearch] at hsent

end

end

end Sys2Proof.Machine
end

section
/-! PROOFS. The end of a low-voltage step: a record that waits for the log (5.6), and O55. -/

namespace Sys2Proof.Machine

open Sys2Proof

/-! ### A record that waits (R93, R159) -/

/-- The record of the judgment is refused: it waits, and so does the job. -/
def State.StalledAs (s t : State) (j : Job) (rest : List Job) (w : Work) (c : Ctl) (rec : RecData) : Prop :=
  t.log = s.log ∧ t.queue = { s.queue with jobs := { j with state := .logWait } :: rest } ∧
    t.engine = { s.engine with
      work := w, phase := .between, ctl := c, pendingRec := some rec, toAppend := [], steps := s.engine.steps + 1 } ∧
    t.events.pending.getLsbD 5 = true ∧ t.lmu.phase = .idle ∧ t.matrix = s.matrix ∧ t.link = s.link ∧
    t.hv = s.hv ∧ t.store = s.store

section
variable {s : State} {l : Lmu} {j : Job} {rest : List Job} (hj : s.queue.jobs = j :: rest)
  (hfull : 256 < s.log.entries.length + 9) (hrep : s.log.reporting = true) (hp : s.printer.state ≠ .idle)
  (hwait : ∀ r ∈ s.host.slots, r.phase ≠ .waiting) (hl : l.phase = .idle)
include hj hfull hrep hp hwait hl

theorem State.toRecord_stalls (w : Work) (d : RecData) (c : Ctl) :
    s.StalledAs (s.toRecord l w [d] c 0 0).runEngine.dispatch j rest w c d ∧
      (s.toRecord l w [d] c 0 0).runEngine.dispatch.reference = s.reference := by
  let v := s.toRecord l w [d] c 0 0
  have hq := Quiet.raise v .logStall
  have happ : v.appendTest true d = (v.raise .logStall, false) := by
    unfold State.appendTest
    rw [State.offerTest_refused (s := v) (State.marks_of_reporting hrep) hfull]
    exact congrArg (fun u => (u, false)) (State.printIdle_busy (by rw [if_pos rfl, v.raise_printer]; exact hp))
  let u : State := { v.raise .logStall with
    engine := { (v.raise .logStall).engine with pendingRec := some d, toAppend := [] } }
  have hdrain : State.drain [d] v = (u.setJobState .logWait, false) := by
    unfold State.drain
    rw [happ]
  have hrun : v.runEngine = u.setJobState .logWait := by
    show State.engineLoop (8191 + 1) v = _
    rw [State.engineLoop, show v.engine.toAppend = [d] from rfl, hdrain]
  have hset : u.setJobState .logWait = { u with queue := { u.queue with jobs := { j with state := .logWait } :: rest } } :=
    State.setJobState_eq (hq.queue ▸ hj) _
  have hidle : (u.setJobState .logWait).dispatch = u.setJobState .logWait :=
    State.dispatch_idle _ (by rw [hset]; exact hq.notWaiting hwait)
  rw [hrun, hidle, hset]
  refine ⟨⟨v.raise_log _, ?_, ?_, State.raise_isPending v .logStall, ?_, hq.matrix, hq.link, hq.hv, v.raise_store _⟩,
    hq.reference⟩
  · show ({ (v.raise .logStall).queue with jobs := _ } : Queue) = _
    rw [hq.queue]
    rfl
  · show ({ (v.raise .logStall).engine with pendingRec := some d, toAppend := [] } : Engine) = _
    rw [hq.engine]
    rfl
  · show (v.raise .logStall).lmu.phase = .idle
    rw [hq.lmu]
    exact hl

end

/-! ### The conversion that ends the step -/

/-- The mean of a measurement's codes, and the resistance it gives. -/
def Lmu.meanWith (l : Lmu) (c : Nat) : Nat := meanOf (l.codeSum + c) l.n
def Lmu.rawWith (l : Lmu) (c : Nat) : Nat := rawResistance (l.meanWith c) l.range

/-- The means of a measurement's voltages and currents. -/
def Lmu.vWith (l : Lmu) (v : Nat) : Nat := meanOf (l.vSum + min v 10000) l.n
def Lmu.iWith (l : Lmu) (i : Nat) : Nat := meanOf (l.iSum + min i 10000000) l.n

theorem CRange.divisor_eq (g : CRange) : g.divisor = match g with
    | .r100 => 10000
    | .r10 => 1000
    | .r1 => 100 := by cases g <;> rfl

section
variable {s : State} (hphase : s.lmu.phase = .sample) (hissuer : s.lmu.issuer = .engine) (hn : s.lmu.n = s.lmu.count + 1)
  (hstep : s.engine.phase = .measure)
include hphase hissuer hn hstep

theorem exec_contConversion_ends {code : Word16} (hmode : s.lmu.mode = .cont) (hc : code.toNat ≠ 65535) :
    ∃ l : Lmu, l.phase = .idle ∧ exec (.contConversion code) s = .next (s.afterStep l (.cont s.lmu.range
      s.lmu.rangeSteps s.lmu.n (s.lmu.meanWith code.toNat) (s.lmu.rawWith code.toNat))) := by
  refine ⟨_, ?_, (exec_contConversion hphase hmode).trans (congrArg (fun u : State => Host.Outcome.next u.dispatch)
    (State.lmuAfter_engine (Lmu.contCode_last hc hn) hissuer hstep))⟩
  rfl

/-- A code that ends the measurement, OVER at 1 mA among them. -/
theorem exec_contConversion_result {code : Word16} (hmode : s.lmu.mode = .cont)
    (hc : code.toNat ≠ 65535 ∨ s.lmu.range = .r1) : ∃ (l : Lmu) (r : LmuResult), l.phase = .idle ∧
      r.contValue = some (if code.toNat = 65535 then none else some (s.lmu.rawWith code.toNat), s.lmu.range) ∧
      exec (.contConversion code) s = .next (s.afterStep l r) := by
  by_cases hover : code.toNat = 65535
  · have hr1 := hc.resolve_left (not_not.2 hover)
    refine ⟨_, _, ?_, ?_, (exec_contConversion hphase hmode).trans (congrArg (fun u : State => Host.Outcome.next u.dispatch)
      (State.lmuAfter_engine (Lmu.contCode_over hover hr1) hissuer hstep))⟩
    · rfl
    · rw [if_pos hover, hr1]
      rfl
  · obtain ⟨l, hl, hexec⟩ := exec_contConversion_ends hphase hissuer hn hstep hmode hover
    exact ⟨l, _, hl, by rw [if_neg hover]; rfl, hexec⟩

theorem exec_isoConversion_ends {v i : Nat} (hmode : s.lmu.mode = .iso) : ∃ l : Lmu, l.phase = .idle ∧
    exec (.isoConversion v i) s = .next (s.afterStep l (.iso s.lmu.n (s.lmu.vWith v) (s.lmu.iWith i)
      (if s.lmu.iWith i = 0 then none else some ((s.lmu.vWith v * 1000 + s.lmu.iWith i / 2) / s.lmu.iWith i)))) := by
  have hlast := Lmu.isoPair_last (v := v) (i := i) hn
  have hres : isoResistance (s.lmu.vWith v) (s.lmu.iWith i) =
      if s.lmu.iWith i = 0 then none else some ((s.lmu.vWith v * 1000 + s.lmu.iWith i / 2) / s.lmu.iWith i) := by
    by_cases h0 : s.lmu.iWith i = 0
    · rw [if_pos h0, h0]
      rfl
    · rw [if_neg h0]
      exact isoResistance_of_pos _ (Nat.pos_of_ne_zero h0)
  rw [← hres]
  refine ⟨_, ?_, (exec_isoConversion hphase hmode).trans (congrArg (fun u : State => Host.Outcome.next u.dispatch)
    (State.lmuAfter_engine hlast hissuer hstep))⟩
  rfl

end

theorem lvWindow_ite (c raw : Nat) : lvWindow (if c = 65535 then none else some raw) =
    decide (c ≠ 65535 ∧ 1960 ≤ raw ∧ raw ≤ 2040) := by
  by_cases hc : c = 65535
  · rw [if_pos hc, decide_eq_false (fun h => h.1 hc)]
    rfl
  · rw [if_neg hc, lvWindow, Bool.decide_and, Bool.decide_and, decide_eq_true hc, Bool.true_and]

end Sys2Proof.Machine
end

section
/-! PROOFS. O55: what the end of a low-voltage step leads to, for each engine. -/

namespace Sys2Proof.Machine

open Sys2Proof

/-- Settles O55: the record that waits, then each kind of job by the judgment of its step. -/
theorem checkJudgesAPairByItsBand : Obligations.CheckJudgesAPairByItsBand := by
  refine ⟨fun j rest snap code s hphase hissuer hn hstep happ hj hsn hfull hrep hp hwait hmode hc => ?_,
    fun j rest snap s hphase hissuer hn hstep happ hj hsn hroom hrep hp hslot hrail hx hwait => ?_⟩
  · obtain ⟨l, hl, hexec⟩ := exec_contConversion_ends hphase hissuer hn hstep hmode hc
    refine ⟨s.lmu.meanWith code.toNat, s.lmu.range.divisor, s.lmu.rawWith code.toNat, _, s.StalledAs _ j rest, rfl,
      s.lmu.range.divisor_eq, rfl, hexec, fun w c rec => Iff.rfl, fun w a b rc hw hd ha hb hrc hpass hopn => ?_,
      fun hw hout => ?_⟩
    · have hjudge : ((s.atJudge l).checkPair w (some (s.lmu.rawWith code.toNat)) s.lmu.range) =
          s.toRecord l (.check { w with next := w.next + 1 }) [pairRec j .high w.num a b rc s.lmu.range] .sweep 0 0 := by
        rw [State.atJudge_checkPair hj hsn _ ha hb hrc, highRecs, if_pos ⟨hpass, hopn⟩, CheckWork.judgedPair,
          if_pos (.inr hopn), List.append_nil]
      rw [State.afterStep_pair hw hd, hjudge]
      exact (State.toRecord_stalls hj hfull hrep hp hwait hl _ _ _).symm
    · have hwin : lvWindow (some (s.lmu.rawWith code.toNat)) = false := by
        rw [lvWindow, ← Bool.decide_and]
        exact decide_eq_false (by omega)
      have hjudge := State.atJudge_refLv (l := l) hj (r := .cont s.lmu.range s.lmu.rangeSteps s.lmu.n
        (s.lmu.meanWith code.toNat) (s.lmu.rawWith code.toNat)) rfl
      rw [refLvRecs, hwin, if_neg Bool.false_ne_true] at hjudge
      rw [State.afterStep_refLv hw, hjudge]
      obtain ⟨hstall, href⟩ := State.toRecord_stalls (s := s.refLvState (some (s.lmu.rawWith code.toNat))) hj hfull hrep hp
        hwait hl (.refHv false) _ .toRefHv
      refine ⟨href.trans ?_, hstall⟩
      exact if_neg (by rw [hwin]; exact Bool.false_ne_true)
  · have h : Judgeable s j rest snap := ⟨happ, hj, hsn, hroom, hrep, hp, hslot, hrail, hx, hwait⟩
    refine ⟨_, _, _, fun t n x k => s.EndedAs t j rest n x k, s.SentAs, rfl, rfl, rfl, fun t n x k => Iff.rfl,
      fun t w ts p m n x => Iff.rfl, fun code hmode hw hc => ?_, fun code hmode hc => ?_,
      fun v i w p hmode hw hd hroot => ?_, CheckWork.group, fun w r => rfl, fun v i w hmode hw hd => ?_,
      fun code w a p ms hmode hc hw hd hm hmem => ?_⟩
    · obtain ⟨l, r, hl, hr, hexec⟩ := exec_contConversion_result hphase hissuer hn hstep hmode hc
      exact ⟨s.lmu.meanWith code.toNat, s.lmu.range.divisor, s.lmu.rawWith code.toNat, _, _, _, _, rfl,
        s.lmu.range.divisor_eq, rfl, rfl, lvWindow_ite _ _, rfl, hexec,
        fun ts v hts hv hplan => State.refLv_goesOn h hw hr rfl hts hv hplan⟩
    · obtain ⟨l, hl, hexec⟩ := exec_contConversion_ends hphase hissuer hn hstep hmode hc
      refine ⟨s.lmu.meanWith code.toNat, s.lmu.range.divisor, s.lmu.rawWith code.toNat, _, rfl, s.lmu.range.divisor_eq,
        rfl, hexec, fun w a b rc hw hd hm h0 h1 ho hrc => ?_, fun w a b c rc ts n hw hd ha hb hc hrc hts hs => ?_,
        fun w a b c o rc ts n hw hd hm h0 h2 ho hrc hp hopn hts hs => ?_,
        fun w p x rc hw hd hroot hpool hlist hfound hg hstack hpt hpx hnum hroom howner hrc => ?_,
        fun w k lead q more ts n hw hl hlead h4 hwf hpts hq hts hs => ?_,
        fun w lc q lead hw hl hdrop hlead h4 hwf => ?_⟩
      · obtain ⟨hends, hsends⟩ := State.pair_endsNet h hw hd rfl hm h0 h1 ho hrc rfl
        refine ⟨_, _, rfl, rfl, fun hover hno => ?_, hsends⟩
        exact hends hover hno
      · exact State.pair_goesOn h hw hd rfl ha hb hc hrc hts hs
      · exact State.pair_detaches h hw hd rfl hm h0 h2 ho hrc hp hopn hts hs
      · exact ⟨State.confirm_stores h hw rfl hd hroot hpool hlist hfound hg hstack hrc hpt hpx hnum hroom howner,
          State.confirm_leaks h hw rfl hd hroot hpool hlist hfound hg hstack hrc⟩
      · exact State.leads_begin h hw rfl hl hlead h4 hwf hpts hq hts hs
      · exact State.leads_end h hw rfl hl hdrop hlead h4 hwf
    · obtain ⟨l, hl, hexec⟩ := exec_isoConversion_ends hphase hissuer hn hstep (v := v) (i := i) hmode
      refine ⟨s.lmu.vWith v, s.lmu.iWith i, _, _, rfl, rfl, rfl, hexec, State.pool_isolated h hw rfl hd,
        fun k ts n hk hleak hs => State.pool_leaks h hw rfl hd hroot hk hleak hs⟩
    · obtain ⟨l, hl, hexec⟩ := exec_isoConversion_ends hphase hissuer hn hstep (v := v) (i := i) hmode
      refine ⟨s.lmu.vWith v, s.lmu.iWith i, _, _, _, rfl, rfl, rfl, rfl, hexec, fun hiso => ⟨fun hover =>
        ⟨State.isolated_ends h hw rfl hd hiso hover, fun a ms f c b bs hg hm hrun hmem hlast => ?_⟩,
        fun r ts n hg hne hts hs => ⟨fun f c low st hsearch hr => ?_, fun pre st hpop hstack hpre => ?_⟩⟩,
        fun k r st ts n hk hleak hs hr => ⟨fun a ms x hm hx hts => ?_, fun lo hi h2 hlo hhi hne hts => ?_⟩⟩
      · exact State.aggregate_ends h hw rfl hd hiso hg hover hm hrun hmem hlast
      · have hres : w.search.result w.count false = .test ⟨⟨f, c⟩, st, r, .upper⟩ := by
          rw [hsearch, hr]
          exact if_neg (by rw [hr] at hne; exact CheckWork.count_ne_zero hne)
        exact State.passed_sends h hw rfl hd hiso hg hres hts hs
      · have hres : w.search.result w.count false = .test ⟨w.search.g, st, r, .popped⟩ := by
          unfold Search.result
          rw [hpop, hstack]
          exact popNext_test _ (fun q hq => CheckWork.count_eq_zero (hpre q hq)) (CheckWork.count_ne_zero hne)
        exact State.passed_sends h hw rfl hd hiso hg hres hts hs
      · exact State.leak_confirms h hw rfl hd hk hleak hs hr hm hx hts
      · exact State.leak_splits h hw rfl hd hk hleak hs hr h2 hlo hhi hne hts
    · obtain ⟨l, r, hl, hr, hexec⟩ := exec_contConversion_result hphase hissuer hn hstep hmode hc
      let rc := (if code.toNat = 65535 then none else some (s.lmu.rawWith code.toNat)).map
        (fun x => x - s.leadOf a - s.leadOf p)
      refine ⟨s.lmu.meanWith code.toNat, s.lmu.range.divisor, shortValue w rc, if rc.isSome then some s.lmu.range else none,
        _, rfl, s.lmu.range.divisor_eq, fun hne => ?_, fun heq => ?_, hexec,
        fun m x hown hfind hx => State.confirm_corrupt h hw hr rfl hd hmem hown hfind hx,
        fun other c w1 hother => ⟨shortRec j w a p other c (shortValue w rc) _, rfl,
          State.confirm_records h hw hr rfl hd hm hmem rfl rfl hother⟩⟩
      · simp only [rc, if_neg hne]
        exact ⟨rfl, rfl⟩
      · simp only [rc, if_pos heq]
        exact ⟨rfl, rfl⟩

end Sys2Proof.Machine
end
